-- ==== Sys2Proof/Word.lean ====
section
/-! DEFINITION. The word types of the ZL816. Formats (11): a character carries a byte, a window word has 32 bits. -/

namespace Sys2Proof

/-- One byte: a character's data, a tag, a generation. -/
abbrev Byte := BitVec 8

/-- Two bytes: wait ticks, a term, a domain mask. -/
abbrev Half := BitVec 16

/-- A word of the management window, a key, a lease-clock value, an arrival. -/
abbrev Word := BitVec 32

/-- A fence: the 48-bit number of a grant (R48). -/
abbrev Fence := BitVec 48

end Sys2Proof
end

