-- ==== Sys2Proof/Syntax.lean ====
section
/-! DEFINITION. The commands of the ZL816: one constructor per row of spec/opcode_table.json, each one happening that is
taken whole. A client request is named by its link alone, because the take hands over the oldest message of that link's
receive queue (R143, log 4); an administrative command has no operand, because the Admin Engine holds the command word and
the parameters it copied (R153). -/

namespace Sys2Proof

/-- A client number, which is also its link's number (0 to 7). -/
abbrev Client := Fin 8

/-- The two faults of form of R138. -/
inductive FramingFault where
  /-- a character whose first stop bit was decided 0 (R135) -/
  | broken
  /-- the second character of a message, a length below 2 or above 20 -/
  | length (b : Byte)
deriving DecidableEq, Repr

/-- The two events of the fence-counter latch (R180). -/
inductive LatchEvent where
  /-- the port takes word 0x0412 in a READ -/
  | readHigh
  /-- chip select rises -/
  | selectRises
deriving DecidableEq, Repr

/-- The commands, one per row of the table. -/
inductive Instr where
  | powerOnReset
  | attach (l : Client)
  | detach (l : Client)
  | ping (l : Client)
  | acquire (l : Client)
  | convert (l : Client)
  | renew (l : Client)
  | release (l : Client)
  | cancel (l : Client)
  | query (l : Client)
  | validate (l : Client)
  | malformedRequest (l : Client)
  | tick
  | dueLeaseEntry
  | dueGraceEntry
  | dueWaitEntry
  | dueIdleRecordEntry
  | purgeWaitStep
  | purgeHoldStep
  | messageComplete (l : Client) (b : Byte)
  | framing (l : Client) (f : FramingFault)
  | truncated (l : Client) (b : Byte)
  | gapLimit (l : Client)
  | stray (l : Client) (b : Byte)
  | messageSent (l : Client)
  | linkDisable (l : Client)
  | linkEnable (l : Client)
  | settingWrite (a : Half) (v : Word)
  | flagsWrite (v : Word)
  | enablesWrite (v : Word)
  | fenceCounterLatch (e : LatchEvent)
  | installRecord
  | unpinRecord
  | removeRecord
  | removeDomain
  | domainWalkStep
  | revokeHold
  | cancelWait
  | findRecord
  | readRecord
  | readHold
  | readWait
  | setClientState
  | snapshotCounters
  | clearAll
  | setHashSeed
  | characterReceived (l : Client) (b : Byte) (mark : Bool)
deriving DecidableEq, Repr

end Sys2Proof
end

