-- ==== Sys2Proof/Decode.lean ====
section
/-! DEFINITION. The command that a word spells by the table's bits. spec/opcode_table.json gives bits to no row (every
"fields" list is empty and no row has "fixed"), so no word spells a command (log 12). How the bytes of a client message and
of a mailbox command are read is in Machine/Operands.lean; how an SPI transaction is read is in Machine/Spi.lean. -/

namespace Sys2Proof

/-- No row of the table has bits: every word is refused. -/
def decodeTableWord (_nbits _w : Nat) : Option Instr := none

end Sys2Proof
end

