-- ==== Sys2Proof/Config.lean ====
section
/-! DEFINITION. What the spec leaves open in a value that software can read, as constants without a body, and the fixed
sizes of the part's queues. -/

namespace Sys2Proof

/-- FREE VALUE (log 6, DESIGN CHOICE). The bits of a status word or of a result word that Formats (11) gives a field but no value
in the state at hand: the walk's slot index while the walk is idle (word 0x0418), the command in progress while IDLE and the closing
domain while not WALKING (word 0x0419), the idle deadline that READ RECORD finds absent (W3, word 0x0609) and the conversion handle
that READ HOLD finds absent (W5, word 0x060B). A function of the word's address and of the lease clock at the read, or at the
command's completion; nothing constrains it. -/
opaque Config.unstatedBits : (address : BitVec 16) → (clock : Word) → Word

/-- R142: the receive queue holds at most 4 messages. -/
def Config.receiveDepth : Nat := 4

/-- R114: the notice queue holds at most 32 notices. -/
def Config.noticeDepth : Nat := 32

/-- R16, R58: half of the lease clock's range, the reach of the wrap-aware order. -/
def Config.halfRange : Nat := 2147483648

/-- R48: the last fence the counter issues, 2⁴⁸ − 1. -/
def Config.lastFence : Fence := BitVec.allOnes 48

end Sys2Proof
end

