-- ==== Sys2Proof/Machine/State.lean ====
section
/-! DEFINITION. The state of the ZL816: every piece of state the spec gives the part, block by block, and its value after
power-on reset (R22, R30, R48, R33, R50, R51, R53, R56, R71, R73, R148, R168, R169, R172 to R175). Plain data. -/

namespace Sys2Proof.Machine

/-! ### Indices -/

/-- A record slot, 0 to 1023 (R4). -/
abbrev Slot := Fin 1024

/-- A hold slot, 0 to 255 (R27). -/
abbrev HoldIx := Fin 256

/-- A wait slot, 0 to 127 (R28). -/
abbrev WaitIx := Fin 128

/-! ### The Resource Table, the Hold Pool and the Wait Pool -/

/-- The mode of a hold or of a request. -/
inductive Mode where
  | shared
  | exclusive
deriving DecidableEq, Repr

/-- The mode of a record, worked out from its holder list (R7). -/
inductive RecordMode where
  | free
  | shared
  | exclusive
deriving DecidableEq, Repr

/-- R11, R12: how a record came into being and how it leaves. -/
inductive Kind where
  | dynamic
  | pinned
deriving DecidableEq, Repr

/-- R25: a hold slot index with a generation. -/
structure HoldHandle where
  index : HoldIx
  generation : Byte
deriving DecidableEq, Repr

/-- R25: a wait slot index with a generation. -/
structure WaitHandle where
  index : WaitIx
  generation : Byte
deriving DecidableEq, Repr

/-- R6: the fields of a record in use. Its domain is the top four bits of the key; its mode is worked out (R7). -/
structure Record where
  key : Word
  kind : Kind
  shareable : Bool
  holderCap : Nat
  maxTerm : Half
  holders : List HoldIx
  waitQueue : List WaitIx
  lastFence : Fence
  idleDeadline : Option Word
deriving DecidableEq, Repr

/-- R24: a hold in use is ACTIVE or LAPSED. -/
inductive HoldState where
  | active
  | lapsed
deriving DecidableEq, Repr

/-- R24: the fields of a hold slot in use, other than its generation. -/
structure Hold where
  state : HoldState
  client : Client
  slot : Slot
  mode : Mode
  fence : Fence
  deadline : Word
  conversion : Option WaitHandle
deriving DecidableEq, Repr

/-- R24: a hold slot. FREE is `occupant = none`; of a FREE slot only the generation has meaning. -/
structure HoldSlot where
  generation : Byte
  occupant : Option Hold
deriving DecidableEq, Repr

/-- R26: a queued ACQUIRE, or a queued upgrade of the named hold. -/
inductive Purpose where
  | new
  | conversion (h : HoldHandle)
deriving DecidableEq, Repr

/-- R26: the fields of a wait slot in use, other than its generation. -/
structure Wait where
  client : Client
  slot : Slot
  purpose : Purpose
  mode : Mode
  priority : BitVec 2
  arrival : Word
  deadline : Word
  term : Half
  requestTag : Byte
deriving DecidableEq, Repr

/-- R26: a wait slot. FREE is `occupant = none`. -/
structure WaitSlot where
  generation : Byte
  occupant : Option Wait
deriving DecidableEq, Repr

/-- R27: the three counts the Hold Pool keeps. -/
structure HoldCounts where
  free : Nat
  reserved : Nat
  inUse : Nat
deriving DecidableEq, Repr

/-- R48: the next fence to issue, and whether the last one has been issued. -/
structure FenceCounter where
  next : Fence
  exhausted : Bool
deriving DecidableEq, Repr

/-! ### The Deadline List and the Lease Timer -/

/-- R56: what an entry of the Deadline List refers to. -/
inductive DeadlineRef where
  | hold (i : HoldIx)
  | wait (w : WaitIx)
  | record (r : Slot)
deriving DecidableEq, Repr

/-- R56, R58: an entry with its deadline and its mark for taking. -/
structure DeadlineEntry where
  ref : DeadlineRef
  deadline : Word
  marked : Bool
deriving DecidableEq, Repr

/-- R50 to R52: the lease clock, the period in progress and the pending tick period, both in units of 10 µs. -/
structure LeaseTimer where
  clock : Word
  period : BitVec 14
  pendingPeriod : BitVec 14
deriving DecidableEq, Repr

/-- The device settings: R53, R18, R31, R174. -/
structure DeviceSettings where
  minTerm : Half
  maxTerm : Half
  graceTerm : Byte
  idleAge : Half
  urgencyMap : Vector (BitVec 2) 8
  holdLowMark : Byte
  waitLowMark : BitVec 7
deriving DecidableEq, Repr

/-! ### The Session Table -/

/-- R74: the five states of a client. -/
inductive ClientState where
  | detached
  | active
  | queryOnly
  | purging
  | barred
deriving DecidableEq, Repr

/-- R72: the state a purging client takes when its purge ends. -/
inductive AfterPurge where
  | active
  | detached
  | barred
deriving DecidableEq, Repr

/-- R72: a deferred request is an ATTACH or a DETACH. -/
inductive DeferredKind where
  | attach
  | detach
deriving DecidableEq, Repr

/-- R72: the request whose response waits for the purge to end. -/
structure Deferred where
  kind : DeferredKind
  requestTag : Byte
deriving DecidableEq, Repr

/-- R72: the session record of a client. `creditRefill` is the refill as written; `refillInForce` is the one the last tick brought
into force, by which the credit check goes (R71, R73, R151, log 24). -/
structure Session where
  state : ClientState
  tag : Byte
  afterPurge : Option AfterPurge
  pendingTag : Option Byte
  deferred : Option Deferred
  domainMask : BitVec 16
  holdQuota : BitVec 4
  waitQuota : BitVec 5
  ceiling : BitVec 2
  defaultTerm : Half
  mayCreate : Bool
  guardCapability : Bool
  creditBurst : Byte
  creditRefill : Byte
  refillInForce : Byte
  credits : Nat
  holdCount : Nat
  waitCount : Nat
deriving DecidableEq, Repr

/-! ### Messages -/

/-- R140: a good message in the receive queue: its kind, its length and its L characters. -/
structure RxMessage where
  kind : Byte
  length : Byte
  chars : List Byte
deriving DecidableEq, Repr

/-- R112: the causes a LOST notice carries. -/
inductive LostCause where
  | expired
  | displaced
  | revoked
  | removed
deriving DecidableEq, Repr

/-- R112: the causes a WAIT_ENDED notice carries. -/
inductive WaitEndCause where
  | timeout
  | cancelledByManager
  | removed
deriving DecidableEq, Repr

/-- R107: the fields of the RECORD answer. -/
structure RecordAnswer where
  mode : RecordMode
  holders : Nat
  waiters : Nat
  lastFence : Fence
  kind : Kind
  ownHold : Option HoldHandle
  ownWait : Option WaitHandle
deriving DecidableEq, Repr

/-- The outcome of a request with the contents it carries (R90, the table of outcome codes in 05). -/
inductive Reply where
  | attached (tag : Byte)
  | detached
  | cleared
  | pong (echo : List Byte) (state : ClientState) (now : Word)
  | granted (handle : HoldHandle) (mode : Mode) (fence : Fence) (deadline : Word)
  | queued (handle : WaitHandle) (position : Nat)
  | renewed (deadline : Word)
  | released (conversionCancelled : Bool)
  | cancelled
  | record (answer : RecordAnswer)
  | current (mode : Mode)
  | lapsed
  | stale
  | noRecord
  | barred
  | malformed
  | notAttached
  | purging
  | queryOnly
  | staleSession
  | rate
  | domain
  | domainClosing
  | bucketFull
  | mode
  | alreadyHeld (handle : HoldHandle)
  | alreadyWaiting (handle : WaitHandle)
  | holdQuota
  | waitQuota
  | poolEmpty
  | fenceExhausted
  | conflict
  | convertConflict
  | badHandle
  | notGuard
deriving DecidableEq, Repr

/-- R89, R176: a response: the request's own tag, the client's session tag when it was placed, and the outcome. -/
structure Response where
  requestTag : Byte
  sessionTag : Byte
  reply : Reply
deriving DecidableEq, Repr

/-- R112: the four kinds of notice that pass through the notice queue. -/
inductive NoticeBody where
  | granted (handle : HoldHandle) (mode : Mode) (fence : Fence) (deadline : Word)
  | lapsed (handle : HoldHandle) (graceDeadline : Word)
  | lost (handle : HoldHandle) (fence : Fence) (cause : LostCause) (conversionCancelled : Bool)
  | waitEnded (handle : WaitHandle) (cause : WaitEndCause)
deriving DecidableEq, Repr

/-- R112, R176: a queued notice, its contents as posted. -/
structure Notice where
  requestTag : Byte
  sessionTag : Byte
  body : NoticeBody
deriving DecidableEq, Repr

/-! ### The client links -/

/-- R139: the running gap: the settings in force when it began, by which it is measured, and the clocks of the 48 MHz reference
that it has lasted. -/
structure Gap where
  limit : Byte
  divider : Byte
  stopBits : BitVec 2
  elapsed : Nat
deriving DecidableEq, Repr

/-- R137: the receiver's three states, and `stopped` while the link is disabled (R146). `chars` are the characters of the
message so far, its kind first. -/
inductive Receiver where
  | idle
  | hunt
  | inMessage (chars : List Byte) (gap : Gap)
  | stopped
deriving DecidableEq, Repr

/-- R118: the four states of a response slot. The content of a SENDING slot is the message in flight. -/
inductive ResponseSlot where
  | free
  | reserved
  | ready (r : Response)
  | sending
deriving DecidableEq, Repr

/-- R143, R146: a request in progress, with its RESERVED slot or marked to be dropped. -/
inductive InProgress where
  | reserved (slot : Fin 4)
  | toBeDropped
deriving DecidableEq, Repr

/-- R119, R120: the message the transmitter is sending, its contents fixed when it began. -/
inductive InFlight where
  | response (slot : Fin 4) (r : Response)
  | notice (n : Notice)
  | discards (sessionTag : Byte) (count : Half)
  | noticesLost (sessionTag : Byte) (count : Half)
deriving DecidableEq, Repr

/-- A character on the line: its byte and its mark (R133). -/
structure Character where
  byte : Byte
  mark : Bool
deriving DecidableEq, Repr

/-- R133, R134: a transmitter at its line. While it sends, it has the divider that its character began with, the levels of the
character's bit times that are not over, the clocks of the bit time under way, and the characters still to come. -/
inductive TxLine where
  | rest
  | sending (divider : Byte) (bits : List Bool) (clocks : Nat) (later : List Character)
deriving DecidableEq, Repr

/-- One client link: its settings (R145), its receiver (R137, R142), its request in progress (R144) and its transmit path
(R114 to R120), with what goes on at the transmit line (R133). -/
structure Link where
  enabled : Bool
  divider : Byte
  stopBits : BitVec 2
  gapLimit : Byte
  receiver : Receiver
  rxQueue : List RxMessage
  inProgress : Option InProgress
  slots : Vector ResponseSlot 4
  responseQueue : List (Fin 4)
  noticeQueue : List Notice
  lossMark : Bool
  lossCount : Half
  discardCount : Half
  inFlight : Option InFlight
  tx : TxLine
deriving DecidableEq, Repr

/-! ### The Purge Unit, the Admin Engine, the Counter Bank and the management port -/

/-- R124: the next slot of the walk in progress. -/
inductive WalkPosition where
  | idle
  | wait (w : WaitIx)
  | hold (i : HoldIx)
deriving DecidableEq, Repr

/-- R122, R124: the purge queue, head first, and the walk position. -/
structure PurgeUnit where
  queue : List Client
  walk : WalkPosition
deriving DecidableEq, Repr

/-- The fourteen administrative commands (09, 11). -/
inductive AdminCommand where
  | installRecord
  | unpinRecord
  | removeRecord
  | removeDomain
  | revokeHold
  | cancelWait
  | findRecord
  | readRecord
  | readHold
  | readWait
  | setClientState
  | snapshotCounters
  | clearAll
  | setHashSeed
deriving DecidableEq, Repr

/-- R157: a domain walk in progress: the closing domain, the next slot to be stepped and the running totals. -/
structure DomainWalk where
  domain : BitVec 4
  next : Slot
  records : Nat
  holds : Nat
  waits : Nat
deriving DecidableEq, Repr

/-- R153: the busy state; PENDING holds the command and the parameter words as they stood at the accepting write. -/
inductive Busy where
  | idle
  | pending (command : AdminCommand) (params : Vector Word 4)
  | walking (walk : DomainWalk)
deriving DecidableEq, Repr

/-- R153: the mailbox and the busy state. -/
structure AdminEngine where
  busy : Busy
  command : Byte
  params : Vector Word 4
  resultCode : Word
  results : Vector Word 8
deriving DecidableEq, Repr

/-- R170: the eight live counters of a link. -/
structure LinkCounters where
  good : Word
  framing : Word
  crc : Word
  truncated : Word
  overrun : Word
  stray : Word
  responsesSent : Word
  noticesSent : Word
deriving DecidableEq, Repr

/-- R171: the five live counters of a client. -/
structure ClientCounters where
  grants : Word
  waitsBegun : Word
  refusals : Word
  holdsExpired : Word
  waitsTimedOut : Word
deriving DecidableEq, Repr

/-- R169: a full set of counters. -/
structure CounterBank where
  links : Vector LinkCounters 8
  clients : Vector ClientCounters 8
deriving DecidableEq, Repr

/-- R172: the snapshot bank. -/
structure Snapshot where
  clock : Word
  bank : CounterBank
deriving DecidableEq, Repr

/-- R149, R180: the fence-counter latch, and whether the port has seen chip select high since the reset. -/
structure Port where
  latch : Option Word
  seenSelectHigh : Bool
deriving DecidableEq, Repr

/-! ### The lines and the pins -/

/-- R135: a receiver at its line. Outside a character it has the last level it saw; inside one, the divider that the character
began with and the samples since the start edge, the first one first. -/
inductive RxLine where
  | watching (last : Option Bool)
  | inside (divider : Byte) (samples : List Bool)
deriving DecidableEq, Repr

/-- The receive line of one link: what its receiver does there, and the clocks since it last sampled. -/
structure LinkWire where
  rx : RxLine
  sampleClocks : Nat
deriving DecidableEq, Repr

/-- R149: the SPI bus as the port follows it: whether a transaction that it accepts is under way, the serial clock as last seen, the
bits sampled, and the values of the words that a READ has taken. -/
structure SpiLine where
  selected : Bool
  clockLevel : Bool
  bits : List Bool
  taken : List Word
deriving DecidableEq, Repr

/-- R51: the prescaler's count inside the tick period; and the wires. -/
structure Wires where
  prescaler : Nat
  links : Vector LinkWire 8
  spi : SpiLine
deriving DecidableEq, Repr

/-- The levels that the outside puts on the part's inputs: the eight receive lines, and chip select, clock and data of the SPI bus
(true is high; log 25). -/
structure Pins where
  receive : Vector Bool 8
  chipSelect : Bool
  serialClock : Bool
  dataIn : Bool
deriving DecidableEq, Repr

/-! ### The whole part -/

/-- The state of the ZL816, with the levels of its inputs and the queue of commands that wait (log 2, 3, 25). -/
structure State where
  records : Vector (Option Record) 1024
  hashSeed : Byte
  closing : Vector Bool 16
  holds : Vector HoldSlot 256
  holdCounts : HoldCounts
  waits : Vector WaitSlot 128
  fence : FenceCounter
  arrival : Word
  deadlines : List DeadlineEntry
  timer : LeaseTimer
  device : DeviceSettings
  sessions : Vector Session 8
  links : Vector Link 8
  purge : PurgeUnit
  admin : AdminEngine
  flags : BitVec 9
  enables : BitVec 9
  live : CounterBank
  snapshot : Snapshot
  port : Port
  wires : Wires
  pins : Pins
  pending : List Instr
deriving DecidableEq, Repr

/-- No command stops the part: a request that cannot be carried out is answered with an outcome code (R90), an administrative
command with a result code (R153), and an event of note raises a flag (R173). So there is no fault. -/
inductive Fault where
deriving DecidableEq, Repr

/-- The reasons a command could be refused by the model. -/
inductive Refusal where
  /-- Raised by exec alone, for a command that has no meaning yet; safe. No arm of exec raises it. -/
  | notModelled (mnemonic : String)
deriving DecidableEq, Repr

/-! ### Power-on reset -/

/-- R73: every session record after power-on reset. -/
def Session.reset : Session where
  state := .detached
  tag := 0
  afterPurge := none
  pendingTag := none
  deferred := none
  domainMask := 0xFFFF
  holdQuota := 8
  waitQuota := 16
  ceiling := 3
  defaultTerm := 1000
  mayCreate := true
  guardCapability := false
  creditBurst := 32
  creditRefill := 0
  refillInForce := 0
  credits := 32
  holdCount := 0
  waitCount := 0

/-- R148: every link after power-on reset. -/
def Link.reset : Link where
  enabled := true
  divider := 25
  stopBits := 1
  gapLimit := 8
  receiver := .idle
  rxQueue := []
  inProgress := none
  slots := Vector.replicate 4 .free
  responseQueue := []
  noticeQueue := []
  lossMark := false
  lossCount := 0
  discardCount := 0
  inFlight := none
  tx := .rest

/-- R169: a link's counters at 0. -/
def LinkCounters.zero : LinkCounters := ⟨0, 0, 0, 0, 0, 0, 0, 0⟩

/-- R169: a client's counters at 0. -/
def ClientCounters.zero : ClientCounters := ⟨0, 0, 0, 0, 0⟩

/-- R169: all counters at 0. -/
def CounterBank.zero : CounterBank where
  links := Vector.replicate 8 LinkCounters.zero
  clients := Vector.replicate 8 ClientCounters.zero

/-- R18, R22, R31, R53, R174: the device settings after power-on reset. -/
def DeviceSettings.reset : DeviceSettings where
  minTerm := 10
  maxTerm := 60000
  graceTerm := 0
  idleAge := 5000
  urgencyMap := #v[0, 0, 1, 1, 2, 2, 3, 3]
  holdLowMark := 16
  waitLowMark := 8

/-- R135, R148: the wires of a link after power-on reset. The transmitter rests, and the receiver has seen no level yet. -/
def LinkWire.reset : LinkWire := ⟨.watching none, 0⟩

/-- R50, R148, R149: the wires after power-on reset. A transaction that was under way is abandoned. -/
def Wires.reset : Wires := ⟨0, Vector.replicate 8 LinkWire.reset, ⟨false, false, [], []⟩⟩

/-- DESIGN CHOICE (log 25): the levels that State.reset shows on the inputs: every receive line and chip select rest high, clock and
data low. They come from outside, and no reset changes them. -/
def Pins.atRest : Pins := ⟨Vector.replicate 8 true, true, false, false⟩

/-- The part right after power-on reset. -/
def State.reset : State where
  records := Vector.replicate 1024 none
  hashSeed := 0
  closing := Vector.replicate 16 false
  holds := Vector.replicate 256 ⟨0, none⟩
  holdCounts := ⟨256, 0, 0⟩
  waits := Vector.replicate 128 ⟨0, none⟩
  fence := ⟨1, false⟩
  arrival := 0
  deadlines := []
  timer := ⟨0, 100, 100⟩
  device := DeviceSettings.reset
  sessions := Vector.replicate 8 Session.reset
  links := Vector.replicate 8 Link.reset
  purge := ⟨[], .idle⟩
  admin := ⟨.idle, 0, Vector.replicate 4 0, 0, Vector.replicate 8 0⟩
  flags := 0
  enables := 0
  live := CounterBank.zero
  snapshot := ⟨0, CounterBank.zero⟩
  port := ⟨none, false⟩
  wires := Wires.reset
  pins := Pins.atRest
  pending := []

end Sys2Proof.Machine
end

