-- ==== Sys2Proof/Machine/Ops.lean ====
section
/-! DEFINITION. The named updates and reads of State that every other operation is written with, the fields of a key (R1, R2,
R4), the pools' lookups (R27, R28), the lease clock's arithmetic (R55, R58) and the Deadline List (R56 to R59). -/

namespace Sys2Proof.Machine

/-! ### One update per field of State -/

def State.setRecords (s : State) (x : Vector (Option Record) 1024) : State := { s with records := x }
def State.setSeed (s : State) (x : Byte) : State := { s with hashSeed := x }
def State.setClosing (s : State) (x : Vector Bool 16) : State := { s with closing := x }
def State.setHolds (s : State) (x : Vector HoldSlot 256) : State := { s with holds := x }
def State.setHoldCounts (s : State) (x : HoldCounts) : State := { s with holdCounts := x }
def State.setWaits (s : State) (x : Vector WaitSlot 128) : State := { s with waits := x }
def State.setFence (s : State) (x : FenceCounter) : State := { s with fence := x }
def State.setArrival (s : State) (x : Word) : State := { s with arrival := x }
def State.setDeadlines (s : State) (x : List DeadlineEntry) : State := { s with deadlines := x }
def State.setTimer (s : State) (x : LeaseTimer) : State := { s with timer := x }
def State.setDevice (s : State) (x : DeviceSettings) : State := { s with device := x }
def State.setSessions (s : State) (x : Vector Session 8) : State := { s with sessions := x }
def State.setLinks (s : State) (x : Vector Link 8) : State := { s with links := x }
def State.setPurge (s : State) (x : PurgeUnit) : State := { s with purge := x }
def State.setAdmin (s : State) (x : AdminEngine) : State := { s with admin := x }
def State.setFlags (s : State) (x : BitVec 9) : State := { s with flags := x }
def State.setEnables (s : State) (x : BitVec 9) : State := { s with enables := x }
def State.setLive (s : State) (x : CounterBank) : State := { s with live := x }
def State.setSnapshot (s : State) (x : Snapshot) : State := { s with snapshot := x }
def State.setPort (s : State) (x : Port) : State := { s with port := x }
def State.setWires (s : State) (x : Wires) : State := { s with wires := x }
def State.setPins (s : State) (x : Pins) : State := { s with pins := x }
def State.setPending (s : State) (x : List Instr) : State := { s with pending := x }

/-! ### Reads and updates of one element -/

/-- The record in a slot, if the slot is in use (R4). -/
def State.record (s : State) (r : Slot) : Option Record := s.records[r]

def State.setRecord (s : State) (r : Slot) (x : Option Record) : State := s.setRecords (s.records.set r x)

/-- Changes the record in a slot, if there is one. -/
def State.modifyRecord (s : State) (r : Slot) (f : Record → Record) : State :=
  match s.record r with
  | some x => s.setRecord r (some (f x))
  | none => s

def State.holdSlot (s : State) (i : HoldIx) : HoldSlot := s.holds[i]

/-- The hold in a slot, if the slot is not FREE (R24). -/
def State.hold (s : State) (i : HoldIx) : Option Hold := (s.holdSlot i).occupant

def State.setHoldSlot (s : State) (i : HoldIx) (x : HoldSlot) : State := s.setHolds (s.holds.set i x)

/-- Puts a hold, or FREE, into a slot whose generation is kept. -/
def State.setHold (s : State) (i : HoldIx) (x : Option Hold) : State :=
  s.setHoldSlot i { s.holdSlot i with occupant := x }

/-- Changes the hold in a slot, if there is one. -/
def State.modifyHold (s : State) (i : HoldIx) (f : Hold → Hold) : State :=
  match s.hold i with
  | some x => s.setHold i (some (f x))
  | none => s

def State.waitSlot (s : State) (w : WaitIx) : WaitSlot := s.waits[w]

/-- The wait in a slot, if the slot is not FREE (R26). -/
def State.wait (s : State) (w : WaitIx) : Option Wait := (s.waitSlot w).occupant

def State.setWaitSlot (s : State) (w : WaitIx) (x : WaitSlot) : State := s.setWaits (s.waits.set w x)

/-- Puts a wait, or FREE, into a slot whose generation is kept. -/
def State.setWait (s : State) (w : WaitIx) (x : Option Wait) : State :=
  s.setWaitSlot w { s.waitSlot w with occupant := x }

/-- The session record of a client (R72). -/
def State.session (s : State) (c : Client) : Session := s.sessions[c]

def State.modifySession (s : State) (c : Client) (f : Session → Session) : State :=
  s.setSessions (s.sessions.set c (f (s.session c)))

/-- The link of a client. -/
def State.link (s : State) (l : Client) : Link := s.links[l]

def State.modifyLink (s : State) (l : Client) (f : Link → Link) : State :=
  s.setLinks (s.links.set l (f (s.link l)))

/-- Changes what goes on at the wires of a link. -/
def State.modifyWire (s : State) (l : Client) (f : LinkWire → LinkWire) : State :=
  s.setWires { s.wires with links := s.wires.links.set l (f s.wires.links[l]) }

/-- Advances counters of a link (R170). -/
def State.countLink (s : State) (l : Client) (f : LinkCounters → LinkCounters) : State :=
  s.setLive { s.live with links := s.live.links.set l (f s.live.links[l]) }

/-- Advances counters of a client (R171). -/
def State.countClient (s : State) (c : Client) (f : ClientCounters → ClientCounters) : State :=
  s.setLive { s.live with clients := s.live.clients.set c (f s.live.clients[c]) }

/-! ### Keys, buckets and lookup (R1, R2, R4, R5) -/

/-- R1: the domain of a key, its top four bits. -/
def domainOf (key : Word) : BitVec 4 := key.extractLsb' 28 4

/-- R2: the bucket of a key under a seed: the exclusive OR of its four bytes and of the seed. -/
def bucketOf (seed : Byte) (key : Word) : BitVec 8 :=
  key.extractLsb' 24 8 ^^^ key.extractLsb' 16 8 ^^^ key.extractLsb' 8 8 ^^^ key.extractLsb' 0 8 ^^^ seed

/-- R4: slot 4b + w is way w of bucket b. -/
def slotOf (bucket : BitVec 8) (way : Fin 4) : Slot := ⟨4 * bucket.toNat + way.val, by omega⟩

/-- R4: the four slots of a bucket, lowest way first. -/
def slotsOf (bucket : BitVec 8) : List Slot := (List.finRange 4).map (slotOf bucket)

/-- R4: the slots of the bucket in which a key can lie under the current seed. -/
def State.waysOf (s : State) (key : Word) : List Slot := slotsOf (bucketOf s.hashSeed key)

def State.slotHasKey (s : State) (key : Word) (r : Slot) : Bool :=
  match s.record r with
  | some x => x.key == key
  | none => false

/-- R5: the slot of the record whose key is equal, or absent. -/
def State.lookup (s : State) (key : Word) : Option Slot := (s.waysOf key).find? (s.slotHasKey key)

/-- R21: the place of a domain's closing mark. -/
def domainIx (d : BitVec 4) : Fin 16 := d.toFin

/-- R21: whether the closing mark of a domain is set. -/
def State.isClosing (s : State) (d : BitVec 4) : Bool := s.closing[domainIx d]

def State.setMark (s : State) (d : BitVec 4) (b : Bool) : State := s.setClosing (s.closing.set (domainIx d) b)

/-- R7: the mode of a record. -/
def State.recordMode (s : State) (x : Record) : RecordMode :=
  match x.holders with
  | [] => .free
  | i :: _ =>
    match s.hold i with
    | some h => if h.mode = .exclusive then .exclusive else .shared
    | none => .shared

/-! ### The pools (R25, R27, R28) -/

/-- R27: the lowest-numbered FREE hold slot. -/
def State.lowestFreeHold (s : State) : Option HoldIx := (List.finRange 256).find? fun i => (s.hold i).isNone

/-- R27, R36, R37: a hold slot that an ACQUIRE may use: the lowest FREE one, when the free count is not 0. -/
def State.availableHold (s : State) : Option HoldIx := if s.holdCounts.free = 0 then none else s.lowestFreeHold

/-- R28: the lowest-numbered FREE wait slot. -/
def State.lowestFreeWait (s : State) : Option WaitIx := (List.finRange 128).find? fun w => (s.wait w).isNone

/-- R28: the free count of the Wait Pool. -/
def State.freeWaitCount (s : State) : Nat := (List.finRange 128).countP fun w => (s.wait w).isNone

/-- R25: the handle of the present use of a hold slot. -/
def State.holdHandle (s : State) (i : HoldIx) : HoldHandle := ⟨i, (s.holdSlot i).generation⟩

/-- R25: the handle of the present use of a wait slot. -/
def State.waitHandle (s : State) (w : WaitIx) : WaitHandle := ⟨w, (s.waitSlot w).generation⟩

/-- R25, R160: a hold handle under the first three conditions: index in the pool, slot not FREE, generation equal. -/
def State.namedHold (s : State) (index generation : Byte) : Option (HoldIx × Hold) :=
  let i : HoldIx := index.toFin
  match s.hold i with
  | some h => if (s.holdSlot i).generation = generation then some (i, h) else none
  | none => none

/-- R25, R161: a wait handle under the first three conditions. -/
def State.namedWait (s : State) (index generation : Byte) : Option (WaitIx × Wait) :=
  if h : index.toNat < 128 then
    let w : WaitIx := ⟨index.toNat, h⟩
    match s.wait w with
    | some x => if (s.waitSlot w).generation = generation then some (w, x) else none
    | none => none
  else none

/-- R25: all four conditions, for a request of client c. -/
def State.ownNamedHold (s : State) (c : Client) (index generation : Byte) : Option (HoldIx × Hold) :=
  match s.namedHold index generation with
  | some (i, h) => if h.client = c then some (i, h) else none
  | none => none

/-- R25: all four conditions, for a request of client c. -/
def State.ownNamedWait (s : State) (c : Client) (index generation : Byte) : Option (WaitIx × Wait) :=
  match s.namedWait index generation with
  | some (w, x) => if x.client = c then some (w, x) else none
  | none => none

/-- R29: the client's hold on a record. -/
def State.holdOf (s : State) (c : Client) (x : Record) : Option HoldIx :=
  x.holders.find? fun i => match s.hold i with
    | some h => h.client == c
    | none => false

/-- R29: the client's wait on a record, NEW or CONVERSION. -/
def State.waitOf (s : State) (c : Client) (x : Record) : Option WaitIx :=
  x.waitQueue.find? fun w => match s.wait w with
    | some y => y.client == c
    | none => false

/-! ### Time (R50, R54, R55, R57, R58) -/

/-- "Now": the lease clock's value at the happening. -/
def State.now (s : State) : Word := s.timer.clock

/-- R55: now plus a number of ticks of 16 bits. -/
def State.after (s : State) (ticks : Half) : Word := s.now + ticks.setWidth 32

/-- R57: the distance of a deadline from now, read as a signed number. -/
def distance (now deadline : Word) : Int := (deadline - now).toInt

/-- R58: the clock minus the deadline, modulo 2³², is below 2³¹. -/
def isDue (now deadline : Word) : Bool := decide ((now - deadline).toNat < Config.halfRange)

/-- R54: the effective maximum for terms on a record. -/
def State.effectiveMax (s : State) (x : Record) : Half :=
  if x.maxTerm = 0 then s.device.maxTerm else if x.maxTerm < s.device.maxTerm then x.maxTerm else s.device.maxTerm

/-- R54, steps 3 and 4: raised to the minimum, then lowered to the maximum. -/
def clampBetween (lo hi t : Half) : Half :=
  let raised := if t < lo then lo else t
  if hi < raised then hi else raised

/-- R54: the term a request of client c gets on the record. -/
def State.clampTerm (s : State) (c : Client) (x : Record) (requested : Half) : Half :=
  clampBetween s.device.minTerm (s.effectiveMax x)
    (if requested = 0 then (s.session c).defaultTerm else requested)

/-! ### The Deadline List (R56 to R59) -/

/-- R57: the kind's precedence among equal deadlines. -/
def DeadlineRef.rank : DeadlineRef → Nat
  | .hold _ => 0
  | .wait _ => 1
  | .record _ => 2

/-- R57: the index within a kind. -/
def DeadlineRef.number : DeadlineRef → Nat
  | .hold i => i.val
  | .wait w => w.val
  | .record r => r.val

/-- R57: whether entry a stands before entry b, at a clock value. -/
def DeadlineEntry.precedes (now : Word) (a b : DeadlineEntry) : Bool :=
  if distance now a.deadline < distance now b.deadline then true
  else if distance now b.deadline < distance now a.deadline then false
  else if a.ref.rank < b.ref.rank then true
  else if b.ref.rank < a.ref.rank then false
  else decide (a.ref.number < b.ref.number)

/-- R57: places an entry before the first one that it precedes. -/
def insertEntry (now : Word) (e : DeadlineEntry) : List DeadlineEntry → List DeadlineEntry
  | [] => [e]
  | x :: xs => if e.precedes now x then e :: x :: xs else x :: insertEntry now e xs

/-- R56: the entry of a thing leaves the list. -/
def State.removeEntry (s : State) (ref : DeadlineRef) : State :=
  s.setDeadlines (s.deadlines.filter fun e => e.ref != ref)

/-- R56, R58: an entry joins the list, not marked. -/
def State.addEntry (s : State) (ref : DeadlineRef) (deadline : Word) : State :=
  s.setDeadlines (insertEntry s.now ⟨ref, deadline, false⟩ s.deadlines)

/-- R56, R58: an entry moves to a new deadline and loses its mark. -/
def State.moveEntry (s : State) (ref : DeadlineRef) (deadline : Word) : State :=
  (s.removeEntry ref).addEntry ref deadline

/-- R58: every entry that is due at a clock value and not marked becomes marked. -/
def markDue (now : Word) (es : List DeadlineEntry) : List DeadlineEntry :=
  es.map fun e => if isDue now e.deadline then { e with marked := true } else e

/-- R59: the entry that is handed over next: the first marked one in list order. -/
def State.nextMarked (s : State) : Option DeadlineEntry := s.deadlines.find? (·.marked)

/-- R24, R55, R56: a hold in use gets a new deadline, and its entry moves with it. -/
def State.setHoldDeadline (s : State) (i : HoldIx) (deadline : Word) : State :=
  (s.modifyHold i fun h => { h with deadline := deadline }).moveEntry (.hold i) deadline

/-! ### Idle deadlines and retirement (R18, R20) -/

/-- R18: a DYNAMIC record with no holders, no waits and no idle deadline gets one. -/
def State.settleIdle (s : State) (r : Slot) : State :=
  match s.record r with
  | some x =>
    if x.kind = .dynamic ∧ x.holders = [] ∧ x.waitQueue = [] ∧ x.idleDeadline = none then
      (s.setRecord r (some { x with idleDeadline := some (s.after s.device.idleAge) })).addEntry (.record r)
        (s.after s.device.idleAge)
    else s
  | none => s

/-- R18: an idle deadline that is present is removed with its entry. -/
def State.clearIdle (s : State) (r : Slot) : State :=
  (s.modifyRecord r fun x => { x with idleDeadline := none }).removeEntry (.record r)

/-- R20: the slot is freed and an idle entry leaves the list. -/
def State.retire (s : State) (r : Slot) : State := (s.setRecord r none).removeEntry (.record r)

end Sys2Proof.Machine
end

