-- ==== Sys2Proof/Machine/Flags.lean ====
section
/-! DEFINITION. The event flags, their enables and the interrupt condition (R173, R175), and the low marks of the two pools
(R174). -/

namespace Sys2Proof.Machine

/-- R173: the nine event flags. -/
inductive EventFlag where
  | adminDone
  | adminRefused
  | purgeDone
  | holdPoolLow
  | waitPoolLow
  | bucketFull
  | noticeLoss
  | linkDiscard
  | fenceExhausted
deriving DecidableEq, Repr

/-- Formats: the bit of each flag in the flags word, from bit 0. -/
def EventFlag.bit : EventFlag → Nat
  | .adminDone => 0
  | .adminRefused => 1
  | .purgeDone => 2
  | .holdPoolLow => 3
  | .waitPoolLow => 4
  | .bucketFull => 5
  | .noticeLoss => 6
  | .linkDiscard => 7
  | .fenceExhausted => 8

def EventFlag.mask (f : EventFlag) : BitVec 9 := (1 : BitVec 9) <<< f.bit

/-- R173: the event sets its flag; a flag already set stays set. -/
def State.raise (s : State) (f : EventFlag) : State := s.setFlags (s.flags ||| f.mask)

/-- R173: whether a flag is set. -/
def State.flagSet (s : State) (f : EventFlag) : Bool := s.flags.getLsbD f.bit

/-- R173: a write of the flags word clears each flag whose bit is 1. -/
def State.clearFlags (s : State) (v : Word) : State := s.setFlags (s.flags &&& ~~~(v.setWidth 9))

/-- R175: INT is active when at least one flag is set and has its enable set. -/
def State.intActive (s : State) : Bool := s.flags &&& s.enables != 0

/-- R175: INT is driven low while active and high while inactive. -/
def State.intLevel (s : State) : Bool := !s.intActive

/-- R174: a count falls from at or above a mark to below it. -/
def crosses (mark before after : Nat) : Bool := decide (mark ≤ before) && decide (after < mark)

/-- R174: the flag test of a Hold Pool free count that has just become what it is. -/
def State.testHoldMark (s : State) (before : Nat) : State :=
  if crosses s.device.holdLowMark.toNat before s.holdCounts.free then s.raise .holdPoolLow else s

/-- R174: the flag test of a Wait Pool free count that has just become what it is. -/
def State.testWaitMark (s : State) (before : Nat) : State :=
  if crosses s.device.waitLowMark.toNat before s.freeWaitCount then s.raise .waitPoolLow else s

end Sys2Proof.Machine
end

