-- ==== Sys2Proof/Machine/Operands.lean ====
section
/-! DEFINITION. How the operands of a command are read: the fields of a client message (R94, R100, R176 to R179), the fields
of the mailbox parameter words (Mailbox commands in Formats, R181), and the numeric encodings of Formats. -/

namespace Sys2Proof.Machine

/-! ### Client messages (R176, R178, R179) -/

/-- R176: the ten request kinds. -/
inductive RequestKind where
  | attach
  | detach
  | ping
  | acquire
  | convert
  | renew
  | release
  | cancel
  | query
  | validate
deriving DecidableEq, Repr

/-- R176: the kind byte of a request. -/
def RequestKind.code : RequestKind → Byte
  | .attach => 0x01
  | .detach => 0x02
  | .ping => 0x03
  | .acquire => 0x10
  | .convert => 0x11
  | .renew => 0x12
  | .release => 0x13
  | .cancel => 0x14
  | .query => 0x20
  | .validate => 0x21

/-- R176: the length L of a request. -/
def RequestKind.length : RequestKind → Byte
  | .attach => 3
  | .detach => 2
  | .ping => 6
  | .acquire => 13
  | .convert => 9
  | .renew => 6
  | .release => 4
  | .cancel => 4
  | .query => 6
  | .validate => 12

/-- R88: the cost of a request in credits. -/
def RequestKind.cost : RequestKind → Nat
  | .acquire => 2
  | .convert => 2
  | .ping => 0
  | .attach => 1
  | .detach => 1
  | .renew => 1
  | .release => 1
  | .cancel => 1
  | .query => 1
  | .validate => 1

def RequestKind.all : List RequestKind :=
  [.attach, .detach, .ping, .acquire, .convert, .renew, .release, .cancel, .query, .validate]

/-- R178: the request kind of a queued message, if its kind is one of the ten and its L is that kind's. -/
def RxMessage.requestKind (m : RxMessage) : Option RequestKind :=
  RequestKind.all.find? fun k => k.code == m.kind && k.length == m.length

/-- Character n of the L characters; a queued message of the right length has it (R178). -/
def RxMessage.char (m : RxMessage) (n : Nat) : Byte := m.chars.getD n 0

/-- R136: the first of the L characters. -/
def RxMessage.requestTag (m : RxMessage) : Byte := m.char 0

/-- R136: the second of the L characters. -/
def RxMessage.sessionTag (m : RxMessage) : Byte := m.char 1

/-- Byte n of the body. -/
def RxMessage.body (m : RxMessage) (n : Nat) : Byte := m.char (n + 2)

/-- Formats: a field of two bytes, high byte first. -/
def RxMessage.half (m : RxMessage) (n : Nat) : Half := m.body n ++ m.body (n + 1)

/-- Formats: a field of four bytes, high byte first. -/
def RxMessage.word (m : RxMessage) (n : Nat) : Word := m.half n ++ m.half (n + 2)

/-- Formats: a field of six bytes, high byte first. -/
def RxMessage.fence (m : RxMessage) (n : Nat) : Fence := m.half n ++ m.word (n + 2)

/-- Formats: the mode of a request, 1 SHARED or 2 EXCLUSIVE. -/
def modeOfByte (b : Byte) : Option Mode :=
  if b = 1 then some .shared else if b = 2 then some .exclusive else none

/-- R94: the body of an ACQUIRE. -/
structure AcquireBody where
  key : Word
  mode : Mode
  urgency : BitVec 3
  waitTicks : Half
  term : Half
  create : Bool
deriving DecidableEq, Repr

/-- R94, R179: the fields of an ACQUIRE, if none is out of its range. -/
def RxMessage.acquireBody (m : RxMessage) : Option AcquireBody :=
  match modeOfByte (m.body 4) with
  | none => none
  | some mode =>
    if m.body 5 < 8 ∧ m.body 10 < 2 then
      some ⟨m.word 0, mode, (m.body 5).setWidth 3, m.half 6, m.half 8, m.body 10 == 1⟩
    else none

/-- R100: the body of a CONVERT. -/
structure ConvertBody where
  index : Byte
  generation : Byte
  target : Mode
  waitTicks : Half
  term : Half
deriving DecidableEq, Repr

/-- R100, R179: the fields of a CONVERT, if the target mode is in range. -/
def RxMessage.convertBody (m : RxMessage) : Option ConvertBody :=
  match modeOfByte (m.body 2) with
  | none => none
  | some target => some ⟨m.body 0, m.body 1, target, m.half 3, m.half 5⟩

/-! ### Numeric encodings (Formats) -/

def Mode.code : Mode → Byte
  | .shared => 1
  | .exclusive => 2

def RecordMode.code : RecordMode → Byte
  | .free => 0
  | .shared => 1
  | .exclusive => 2

def Kind.code : Kind → Byte
  | .dynamic => 1
  | .pinned => 2

def ClientState.code : ClientState → Byte
  | .detached => 0
  | .active => 1
  | .queryOnly => 2
  | .purging => 3
  | .barred => 4

def LostCause.code : LostCause → Byte
  | .expired => 1
  | .displaced => 2
  | .revoked => 3
  | .removed => 4

def WaitEndCause.code : WaitEndCause → Byte
  | .timeout => 1
  | .cancelledByManager => 2
  | .removed => 3

/-- Formats: 7 when absent. -/
def afterPurgeCode : Option AfterPurge → Byte
  | some .detached => 0
  | some .active => 1
  | some .barred => 4
  | none => 7

def boolCode (b : Bool) : Byte := if b then 1 else 0

/-- The outcome codes of Formats. -/
def Reply.code : Reply → Byte
  | .attached _ => 0x01
  | .detached => 0x02
  | .cleared => 0x03
  | .pong _ _ _ => 0x04
  | .granted _ _ _ _ => 0x05
  | .queued _ _ => 0x06
  | .renewed _ => 0x07
  | .released _ => 0x08
  | .cancelled => 0x09
  | .record _ => 0x0A
  | .current _ => 0x0B
  | .lapsed => 0x0C
  | .stale => 0x0D
  | .noRecord => 0x0E
  | .barred => 0x0F
  | .malformed => 0x20
  | .notAttached => 0x21
  | .purging => 0x22
  | .queryOnly => 0x23
  | .staleSession => 0x24
  | .rate => 0x25
  | .domain => 0x26
  | .domainClosing => 0x27
  | .bucketFull => 0x28
  | .mode => 0x29
  | .alreadyHeld _ => 0x2A
  | .alreadyWaiting _ => 0x2B
  | .holdQuota => 0x2C
  | .waitQuota => 0x2D
  | .poolEmpty => 0x2E
  | .fenceExhausted => 0x2F
  | .conflict => 0x30
  | .convertConflict => 0x31
  | .badHandle => 0x32
  | .notGuard => 0x33

/-! ### Mailbox parameters and results (Mailbox commands, R181, R182) -/

/-- The command codes of the mailbox. -/
def AdminCommand.code : AdminCommand → Byte
  | .installRecord => 0x01
  | .unpinRecord => 0x02
  | .removeRecord => 0x03
  | .removeDomain => 0x04
  | .revokeHold => 0x05
  | .cancelWait => 0x06
  | .findRecord => 0x07
  | .readRecord => 0x08
  | .readHold => 0x09
  | .readWait => 0x0A
  | .setClientState => 0x0B
  | .snapshotCounters => 0x0C
  | .clearAll => 0x0D
  | .setHashSeed => 0x0E

def AdminCommand.all : List AdminCommand :=
  [.installRecord, .unpinRecord, .removeRecord, .removeDomain, .revokeHold, .cancelWait, .findRecord, .readRecord,
    .readHold, .readWait, .setClientState, .snapshotCounters, .clearAll, .setHashSeed]

/-- R181: the command a code names; 0 and the codes above 0x0E name none. -/
def AdminCommand.ofCode (b : Byte) : Option AdminCommand := AdminCommand.all.find? fun c => c.code == b

/-- Formats: the admin result codes. -/
inductive ResultCode where
  | done
  | noRecord
  | bucketFull
  | recordBusy
  | badHandle
  | badState
  | badParameter
  | tableNotEmpty
deriving DecidableEq, Repr

def ResultCode.word : ResultCode → Word
  | .done => 1
  | .noRecord => 2
  | .bucketFull => 3
  | .recordBusy => 4
  | .badHandle => 5
  | .badState => 6
  | .badParameter => 7
  | .tableNotEmpty => 8

/-- The actions of SET CLIENT STATE. -/
inductive ClientAction where
  | queryOnly
  | active
  | bar
  | unbar
  | purge
deriving DecidableEq, Repr

/-- R181: P1 of SET CLIENT STATE. -/
def ClientAction.ofWord (v : Word) : Option ClientAction :=
  if v = 1 then some .queryOnly
  else if v = 2 then some .active
  else if v = 3 then some .bar
  else if v = 4 then some .unbar
  else if v = 5 then some .purge
  else none

/-- A field placed at a bit position of a word. -/
def bitsAt {w : Nat} (lo : Nat) (v : BitVec w) : Word := v.setWidth 32 <<< lo

/-- A count placed at a bit position of a word. -/
def natAt (lo n : Nat) : Word := BitVec.ofNat 32 n <<< lo

/-- A yes-or-no placed at a bit position of a word. -/
def boolAt (lo : Nat) (b : Bool) : Word := if b then (1 : Word) <<< lo else 0

/-- A hold handle as two bytes, the index first. -/
def HoldHandle.half (h : HoldHandle) : Half := BitVec.ofNat 8 h.index.val ++ h.generation

/-- A wait handle as two bytes, the index first. -/
def WaitHandle.half (h : WaitHandle) : Half := BitVec.ofNat 8 h.index.val ++ h.generation

/-- Formats: the high 16 bits of a fence in a result word. -/
def fenceHigh (f : Fence) : Word := (f.extractLsb' 32 16).setWidth 32

/-- Formats: the low 32 bits of a fence in a result word. -/
def fenceLow (f : Fence) : Word := f.extractLsb' 0 32

/-- Handles packed two per word, the first in bits 31 to 16, unused halves 0 (READ RECORD, part 1). -/
def packHalves : List Half → List Word
  | [] => []
  | [a] => [a ++ (0 : Half)]
  | a :: b :: rest => (a ++ b) :: packHalves rest

/-- R153, R182: eight result words, those not named 0. -/
def resultWords (ws : List Word) : Vector Word 8 := Vector.ofFn fun i => ws.getD i.val 0

end Sys2Proof.Machine
end

