-- ==== Sys2Proof/Machine/Formats.lean ====
section
/-! DEFINITION. The message checksum (R136), the characters of the messages the part sends (R136, R176, R177 and the tables of
Formats), and the levels of a character on the line (R133). -/

namespace Sys2Proof.Machine

/-! ### The checksum (R136) -/

/-- R136: one bit of the division by x¹⁶ + x¹² + x⁵ + 1. -/
def crcShift (c : BitVec 16) : BitVec 16 := if c.msb then (c <<< 1) ^^^ 0x1021 else c <<< 1

/-- R136: one byte, most significant bit first. -/
def crcByte (c : BitVec 16) (b : Byte) : BitVec 16 :=
  Nat.repeat crcShift 8 (c ^^^ (b.setWidth 16 <<< 8))

/-- R136: the checksum of a run of bytes, from all sixteen bits at 1. -/
def crc16 (bs : List Byte) : BitVec 16 := bs.foldl crcByte (BitVec.allOnes 16)

/-! ### Fields, high byte first -/

def halfBytes (v : Half) : List Byte := [v.extractLsb' 8 8, v.extractLsb' 0 8]

def wordBytes (v : Word) : List Byte :=
  [v.extractLsb' 24 8, v.extractLsb' 16 8, v.extractLsb' 8 8, v.extractLsb' 0 8]

def fenceBytes (v : Fence) : List Byte := halfBytes (v.extractLsb' 32 16) ++ wordBytes (v.extractLsb' 0 32)

/-- A handle takes two bytes, the index first. -/
def HoldHandle.bytes (h : HoldHandle) : List Byte := halfBytes h.half

def WaitHandle.bytes (h : WaitHandle) : List Byte := halfBytes h.half

/-- R177: a handle that is absent is sent as two zero bytes. -/
def optionBytes (b : Option (List Byte)) : List Byte := b.getD [0, 0]

/-- R177: bit 0 for an own hold, bit 1 for an own wait. -/
def presenceByte (a : RecordAnswer) : Byte :=
  (if a.ownHold.isSome then 1 else 0) ||| (if a.ownWait.isSome then 2 else 0)

/-- The contents of RECORD, in order. -/
def RecordAnswer.bytes (a : RecordAnswer) : List Byte :=
  [a.mode.code, BitVec.ofNat 8 a.holders, BitVec.ofNat 8 a.waiters] ++ fenceBytes a.lastFence ++
    [a.kind.code, presenceByte a] ++ optionBytes (a.ownHold.map HoldHandle.bytes) ++
    optionBytes (a.ownWait.map WaitHandle.bytes)

/-- A granted hold's contents, in a response and in a notice. -/
def grantBytes (h : HoldHandle) (m : Mode) (f : Fence) (d : Word) : List Byte :=
  h.bytes ++ [m.code] ++ fenceBytes f ++ wordBytes d

/-- The contents of a response after its outcome code; an outcome without contents has none. -/
def Reply.contents : Reply → List Byte
  | .attached tag => [tag]
  | .pong echo state now => echo ++ [state.code] ++ wordBytes now
  | .granted h m f d => grantBytes h m f d
  | .queued h position => h.bytes ++ [BitVec.ofNat 8 position]
  | .renewed d => wordBytes d
  | .released b => [boolCode b]
  | .record a => a.bytes
  | .current m => [m.code]
  | .alreadyHeld h => h.bytes
  | .alreadyWaiting h => h.bytes
  | .detached => []
  | .cleared => []
  | .cancelled => []
  | .lapsed => []
  | .stale => []
  | .noRecord => []
  | .barred => []
  | .malformed => []
  | .notAttached => []
  | .purging => []
  | .queryOnly => []
  | .staleSession => []
  | .rate => []
  | .domain => []
  | .domainClosing => []
  | .bucketFull => []
  | .mode => []
  | .holdQuota => []
  | .waitQuota => []
  | .poolEmpty => []
  | .fenceExhausted => []
  | .conflict => []
  | .convertConflict => []
  | .badHandle => []
  | .notGuard => []

/-- R176: the kind byte of a notice. -/
def NoticeBody.code : NoticeBody → Byte
  | .granted _ _ _ _ => 0x90
  | .lapsed _ _ => 0x91
  | .lost _ _ _ _ => 0x92
  | .waitEnded _ _ => 0x93

/-- The body of a notice after its two header bytes. -/
def NoticeBody.bytes : NoticeBody → List Byte
  | .granted h m f d => grantBytes h m f d
  | .lapsed h d => h.bytes ++ wordBytes d
  | .lost h f cause flag => h.bytes ++ fenceBytes f ++ [cause.code, boolCode flag]
  | .waitEnded h cause => h.bytes ++ [cause.code]

/-- R176: the kind byte of a message the part sends. -/
def InFlight.kind : InFlight → Byte
  | .response _ _ => 0x80
  | .notice n => n.body.code
  | .discards _ _ => 0x94
  | .noticesLost _ _ => 0x95

/-- R176: the L characters: the two header bytes, then the outcome and contents, or the body. -/
def InFlight.chars : InFlight → List Byte
  | .response _ r => [r.requestTag, r.sessionTag, r.reply.code] ++ r.reply.contents
  | .notice n => [n.requestTag, n.sessionTag] ++ n.body.bytes
  | .discards tag count => [0, tag] ++ halfBytes count
  | .noticesLost tag count => [0, tag] ++ halfBytes count

/-- R136: all the bytes of a message: kind, length, L characters, checksum high byte first. -/
def InFlight.bytes (m : InFlight) : List Byte :=
  let front := [m.kind, BitVec.ofNat 8 m.chars.length] ++ m.chars
  front ++ halfBytes (crc16 front)

/-- R133: the first character of every message carries mark 1, every other character mark 0. -/
def markFirst : List Byte → List Character
  | [] => []
  | b :: bs => ⟨b, true⟩ :: bs.map fun c => ⟨c, false⟩

/-- R133, R136: the characters of a message the part sends. -/
def InFlight.characters (m : InFlight) : List Character := markFirst m.bytes

/-! ### Levels on the line -/

/-- R133: the data bits of a byte, least significant bit first. -/
def dataLevels (b : Byte) : List Bool := (List.finRange 8).map fun i => b.getLsbD i.val

/-- R133: the levels of a character's bit times, in order. -/
def Character.levels (c : Character) (stopBits : BitVec 2) : List Bool :=
  [false] ++ dataLevels c.byte ++ [c.mark] ++ List.replicate stopBits.toNat true

end Sys2Proof.Machine
end

