-- ==== Sys2Proof/Machine/Transmit.lean ====
section
/-! DEFINITION. The transmit path of a link: placing a response (R89, R118), posting a notice (R113 to R115), the discard count
(R117) and the transmitter's choice (R116, R119, R120). Each happening that makes a message ready lets an idle transmitter
choose at once (R119, log 7). -/

namespace Sys2Proof.Machine

/-- R115, R117: a count of 16 bits that stays at 65535. -/
def countUp (n : Half) : Half := if n = BitVec.allOnes 16 then n else n + 1

/-! ### The choice of R119 -/

/-- R133, R134: the first of these characters begins on the line, its start bit first, with the divider and the stop bits in force
now. -/
def TxLine.begin (k : Link) : List Character → TxLine
  | [] => .rest
  | c :: cs => .sending k.divider (c.levels k.stopBits) 0 cs

/-- R119, R133: a message has been chosen, and the sending of it begins at once. -/
def Link.begin (k : Link) (m : InFlight) : Link := { k with inFlight := some m, tx := TxLine.begin k m.characters }

/-- R119, steps 2 to 4: DISCARDS, the head notice, NOTICES_LOST. The tag is the client's session tag now (R176). -/
def Link.chooseOther (k : Link) (tag : Byte) : Link :=
  if k.discardCount ≠ 0 then
    { k with discardCount := 0 }.begin (.discards tag k.discardCount)
  else
    match k.noticeQueue with
    | n :: rest => { k with noticeQueue := rest }.begin (.notice n)
    | [] =>
      if k.lossCount ≠ 0 then
        { k with lossCount := 0, lossMark := false }.begin (.noticesLost tag k.lossCount)
      else k

/-- R119: the oldest response queue entry if it is READY, or the other sources. -/
def Link.chooseNext (k : Link) (tag : Byte) : Link :=
  match k.responseQueue with
  | i :: _ =>
    match k.slots[i] with
    | .ready r => { k with slots := k.slots.set i .sending }.begin (.response i r)
    | .free => k.chooseOther tag
    | .reserved => k.chooseOther tag
    | .sending => k.chooseOther tag
  | [] => k.chooseOther tag

/-- R119, R146: an idle transmitter of an enabled link chooses. -/
def Link.choose (k : Link) (tag : Byte) : Link :=
  if k.enabled = true ∧ k.inFlight = none then k.chooseNext tag else k

/-- R119: the transmitter of link l chooses if it is idle. -/
def State.choose (s : State) (l : Client) : State := s.modifyLink l fun k => k.choose (s.session l).tag

/-! ### Responses (R89, R118, R144, R146) -/

/-- R118, R144: a response is placed in the slot of the request in progress, which ends. The response to a request marked to be
dropped is placed nowhere (R146). -/
def Link.placeResponse (k : Link) (r : Response) : Link :=
  match k.inProgress with
  | some (.reserved i) => { k with slots := k.slots.set i (.ready r), inProgress := none }
  | some .toBeDropped => { k with inProgress := none }
  | none => k

/-- R89, R176: the answer to the request in progress on link l, under the client's session tag as it is now. -/
def State.respond (s : State) (l : Client) (requestTag : Byte) (reply : Reply) : State :=
  (s.modifyLink l fun k => k.placeResponse ⟨requestTag, (s.session l).tag, reply⟩).choose l

/-- R85, R90: a refusal is counted and answered. -/
def State.refuse (s : State) (l : Client) (requestTag : Byte) (reply : Reply) : State :=
  (s.countClient l fun k => { k with refusals := k.refusals + 1 }).respond l requestTag reply

/-! ### Notices (R113 to R115) -/

/-- R113, test 2: the client states whose notices are discarded. -/
def ClientState.discardsNotices : ClientState → Bool
  | .purging => true
  | .detached => true
  | .barred => true
  | .active => false
  | .queryOnly => false

/-- R115: a loss episode begins with the notice at hand. -/
def Link.beginLoss (k : Link) : Link := { k with lossMark := true, lossCount := 1 }

/-- R113: the link of client c settles a posted notice by the first test that applies. -/
def State.postNotice (s : State) (c : Client) (requestTag : Byte) (body : NoticeBody) : State :=
  if (s.link c).enabled = false then s
  else if (s.session c).state.discardsNotices then s
  else if (s.link c).lossMark then s.modifyLink c fun k => { k with lossCount := countUp k.lossCount }
  else if Config.noticeDepth ≤ (s.link c).noticeQueue.length then
    ((s.modifyLink c Link.beginLoss).raise .noticeLoss).choose c
  else
    (s.modifyLink c fun k => { k with noticeQueue := k.noticeQueue ++ [⟨requestTag, (s.session c).tag, body⟩] }).choose c

/-- R123, R148: the notice queue is emptied and the loss state cleared. -/
def Link.dropNotices (k : Link) : Link := { k with noticeQueue := [], lossMark := false, lossCount := 0 }

/-! ### The end of a message (R120) -/

/-- R120: the message in flight has been sent: a response frees its slot. -/
def Link.finishSending (k : Link) : Link :=
  match k.inFlight with
  | some (.response i _) =>
    { k with inFlight := none, tx := .rest, slots := k.slots.set i .free, responseQueue := k.responseQueue.erase i }
  | some (.notice _) => { k with inFlight := none, tx := .rest }
  | some (.discards _ _) => { k with inFlight := none, tx := .rest }
  | some (.noticesLost _ _) => { k with inFlight := none, tx := .rest }
  | none => k

/-- R120, R170: which sent counter the message advances. -/
def InFlight.countSent (m : InFlight) (k : LinkCounters) : LinkCounters :=
  match m with
  | .response _ _ => { k with responsesSent := k.responsesSent + 1 }
  | .notice _ => { k with noticesSent := k.noticesSent + 1 }
  | .discards _ _ => { k with noticesSent := k.noticesSent + 1 }
  | .noticesLost _ _ => { k with noticesSent := k.noticesSent + 1 }

end Sys2Proof.Machine
end

