-- ==== Sys2Proof/Machine/Grant.lean ====
section
/-! DEFINITION. The Grant Engine's shared operations: compatibility and the effective queue (R34, R35), the making of holds and
waits (R36, R37, R42, R44), fences (R48), the grant pass (R41), the end of a hold and of a wait (R39, R40), displacement
(R38) and the placement of a record (R16). -/

namespace Sys2Proof.Machine

/-! ### The effective queue and compatibility -/

/-- R34: a wait stands in the effective queue unless its client is PURGING. -/
def State.isEffective (s : State) (w : WaitIx) : Bool :=
  match s.wait w with
  | some x => (s.session x.client).state != .purging
  | none => false

/-- R34: the effective queue of a record. -/
def State.effectiveQueue (s : State) (x : Record) : List WaitIx := x.waitQueue.filter s.isEffective

/-- Whether a holder is a SHARED hold. -/
def State.isShared (s : State) (i : HoldIx) : Bool :=
  match s.hold i with
  | some h => h.mode == .shared
  | none => false

/-- R35: a request or wait for a mode against the holders of a record. `except` is the hold being converted. -/
def State.compatible (s : State) (x : Record) (m : Mode) (except : Option HoldIx) : Bool :=
  match m with
  | .exclusive => x.holders.all fun i => except == some i
  | .shared => x.shareable && x.holders.all s.isShared && decide (x.holders.length < x.holderCap)

/-- R35: the hold a wait would convert. -/
def Purpose.converting : Purpose → Option HoldIx
  | .new => none
  | .conversion h => some h.index

/-- R35: a wait against the holders of its record. -/
def State.waitCompatible (s : State) (x : Record) (y : Wait) : Bool := s.compatible x y.mode y.purpose.converting

/-- R32: whether a queued wait is a CONVERSION. -/
def State.isConversion (s : State) (w : WaitIx) : Bool :=
  match s.wait w with
  | some x => x.purpose != .new
  | none => false

/-- R31: the effective priority of a NEW wait: the urgency through the map, limited to the client's ceiling. -/
def State.effectivePriority (s : State) (c : Client) (urgency : BitVec 3) : BitVec 2 :=
  let mapped := s.device.urgencyMap[(urgency.toFin : Fin 8)]
  if (s.session c).ceiling < mapped then (s.session c).ceiling else mapped

/-- R36: a request of this priority, inserted as a NEW wait, would stand at the head of the effective queue. -/
def State.wouldLead (s : State) (x : Record) (priority : BitVec 2) : Bool :=
  (s.effectiveQueue x).all fun w => match s.wait w with
    | some y => y.purpose == .new && decide (y.priority < priority)
    | none => false

/-- R32: a queued wait behind which a NEW wait of this priority stands: a CONVERSION, or a NEW wait of at least the priority. -/
def State.staysAhead (s : State) (priority : BitVec 2) (w : WaitIx) : Bool :=
  match s.wait w with
  | some y => y.purpose != .new || decide (priority ≤ y.priority)
  | none => false

/-- R32: places an element directly after the last one that stays ahead of it, and at the head if there is none. -/
def insertAfterLast {α : Type} (ahead : α → Bool) (a : α) : List α → List α
  | [] => [a]
  | x :: xs => if ahead x || xs.any ahead then x :: insertAfterLast ahead a xs else a :: x :: xs

/-! ### Fences and counts -/

/-- R48: the counter after a grant has taken its value: it advances, except after its last value. -/
def State.advanceFence (s : State) : State :=
  if s.fence.next = Config.lastFence then (s.setFence { s.fence with exhausted := true }).raise .fenceExhausted
  else s.setFence { s.fence with next := s.fence.next + 1 }

/-- R171: a grant is counted. -/
def State.countGrant (s : State) (c : Client) : State := s.countClient c fun k => { k with grants := k.grants + 1 }

/-! ### Making holds -/

/-- R36, R44: a FREE hold slot is put into use: the generation advances, the hold is ACTIVE with the next fence and a deadline of
now plus the clamped term, it joins the tail of the holder list, the record's last fence is its fence, its entry joins the
Deadline List, and an idle deadline of the record is removed. -/
def State.openHold (s : State) (i : HoldIx) (c : Client) (r : Slot) (m : Mode) (term : Half) : State :=
  let fence := s.fence.next
  let deadline := s.after term
  (((((s.setHoldSlot i ⟨(s.holdSlot i).generation + 1, some ⟨.active, c, r, m, fence, deadline, none⟩⟩).modifyRecord r
    fun x => { x with holders := x.holders ++ [i], lastFence := fence }).advanceFence).addEntry (.hold i) deadline).clearIdle r)

/-- R27, R29, R36, R174: the counts and the counter of an immediate grant. -/
def State.countImmediate (s : State) (c : Client) : State :=
  (((s.setHoldCounts { s.holdCounts with free := s.holdCounts.free - 1, inUse := s.holdCounts.inUse + 1 }).testHoldMark
    s.holdCounts.free).modifySession c fun k => { k with holdCount := k.holdCount + 1 }).countGrant c

/-- R36: the immediate grant of an ACQUIRE, into hold slot i. -/
def State.grantAtOnce (s : State) (i : HoldIx) (c : Client) (r : Slot) (m : Mode) (term : Half) : State :=
  (s.openHold i c r m term).countImmediate c

/-- R97, R102: the GRANTED report of a hold as it stands. -/
def State.grantedReply (s : State) (i : HoldIx) : Reply :=
  match s.hold i with
  | some h => .granted (s.holdHandle i) h.mode h.fence h.deadline
  | none => .badHandle

/-- R112: the GRANTED notice of a hold as it stands. -/
def State.postGranted (s : State) (c : Client) (requestTag : Byte) (i : HoldIx) : State :=
  match s.hold i with
  | some h => s.postNotice c requestTag (.granted (s.holdHandle i) h.mode h.fence h.deadline)
  | none => s

/-! ### Waits leave their queue -/

/-- R39 step 3, R40 steps 1 to 3, R42, R44: a wait leaves its record's queue and the Deadline List, its slot returns to FREE and
the client's wait count falls by one. -/
def State.dropWait (s : State) (w : WaitIx) (y : Wait) : State :=
  (((s.modifyRecord y.slot fun x => { x with waitQueue := x.waitQueue.filter (· != w) }).removeEntry (.wait w)).setWait w
    none).modifySession y.client fun k => { k with waitCount := k.waitCount - 1 }

/-! ### Grants from the queue -/

/-- R44: the grant of a NEW wait into the lowest-numbered FREE hold slot. No FREE slot: nothing (log 9; R27 excludes it). -/
def State.grantNew (s : State) (r : Slot) (x : Record) (w : WaitIx) (y : Wait) : State :=
  match s.lowestFreeHold with
  | none => s
  | some i =>
    (((((s.dropWait w y).openHold i y.client r y.mode (s.clampTerm y.client x y.term)).setHoldCounts
      { s.holdCounts with reserved := s.holdCounts.reserved - 1, inUse := s.holdCounts.inUse + 1 }).countGrant
      y.client).postGranted y.client y.requestTag i)

/-- R42, R46: an upgrade: EXCLUSIVE in place, the next fence, the record's last fence, a new deadline, no conversion. -/
def State.upgrade (s : State) (i : HoldIx) (r : Slot) (term : Half) : State :=
  let fence := s.fence.next
  ((((s.modifyHold i fun h => { h with mode := .exclusive, fence := fence, conversion := none }).setHoldDeadline i
    (s.after term)).modifyRecord r fun x => { x with lastFence := fence }).advanceFence)

/-- R42: the grant of a CONVERSION wait. -/
def State.grantConversion (s : State) (r : Slot) (x : Record) (w : WaitIx) (y : Wait) (h : HoldHandle) : State :=
  (((s.dropWait w y).upgrade h.index r (s.clampTerm y.client x y.term)).countGrant y.client).postGranted y.client
    y.requestTag h.index

/-- R41: the head is granted, by R42 for a CONVERSION and by R44 for a NEW wait. -/
def State.grantHead (s : State) (r : Slot) (x : Record) (w : WaitIx) (y : Wait) : State :=
  match y.purpose with
  | .new => s.grantNew r x w y
  | .conversion h => s.grantConversion r x w y h

/-- R41: the examination of the head of the effective queue, with at most n grants. -/
def grantPassLoop (r : Slot) : Nat → State → State
  | 0, s => s
  | n + 1, s =>
    match s.record r with
    | none => s
    | some x =>
      match s.effectiveQueue x with
      | [] => s
      | w :: _ =>
        match s.wait w with
        | none => s
        | some y =>
          if s.waitCompatible x y = false then s
          else if s.fence.exhausted then s.raise .fenceExhausted
          else grantPassLoop r n (s.grantHead r x w y)

/-- The length of a record's wait queue, which bounds the grants of one pass. -/
def State.queueLength (s : State) (r : Slot) : Nat :=
  match s.record r with
  | some x => x.waitQueue.length
  | none => 0

/-- R41: a grant pass on a record. Each grant removes a wait, so the queue's length bounds it. -/
def State.grantPass (s : State) (r : Slot) : State := grantPassLoop r (s.queueLength r) s

/-- R39 steps 6 and 7, R40 steps 7 and 8: a grant pass, then an idle deadline if the record is left idle. -/
def State.settleRecord (s : State) (r : Slot) : State := (s.grantPass r).settleIdle r

/-! ### The end of a hold (R39) -/

/-- R39 step 3: a pending conversion is freed with its hold. -/
def State.freeConversion (s : State) (h : Hold) : State :=
  match h.conversion with
  | none => s
  | some v =>
    match s.wait v.index with
    | some y => s.dropWait v.index y
    | none => s

/-- R39 steps 1 to 4. -/
def State.freeHold (s : State) (i : HoldIx) (h : Hold) : State :=
  (((((s.modifyRecord h.slot fun x => { x with holders := x.holders.filter (· != i) }).removeEntry (.hold i)).freeConversion
    h).setHold i none).setHoldCounts
    { s.holdCounts with free := s.holdCounts.free + 1, inUse := s.holdCounts.inUse - 1 }).modifySession h.client
    fun k => { k with holdCount := k.holdCount - 1 }

/-- R39 step 5, R112: the LOST notice of a hold that has just ended. -/
def State.postLost (s : State) (handle : HoldHandle) (h : Hold) (cause : LostCause) : State :=
  s.postNotice h.client 0 (.lost handle h.fence cause h.conversion.isSome)

/-- R39: a hold ends with a LOST notice, and its record is settled. -/
def State.endHold (s : State) (i : HoldIx) (h : Hold) (cause : LostCause) : State :=
  ((s.freeHold i h).postLost (s.holdHandle i) h cause).settleRecord h.slot

/-! ### The end of a wait (R40) -/

/-- R40 step 5: the conversion field of a hold is cleared. -/
def State.clearConversion (s : State) (i : HoldIx) : State := s.modifyHold i fun h => { h with conversion := none }

/-- R40 steps 1 to 5. -/
def State.freeWait (s : State) (w : WaitIx) (y : Wait) : State :=
  match y.purpose with
  | .new =>
    ((s.dropWait w y).setHoldCounts
      { s.holdCounts with free := s.holdCounts.free + 1, reserved := s.holdCounts.reserved - 1 }).modifySession y.client
      fun k => { k with holdCount := k.holdCount - 1 }
  | .conversion h => (s.dropWait w y).clearConversion h.index

/-- R40 step 6, R112: the WAIT_ENDED notice of a wait that has just ended. -/
def State.postWaitEnded (s : State) (handle : WaitHandle) (y : Wait) (cause : WaitEndCause) : State :=
  s.postNotice y.client y.requestTag (.waitEnded handle cause)

/-- R40: a wait ends with a WAIT_ENDED notice, and its record is settled. -/
def State.endWait (s : State) (w : WaitIx) (y : Wait) (cause : WaitEndCause) : State :=
  ((s.freeWait w y).postWaitEnded (s.waitHandle w) y cause).settleRecord y.slot

/-! ### Making waits (R33, R37, R42) -/

/-- R32, R33, R37, R42: a FREE wait slot is filled with its generation advanced and the next arrival, its entry joins the
Deadline List, an idle deadline of the record is removed and the client's wait count rises by one. `place` puts the wait into
the record's queue. -/
def State.openWait (s : State) (w : WaitIx) (y : Wait) (place : List WaitIx → List WaitIx) : State :=
  ((((((s.setWaitSlot w ⟨(s.waitSlot w).generation + 1, some { y with arrival := s.arrival }⟩).setArrival
    (s.arrival + 1)).modifyRecord y.slot fun x => { x with waitQueue := place x.waitQueue }).addEntry (.wait w)
    y.deadline).clearIdle y.slot).modifySession y.client fun k => { k with waitCount := k.waitCount + 1 }).testWaitMark
    s.freeWaitCount

/-- R27, R29, R37, R174: a NEW wait reserves a hold slot and counts as a hold of its client. -/
def State.reserveHold (s : State) (c : Client) : State :=
  ((s.setHoldCounts { s.holdCounts with free := s.holdCounts.free - 1, reserved := s.holdCounts.reserved + 1 }).testHoldMark
    s.holdCounts.free).modifySession c fun k => { k with holdCount := k.holdCount + 1 }

/-- R98, R171: a QUEUED answer is counted. -/
def State.countWaitBegun (s : State) (c : Client) : State :=
  s.countClient c fun k => { k with waitsBegun := k.waitsBegun + 1 }

/-- R37: an ACQUIRE is queued as a NEW wait in wait slot w. -/
def State.queueNew (s : State) (w : WaitIx) (y : Wait) : State :=
  ((s.openWait w y (insertAfterLast (s.staysAhead y.priority) w)).reserveHold y.client).countWaitBegun y.client

/-- R42: an upgrade of hold i is queued as a CONVERSION wait in wait slot w, at the head. -/
def State.queueUpgrade (s : State) (i : HoldIx) (w : WaitIx) (y : Wait) : State :=
  let t := s.openWait w y (fun q => w :: q)
  (t.modifyHold i fun h => { h with conversion := some (t.waitHandle w) }).countWaitBegun y.client

/-- R34, R98: the position of a wait in the effective queue of its record, counted from 1. -/
def State.position (s : State) (r : Slot) (w : WaitIx) : Nat :=
  match s.record r with
  | some x => (s.effectiveQueue x).idxOf w + 1
  | none => 0

/-! ### Displacement (R38) -/

/-- A LAPSED hold of a client other than c. -/
def State.isLapsedOfOther (s : State) (c : Client) (i : HoldIx) : Bool :=
  match s.hold i with
  | some h => h.state == .lapsed && h.client != c
  | none => false

/-- R38: the holds that a request of client c for a mode displaces. DESIGN CHOICE (log 17): R38 says which holds these are and that
each ends under R39 with a grant pass of its own, and does not say in which order several of them end; here it is the order of
the holder list. That the one hold at the cap is the earliest of the list is R38's own. -/
def State.displaced (s : State) (c : Client) (x : Record) (m : Mode) : List HoldIx :=
  let lapsed := x.holders.filter (s.isLapsedOfOther c)
  match m with
  | .exclusive => lapsed
  | .shared =>
    let exclusive := lapsed.filter fun i => !s.isShared i
    if exclusive ≠ [] then exclusive
    else if x.holderCap ≤ x.holders.length then lapsed.take 1
    else []

/-- R38, R39: one displaced hold ends with LOST, cause DISPLACED. -/
def State.displaceOne (s : State) (i : HoldIx) : State :=
  match s.hold i with
  | some h => s.endHold i h .displaced
  | none => s

/-- R38: displacement by a request of client c for a mode on the record in slot r: each hold ends with its own grant pass, one after
the other in the order of State.displaced (log 17). -/
def State.displace (s : State) (c : Client) (r : Slot) (m : Mode) : State :=
  match s.record r with
  | some x => (s.displaced c x m).foldl State.displaceOne s
  | none => s

/-! ### Placement (R15, R16, R17) -/

/-- R16: the distance from now of the idle deadline in a slot, if one is present. -/
def State.idleDistance (s : State) (r : Slot) : Option Int :=
  match s.record r with
  | some x => x.idleDeadline.map (distance s.now)
  | none => none

/-- R16: of two candidates for reclaim the earlier, and of equal deadlines the lower-numbered way. -/
def State.earlierIdle (s : State) (best : Option Slot) (r : Slot) : Option Slot :=
  match s.idleDistance r with
  | none => best
  | some d =>
    match best with
    | none => some r
    | some b =>
      match s.idleDistance b with
      | some e => if d < e then some r else some b
      | none => some r

/-- R16: the way for a new record: the lowest free way, or the idle DYNAMIC record to be reclaimed; none when R17 applies. -/
def State.placeFor (s : State) (key : Word) : Option Slot :=
  match (s.waysOf key).find? fun r => (s.record r).isNone with
  | some r => some r
  | none => (s.waysOf key).foldl s.earlierIdle none

/-- R16: a record is placed in a way; a reclaimed record is retired first. -/
def State.place (s : State) (r : Slot) (x : Record) : State := (s.retire r).setRecord r (some x)

/-- R11: a fresh DYNAMIC record. -/
def freshRecord (key : Word) : Record := ⟨key, .dynamic, true, 8, 0, [], [], 0, none⟩

/-- R12: a fresh PINNED record. -/
def pinnedRecord (key : Word) (shareable : Bool) (cap : Nat) (maxTerm : Half) : Record :=
  ⟨key, .pinned, shareable, cap, maxTerm, [], [], 0, none⟩

end Sys2Proof.Machine
end

