-- ==== Sys2Proof/Machine/Session.lean ====
section
/-! DEFINITION. Taking a request (R143), the gating of a request by the session record (R85 to R88), entering PURGING (R78), the
start and the end of a purge (R80, R123, R130). -/

namespace Sys2Proof.Machine

/-! ### The take (R143) -/

/-- R143: the lowest-numbered FREE response slot. -/
def Link.freeSlot (k : Link) : Option (Fin 4) := (List.finRange 4).find? fun i => k.slots[i] == .free

/-- R143: the message a link takes and the slot it reserves, when all four conditions hold. -/
def Link.takable (k : Link) : Option (RxMessage × Fin 4) :=
  if k.enabled = true ∧ k.inProgress = none then
    match k.rxQueue, k.freeSlot with
    | m :: _, some i => some (m, i)
    | _, _ => none
  else none

/-- R143, steps 1 to 3: the oldest message leaves, slot i becomes RESERVED and joins the response queue, and the request in
progress is set. -/
def Link.beginTake (k : Link) (i : Fin 4) : Link :=
  { k with
    rxQueue := k.rxQueue.tail
    slots := k.slots.set i .reserved
    responseQueue := k.responseQueue ++ [i]
    inProgress := some (.reserved i) }

/-- R143: a take on link l of a message of this kind (none: MALFORMED by R178), handed to `act`. When the link takes
nothing, or its oldest message is not of the kind, nothing happens (log 1, 4). -/
def State.take (s : State) (l : Client) (kind : Option RequestKind) (act : RxMessage → State → State) : State :=
  match (s.link l).takable with
  | some (m, i) =>
    if m.requestKind = kind then act m (s.modifyLink l fun k => k.beginTake i) else s
  | none => s

/-! ### Gating (R85 to R88) -/

/-- R86: the outcome for a request that the client's state does not let pass. `newClaim`: an ACQUIRE, or a CONVERT with
target EXCLUSIVE. -/
def stateCheck (state : ClientState) (kind : RequestKind) (newClaim : Bool) : Option Reply :=
  match state with
  | .detached => if kind = .attach ∨ kind = .ping then none else some .notAttached
  | .active => none
  | .queryOnly => if newClaim then some .queryOnly else none
  | .purging => if kind = .ping then none else some .purging
  | .barred => if kind = .ping then none else some .barred

/-- R87: the tag check, which ATTACH and PING do not meet. -/
def tagCheck (k : Session) (kind : RequestKind) (tag : Byte) : Option Reply :=
  if kind = .attach ∨ kind = .ping then none else if tag = k.tag then none else some .staleSession

/-- R88: the credit check, by the refill in force (log 24). -/
def creditCheck (k : Session) (kind : RequestKind) : Option Reply :=
  if k.refillInForce = 0 then none else if k.credits < kind.cost then some .rate else none

/-- R85, checks 2 to 4, in order: the first that fails gives the outcome. -/
def gateRefusal (k : Session) (kind : RequestKind) (newClaim : Bool) (tag : Byte) : Option Reply :=
  match stateCheck k.state kind newClaim with
  | some r => some r
  | none =>
    match tagCheck k kind tag with
    | some r => some r
    | none => creditCheck k kind

/-- R88: the cost is subtracted, unless limiting is off by the refill in force (log 24). -/
def Session.spend (k : Session) (kind : RequestKind) : Session :=
  if k.refillInForce = 0 then k else { k with credits := k.credits - kind.cost }

/-- R85: a request whose form is good is gated, and decided if it passes. -/
def State.gated (s : State) (l : Client) (kind : RequestKind) (newClaim : Bool) (m : RxMessage) (act : State → State) :
    State :=
  match gateRefusal (s.session l) kind newClaim m.sessionTag with
  | some r => s.refuse l m.requestTag r
  | none => act (s.modifySession l fun k => k.spend kind)

/-! ### Purge start, entry and end -/

/-- R123: the purge of the client at the head starts. -/
def State.purgeStart (s : State) (c : Client) : State :=
  (s.modifyLink c Link.dropNotices).setPurge { s.purge with walk := .wait 0 }

/-- R122: the client joins the tail of the purge queue; its purge starts if the queue was empty (R78 step 2, R123). -/
def State.joinPurgeQueue (s : State) (c : Client) : State :=
  let t := s.setPurge { s.purge with queue := s.purge.queue ++ [c] }
  if s.purge.queue = [] then t.purgeStart c else t

/-- The wait slots of a client, in ascending order. -/
def State.waitsOf (s : State) (c : Client) : List WaitIx :=
  (List.finRange 128).filter fun w => match s.wait w with
    | some y => y.client == c
    | none => false

/-- R78 step 3: the grant pass on the record of one of the client's waits. -/
def State.passForWait (s : State) (w : WaitIx) : State :=
  match s.wait w with
  | some y => s.grantPass y.slot
  | none => s

/-- R78: a client enters PURGING. -/
def State.enterPurging (s : State) (c : Client) (after : AfterPurge) (pendingTag : Option Byte) (deferred : Option Deferred) :
    State :=
  let t := (s.modifySession c fun k =>
    { k with state := .purging, afterPurge := some after, pendingTag := pendingTag, deferred := deferred }).joinPurgeQueue c
  (t.waitsOf c).foldl State.passForWait t

/-- R80: the state a client takes at the end of its purge. A purging client has an after-purge state (R72); without one the
client would be DETACHED (log 9). -/
def finalState : Option AfterPurge → ClientState
  | some .active => .active
  | some .detached => .detached
  | some .barred => .barred
  | none => .detached

/-- R80: the answer to a deferred request. -/
def deferredReply (state : ClientState) (tag : Byte) : Reply :=
  match state with
  | .active => .attached tag
  | .detached => .detached
  | .barred => .barred
  | .queryOnly => .detached
  | .purging => .detached

/-- R80: the session record at the end of its purge. -/
def Session.endPurge (k : Session) : Session :=
  { k with
    state := finalState k.afterPurge
    tag := if k.afterPurge = some .active then k.pendingTag.getD 0 else 0
    afterPurge := none
    pendingTag := none
    deferred := none }

/-- R80, R130 step 2: the deferred request that a session record held is answered; the answer tells the client's state now. -/
def State.answerDeferred (s : State) (c : Client) (deferred : Option Deferred) : State :=
  match deferred with
  | some d => s.respond c d.requestTag (deferredReply (s.session c).state (s.session c).tag)
  | none => s

/-- R130 step 5: the purge of the next client starts, or the walk becomes idle. -/
def State.nextPurge (s : State) : State :=
  match s.purge.queue with
  | c :: _ => s.purgeStart c
  | [] => s.setPurge { s.purge with walk := .idle }

/-- R130: the purge of client c ends. -/
def State.purgeEnd (s : State) (c : Client) : State :=
  let t := (s.modifySession c Session.endPurge).answerDeferred c (s.session c).deferred
  ((t.setPurge { t.purge with queue := t.purge.queue.tail }).raise .purgeDone).nextPurge

end Sys2Proof.Machine
end

