-- ==== Sys2Proof/Machine/Requests.lean ====
section
/-! DEFINITION. The eleven rows of client requests: ATTACH to VALIDATE (R91 to R109) and MALFORMED_REQUEST (R178). -/

namespace Sys2Proof.Machine

/-- What exec answers with for a command that changed the state to s. -/
abbrev Result := Host.Outcome State Fault Refusal

/-! ### ATTACH, DETACH, PING -/

/-- R75, R76, R91: an ATTACH that has passed the gate. The state check leaves DETACHED, ACTIVE and QUERY_ONLY. -/
def State.decideAttach (s : State) (l : Client) (requestTag newTag : Byte) : State :=
  if (s.session l).state = .detached then
    (s.modifySession l fun k => { k with state := .active, tag := newTag }).respond l requestTag (.attached newTag)
  else if newTag = (s.session l).tag then s.respond l requestTag (.attached newTag)
  else s.enterPurging l .active (some newTag) (some ⟨.attach, requestTag⟩)

/-- ATTACH (R91). A body tag of 0 is MALFORMED (R179). -/
def execAttach (l : Client) (s : State) : Result :=
  .next (s.take l (some .attach) fun m t =>
    if m.body 0 = 0 then t.refuse l m.requestTag .malformed
    else t.gated l .attach false m fun u => u.decideAttach l m.requestTag (m.body 0))

/-- DETACH (R77, R92). -/
def execDetach (l : Client) (s : State) : Result :=
  .next (s.take l (some .detach) fun m t =>
    t.gated l .detach false m fun u => u.enterPurging l .detached none (some ⟨.detach, m.requestTag⟩))

/-- PING (R93). -/
def execPing (l : Client) (s : State) : Result :=
  .next (s.take l (some .ping) fun m t =>
    t.gated l .ping false m fun u =>
      u.respond l m.requestTag (.pong [m.body 0, m.body 1, m.body 2, m.body 3] (u.session l).state u.now))

/-! ### ACQUIRE -/

/-- R36, R48: a grant that a request would get is refused for want of a fence, and the flag is set again. -/
def State.refuseFence (s : State) (l : Client) (requestTag : Byte) : State :=
  (s.raise .fenceExhausted).refuse l requestTag .fenceExhausted

/-- R83: the hold quota test. -/
def State.atHoldQuota (s : State) (c : Client) : Bool :=
  decide ((s.session c).holdQuota.toNat * 4 ≤ (s.session c).holdCount)

/-- R83: the wait quota test. -/
def State.atWaitQuota (s : State) (c : Client) : Bool :=
  decide ((s.session c).waitQuota.toNat ≤ (s.session c).waitCount)

/-- R15: creation of a record by an ACQUIRE. -/
def State.acquireCreate (s : State) (l : Client) (requestTag : Byte) (b : AcquireBody) : State :=
  match s.placeFor b.key with
  | none => (s.raise .bucketFull).refuse l requestTag .bucketFull
  | some r =>
    if s.atHoldQuota l then s.refuse l requestTag .holdQuota
    else
      match s.availableHold with
      | none => s.refuse l requestTag .poolEmpty
      | some i =>
        if s.fence.exhausted then s.refuseFence l requestTag
        else
          let x := freshRecord b.key
          let t := (s.place r x).grantAtOnce i l r b.mode (s.clampTerm l x b.term)
          t.respond l requestTag (t.grantedReply i)

/-- R36: an ACQUIRE that meets the immediate-grant test. -/
def State.acquireNow (s : State) (l : Client) (requestTag : Byte) (b : AcquireBody) (r : Slot) (x : Record) : State :=
  match s.availableHold with
  | none => s.refuse l requestTag .poolEmpty
  | some i =>
    if s.fence.exhausted then s.refuseFence l requestTag
    else
      let t := s.grantAtOnce i l r b.mode (s.clampTerm l x b.term)
      t.respond l requestTag (t.grantedReply i)

/-- R37: an ACQUIRE that R36 does not grant. The QUEUED answer stands before the grant pass (log 7). -/
def State.acquireQueue (s : State) (l : Client) (requestTag : Byte) (b : AcquireBody) (r : Slot) (x : Record)
    (priority : BitVec 2) : State :=
  if b.waitTicks = 0 then s.refuse l requestTag .conflict
  else if s.atWaitQuota l then s.refuse l requestTag .waitQuota
  else
    match s.availableHold, s.lowestFreeWait with
    | some _, some w =>
      let t := s.queueNew w ⟨l, r, .new, b.mode, priority, s.arrival, s.after b.waitTicks, s.clampTerm l x b.term, requestTag⟩
      (t.respond l requestTag (.queued (t.waitHandle w) (t.position r w))).grantPass r
    | _, _ => s.refuse l requestTag .poolEmpty

/-- R95 steps 10 and 11: an ACQUIRE after displacement. -/
def State.acquireDecide (s : State) (l : Client) (requestTag : Byte) (b : AcquireBody) (r : Slot) : State :=
  match s.record r with
  | some x =>
    let priority := s.effectivePriority l b.urgency
    if s.wouldLead x priority ∧ s.compatible x b.mode none then s.acquireNow l requestTag b r x
    else s.acquireQueue l requestTag b r x priority
  | none => s.refuse l requestTag .noRecord

/-- R95 steps 5 to 11: an ACQUIRE on a key that is present. -/
def State.acquirePresent (s : State) (l : Client) (requestTag : Byte) (b : AcquireBody) (r : Slot) (x : Record) : State :=
  if x.shareable = false ∧ b.mode = .shared then s.refuse l requestTag .mode
  else
    match s.holdOf l x with
    | some i => s.refuse l requestTag (.alreadyHeld (s.holdHandle i))
    | none =>
      match s.waitOf l x with
      | some w => s.refuse l requestTag (.alreadyWaiting (s.waitHandle w))
      | none =>
        if s.atHoldQuota l then s.refuse l requestTag .holdQuota
        else (s.displace l r b.mode).acquireDecide l requestTag b r

/-- R84: whether a client's mask allows the domain of a key. -/
def State.allows (s : State) (c : Client) (key : Word) : Bool :=
  (s.session c).domainMask.getLsbD (domainOf key).toNat

/-- R95: the steps of an ACQUIRE that has passed the gate. -/
def State.decideAcquire (s : State) (l : Client) (requestTag : Byte) (b : AcquireBody) : State :=
  if s.allows l b.key = false then s.refuse l requestTag .domain
  else if s.isClosing (domainOf b.key) then s.refuse l requestTag .domainClosing
  else
    match s.lookup b.key with
    | none =>
      if b.create = false ∨ (s.session l).mayCreate = false then s.refuse l requestTag .noRecord
      else s.acquireCreate l requestTag b
    | some r =>
      match s.record r with
      | some x => s.acquirePresent l requestTag b r x
      | none => s.refuse l requestTag .noRecord

/-- ACQUIRE (R94, R95). -/
def execAcquire (l : Client) (s : State) : Result :=
  .next (s.take l (some .acquire) fun m t =>
    match m.acquireBody with
    | none => t.refuse l m.requestTag .malformed
    | some b => t.gated l .acquire true m fun u => u.decideAcquire l m.requestTag b)

/-! ### CONVERT -/

/-- R45, R67: a LAPSED hold returns to ACTIVE with a new deadline; on an ACTIVE hold the step does nothing. -/
def State.recover (s : State) (i : HoldIx) (h : Hold) (deadline : Word) : State :=
  if h.state = .lapsed then (s.modifyHold i fun k => { k with state := .active }).setHoldDeadline i deadline else s

/-- R47, R101 step 6: the downgrade. The answer stands before the grant pass (log 7). -/
def State.downgrade (s : State) (l : Client) (requestTag : Byte) (i : HoldIx) (r : Slot) : State :=
  let t := s.modifyHold i fun h => { h with mode := .shared }
  (t.respond l requestTag (t.grantedReply i)).settleRecord r

/-- R46, R101 step 9: the upgrade at once. -/
def State.upgradeNow (s : State) (l : Client) (requestTag : Byte) (b : ConvertBody) (i : HoldIx) (r : Slot) (x : Record) :
    State :=
  if s.fence.exhausted then s.refuseFence l requestTag
  else
    let t := (s.upgrade i r (s.clampTerm l x b.term)).countGrant l
    (t.respond l requestTag (t.grantedReply i)).settleRecord r

/-- R42, R101 step 10: the upgrade is queued or refused. -/
def State.convertQueue (s : State) (l : Client) (requestTag : Byte) (b : ConvertBody) (i : HoldIx) (r : Slot) (x : Record) :
    State :=
  if b.waitTicks = 0 then s.refuse l requestTag .conflict
  else if s.atWaitQuota l then s.refuse l requestTag .waitQuota
  else
    match s.lowestFreeWait with
    | none => s.refuse l requestTag .poolEmpty
    | some w =>
      let t := s.queueUpgrade i w
        ⟨l, r, .conversion (s.holdHandle i), .exclusive, (s.session l).ceiling, s.arrival, s.after b.waitTicks,
          s.clampTerm l x b.term, requestTag⟩
      (t.respond l requestTag (.queued (t.waitHandle w) 1)).grantPass r

/-- R101 steps 9 and 10: an upgrade after displacement. -/
def State.upgradeDecide (s : State) (l : Client) (requestTag : Byte) (b : ConvertBody) (i : HoldIx) (r : Slot) : State :=
  match s.record r with
  | some x =>
    if x.holders = [i] then s.upgradeNow l requestTag b i r x else s.convertQueue l requestTag b i r x
  | none => s.refuse l requestTag .badHandle

/-- R101 steps 5 to 10: a CONVERT on a hold that is ACTIVE now. -/
def State.convertActive (s : State) (l : Client) (requestTag : Byte) (b : ConvertBody) (i : HoldIx) (r : Slot) (x : Record) :
    State :=
  match b.target with
  | .shared =>
    if x.shareable = false then s.refuse l requestTag .mode else s.downgrade l requestTag i r
  | .exclusive =>
    if x.waitQueue.any s.isConversion then s.refuse l requestTag .convertConflict
    else (s.displace l r .exclusive).upgradeDecide l requestTag b i r

/-- R101: the steps of a CONVERT that has passed the gate. -/
def State.decideConvert (s : State) (l : Client) (requestTag : Byte) (b : ConvertBody) : State :=
  match s.ownNamedHold l b.index b.generation with
  | none => s.refuse l requestTag .badHandle
  | some (i, h) =>
    match s.record h.slot with
    | none => s.refuse l requestTag .badHandle
    | some x =>
      if b.target = h.mode then s.refuse l requestTag .mode
      else if b.target = .exclusive ∧ s.isClosing (domainOf x.key) then s.refuse l requestTag .domainClosing
      else (s.recover i h (s.after (s.clampTerm l x b.term))).convertActive l requestTag b i h.slot x

/-- CONVERT (R100, R101). -/
def execConvert (l : Client) (s : State) : Result :=
  .next (s.take l (some .convert) fun m t =>
    match m.convertBody with
    | none => t.refuse l m.requestTag .malformed
    | some b => t.gated l .convert (b.target = .exclusive) m fun u => u.decideConvert l m.requestTag b)

/-! ### RENEW, RELEASE, CANCEL -/

/-- R66, R67, R103: a RENEW with a valid handle: ACTIVE until now plus the clamped term. -/
def State.renewHold (s : State) (l : Client) (requestTag : Byte) (i : HoldIx) (x : Record) (term : Half) : State :=
  let deadline := s.after (s.clampTerm l x term)
  ((s.modifyHold i fun h => { h with state := .active }).setHoldDeadline i deadline).respond l requestTag (.renewed deadline)

/-- RENEW (R65 to R68, R103). -/
def execRenew (l : Client) (s : State) : Result :=
  .next (s.take l (some .renew) fun m t =>
    t.gated l .renew false m fun u =>
      match u.ownNamedHold l (m.body 0) (m.body 1) with
      | none => u.refuse l m.requestTag .badHandle
      | some (i, h) =>
        match u.record h.slot with
        | some x => u.renewHold l m.requestTag i x (m.half 2)
        | none => u.refuse l m.requestTag .badHandle)

/-- R39, R104: the named hold ends with a RELEASED response. -/
def State.releaseHold (s : State) (l : Client) (requestTag : Byte) (i : HoldIx) (h : Hold) : State :=
  ((s.freeHold i h).respond l requestTag (.released h.conversion.isSome)).settleRecord h.slot

/-- RELEASE (R104). -/
def execRelease (l : Client) (s : State) : Result :=
  .next (s.take l (some .release) fun m t =>
    t.gated l .release false m fun u =>
      match u.ownNamedHold l (m.body 0) (m.body 1) with
      | none => u.refuse l m.requestTag .badHandle
      | some (i, h) => u.releaseHold l m.requestTag i h)

/-- R40, R105: the named wait ends with a CANCELLED response. -/
def State.cancelNamed (s : State) (l : Client) (requestTag : Byte) (w : WaitIx) (y : Wait) : State :=
  ((s.freeWait w y).respond l requestTag .cancelled).settleRecord y.slot

/-- CANCEL (R105). -/
def execCancel (l : Client) (s : State) : Result :=
  .next (s.take l (some .cancel) fun m t =>
    t.gated l .cancel false m fun u =>
      match u.ownNamedWait l (m.body 0) (m.body 1) with
      | none => u.refuse l m.requestTag .badHandle
      | some (w, y) => u.cancelNamed l m.requestTag w y)

/-! ### QUERY, VALIDATE -/

/-- R107: the RECORD answer to client c. -/
def State.recordAnswer (s : State) (c : Client) (x : Record) : RecordAnswer where
  mode := s.recordMode x
  holders := x.holders.length
  waiters := (s.effectiveQueue x).length
  lastFence := x.lastFence
  kind := x.kind
  ownHold := (s.holdOf c x).map s.holdHandle
  ownWait := (s.waitOf c x).map s.waitHandle

/-- R106: the answer to a QUERY whose key's domain the client may name. -/
def State.queryReply (s : State) (c : Client) (key : Word) : Reply :=
  match (s.lookup key).bind s.record with
  | some x => .record (s.recordAnswer c x)
  | none => .noRecord

/-- QUERY (R106). -/
def execQuery (l : Client) (s : State) : Result :=
  .next (s.take l (some .query) fun m t =>
    t.gated l .query false m fun u =>
      if u.allows l (m.word 0) = false then u.refuse l m.requestTag .domain
      else u.respond l m.requestTag (u.queryReply l (m.word 0)))

/-- R109: the hold of a record that carries a fence. -/
def State.holderWithFence (s : State) (x : Record) (fence : Fence) : Option Hold :=
  x.holders.findSome? fun i => match s.hold i with
    | some h => if h.fence = fence then some h else none
    | none => none

/-- R109: the answer of VALIDATE's step 5. -/
def State.validateReply (s : State) (x : Record) (fence : Fence) : Reply :=
  match s.holderWithFence x fence with
  | none => .stale
  | some h =>
    if (s.session h.client).state = .purging then .stale
    else
      match h.state with
      | .active => .current h.mode
      | .lapsed => .lapsed

/-- R108: the steps of a VALIDATE that has passed the gate. -/
def State.decideValidate (s : State) (l : Client) (requestTag : Byte) (key : Word) (fence : Fence) : State :=
  if (s.session l).guardCapability = false then s.refuse l requestTag .notGuard
  else if s.allows l key = false then s.refuse l requestTag .domain
  else if s.isClosing (domainOf key) then s.respond l requestTag .stale
  else
    match (s.lookup key).bind s.record with
    | none => s.respond l requestTag .noRecord
    | some x => s.respond l requestTag (s.validateReply x fence)

/-- VALIDATE (R108, R109). -/
def execValidate (l : Client) (s : State) : Result :=
  .next (s.take l (some .validate) fun m t =>
    t.gated l .validate false m fun u => u.decideValidate l m.requestTag (m.word 0) (m.fence 4))

/-- MALFORMED_REQUEST (R178): a kind that is no request kind, or a length wrong for the kind. -/
def execMalformedRequest (l : Client) (s : State) : Result :=
  .next (s.take l none fun m t => t.refuse l m.requestTag .malformed)

end Sys2Proof.Machine
end

