-- ==== Sys2Proof/WellFormed.lean ====
section
/-! DEFINITION. Which commands are terms of their own row. Two rows share a kind of operand with others: a length out of
range (R138), and a window word that has no row of its own (the summary of SETTING_WRITE). exec gives a meaning to every
command, well-formed or not (log 5). -/

namespace Sys2Proof

/-- The addresses of the link-enable words, 0x0200 + 16n (Formats, the management window). -/
def isLinkEnableAddress (a : Half) : Bool :=
  (List.finRange 8).any fun n => a.toNat == 0x200 + 16 * n.val

/-- R138: a length that discards its message, below 2 or above 20. -/
def lengthOutOfRange (b : Byte) : Bool :=
  decide (b.toNat < 2) || decide (20 < b.toNat)

/-- A FRAMING command names a length only when it is out of range; a SETTING_WRITE names a word that has no row of its own:
not the flags word (FLAGS_WRITE), the enables word (ENABLES_WRITE) or a link's enable word (LINK_ENABLE, LINK_DISABLE). -/
def Instr.wellFormed : Instr → Bool
  | .framing _ (.length b) => lengthOutOfRange b
  | .settingWrite a _ => a != 0x0500 && a != 0x0501 && !isLinkEnableAddress a
  | .framing _ .broken => true
  | .powerOnReset => true
  | .attach _ => true
  | .detach _ => true
  | .ping _ => true
  | .acquire _ => true
  | .convert _ => true
  | .renew _ => true
  | .release _ => true
  | .cancel _ => true
  | .query _ => true
  | .validate _ => true
  | .malformedRequest _ => true
  | .tick => true
  | .dueLeaseEntry => true
  | .dueGraceEntry => true
  | .dueWaitEntry => true
  | .dueIdleRecordEntry => true
  | .purgeWaitStep => true
  | .purgeHoldStep => true
  | .messageComplete _ _ => true
  | .truncated _ _ => true
  | .gapLimit _ => true
  | .stray _ _ => true
  | .messageSent _ => true
  | .linkDisable _ => true
  | .linkEnable _ => true
  | .flagsWrite _ => true
  | .enablesWrite _ => true
  | .fenceCounterLatch _ => true
  | .installRecord => true
  | .unpinRecord => true
  | .removeRecord => true
  | .removeDomain => true
  | .domainWalkStep => true
  | .revokeHold => true
  | .cancelWait => true
  | .findRecord => true
  | .readRecord => true
  | .readHold => true
  | .readWait => true
  | .setClientState => true
  | .snapshotCounters => true
  | .clearAll => true
  | .setHashSeed => true
  | .characterReceived _ _ _ => true

end Sys2Proof
end

