-- ==== Sys2Proof/Machine/Receiver.lean ====
section
/-! DEFINITION. The receiver of a link: the three states (R137), framing faults (R138), the gap limit
(R139), the completion of a message (R140) and discards (R141). -/

namespace Sys2Proof.Machine

/-! ### Discards (R141) -/

/-- R141: the causes for which a message is discarded. -/
inductive DiscardCause where
  | framing
  | crc
  | truncated
  | overrun
deriving DecidableEq, Repr

/-- R170: the counter of a cause. -/
def DiscardCause.count (c : DiscardCause) (k : LinkCounters) : LinkCounters :=
  match c with
  | .framing => { k with framing := k.framing + 1 }
  | .crc => { k with crc := k.crc + 1 }
  | .truncated => { k with truncated := k.truncated + 1 }
  | .overrun => { k with overrun := k.overrun + 1 }

/-- R117, R141: a message is discarded; the receiver is then in the state given. -/
def State.discard (s : State) (l : Client) (cause : DiscardCause) (after : Receiver) : State :=
  (((s.modifyLink l fun k => { k with receiver := after, discardCount := countUp k.discardCount }).countLink l
    cause.count).raise .linkDiscard).choose l

/-! ### The receiver's actions (R137 to R140) -/

def State.setReceiver (s : State) (l : Client) (r : Receiver) : State := s.modifyLink l fun k => { k with receiver := r }

/-- R139: the gap that begins now is measured with the settings in force now. -/
def Link.newGap (k : Link) : Gap := ⟨k.gapLimit, k.divider, k.stopBits, 0⟩

/-- R137: a message begins with this character as its kind. -/
def State.beginMessage (s : State) (l : Client) (b : Byte) : State :=
  s.setReceiver l (.inMessage [b] (s.link l).newGap)

/-- R137: a character out of place in IDLE is counted STRAY. -/
def State.countStray (s : State) (l : Client) : State := s.countLink l fun k => { k with stray := k.stray + 1 }

/-- R136: the length a message announces, its second character. -/
def announcedLength (chars : List Byte) : Byte := chars.getD 1 0

/-- R140: the good message that a run of characters carries. -/
def messageOf (chars : List Byte) : RxMessage :=
  ⟨chars.getD 0 0, announcedLength chars, (chars.drop 2).take (announcedLength chars).toNat⟩

/-- R136, R140: whether the two checksum characters, high byte first, agree with the checksum computed. -/
def checksumGood (chars : List Byte) : Bool :=
  let n := 2 + (announcedLength chars).toNat
  crc16 (chars.take n) == chars.getD n 0 ++ chars.getD (n + 1) 0

/-- R140: the last character of a message has been received. -/
def State.completeMessage (s : State) (l : Client) (chars : List Byte) : State :=
  if checksumGood chars = false then s.discard l .crc .idle
  else if Config.receiveDepth ≤ (s.link l).rxQueue.length then s.discard l .overrun .idle
  else
    (s.modifyLink l fun k => { k with receiver := .idle, rxQueue := k.rxQueue ++ [messageOf chars] }).countLink l
      fun k => { k with good := k.good + 1 }

/-- R136, R140: whether these characters are a whole message, 4 + L of them. -/
def isWhole (chars : List Byte) : Bool := decide (2 ≤ chars.length) && chars.length == 4 + (announcedLength chars).toNat

/-- R137, R138, R140: a character with mark 0 in IN_MESSAGE. `chars` are the characters before it. -/
def State.extendMessage (s : State) (l : Client) (chars : List Byte) (b : Byte) : State :=
  if chars.length = 1 ∧ lengthOutOfRange b then s.discard l .framing .hunt
  else if isWhole (chars ++ [b]) then s.completeMessage l (chars ++ [b])
  else s.setReceiver l (.inMessage (chars ++ [b]) (s.link l).newGap)

/-- R137: a marked character in IN_MESSAGE. -/
def State.truncateMessage (s : State) (l : Client) (b : Byte) : State :=
  s.discard l .truncated (.inMessage [b] (s.link l).newGap)

/-- R137: a received character, by the receiver's state. A stopped receiver ignores the line (R146). -/
def State.receive (s : State) (l : Client) (b : Byte) (mark : Bool) : State :=
  match (s.link l).receiver, mark with
  | .idle, true => s.beginMessage l b
  | .idle, false => s.countStray l
  | .hunt, true => s.beginMessage l b
  | .hunt, false => s
  | .inMessage _ _, true => s.truncateMessage l b
  | .inMessage chars _, false => s.extendMessage l chars b
  | .stopped, _ => s

/-- R138: a broken character, by the receiver's state. -/
def State.receiveBroken (s : State) (l : Client) : State :=
  match (s.link l).receiver with
  | .inMessage _ _ => s.discard l .framing .hunt
  | .idle => s.setReceiver l .hunt
  | .hunt => s
  | .stopped => s

/-! ### The rows -/

/-- CHARACTER_RECEIVED (R137). Any received character has the effect R137 gives it (log 5). -/
def execCharacterReceived (l : Client) (b : Byte) (mark : Bool) (s : State) : Result := .next (s.receive l b mark)

/-- MESSAGE_COMPLETE (R140): the character is the last one of the message being assembled. -/
def execMessageComplete (l : Client) (b : Byte) (s : State) : Result :=
  .next (match (s.link l).receiver with
    | .inMessage chars _ =>
      if chars.length ≠ 1 ∧ isWhole (chars ++ [b]) then s.completeMessage l (chars ++ [b]) else s
    | _ => s)

/-- FRAMING (R138): a broken character, or a length out of range as the second character of a message. -/
def execFraming (l : Client) (f : FramingFault) (s : State) : Result :=
  .next (match f with
    | .broken => s.receiveBroken l
    | .length b =>
      match (s.link l).receiver with
      | .inMessage chars _ => if chars.length = 1 ∧ lengthOutOfRange b then s.discard l .framing .hunt else s
      | _ => s)

/-- TRUNCATED (R137): a marked character in IN_MESSAGE. -/
def execTruncated (l : Client) (b : Byte) (s : State) : Result :=
  .next (match (s.link l).receiver with
    | .inMessage _ _ => s.truncateMessage l b
    | _ => s)

/-- GAP_LIMIT (R137, R139): the gap limit runs out in IN_MESSAGE. -/
def execGapLimit (l : Client) (s : State) : Result :=
  .next (match (s.link l).receiver with
    | .inMessage _ _ => s.discard l .truncated .idle
    | _ => s)

/-- STRAY (R137): an unmarked character in IDLE. -/
def execStray (l : Client) (_b : Byte) (s : State) : Result :=
  .next (match (s.link l).receiver with
    | .idle => s.countStray l
    | _ => s)

end Sys2Proof.Machine
end

