-- ==== Sys2Proof/Machine/Framing.lean ====
section
/-! DEFINITION. The wires of a client link (R133 to R135, R139): the lengths of time that the settings name, in clocks of the 48 MHz
reference, the transmitter at its line, bit by bit, and the receiver at its line, sample by sample. What a clock does is
`TxLine.clock`, `LinkWire.receive` and, for the whole link, `Link.clock`; each answers with the happenings that it brings about,
as commands (log 10). -/

namespace Sys2Proof.Machine

/-! ### Lengths of time -/

/-- R51: a tick period in clocks; 10 µs are 480 clocks. -/
def LeaseTimer.periodClocks (t : LeaseTimer) : Nat := t.period.toNat * 480

/-- R134: a bit time in clocks, 16 times the sum of the divider and 1. -/
def bitClocks (divider : Byte) : Nat := 16 * (divider.toNat + 1)

/-- R133: a character's bit times: start, eight data bits, mark and the stop bits. -/
def characterBits (stopBits : BitVec 2) : Nat := 10 + stopBits.toNat

/-- R133, R134: the character time in clocks. -/
def characterClocks (divider : Byte) (stopBits : BitVec 2) : Nat := characterBits stopBits * bitClocks divider

/-- R139: the length of a gap that reaches its limit, in clocks. -/
def Gap.clocks (g : Gap) : Nat := g.limit.toNat * characterClocks g.divider g.stopBits

/-! ### Sending -/

/-- R133, R134, R120: one clock at the transmit line of link k, and whether the message in flight has been sent to its end with it. A
character is finished with the divider and the stop bits that it began with; the next one follows directly on its last stop bit
and takes the settings in force then. DESIGN CHOICE (log 10): so it does on a disabled link, too, whose last message is still in
flight: R134 has a write used from the next character begun, R145 a write to a disabled link when the link is enabled again. At rest with a message in flight, the message has been sent and MESSAGE_SENT is due. -/
def TxLine.clock (k : Link) (x : TxLine) : TxLine × Bool :=
  match k.inFlight, x with
  | none, _ => (.rest, false)
  | some _, .rest => (.rest, false)
  | some _, .sending divider bits clocks later =>
    if clocks + 1 < bitClocks divider then (.sending divider bits (clocks + 1) later, false)
    else if 1 < bits.length then (.sending divider bits.tail 0 later, false)
    else if later = [] then (.rest, true)
    else (.begin k later, false)

/-- R133: the level of a transmit line: 1 at rest, and the level of the bit time under way. -/
def TxLine.level : TxLine → Bool
  | .rest => true
  | .sending _ bits _ _ => bits.headD true

/-- R120, R133, R148: the level of the transmit line of link l. Without a message in flight it rests at 1. -/
def State.transmitLevel (s : State) (l : Client) : Bool :=
  match (s.link l).inFlight with
  | none => true
  | some _ => (s.link l).tx.level

/-! ### Receiving -/

/-- R135: the majority of the three middle samples of a bit time. -/
def majority (a b c : Bool) : Bool := (a && b) || (a && c) || (b && c)

/-- R135: bit time n of a character as sampled, 16 samples to a bit time from the start edge on: the seventh, eighth and ninth
decide it. -/
def sampledBit (samples : List Bool) (n : Nat) : Bool :=
  majority (samples.getD (16 * n + 6) true) (samples.getD (16 * n + 7) true) (samples.getD (16 * n + 8) true)

/-- R135: what the receiver decides a fall of the line to have been. -/
inductive Decided where
  /-- the start bit was decided 1: nothing is counted or discarded -/
  | noCharacter
  | received (c : Character)
  | broken
deriving DecidableEq, Repr

/-- R133: the byte whose bits were received, least significant bit first. -/
def byteOfLevels (d : Vector Bool 8) : Byte := BitVec.ofFnLE fun i => d[i]

/-- R135: the start bit, the eight data bits, the mark and the first stop bit, as decided. -/
def decideCharacter (start : Bool) (data : Vector Bool 8) (mark stop : Bool) : Decided :=
  if start then .noCharacter else if stop then .received ⟨byteOfLevels data, mark⟩ else .broken

/-- R135: the eleven bit times of a character as sampled from its start edge. The receiver tests only the first stop bit. -/
def decideSamples (samples : List Bool) : Decided :=
  decideCharacter (sampledBit samples 0) (Vector.ofFn fun i => sampledBit samples (i.val + 1)) (sampledBit samples 9)
    (sampledBit samples 10)

/-- R135, R137, R138: the command that a decided character is for link l. -/
def Decided.command (l : Client) : Decided → Option Sys2Proof.Instr
  | .noCharacter => none
  | .received c => some (.characterReceived l c.byte c.mark)
  | .broken => some (.framing l .broken)

/-- R135: the samples up to the ninth of the start bit, and up to the ninth of the first stop bit. -/
def startDecided : Nat := 9
def stopDecided : Nat := 169

/-- R135: one sample at a receive line, under the divider in force. Outside a character a fall from 1 to 0 begins one, with this
sample as its first. Inside one, the start bit and then the first stop bit end it; the line is watched again from that sample on,
so a line that stays at 0 gives no further fall. -/
def RxLine.sample (divider : Byte) (level : Bool) : RxLine → RxLine × Option Decided
  | .watching last =>
    (if last = some true ∧ level = false then .inside divider [level] else .watching (some level), none)
  | .inside d samples =>
    let all := samples ++ [level]
    if all.length = startDecided ∧ sampledBit all 0 = true then (.watching (some level), some .noCharacter)
    else if all.length = stopDecided then (.watching (some level), some (decideSamples all))
    else (.inside d all, none)

/-- R134: the divider a receiver samples with: inside a character, the one the character began with. -/
def RxLine.divider (k : Link) : RxLine → Byte
  | .watching _ => k.divider
  | .inside d _ => d

/-- R139: whether no start edge has been seen. -/
def RxLine.isWatching : RxLine → Bool
  | .watching _ => true
  | .inside _ _ => false

/-- R146, R147: the receive line is watched for a start edge from now on. Of what has been seen on it nothing is kept, nor a character
that has begun (log 25). -/
def LinkWire.watch (w : LinkWire) : LinkWire := { w with rx := .watching none, sampleClocks := 0 }

/-- R134, R135, R146: one clock at the receive line of link k, which samples 16 times in a bit time. A stopped receiver ignores the
line. -/
def LinkWire.receive (k : Link) (w : LinkWire) (level : Bool) : LinkWire × Option Decided :=
  if k.receiver = .stopped then (w.watch, none)
  else if w.sampleClocks < (w.rx.divider k).toNat then ({ w with sampleClocks := w.sampleClocks + 1 }, none)
  else ({ w with rx := (w.rx.sample k.divider level).1, sampleClocks := 0 }, (w.rx.sample k.divider level).2)

/-- R139: whether the running gap reaches its limit with the clock at hand. -/
def Receiver.gapEnds : Receiver → Bool
  | .inMessage _ g => decide (g.clocks ≤ g.elapsed + 1)
  | .idle => false
  | .hunt => false
  | .stopped => false

/-- R139: the running gap after one more clock. -/
def Receiver.gapPasses : Receiver → Receiver
  | .inMessage chars g => .inMessage chars { g with elapsed := g.elapsed + 1 }
  | .idle => .idle
  | .hunt => .hunt
  | .stopped => .stopped

/-! ### A clock of a link -/

/-- R120, R135, R139: one clock at the lines of link l, with the level on its receive line: the receive line after it, and the
happenings it brings about: a character or a broken one is decided, the gap limit runs out while no start edge has been seen, the message in flight has been
sent. Their order within one clock is log 25's. -/
def Link.clock (k : Link) (l : Client) (w : LinkWire) (level : Bool) : LinkWire × List Sys2Proof.Instr :=
  let rx := w.receive k level
  let heard := (rx.2.bind (Decided.command l)).toList
  let gap := if heard = [] ∧ rx.1.rx.isWatching = true ∧ k.receiver.gapEnds = true then [.gapLimit l] else []
  (rx.1, heard ++ gap ++ if (k.tx.clock k).2 then [.messageSent l] else [])

end Sys2Proof.Machine
end

