-- ==== Sys2Proof/Machine/LinkControl.lean ====
section
/-! DEFINITION. The end of a message on the transmit line (R120), and the disabling and enabling of a link (R146, R147). -/

namespace Sys2Proof.Machine

/-- R120: the message in flight on link l has been sent. -/
def State.messageSent (s : State) (l : Client) : State :=
  match (s.link l).inFlight with
  | some m => ((s.modifyLink l Link.finishSending).countLink l m.countSent).choose l
  | none => s

/-- R146: what becomes of a response slot at a disable. -/
def ResponseSlot.atDisable : ResponseSlot → ResponseSlot
  | .sending => .sending
  | .free => .free
  | .reserved => .free
  | .ready _ => .free

/-- R146: a link is disabled. The message in flight goes on; a request in progress is marked to be dropped. -/
def Link.disable (k : Link) : Link :=
  { k with
    enabled := false
    receiver := .stopped
    rxQueue := []
    inProgress := k.inProgress.map fun _ => .toBeDropped
    slots := k.slots.map ResponseSlot.atDisable
    responseQueue := k.responseQueue.filter fun i => k.slots[i] == .sending
    noticeQueue := []
    lossMark := false
    lossCount := 0
    discardCount := 0 }

/-- R147: a link is enabled; its receiver enters HUNT. -/
def Link.enable (k : Link) : Link := { k with enabled := true, receiver := .hunt }

/-- R146: a write of disabled; on a disabled link it changes nothing. -/
def State.disableLink (s : State) (l : Client) : State :=
  if (s.link l).enabled then s.modifyLink l Link.disable else s

/-- R147: a write of enabled; on an enabled link it changes nothing. The receiver begins to watch its line, and the transmitter to
choose. -/
def State.enableLink (s : State) (l : Client) : State :=
  if (s.link l).enabled then s else ((s.modifyWire l LinkWire.watch).modifyLink l Link.enable).choose l

/-- MESSAGE_SENT (R120). -/
def execMessageSent (l : Client) (s : State) : Result := .next (s.messageSent l)

/-- LINK_DISABLE (R146). -/
def execLinkDisable (l : Client) (s : State) : Result := .next (s.disableLink l)

/-- LINK_ENABLE (R147). -/
def execLinkEnable (l : Client) (s : State) : Result := .next (s.enableLink l)

end Sys2Proof.Machine
end

