-- ==== Sys2Proof/Machine/Window.lean ====
section
/-! DEFINITION. The management window (R149 to R153, the window's layout and R180 in Formats): which word an address names,
what a READ of it returns, and what a WRITE of it does. -/

namespace Sys2Proof.Machine

/-- The words of the management window, by the table of Formats. -/
inductive WindowWord where
  | tickPeriod
  | terms
  | idleAndGrace
  | urgencyMap
  | hashSeed
  | lowMarks
  | clientDomains (c : Client)
  | clientLimits (c : Client)
  | clientTerm (c : Client)
  | clientCredits (c : Client)
  | linkEnable (l : Client)
  | linkLine (l : Client)
  | clientStatus (c : Client)
  | clientCounts (c : Client)
  | holdPool
  | waitPool
  | fenceHigh
  | fenceLow
  | arrival
  | clock
  | purgeLength
  | purgeEntries
  | purgeWalk
  | adminStatus
  | domainWalk
  | interrupt
  | flags
  | enables
  | param (i : Fin 4)
  | command
  | resultCode
  | result (i : Fin 8)
  | snapshotClock
  | snapshotLink (l : Client) (i : Fin 8)
  | snapshotClient (c : Client) (i : Fin 8)
  | liveLink (l : Client) (i : Fin 8)
  | liveClient (c : Client) (i : Fin 8)
deriving DecidableEq, Repr

/-- An address of the form base + 16 n + offset for a client or link n. -/
def blockOf (base a : Nat) : Option (Client × Nat) :=
  if h : base ≤ a ∧ a < base + 128 then some (⟨(a - base) / 16, by omega⟩, (a - base) % 16) else none

/-- An address of the form base + 8 n + i for a client or link n. -/
def octetOf (base a : Nat) : Option (Client × Fin 8) :=
  if h : base ≤ a ∧ a < base + 64 then some (⟨(a - base) / 8, by omega⟩, ⟨(a - base) % 8, by omega⟩) else none

/-- The per-client and per-link words among the settings. -/
def settingBlock (a : Nat) : Option WindowWord :=
  match blockOf 0x100 a with
  | some (c, 0) => some (.clientDomains c)
  | some (c, 1) => some (.clientLimits c)
  | some (c, 2) => some (.clientTerm c)
  | some (c, 3) => some (.clientCredits c)
  | some _ => none
  | none =>
    match blockOf 0x200 a with
    | some (l, 0) => some (.linkEnable l)
    | some (l, 1) => some (.linkLine l)
    | _ => none

/-- The counter words, snapshot and live. -/
def counterBlock (a : Nat) : Option WindowWord :=
  match octetOf 0x710 a with
  | some (l, i) => some (.snapshotLink l i)
  | none =>
    match octetOf 0x750 a with
    | some (c, i) => some (.snapshotClient c i)
    | none =>
      match octetOf 0x810 a with
      | some (l, i) => some (.liveLink l i)
      | none =>
        match octetOf 0x850 a with
        | some (c, i) => some (.liveClient c i)
        | none => none

/-- The words that stand alone. -/
def singleWord (a : Nat) : Option WindowWord :=
  match a with
  | 0x0000 => some .tickPeriod
  | 0x0001 => some .terms
  | 0x0002 => some .idleAndGrace
  | 0x0003 => some .urgencyMap
  | 0x0004 => some .hashSeed
  | 0x0005 => some .lowMarks
  | 0x0410 => some .holdPool
  | 0x0411 => some .waitPool
  | 0x0412 => some .fenceHigh
  | 0x0413 => some .fenceLow
  | 0x0414 => some .arrival
  | 0x0415 => some .clock
  | 0x0416 => some .purgeLength
  | 0x0417 => some .purgeEntries
  | 0x0418 => some .purgeWalk
  | 0x0419 => some .adminStatus
  | 0x041A => some .domainWalk
  | 0x041B => some .interrupt
  | 0x0500 => some .flags
  | 0x0501 => some .enables
  | 0x0604 => some .command
  | 0x0605 => some .resultCode
  | 0x0700 => some .snapshotClock
  | _ => none

/-- The word an address names; none outside the window (R150). -/
def windowWord (address : Half) : Option WindowWord :=
  let a := address.toNat
  match singleWord a with
  | some w => some w
  | none =>
    if h : 0x400 ≤ a ∧ a < 0x408 then some (.clientStatus ⟨a - 0x400, by omega⟩)
    else if h : 0x408 ≤ a ∧ a < 0x410 then some (.clientCounts ⟨a - 0x408, by omega⟩)
    else if h : 0x600 ≤ a ∧ a < 0x604 then some (.param ⟨a - 0x600, by omega⟩)
    else if h : 0x606 ≤ a ∧ a < 0x60E then some (.result ⟨a - 0x606, by omega⟩)
    else
      match settingBlock a with
      | some w => some w
      | none => counterBlock a

/-! ### Reads -/

/-- R170: the eight counters of a link, in the order of the table. -/
def LinkCounters.words (k : LinkCounters) : List Word :=
  [k.good, k.framing, k.crc, k.truncated, k.overrun, k.stray, k.responsesSent, k.noticesSent]

/-- R171: the five counters of a client, in the order of the table; the last three words read 0. -/
def ClientCounters.words (k : ClientCounters) : List Word :=
  [k.grants, k.waitsBegun, k.refusals, k.holdsExpired, k.waitsTimedOut]

/-- Formats: the deferred-request field of a status word. -/
def deferredCode : Option Deferred → BitVec 2
  | none => 0
  | some ⟨.attach, _⟩ => 1
  | some ⟨.detach, _⟩ => 2

/-- The status word 0x0400 + n. -/
def Session.statusWord (k : Session) : Word :=
  bitsAt 0 k.state.code ||| bitsAt 8 k.tag ||| bitsAt 16 (afterPurgeCode k.afterPurge) ||| bitsAt 19 (deferredCode k.deferred) |||
    bitsAt 24 (k.pendingTag.getD 0)

/-- The status word 0x0408 + n. -/
def Session.countsWord (k : Session) : Word := natAt 0 k.credits ||| natAt 8 k.holdCount ||| natAt 16 k.waitCount

/-- The word 0x0101 + 16n. -/
def Session.limitsWord (k : Session) : Word :=
  bitsAt 0 k.holdQuota ||| bitsAt 8 k.waitQuota ||| bitsAt 16 k.ceiling ||| boolAt 24 k.mayCreate |||
    boolAt 25 k.guardCapability

/-- The word 0x0003: the entry for urgency u in bits 2u + 1 to 2u. -/
def urgencyWord (m : Vector (BitVec 2) 8) : Word :=
  (List.finRange 8).foldl (fun v u => v ||| bitsAt (2 * u.val) m[u]) 0

/-- The word 0x0417: the purge queue, head in bits 3 to 0. -/
def purgeWord : List Client → Word
  | [] => 0
  | c :: cs => natAt 0 c.val ||| (purgeWord cs <<< 4)

/-- Bits of a status word or a result word that stand where a field has no stated value (log 6). -/
def State.unstated (s : State) (address : Half) (mask : Word) : Word := Config.unstatedBits address s.now &&& mask

/-- The word 0x0418: phase, and the slot index when a walk is in progress. -/
def State.walkWord (s : State) : Word :=
  match s.purge.walk with
  | .idle => s.unstated 0x0418 0x0000FF00
  | .wait w => natAt 0 1 ||| natAt 8 w.val
  | .hold i => natAt 0 2 ||| natAt 8 i.val

/-- The word 0x0419: busy state, command in progress, closing domain while WALKING. -/
def State.adminWord (s : State) : Word :=
  match s.admin.busy with
  | .idle => s.unstated 0x0419 0x000FFF00
  | .pending c _ => natAt 0 1 ||| bitsAt 8 c.code ||| s.unstated 0x0419 0x000F0000
  | .walking k => natAt 0 2 ||| bitsAt 8 AdminCommand.removeDomain.code ||| bitsAt 16 k.domain

/-- The word 0x041A: the next slot of the domain walk, or 1024 when idle. -/
def State.domainWalkWord (s : State) : Word :=
  match s.admin.busy with
  | .walking k => natAt 0 k.next.val
  | .idle => 1024
  | .pending _ _ => 1024

/-- R149, R150, R152, R180: what a READ returns for a word, taken now. -/
def State.readWindow (s : State) : WindowWord → Word
  | .tickPeriod => bitsAt 0 s.timer.pendingPeriod
  | .terms => bitsAt 0 s.device.minTerm ||| bitsAt 16 s.device.maxTerm
  | .idleAndGrace => bitsAt 0 s.device.idleAge ||| bitsAt 16 s.device.graceTerm
  | .urgencyMap => urgencyWord s.device.urgencyMap
  | .hashSeed => bitsAt 0 s.hashSeed
  | .lowMarks => bitsAt 0 s.device.holdLowMark ||| bitsAt 8 s.device.waitLowMark
  | .clientDomains c => bitsAt 0 (s.session c).domainMask
  | .clientLimits c => (s.session c).limitsWord
  | .clientTerm c => bitsAt 0 (s.session c).defaultTerm
  | .clientCredits c => bitsAt 0 (s.session c).creditBurst ||| bitsAt 8 (s.session c).creditRefill
  | .linkEnable l => boolAt 0 (s.link l).enabled
  | .linkLine l => bitsAt 0 (s.link l).divider ||| bitsAt 8 (s.link l).stopBits ||| bitsAt 16 (s.link l).gapLimit
  | .clientStatus c => (s.session c).statusWord
  | .clientCounts c => (s.session c).countsWord
  | .holdPool => natAt 0 s.holdCounts.free ||| natAt 9 s.holdCounts.reserved ||| natAt 18 s.holdCounts.inUse
  | .waitPool => natAt 0 s.freeWaitCount
  | .fenceHigh => Sys2Proof.Machine.fenceHigh s.fence.next ||| boolAt 31 s.fence.exhausted
  | .fenceLow => s.port.latch.getD (Sys2Proof.Machine.fenceLow s.fence.next)
  | .arrival => s.arrival
  | .clock => s.now
  | .purgeLength => natAt 0 s.purge.queue.length
  | .purgeEntries => purgeWord s.purge.queue
  | .purgeWalk => s.walkWord
  | .adminStatus => s.adminWord
  | .domainWalk => s.domainWalkWord
  | .interrupt => boolAt 0 s.intActive
  | .flags => bitsAt 0 s.flags
  | .enables => bitsAt 0 s.enables
  | .param i => s.admin.params[i]
  | .command => bitsAt 0 s.admin.command
  | .resultCode => s.admin.resultCode
  | .result i => s.admin.results[i]
  | .snapshotClock => s.snapshot.clock
  | .snapshotLink l i => s.snapshot.bank.links[l].words.getD i.val 0
  | .snapshotClient c i => s.snapshot.bank.clients[c].words.getD i.val 0
  | .liveLink l i => s.live.links[l].words.getD i.val 0
  | .liveClient c i => s.live.clients[c].words.getD i.val 0

/-- R150: a READ of an address; outside the window it reads 0. -/
def State.readWord (s : State) (address : Half) : Word :=
  match windowWord address with
  | some w => s.readWindow w
  | none => 0

/-! ### Writes -/

/-- R150, R180: a field keeps its value when the value written is out of its range. -/
def accept {w : Nat} (ok : BitVec w → Bool) (old new : BitVec w) : BitVec w := if ok new then new else old

/-- A field of a word. -/
def field (v : Word) (lo w : Nat) : BitVec w := v.extractLsb' lo w

/-- R53, R180: a term, which is not 0. -/
def notZero {w : Nat} (v : BitVec w) : Bool := v != 0

/-- R51, R180: a tick period, 1 to 10,000. -/
def goodPeriod (v : BitVec 14) : Bool := v != 0 && decide (v.toNat ≤ 10000)

/-- R72, R180: a wait quota, 0 to 16. -/
def goodWaitQuota (v : BitVec 5) : Bool := decide (v.toNat ≤ 16)

/-- R174, R180: a wait low mark, 0 to 127, in a field of 8 bits. -/
def acceptWaitMark (old : BitVec 7) (v : BitVec 8) : BitVec 7 := if v.toNat < 128 then v.setWidth 7 else old

/-- R145, R180: stop bits, 1 or 2. -/
def goodStopBits (v : BitVec 2) : Bool := v == 1 || v == 2

/-- The word 0x0001 written. -/
def DeviceSettings.writeTerms (d : DeviceSettings) (v : Word) : DeviceSettings :=
  { d with
    minTerm := accept notZero d.minTerm (field v 0 16)
    maxTerm := accept notZero d.maxTerm (field v 16 16) }

/-- The word 0x0002 written. -/
def DeviceSettings.writeIdle (d : DeviceSettings) (v : Word) : DeviceSettings :=
  { d with idleAge := field v 0 16, graceTerm := field v 16 8 }

/-- The word 0x0003 written. -/
def DeviceSettings.writeUrgency (d : DeviceSettings) (v : Word) : DeviceSettings :=
  { d with urgencyMap := Vector.ofFn fun u => field v (2 * u.val) 2 }

/-- The word 0x0005 written. -/
def DeviceSettings.writeMarks (d : DeviceSettings) (v : Word) : DeviceSettings :=
  { d with holdLowMark := field v 0 8, waitLowMark := acceptWaitMark d.waitLowMark (field v 8 8) }

/-- The word 0x0101 + 16n written. -/
def Session.writeLimits (k : Session) (v : Word) : Session :=
  { k with
    holdQuota := field v 0 4
    waitQuota := accept goodWaitQuota k.waitQuota (field v 8 5)
    ceiling := field v 16 2
    mayCreate := v.getLsbD 24
    guardCapability := v.getLsbD 25 }

/-- The word 0x0103 + 16n written. -/
def Session.writeCredits (k : Session) (v : Word) : Session :=
  { k with creditBurst := accept notZero k.creditBurst (field v 0 8), creditRefill := field v 8 8 }

/-- The word 0x0201 + 16n written. -/
def Link.writeLine (k : Link) (v : Word) : Link :=
  { k with
    divider := field v 0 8
    stopBits := accept goodStopBits k.stopBits (field v 8 2)
    gapLimit := accept notZero k.gapLimit (field v 16 8) }

/-- R153: the completion of a command. -/
def State.complete (s : State) (code : ResultCode) (results : List Word) : State :=
  (s.setAdmin { s.admin with busy := .idle, resultCode := code.word, results := resultWords results }).raise .adminDone

/-- R153, R154, R181: a write of the command word, by the busy state. -/
def State.writeCommand (s : State) (v : Word) : State :=
  match s.admin.busy with
  | .idle =>
    let code : Byte := field v 0 8
    let t := s.setAdmin { s.admin with command := code }
    match AdminCommand.ofCode code with
    | some c => t.setAdmin { t.admin with busy := .pending c s.admin.params }
    | none => t.complete .badParameter []
  | .pending _ _ => s.raise .adminRefused
  | .walking _ => s.raise .adminRefused

/-- R145 to R147: a write of a link's enable word. -/
def State.writeLinkEnable (s : State) (l : Client) (v : Word) : State :=
  if v.getLsbD 0 then s.enableLink l else s.disableLink l

/-- R150, R151: a WRITE of a word of the window. Status words, results, the snapshot bank, live counters and the hash seed
ignore it. -/
def State.writeWindow (s : State) (v : Word) : WindowWord → State
  | .tickPeriod => s.setTimer { s.timer with pendingPeriod := accept goodPeriod s.timer.pendingPeriod (field v 0 14) }
  | .terms => s.setDevice (s.device.writeTerms v)
  | .idleAndGrace => s.setDevice (s.device.writeIdle v)
  | .urgencyMap => s.setDevice (s.device.writeUrgency v)
  | .hashSeed => s
  | .lowMarks => s.setDevice (s.device.writeMarks v)
  | .clientDomains c => s.modifySession c fun k => { k with domainMask := field v 0 16 }
  | .clientLimits c => s.modifySession c fun k => k.writeLimits v
  | .clientTerm c => s.modifySession c fun k => { k with defaultTerm := accept notZero k.defaultTerm (field v 0 16) }
  | .clientCredits c => s.modifySession c fun k => k.writeCredits v
  | .linkEnable l => s.writeLinkEnable l v
  | .linkLine l => s.modifyLink l fun k => k.writeLine v
  | .clientStatus _ => s
  | .clientCounts _ => s
  | .holdPool => s
  | .waitPool => s
  | .fenceHigh => s
  | .fenceLow => s
  | .arrival => s
  | .clock => s
  | .purgeLength => s
  | .purgeEntries => s
  | .purgeWalk => s
  | .adminStatus => s
  | .domainWalk => s
  | .interrupt => s
  | .flags => s.clearFlags v
  | .enables => s.setEnables (v.setWidth 9)
  | .param i => s.setAdmin { s.admin with params := s.admin.params.set i v }
  | .command => s.writeCommand v
  | .resultCode => s
  | .result _ => s
  | .snapshotClock => s
  | .snapshotLink _ _ => s
  | .snapshotClient _ _ => s
  | .liveLink _ _ => s
  | .liveClient _ _ => s

/-- R150: a WRITE of an address; outside the window it is ignored. -/
def State.writeWord (s : State) (address : Half) (v : Word) : State :=
  match windowWord address with
  | some w => s.writeWindow v w
  | none => s

/-! ### The rows -/

/-- SETTING_WRITE (R150, R151, R153, R180, R181). Any word of the window is written as its kind says (log 5). -/
def execSettingWrite (a : Half) (v : Word) (s : State) : Result := .next (s.writeWord a v)

/-- FLAGS_WRITE (R173). -/
def execFlagsWrite (v : Word) (s : State) : Result := .next (s.clearFlags v)

/-- ENABLES_WRITE (R173, R175). -/
def execEnablesWrite (v : Word) (s : State) : Result := .next (s.setEnables (v.setWidth 9))

/-- R149, R180: the latch and chip select. -/
def State.latchEvent (s : State) : LatchEvent → State
  | .readHigh => s.setPort { s.port with latch := some (fenceLow s.fence.next) }
  | .selectRises => s.setPort ⟨none, true⟩

/-- FENCE_COUNTER_LATCH (R180). -/
def execFenceCounterLatch (e : LatchEvent) (s : State) : Result := .next (s.latchEvent e)

end Sys2Proof.Machine
end

