-- ==== Sys2Proof/Machine/Spi.lean ====
section
/-! DEFINITION. The SPI bus (R149): how the bits of a transaction make words, what the port does at a clock with the levels of the
bus, which words a READ takes and when, and the level of the data output. A row such as SETTING_WRITE stands for a word completed
in a transaction that the port accepts (log 11). -/

namespace Sys2Proof.Machine

/-! ### The bits of a transaction -/

/-- R149: a field is sent most significant bit first. -/
def bitsToNat (bs : List Bool) : Nat := bs.foldl (fun n b => 2 * n + b.toNat) 0

/-- The row of the table that a WRITE of a word is. -/
def writeCommand (a : Half) (v : Word) : Sys2Proof.Instr :=
  match windowWord a with
  | some .flags => .flagsWrite v
  | some .enables => .enablesWrite v
  | some (.linkEnable l) => if v.getLsbD 0 then .linkEnable l else .linkDisable l
  | _ => .settingWrite a v

/-- R149, Formats: the opcodes. -/
inductive SpiOpcode where
  | read
  | write
deriving DecidableEq, Repr

/-- Formats: 0x03 READ, 0x02 WRITE; any other opcode makes the port ignore the rest. -/
def SpiOpcode.ofCode (n : Nat) : Option SpiOpcode := if n = 3 then some .read else if n = 2 then some .write else none

/-- R149: the opcode and the address of a transaction whose first 24 bits are complete. -/
def spiHeader (bs : List Bool) : Option (SpiOpcode × Half) :=
  if bs.length < 24 then none
  else (SpiOpcode.ofCode (bitsToNat (bs.take 8))).map fun o => (o, BitVec.ofNat 16 (bitsToNat ((bs.drop 8).take 16)))

/-- R149: the address of data word n of a transaction; from 0xFFFF the address advances to 0. -/
def wordAddress (a : Half) (n : Nat) : Half := a + BitVec.ofNat 16 n

/-- R149: the command of the word that the last bit sampled completes in a WRITE. -/
def completedWrite (bs : List Bool) : Option Sys2Proof.Instr :=
  match spiHeader bs with
  | some (.write, a) =>
    if 24 < bs.length ∧ (bs.length - 24) % 32 = 0 then
      some (writeCommand (wordAddress a ((bs.length - 24) / 32 - 1)) (BitVec.ofNat 32 (bitsToNat (bs.drop (bs.length - 32)))))
    else none
  | some (.read, _) => none
  | none => none

/-- R149: the address of the word whose first bit a READ begins to shift out at the falling edge after these bits: the word is taken
then. -/
def wordToTake (bs : List Bool) : Option Half :=
  match spiHeader bs with
  | some (.read, a) => if (bs.length - 24) % 32 = 0 then some (wordAddress a ((bs.length - 24) / 32)) else none
  | some (.write, _) => none
  | none => none

/-- R180: the command that the taking of a word is, if it is one. -/
def takeCommands (a : Half) : List Sys2Proof.Instr :=
  if windowWord a = some .fenceHigh then [.fenceCounterLatch .readHigh] else []

/-! ### A clock of the port -/

/-- R149, R180: one clock at the bus, for a port that has seen chip select high or not, with the levels of the pins; `read` gives the
words as they stand. A transaction runs from the fall of chip select to its rise. The data input is sampled at a rising edge, at
which the 32nd bit of a word writes it; a word of a READ is taken at the falling edge after which its first bit is shifted out. A
port that has not seen chip select high ignores the bus. -/
def SpiLine.clock (x : SpiLine) (seen : Bool) (p : Pins) (read : Half → Word) : SpiLine × List Sys2Proof.Instr :=
  if p.chipSelect then
    (⟨false, p.serialClock, [], []⟩, if x.selected then [.fenceCounterLatch .selectRises] else [])
  else if seen = false then (⟨false, p.serialClock, [], []⟩, [])
  else if x.selected = false then (⟨true, p.serialClock, [], []⟩, [])
  else if x.clockLevel = false ∧ p.serialClock = true then
    ({ x with clockLevel := true, bits := x.bits ++ [p.dataIn] }, (completedWrite (x.bits ++ [p.dataIn])).toList)
  else if x.clockLevel = true ∧ p.serialClock = false then
    match wordToTake x.bits with
    | some a => ({ x with clockLevel := false, taken := x.taken ++ [read a] }, takeCommands a)
    | none => ({ x with clockLevel := false }, [])
  else (x, [])

/-- R149: how many bits of the transaction the data output stands behind: it changes after each falling edge. -/
def SpiLine.shifted (x : SpiLine) : Nat := if x.clockLevel then x.bits.length - 1 else x.bits.length

/-- R149: the level of the data output in a transaction that the port accepts: 0 in the opcode and the address and under an opcode
that is neither, the word's bits from the most significant one in the data part of a READ. In the data part of a WRITE, and outside
such a transaction, R149 gives no level (none, log 11). -/
def SpiLine.output (x : SpiLine) : Option Bool :=
  if x.selected = false then none
  else if x.shifted < 24 then some false
  else
    match spiHeader x.bits with
    | some (.read, _) => some ((x.taken.getD ((x.shifted - 24) / 32) 0).getLsbD (31 - (x.shifted - 24) % 32))
    | some (.write, _) => none
    | none => some false

/-! ### A whole transaction -/

/-- R149: the levels of the bus over a transaction of these bits, in clock mode 0, a clock at a time: chip select falls; for each
bit the clock rises with the bit on the data input and falls again; chip select rises. -/
def transactionPins (p : Pins) (bs : List Bool) : List Pins :=
  [{ p with chipSelect := false, serialClock := false }] ++
    (bs.flatMap fun b =>
      [{ p with chipSelect := false, serialClock := true, dataIn := b },
        { p with chipSelect := false, serialClock := false, dataIn := b }]) ++
    [{ p with chipSelect := true, serialClock := false }]

/-- The port over a run of levels, with the commands that it gives. -/
def SpiLine.run (read : Half → Word) : SpiLine → List Pins → SpiLine × List Sys2Proof.Instr
  | x, [] => (x, [])
  | x, p :: ps =>
    let y := x.clock true p read
    let z := SpiLine.run read y.1 ps
    (z.1, y.2 ++ z.2)

/-- R149, R180: the commands of a transaction of these bits, from the fall of chip select to its rise, at a port that has seen chip
select high, while no word of the window changes. -/
def transactionCommands (read : Half → Word) (p : Pins) (bs : List Bool) : List Sys2Proof.Instr :=
  (SpiLine.run read ⟨false, false, [], []⟩ (transactionPins p bs)).2

end Sys2Proof.Machine
end

