-- ==== Sys2Proof/Machine/Clock.lean ====
section
/-! DEFINITION. One clock of the 48 MHz reference (R51, R120, R134, R135, R139, R149). It moves the prescaler, the lines and the
measure of the gaps on, reads the levels of the inputs, and puts the happenings that it brings about behind the commands that
wait; their effects are those of the rows (log 2, 10, 25). -/

namespace Sys2Proof.Machine

/-- R51: whether the prescaler completes the tick period in progress with the clock at hand. -/
def State.periodEnds (s : State) : Bool := decide (s.timer.periodClocks ≤ s.wires.prescaler + 1)

/-- The clock at the lines of link l. -/
def State.linkClock (s : State) (l : Client) : LinkWire × List Sys2Proof.Instr :=
  (s.link l).clock l s.wires.links[l] s.pins.receive[l]

/-- The clock at the SPI bus. -/
def State.spiClock (s : State) : SpiLine × List Sys2Proof.Instr :=
  s.wires.spi.clock s.port.seenSelectHigh s.pins s.readWord

/-- The wires after a clock. -/
def State.clockedWires (s : State) : Wires where
  prescaler := if s.periodEnds then 0 else s.wires.prescaler + 1
  links := Vector.ofFn fun l => (s.linkClock l).1
  spi := s.spiClock.1

/-- The happenings of a clock, in the order of log 25: the tick, then those of links 0 to 7, then those of the SPI bus. -/
def State.clockedCommands (s : State) : List Sys2Proof.Instr :=
  (if s.periodEnds then [.tick] else []) ++ (List.finRange 8).flatMap (fun l => (s.linkClock l).2) ++ s.spiClock.2

/-- R149: the port sees the level of chip select. -/
def Port.see (p : Port) (chipSelect : Bool) : Port := if chipSelect then { p with seenSelectHigh := true } else p

/-- One clock of the part. -/
def State.clockPasses (s : State) : State :=
  { s with
    wires := s.clockedWires
    links := s.links.map fun k => { k with receiver := k.receiver.gapPasses, tx := (k.tx.clock k).1 }
    port := s.port.see s.pins.chipSelect
    pending := s.pending ++ s.clockedCommands }

end Sys2Proof.Machine
end

