-- ==== Sys2Proof/Machine/Due.lean ====
section
/-! DEFINITION. The Lease Timer's tick (R50 to R52, R58, R71) and the taking of the four kinds of due entry (R59 to R64). -/

namespace Sys2Proof.Machine

/-- R71, R73: a session after a tick: the credit count, and the refill as written comes into force. -/
def Session.refill (k : Session) : Session :=
  { k with
    credits := min k.creditBurst.toNat (k.credits + k.creditRefill.toNat)
    refillInForce := k.creditRefill }

/-- R50, R52: the clock advances by one and the pending period takes effect. -/
def LeaseTimer.tick (t : LeaseTimer) : LeaseTimer := ⟨t.clock + 1, t.pendingPeriod, t.pendingPeriod⟩

/-- TICK (R50, R52, R58, R71). -/
def execTick (s : State) : Result :=
  .next (((s.setTimer s.timer.tick).setDeadlines (markDue (s.now + 1) s.deadlines)).setSessions
    (s.sessions.map Session.refill))

/-- R60: the four conditions for grace. -/
def State.getsGrace (s : State) (h : Hold) (x : Record) : Bool :=
  s.device.graceTerm != 0 && (s.effectiveQueue x).isEmpty && h.conversion.isNone &&
    (s.session h.client).state != .purging

/-- R60: the hold lapses into grace, with a LAPSED notice. -/
def State.lapse (s : State) (i : HoldIx) (h : Hold) : State :=
  let deadline := s.after (s.device.graceTerm.setWidth 16)
  ((s.modifyHold i fun k => { k with state := .lapsed }).setHoldDeadline i deadline).postNotice h.client 0
    (.lapsed (s.holdHandle i) deadline)

/-- R61, R62, R171: the hold ends with cause EXPIRED and the counter of holds lost by expiry advances. -/
def State.expireHold (s : State) (i : HoldIx) (h : Hold) : State :=
  (s.countClient h.client fun k => { k with holdsExpired := k.holdsExpired + 1 }).endHold i h .expired

/-- R63, R171: the wait ends with cause TIMEOUT and the counter of waits timed out advances. -/
def State.timeOutWait (s : State) (w : WaitIx) (y : Wait) : State :=
  (s.countClient y.client fun k => { k with waitsTimedOut := k.waitsTimedOut + 1 }).endWait w y .timeout

/-- R60, R61: the taking of a due entry of an ACTIVE hold. -/
def State.takeLease (s : State) (i : HoldIx) (h : Hold) : State :=
  match s.record h.slot with
  | some x => if s.getsGrace h x then s.lapse i h else s.expireHold i h
  | none => s.expireHold i h

/-- DUE_LEASE_ENTRY (R60, R61): the next marked entry refers to an ACTIVE hold. -/
def execDueLeaseEntry (s : State) : Result :=
  .next (match s.nextMarked with
    | some ⟨.hold i, _, _⟩ =>
      match s.hold i with
      | some h => if h.state = .active then s.takeLease i h else s
      | none => s
    | _ => s)

/-- DUE_GRACE_ENTRY (R62): the next marked entry refers to a LAPSED hold. -/
def execDueGraceEntry (s : State) : Result :=
  .next (match s.nextMarked with
    | some ⟨.hold i, _, _⟩ =>
      match s.hold i with
      | some h => if h.state = .lapsed then s.expireHold i h else s
      | none => s
    | _ => s)

/-- DUE_WAIT_ENTRY (R63): the next marked entry refers to a wait. -/
def execDueWaitEntry (s : State) : Result :=
  .next (match s.nextMarked with
    | some ⟨.wait w, _, _⟩ =>
      match s.wait w with
      | some y => s.timeOutWait w y
      | none => s
    | _ => s)

/-- DUE_IDLE_RECORD_ENTRY (R19, R20, R64): the next marked entry refers to an idle record, which is retired silently. -/
def execDueIdleRecordEntry (s : State) : Result :=
  .next (match s.nextMarked with
    | some ⟨.record r, _, _⟩ => s.retire r
    | _ => s)

end Sys2Proof.Machine
end

