-- ==== Sys2Proof/Machine/Purge.lean ====
section
/-! DEFINITION. The steps of the purge walk (R124 to R126, R130). -/

namespace Sys2Proof.Machine

/-- R124: the walk position moves to another slot. -/
def State.setWalk (s : State) (p : WalkPosition) : State := s.setPurge { s.purge with walk := p }

/-- R124: the position after the step on a wait slot. -/
def afterWaitStep (w : WaitIx) : WalkPosition := if h : w.val + 1 < 128 then .wait ⟨w.val + 1, h⟩ else .hold 0

/-- R125: the work of a step on a wait slot for the purging client. -/
def State.purgeWait (s : State) (c : Client) (w : WaitIx) : State :=
  match s.wait w with
  | some y => if y.client = c then (s.freeWait w y).settleRecord y.slot else s
  | none => s

/-- R126: the work of a step on a hold slot for the purging client. -/
def State.purgeHold (s : State) (c : Client) (i : HoldIx) : State :=
  match s.hold i with
  | some h => if h.client = c then (s.freeHold i h).settleRecord h.slot else s
  | none => s

/-- PURGE_WAIT_STEP (R124, R125). -/
def execPurgeWaitStep (s : State) : Result :=
  .next (match s.purge.queue, s.purge.walk with
    | c :: _, .wait w => (s.purgeWait c w).setWalk (afterWaitStep w)
    | _, _ => s)

/-- PURGE_HOLD_STEP (R124, R126), and the end of the purge with the step on hold slot 255 (R130). -/
def execPurgeHoldStep (s : State) : Result :=
  .next (match s.purge.queue, s.purge.walk with
    | c :: _, .hold i =>
      if h : i.val + 1 < 256 then (s.purgeHold c i).setWalk (.hold ⟨i.val + 1, h⟩) else (s.purgeHold c i).purgeEnd c
    | _, _ => s)

end Sys2Proof.Machine
end

