-- ==== Sys2Proof/Machine/Admin.lean ====
section
/-! DEFINITION. The commands of the Admin Engine (R154 to R167), each taken by its owner as one happening when it is PENDING, and
the steps of the domain walk (R157, R158). -/

namespace Sys2Proof.Machine

/-- R154: the taking of a command by its owner. When another command, or none, is PENDING, nothing happens (log 1). -/
def State.takeCommand (s : State) (c : AdminCommand) (act : Vector Word 4 → State → State) : State :=
  match s.admin.busy with
  | .pending d p => if d = c then act p s else s
  | .idle => s
  | .walking _ => s

/-! ### Records (R155, R156) -/

/-- R13: the new attributes conflict with the holders or waits of the record. -/
def State.installConflict (s : State) (x : Record) (shareable : Bool) (cap : Nat) : Bool :=
  (!shareable && (x.holders.any s.isShared || x.waitQueue.any fun w => match s.wait w with
    | some y => y.mode == .shared
    | none => false)) ||
  decide (cap < x.holders.length)

/-- R13: a loosening change. -/
def loosens (x : Record) (shareable : Bool) (cap : Nat) : Bool := (!x.shareable && shareable) || decide (x.holderCap < cap)

/-- R13: the record takes the attributes and is PINNED; a loosening change runs a grant pass. -/
def State.installOn (s : State) (r : Slot) (x : Record) (shareable : Bool) (cap : Nat) (maxTerm : Half) : State :=
  let t := (s.modifyRecord r fun x =>
    { x with kind := .pinned, shareable := shareable, holderCap := cap, maxTerm := maxTerm }).clearIdle r
  if loosens x shareable cap then t.grantPass r else t

/-- R155: INSTALL RECORD. -/
def State.install (s : State) (p : Vector Word 4) : State :=
  let key := p[0]
  let shareable := p[1].getLsbD 0
  let cap := (field p[1] 8 4).toNat
  let maxTerm : Half := field p[1] 16 16
  if cap = 0 ∨ 8 < cap then s.complete .badParameter []
  else
    match s.lookup key with
    | some r =>
      match s.record r with
      | some x =>
        if s.installConflict x shareable cap then s.complete .recordBusy []
        else (s.installOn r x shareable cap maxTerm).complete .done [natAt 0 r.val, 0]
      | none => s.complete .noRecord []
    | none =>
      match s.placeFor key with
      | none => (s.raise .bucketFull).complete .bucketFull []
      | some r => (s.place r (pinnedRecord key shareable cap maxTerm)).complete .done [natAt 0 r.val, 1]

/-- INSTALL_RECORD (R12, R13, R16, R17, R155). -/
def execInstallRecord (s : State) : Result := .next (s.takeCommand .installRecord fun p t => t.install p)

/-- R14: a PINNED record becomes DYNAMIC, with a grant pass and, if it is idle, an idle deadline. -/
def State.unpinOn (s : State) (r : Slot) (x : Record) : State :=
  match x.kind with
  | .dynamic => s
  | .pinned =>
    (s.modifyRecord r fun x =>
      { x with kind := .dynamic, shareable := true, holderCap := 8, maxTerm := 0 }).settleRecord r

/-- R14, R155: UNPIN RECORD. -/
def State.unpin (s : State) (p : Vector Word 4) : State :=
  match s.lookup p[0] with
  | some r =>
    match s.record r with
    | some x => (s.unpinOn r x).complete .done [natAt 0 r.val]
    | none => s.complete .noRecord []
  | none => s.complete .noRecord []

/-- UNPIN_RECORD (R14). -/
def execUnpinRecord (s : State) : Result := .next (s.takeCommand .unpinRecord fun p t => t.unpin p)

/-- R156 step 1: one wait of a record that is removed. -/
def State.removeWait (s : State) (w : WaitIx) : State :=
  match s.wait w with
  | some y => (s.freeWait w y).postWaitEnded (s.waitHandle w) y .removed
  | none => s

/-- R156 step 2: one hold of a record that is removed. -/
def State.removeHold (s : State) (i : HoldIx) : State :=
  match s.hold i with
  | some h => (s.freeHold i h).postLost (s.holdHandle i) h .removed
  | none => s

/-- R156 steps 1 to 3: the waits in queue order, the holds in list order, then the record. -/
def State.removeClaims (s : State) (r : Slot) (x : Record) : State :=
  (x.holders.foldl State.removeHold (x.waitQueue.foldl State.removeWait s)).retire r

/-- R156: REMOVE RECORD. -/
def State.remove (s : State) (p : Vector Word 4) : State :=
  match s.lookup p[0] with
  | some r =>
    match s.record r with
    | some x =>
      (s.removeClaims r x).complete .done
        [natAt 0 r.val, natAt 0 x.holders.length, natAt 0 x.waitQueue.length]
    | none => s.complete .noRecord []
  | none => s.complete .noRecord []

/-- REMOVE_RECORD (R156). -/
def execRemoveRecord (s : State) : Result := .next (s.takeCommand .removeRecord fun p t => t.remove p)

/-! ### The domain walk (R157, R158) -/

/-- R157, R158: the totals after the step on a slot with this record. -/
def DomainWalk.add (k : DomainWalk) (x : Record) : DomainWalk :=
  { k with records := k.records + 1, holds := k.holds + x.holders.length, waits := k.waits + x.waitQueue.length }

/-- R157, R158: the walk moves past its slot, or ends after slot 1023. -/
def State.advanceWalk (s : State) (k : DomainWalk) : State :=
  if h : k.next.val + 1 < 1024 then
    s.setAdmin { s.admin with busy := .walking { k with next := ⟨k.next.val + 1, h⟩ } }
  else
    (s.setMark k.domain false).complete .done
      [bitsAt 0 k.domain, natAt 0 k.records, natAt 0 k.holds, natAt 0 k.waits]

/-- R157: the step on the walk's next slot. -/
def State.walkStep (s : State) (k : DomainWalk) : State :=
  match s.record k.next with
  | some x =>
    if domainOf x.key = k.domain then (s.removeClaims k.next x).advanceWalk (k.add x) else s.advanceWalk k
  | none => s.advanceWalk k

/-- R157: the taking of a valid REMOVE DOMAIN is the walk's first step. -/
def State.beginWalk (s : State) (d : BitVec 4) : State := (s.setMark d true).walkStep ⟨d, 0, 0, 0, 0⟩

/-- REMOVE_DOMAIN (R157, R181). -/
def execRemoveDomain (s : State) : Result :=
  .next (s.takeCommand .removeDomain fun p t =>
    if 15 < p[0].toNat then t.complete .badParameter [] else t.beginWalk (field p[0] 0 4))

/-- DOMAIN_WALK_STEP (R157, R158). -/
def execDomainWalkStep (s : State) : Result :=
  .next (match s.admin.busy with
    | .walking k => s.walkStep k
    | .idle => s
    | .pending _ _ => s)

/-! ### Holds and waits (R160, R161) -/

/-- R160: REVOKE HOLD. -/
def State.revoke (s : State) (p : Vector Word 4) : State :=
  match s.namedHold (field p[0] 8 8) (field p[0] 0 8) with
  | none => s.complete .badHandle []
  | some (i, h) =>
    (s.endHold i h .revoked).complete .done
      [natAt 0 h.client.val, natAt 0 h.slot.val, fenceHigh h.fence, fenceLow h.fence,
        bitsAt 0 (boolCode h.conversion.isSome)]

/-- REVOKE_HOLD (R160). -/
def execRevokeHold (s : State) : Result := .next (s.takeCommand .revokeHold fun p t => t.revoke p)

/-- Formats: the purpose in the results of CANCEL WAIT and READ WAIT. -/
def Purpose.code : Purpose → Byte
  | .new => 0
  | .conversion _ => 1

/-- R161: CANCEL WAIT. -/
def State.cancelByManager (s : State) (p : Vector Word 4) : State :=
  match s.namedWait (field p[0] 8 8) (field p[0] 0 8) with
  | none => s.complete .badHandle []
  | some (w, y) =>
    (s.endWait w y .cancelledByManager).complete .done
      [natAt 0 y.client.val, natAt 0 y.slot.val, bitsAt 0 y.purpose.code]

/-- CANCEL_WAIT (R161). -/
def execCancelWait (s : State) : Result := .next (s.takeCommand .cancelWait fun p t => t.cancelByManager p)

/-! ### Reading the table (R162, R163) -/

/-- FIND_RECORD (R162). -/
def execFindRecord (s : State) : Result :=
  .next (s.takeCommand .findRecord fun p t =>
    match t.lookup p[0] with
    | some r =>
      match t.record r with
      | some x => t.complete .done [natAt 0 r.val, bitsAt 0 x.kind.code]
      | none => t.complete .noRecord []
    | none => t.complete .noRecord [])

/-- R162: part 0 of a record. DESIGN CHOICE (log 6): W3 is the field of the idle deadline, and Formats gives it no value when no idle
deadline is present; it is a free value then. -/
def State.recordPart0 (s : State) (x : Record) : List Word :=
  [x.key,
    bitsAt 0 x.kind.code ||| boolAt 2 x.shareable ||| natAt 4 x.holderCap ||| bitsAt 8 (s.recordMode x).code |||
      natAt 16 x.holders.length ||| natAt 24 x.waitQueue.length,
    bitsAt 0 x.maxTerm ||| boolAt 16 x.idleDeadline.isSome,
    x.idleDeadline.getD (s.unstated 0x0609 0xFFFFFFFF),
    fenceHigh x.lastFence,
    fenceLow x.lastFence]

/-- R162: part 1 of a record. -/
def State.recordPart1 (s : State) (x : Record) : List Word :=
  [x.key, natAt 0 x.holders.length ||| natAt 8 x.waitQueue.length] ++
    packHalves (x.holders.map (fun i => (s.holdHandle i).half) ++ x.waitQueue.map fun w => (s.waitHandle w).half)

/-- R162, R181: READ RECORD. -/
def State.readRecordCommand (s : State) (p : Vector Word 4) : State :=
  if h : p[0].toNat < 1024 then
    if 1 < p[1].toNat then s.complete .badParameter []
    else
      match s.record ⟨p[0].toNat, h⟩ with
      | none => s.complete .noRecord []
      | some x => s.complete .done (if p[1] = 0 then s.recordPart0 x else s.recordPart1 x)
  else s.complete .badParameter []

/-- READ_RECORD (R162). -/
def execReadRecord (s : State) : Result := .next (s.takeCommand .readRecord fun p t => t.readRecordCommand p)

/-- Formats: the state of a hold in READ HOLD. -/
def HoldState.code : HoldState → Byte
  | .active => 1
  | .lapsed => 2

/-- R163: the result words of READ HOLD for a slot. DESIGN CHOICE (log 6): bits 15 to 0 of W5 are the field of the conversion handle,
and Formats gives it no value when the conversion field is absent; they are the free value `unstated` then. -/
def HoldSlot.words (unstated : Half) (k : HoldSlot) : List Word :=
  match k.occupant with
  | none => [bitsAt 8 k.generation]
  | some h =>
    [bitsAt 0 h.state.code ||| bitsAt 8 k.generation ||| natAt 16 h.client.val ||| bitsAt 20 h.mode.code,
      natAt 0 h.slot.val,
      fenceHigh h.fence,
      fenceLow h.fence,
      h.deadline,
      match h.conversion with
      | some v => bitsAt 0 v.half ||| boolAt 16 true
      | none => bitsAt 0 unstated]

/-- READ_HOLD (R163). -/
def execReadHold (s : State) : Result :=
  .next (s.takeCommand .readHold fun p t =>
    if h : p[0].toNat < 256 then
      t.complete .done ((t.holdSlot ⟨p[0].toNat, h⟩).words ((t.unstated 0x060B 0x0000FFFF).setWidth 16))
    else t.complete .badParameter [])

/-- R163: the result words of READ WAIT for a slot. W5 is a field of a CONVERSION wait only, so R182 makes it 0 for a NEW one. -/
def WaitSlot.words (k : WaitSlot) : List Word :=
  match k.occupant with
  | none => [bitsAt 8 k.generation]
  | some y =>
    [natAt 0 1 ||| bitsAt 8 k.generation ||| natAt 16 y.client.val ||| bitsAt 20 y.purpose.code ||| bitsAt 22 y.mode.code |||
        bitsAt 24 y.priority,
      natAt 0 y.slot.val,
      y.arrival,
      y.deadline,
      bitsAt 0 y.term ||| bitsAt 16 y.requestTag,
      match y.purpose with
      | .conversion h => bitsAt 0 h.half
      | .new => 0]

/-- READ_WAIT (R163). -/
def execReadWait (s : State) : Result :=
  .next (s.takeCommand .readWait fun p t =>
    if h : p[0].toNat < 128 then t.complete .done (t.waitSlot ⟨p[0].toNat, h⟩).words else t.complete .badParameter [])

/-! ### Sessions (R81, R164) -/

/-- R81: the table of actions and states; none is BAD_STATE. -/
def State.applyAction (s : State) (c : Client) (a : ClientAction) : Option State :=
  match a, (s.session c).state with
  | .queryOnly, .active => some (s.modifySession c fun k => { k with state := .queryOnly })
  | .queryOnly, .queryOnly => some s
  | .active, .queryOnly => some (s.modifySession c fun k => { k with state := .active })
  | .active, .active => some s
  | .bar, .active => some (s.enterPurging c .barred none none)
  | .bar, .queryOnly => some (s.enterPurging c .barred none none)
  | .bar, .detached => some (s.modifySession c fun k => { k with state := .barred })
  | .bar, .purging => some (s.modifySession c fun k => { k with afterPurge := some .barred, pendingTag := none })
  | .unbar, .barred => some (s.modifySession c fun k => { k with state := .detached, tag := 0 })
  | .purge, .active => some (s.enterPurging c .detached none none)
  | .purge, .queryOnly => some (s.enterPurging c .detached none none)
  | _, _ => none

/-- R164: the result words of SET CLIENT STATE. -/
def State.clientStateWords (s : State) (c : Client) : List Word :=
  [bitsAt 0 (s.session c).state.code, bitsAt 0 (afterPurgeCode (s.session c).afterPurge)]

/-- R81, R164, R181: SET CLIENT STATE. -/
def State.setClient (s : State) (p : Vector Word 4) : State :=
  if h : p[0].toNat < 8 then
    match ClientAction.ofWord p[1] with
    | none => s.complete .badParameter []
    | some a =>
      match s.applyAction ⟨p[0].toNat, h⟩ a with
      | some t => t.complete .done (t.clientStateWords ⟨p[0].toNat, h⟩)
      | none => s.complete .badState (s.clientStateWords ⟨p[0].toNat, h⟩)
  else s.complete .badParameter []

/-- SET_CLIENT_STATE (R81, R164). -/
def execSetClientState (s : State) : Result := .next (s.takeCommand .setClientState fun p t => t.setClient p)

/-! ### Counters and the whole part (R165 to R167, R3) -/

/-- R165: the live counters and the clock are copied; with the clear option the live counters become 0. -/
def State.takeSnapshot (s : State) (clear : Bool) : State :=
  let t := s.setSnapshot ⟨s.now, s.live⟩
  if clear then t.setLive CounterBank.zero else t

/-- SNAPSHOT_COUNTERS (R165, R181). -/
def execSnapshotCounters (s : State) : Result :=
  .next (s.takeCommand .snapshotCounters fun p t =>
    if 1 < p[0].toNat then t.complete .badParameter []
    else (t.takeSnapshot (p[0] == 1)).complete .done [t.now])

/-- SET_HASH_SEED (R3, R167, R181). -/
def execSetHashSeed (s : State) : Result :=
  .next (s.takeCommand .setHashSeed fun p t =>
    if 255 < p[0].toNat then t.complete .badParameter [bitsAt 0 t.hashSeed]
    else if (List.finRange 1024).any fun r => (t.record r).isSome then t.complete .tableNotEmpty [bitsAt 0 t.hashSeed]
    else (t.setSeed (field p[0] 0 8)).complete .done [bitsAt 0 (field p[0] 0 8)])

/-- R82: a session record at CLEAR ALL. -/
def Session.clear (k : Session) : Session :=
  let counted := { k with holdCount := 0, waitCount := 0 }
  if k.state = .barred then counted
  else { counted with state := .detached, tag := 0, afterPurge := none, pendingTag := none, deferred := none }

/-- R148: a link at CLEAR ALL, before a deferred request is answered. -/
def Link.clear (k : Link) : Link := { k.dropNotices with discardCount := 0 }

/-- R82, R148: the deferred request that client c's session record held before is answered CLEARED. -/
def State.answerCleared (before : State) (s : State) (c : Client) : State :=
  match (before.session c).deferred with
  | some d => s.respond c d.requestTag .cleared
  | none => s

/-- R30, R82, R132, R148, R166: everything that CLEAR ALL frees, empties and detaches; generations are kept. -/
def State.clearPart (s : State) : State :=
  { s with
    records := Vector.replicate 1024 none
    closing := Vector.replicate 16 false
    holds := s.holds.map fun k => { k with occupant := none }
    holdCounts := ⟨256, 0, 0⟩
    waits := s.waits.map fun k => { k with occupant := none }
    deadlines := []
    sessions := s.sessions.map Session.clear
    links := s.links.map Link.clear
    purge := ⟨[], .idle⟩ }

/-- R166: the number of records, holds and waits in use. -/
def State.freedWords (s : State) : List Word :=
  [natAt 0 ((List.finRange 1024).countP fun r => (s.record r).isSome),
    natAt 0 ((List.finRange 256).countP fun i => (s.hold i).isSome),
    natAt 0 ((List.finRange 128).countP fun w => (s.wait w).isSome)]

/-- R166: CLEAR ALL. -/
def State.clearAll (s : State) : State :=
  ((List.finRange 8).foldl (State.answerCleared s) s.clearPart).complete .done s.freedWords

/-- CLEAR_ALL (R166). -/
def execClearAll (s : State) : Result := .next (s.takeCommand .clearAll fun _ t => t.clearAll)

/-- POWER_ON_RESET (R22, R30, R148, R168). The commands that wait and the levels of the inputs are outside the part and stay
(log 13, 25). -/
def execPowerOnReset (s : State) : Result := .next ((State.reset.setPending s.pending).setPins s.pins)

end Sys2Proof.Machine
end

