-- ==== Sys2Proof/Machine/Dispatch.lean ====
section
/-! DEFINITION. exec: one arm per command. -/

namespace Sys2Proof.Machine

open Sys2Proof

def exec (i : Instr) (s : State) : Host.Outcome State Fault Refusal :=
  match i with
  | .powerOnReset => Sys2Proof.Machine.execPowerOnReset s
  | .attach l => Sys2Proof.Machine.execAttach l s
  | .detach l => Sys2Proof.Machine.execDetach l s
  | .ping l => Sys2Proof.Machine.execPing l s
  | .acquire l => Sys2Proof.Machine.execAcquire l s
  | .convert l => Sys2Proof.Machine.execConvert l s
  | .renew l => Sys2Proof.Machine.execRenew l s
  | .release l => Sys2Proof.Machine.execRelease l s
  | .cancel l => Sys2Proof.Machine.execCancel l s
  | .query l => Sys2Proof.Machine.execQuery l s
  | .validate l => Sys2Proof.Machine.execValidate l s
  | .malformedRequest l => Sys2Proof.Machine.execMalformedRequest l s
  | .tick => Sys2Proof.Machine.execTick s
  | .dueLeaseEntry => Sys2Proof.Machine.execDueLeaseEntry s
  | .dueGraceEntry => Sys2Proof.Machine.execDueGraceEntry s
  | .dueWaitEntry => Sys2Proof.Machine.execDueWaitEntry s
  | .dueIdleRecordEntry => Sys2Proof.Machine.execDueIdleRecordEntry s
  | .purgeWaitStep => Sys2Proof.Machine.execPurgeWaitStep s
  | .purgeHoldStep => Sys2Proof.Machine.execPurgeHoldStep s
  | .messageComplete l b => Sys2Proof.Machine.execMessageComplete l b s
  | .framing l f => Sys2Proof.Machine.execFraming l f s
  | .truncated l b => Sys2Proof.Machine.execTruncated l b s
  | .gapLimit l => Sys2Proof.Machine.execGapLimit l s
  | .stray l b => Sys2Proof.Machine.execStray l b s
  | .messageSent l => Sys2Proof.Machine.execMessageSent l s
  | .linkDisable l => Sys2Proof.Machine.execLinkDisable l s
  | .linkEnable l => Sys2Proof.Machine.execLinkEnable l s
  | .settingWrite a v => Sys2Proof.Machine.execSettingWrite a v s
  | .flagsWrite v => Sys2Proof.Machine.execFlagsWrite v s
  | .enablesWrite v => Sys2Proof.Machine.execEnablesWrite v s
  | .fenceCounterLatch e => Sys2Proof.Machine.execFenceCounterLatch e s
  | .installRecord => Sys2Proof.Machine.execInstallRecord s
  | .unpinRecord => Sys2Proof.Machine.execUnpinRecord s
  | .removeRecord => Sys2Proof.Machine.execRemoveRecord s
  | .removeDomain => Sys2Proof.Machine.execRemoveDomain s
  | .domainWalkStep => Sys2Proof.Machine.execDomainWalkStep s
  | .revokeHold => Sys2Proof.Machine.execRevokeHold s
  | .cancelWait => Sys2Proof.Machine.execCancelWait s
  | .findRecord => Sys2Proof.Machine.execFindRecord s
  | .readRecord => Sys2Proof.Machine.execReadRecord s
  | .readHold => Sys2Proof.Machine.execReadHold s
  | .readWait => Sys2Proof.Machine.execReadWait s
  | .setClientState => Sys2Proof.Machine.execSetClientState s
  | .snapshotCounters => Sys2Proof.Machine.execSnapshotCounters s
  | .clearAll => Sys2Proof.Machine.execClearAll s
  | .setHashSeed => Sys2Proof.Machine.execSetHashSeed s
  | .characterReceived l b mark => Sys2Proof.Machine.execCharacterReceived l b mark s

end Sys2Proof.Machine
end

