-- ==== Sys2Proof/Safety.lean ====
section
/-! DEFINITION. The terms in which statements speak of the part: a request that a link takes, the state in which it is decided,
and the laws that the chapters say the part keeps (R4, R7, R24 to R29, R32, R41, R48, R53, R56, R72, R74, R83, R115, R118,
R122, R124, R142). -/

namespace Sys2Proof.Machine

/-! ### A request that is taken -/

/-- R143: link l takes its oldest message m, for which slot i is the lowest-numbered FREE one. -/
abbrev Takes (s : State) (l : Client) (m : RxMessage) (i : Fin 4) : Prop :=
  (s.link l).enabled = true ∧ (s.link l).inProgress = none ∧ (s.link l).rxQueue.head? = some m ∧
    (s.link l).slots[i] = .free ∧ ∀ j : Fin 4, j < i → (s.link l).slots[j] ≠ .free

/-- R143: the state after steps 1 to 3 of the take. -/
def State.taken (s : State) (l : Client) (i : Fin 4) : State :=
  s.modifyLink l fun k =>
    { k with
      rxQueue := k.rxQueue.tail
      slots := k.slots.set i .reserved
      responseQueue := k.responseQueue ++ [i]
      inProgress := some (.reserved i) }

/-- The row of the table that a request kind is. -/
def RequestKind.row (k : RequestKind) (l : Client) : Sys2Proof.Instr :=
  match k with
  | .attach => .attach l
  | .detach => .detach l
  | .ping => .ping l
  | .acquire => .acquire l
  | .convert => .convert l
  | .renew => .renew l
  | .release => .release l
  | .cancel => .cancel l
  | .query => .query l
  | .validate => .validate l

/-- R179: no field of the message holds a value outside the field's values. -/
def RxMessage.fieldsGood (m : RxMessage) (k : RequestKind) : Bool :=
  match k with
  | .attach => m.body 0 != 0
  | .acquire => (m.body 4 == 1 || m.body 4 == 2) && decide (m.body 5 < 8) && decide (m.body 10 < 2)
  | .convert => m.body 2 == 1 || m.body 2 == 2
  | .detach => true
  | .ping => true
  | .renew => true
  | .release => true
  | .cancel => true
  | .query => true
  | .validate => true

/-- R86: an ACQUIRE, or a CONVERT with target EXCLUSIVE, asks for a new claim. -/
def RxMessage.asksNewClaim (m : RxMessage) (k : RequestKind) : Bool :=
  match k with
  | .acquire => true
  | .convert => m.body 2 == 2
  | .attach => false
  | .detach => false
  | .ping => false
  | .renew => false
  | .release => false
  | .cancel => false
  | .query => false
  | .validate => false

/-- R85: link l takes m, a request of kind k that passes the form, state, tag and credit checks. -/
abbrev Admits (s : State) (l : Client) (k : RequestKind) (m : RxMessage) (i : Fin 4) : Prop :=
  Takes s l m i ∧ m.requestKind = some k ∧ m.fieldsGood k = true ∧
    gateRefusal (s.session l) k (m.asksNewClaim k) m.sessionTag = none

/-- R85, R88: the state in which an admitted request is decided: taken, and its cost spent. -/
def State.admitted (s : State) (l : Client) (k : RequestKind) (i : Fin 4) : State :=
  (s.taken l i).modifySession l fun x => x.spend k

/-- The ACQUIRE that a link admits carries the body b (R94). -/
abbrev AdmitsAcquire (s : State) (l : Client) (m : RxMessage) (i : Fin 4) (b : AcquireBody) : Prop :=
  Admits s l .acquire m i ∧ m.acquireBody = some b

/-- The ACQUIRE passes steps 1 and 2 of R95. -/
abbrev MayName (s : State) (l : Client) (b : AcquireBody) : Prop :=
  (s.session l).domainMask.getLsbD (domainOf b.key).toNat = true ∧ s.isClosing (domainOf b.key) = false

/-- The ACQUIRE reaches displacement: it passes steps 1 to 8 of R95 on the record x in slot r. -/
abbrev ReachesDisplacement (s : State) (l : Client) (b : AcquireBody) (r : Slot) (x : Record) : Prop :=
  MayName s l b ∧ s.lookup b.key = some r ∧ s.record r = some x ∧ (x.shareable = true ∨ b.mode = .exclusive) ∧
    s.holdOf l x = none ∧ s.waitOf l x = none ∧ (s.session l).holdCount < (s.session l).holdQuota.toNat * 4

/-- R153: the Admin Engine holds command c with the parameter words p. -/
abbrev Awaits (s : State) (c : AdminCommand) (p : Vector Word 4) : Prop := s.admin.busy = .pending c p

/-- R171: the live counters with those of client c changed. -/
def countedClient (b : CounterBank) (c : Client) (f : ClientCounters → ClientCounters) : CounterBank :=
  ⟨b.links, b.clients.set c (f b.clients[c])⟩

/-! ### What is on the wires -/

/-- R149: the bits of a field, most significant bit first. -/
def msbFirst {w : Nat} (v : BitVec w) : List Bool := (List.finRange w).map fun i => v.getMsbD i.val

/-- R135: what a receiver at its line decides over a run of samples, under one divider. -/
def heardOver (divider : Byte) : RxLine → List Bool → List Decided
  | _, [] => []
  | x, level :: levels =>
    (x.sample divider level).2.toList ++ heardOver divider (x.sample divider level).1 levels

/-! ### What a happening leaves as it was -/

/-- Nothing but the state of the Grant Engine, the sessions' counts and standing, the links, the live counters and the flags
differs: the settings of the device, the clock, the seed, the marks, the Purge Unit, the Admin Engine, the enables, the snapshot
bank, the port, the wires, the inputs and the queue are the same. -/
structure SameOutsideEngine (s t : State) : Prop where
  hashSeed : t.hashSeed = s.hashSeed
  closing : t.closing = s.closing
  timer : t.timer = s.timer
  device : t.device = s.device
  purge : t.purge = s.purge
  admin : t.admin = s.admin
  enables : t.enables = s.enables
  snapshot : t.snapshot = s.snapshot
  port : t.port = s.port
  wires : t.wires = s.wires
  pins : t.pins = s.pins
  pending : t.pending = s.pending

/-- The settings of a session record are the same (R72, writable fields). -/
structure SameSessionSettings (a b : Session) : Prop where
  domainMask : b.domainMask = a.domainMask
  holdQuota : b.holdQuota = a.holdQuota
  waitQuota : b.waitQuota = a.waitQuota
  ceiling : b.ceiling = a.ceiling
  defaultTerm : b.defaultTerm = a.defaultTerm
  mayCreate : b.mayCreate = a.mayCreate
  guardCapability : b.guardCapability = a.guardCapability
  creditBurst : b.creditBurst = a.creditBurst
  creditRefill : b.creditRefill = a.creditRefill

/-- Every setting of the window, other than a link's enable, is the same (R151). -/
structure SameSettings (s t : State) : Prop where
  device : t.device = s.device
  period : t.timer.pendingPeriod = s.timer.pendingPeriod
  sessions : ∀ c : Client, SameSessionSettings (s.session c) (t.session c)
  divider : ∀ l : Client, (t.link l).divider = (s.link l).divider
  stopBits : ∀ l : Client, (t.link l).stopBits = (s.link l).stopBits
  gapLimit : ∀ l : Client, (t.link l).gapLimit = (s.link l).gapLimit

/-! ### Settings in range (R51, R53, R71, R72, R145) -/

structure SettingsLaw (s : State) : Prop where
  period : 1 ≤ s.timer.period.toNat ∧ s.timer.period.toNat ≤ 10000
  pendingPeriod : 1 ≤ s.timer.pendingPeriod.toNat ∧ s.timer.pendingPeriod.toNat ≤ 10000
  minTerm : s.device.minTerm ≠ 0
  maxTerm : s.device.maxTerm ≠ 0
  defaultTerm : ∀ c : Client, (s.session c).defaultTerm ≠ 0
  waitQuota : ∀ c : Client, (s.session c).waitQuota.toNat ≤ 16
  creditBurst : ∀ c : Client, (s.session c).creditBurst ≠ 0
  credits : ∀ c : Client, (s.session c).credits ≤ 255
  stopBits : ∀ l : Client, (s.link l).stopBits = 1 ∨ (s.link l).stopBits = 2
  gapLimit : ∀ l : Client, (s.link l).gapLimit ≠ 0

/-! ### Links (R114 to R120, R137, R142 to R147) -/

/-- R136, R138: a length in range. -/
def goodLength (b : Byte) : Prop := 2 ≤ b.toNat ∧ b.toNat ≤ 20

/-- The laws of one link. -/
structure LinkLaw (k : Link) : Prop where
  /-- R142 -/
  rxBound : k.rxQueue.length ≤ 4
  /-- R140: a queued message consists of its kind, its length and its L characters -/
  rxMessages : ∀ m ∈ k.rxQueue, goodLength m.length ∧ m.chars.length = m.length.toNat
  /-- R114 -/
  noticeBound : k.noticeQueue.length ≤ 32
  /-- R116: the loss count is above 0 only while the mark is set -/
  loss : k.lossMark = true ↔ k.lossCount ≠ 0
  /-- R146, R147 -/
  stopped : k.receiver = .stopped ↔ k.enabled = false
  /-- R136 to R138: a message being assembled has its kind, a length in range if it has one, and is not complete -/
  assembling : ∀ chars g, k.receiver = .inMessage chars g →
    chars ≠ [] ∧ (2 ≤ chars.length → goodLength (announcedLength chars) ∧
      chars.length < 4 + (announcedLength chars).toNat)
  /-- R146: a disabled link keeps nothing to send but the message in flight -/
  disabled : k.enabled = false → k.rxQueue = [] ∧ k.noticeQueue = [] ∧ k.lossCount = 0 ∧ k.discardCount = 0 ∧
    (∀ i : Fin 4, k.inProgress ≠ some (.reserved i)) ∧ ∀ (i : Fin 4) (r : Response), k.slots[i] ≠ .ready r
  /-- R119: an idle transmitter of an enabled link has nothing to choose -/
  idle : k.enabled = true → k.inFlight = none → k.discardCount = 0 ∧ k.noticeQueue = [] ∧ k.lossCount = 0 ∧
    ∀ (i : Fin 4) (r : Response), k.slots[i] ≠ .ready r
  /-- R118: the response queue lists the slots that are not FREE, each once -/
  responseOnce : k.responseQueue.Nodup
  responseListed : ∀ i : Fin 4, i ∈ k.responseQueue ↔ k.slots[i] ≠ .free
  /-- R118: the RESERVED slot is that of the request in progress, and the newest -/
  reserved : ∀ i : Fin 4, k.slots[i] = .reserved ↔ k.inProgress = some (.reserved i)
  newest : ∀ i : Fin 4, k.inProgress = some (.reserved i) → k.responseQueue.getLast? = some i
  /-- R118, R119: the SENDING slot is that of the response in flight, and the oldest -/
  sending : ∀ i : Fin 4, k.slots[i] = .sending ↔ ∃ r, k.inFlight = some (.response i r)
  oldest : ∀ (i : Fin 4) (r : Response), k.inFlight = some (.response i r) → k.responseQueue.head? = some i
  /-- R120, R148: without a message in flight the transmit line rests -/
  atRest : k.inFlight = none → k.tx = .rest

def LinksLaw (s : State) : Prop := ∀ l : Client, LinkLaw (s.link l)

/-! ### Sessions and the purge queue (R72, R79, R122, R124) -/

/-- The laws of the session record of client c. -/
structure SessionLaw (s : State) (c : Client) : Prop where
  /-- R122: a client is in the queue exactly while it is PURGING -/
  queued : c ∈ s.purge.queue ↔ (s.session c).state = .purging
  /-- R72: absent whenever the client is not PURGING -/
  absent : (s.session c).state ≠ .purging →
    (s.session c).afterPurge = none ∧ (s.session c).pendingTag = none ∧ (s.session c).deferred = none
  after : (s.session c).state = .purging → (s.session c).afterPurge ≠ none
  /-- R76, R81: a pending tag belongs to a re-ATTACH that no BAR has overtaken -/
  pendingTag : (s.session c).afterPurge = some .active ↔ (s.session c).pendingTag ≠ none
  tagRange : (s.session c).pendingTag ≠ some 0
  /-- R80: the deferred request fits the after-purge state -/
  active : (s.session c).afterPurge = some .active → ∃ b, (s.session c).deferred = some ⟨.attach, b⟩
  attach : ∀ b, (s.session c).deferred = some ⟨.attach, b⟩ →
    (s.session c).afterPurge = some .active ∨ (s.session c).afterPurge = some .barred
  detach : ∀ b, (s.session c).deferred = some ⟨.detach, b⟩ →
    (s.session c).afterPurge = some .detached ∨ (s.session c).afterPurge = some .barred
  /-- R72, R74: a tag of 0 means no session -/
  tag : (s.session c).tag = 0 ↔ (s.session c).state = .detached ∨ (s.session c).state = .barred
  /-- R79: a deferred request is its link's request in progress -/
  inProgress : (s.session c).deferred ≠ none ↔ (s.link c).inProgress ≠ none

structure SessionsLaw (s : State) : Prop where
  each : ∀ c : Client, SessionLaw s c
  once : s.purge.queue.Nodup
  /-- R124, R130: the walk position is idle exactly while no client purges -/
  walk : s.purge.walk = .idle ↔ s.purge.queue = []

/-! ### Fences (R48) -/

structure FenceLaw (s : State) : Prop where
  next : s.fence.next ≠ 0
  last : s.fence.exhausted = true → s.fence.next = Config.lastFence
  /-- every fence that a hold carries has been issued -/
  issued : ∀ i h, s.hold i = some h →
    h.fence ≠ 0 ∧ (h.fence < s.fence.next ∨ s.fence.exhausted = true ∧ h.fence = s.fence.next)
  /-- no two holds that exist at the same time carry the same fence -/
  distinct : ∀ i j h k, s.hold i = some h → s.hold j = some k → h.fence = k.fence → i = j
  recorded : ∀ r x, s.record r = some x →
    x.lastFence < s.fence.next ∨ s.fence.exhausted = true ∧ x.lastFence = s.fence.next

/-! ### The table, the pools, the queues and the Deadline List (R4, R6, R7, R11, R24 to R32, R41, R56, R74, R83, R124) -/

/-- R4, R6, R11, R18: the records in their slots. -/
structure TableLaw (s : State) : Prop where
  place : ∀ r x, s.record r = some x → r ∈ s.waysOf x.key
  key : ∀ r r' x x', s.record r = some x → s.record r' = some x' → x.key = x'.key → r = r'
  cap : ∀ r x, s.record r = some x → 1 ≤ x.holderCap ∧ x.holderCap ≤ 8
  dynamic : ∀ r x, s.record r = some x → x.kind = .dynamic → x.shareable = true ∧ x.holderCap = 8 ∧ x.maxTerm = 0
  idle : ∀ r x, s.record r = some x →
    (x.idleDeadline ≠ none ↔ x.kind = .dynamic ∧ x.holders = [] ∧ x.waitQueue = [])

/-- R6, R24, R26: records, holds and waits refer to each other, and a conversion and its hold to each other. -/
structure ReferenceLaw (s : State) : Prop where
  holder : ∀ r x i, s.record r = some x → i ∈ x.holders → ∃ h, s.hold i = some h ∧ h.slot = r
  hold : ∀ i h, s.hold i = some h → ∃ x, s.record h.slot = some x ∧ i ∈ x.holders
  holderOnce : ∀ r x, s.record r = some x → x.holders.Nodup
  waiter : ∀ r x w, s.record r = some x → w ∈ x.waitQueue → ∃ y, s.wait w = some y ∧ y.slot = r
  wait : ∀ w y, s.wait w = some y → ∃ x, s.record y.slot = some x ∧ w ∈ x.waitQueue
  waiterOnce : ∀ r x, s.record r = some x → x.waitQueue.Nodup
  /-- R24: a pending conversion belongs to an ACTIVE SHARED hold -/
  conversion : ∀ i h v, s.hold i = some h → h.conversion = some v →
    h.state = .active ∧ h.mode = .shared ∧ v = s.waitHandle v.index ∧
      ∃ y, s.wait v.index = some y ∧ y.purpose = .conversion (s.holdHandle i)
  /-- R26, R29, R42: a CONVERSION wait names a hold of the same client on the same record -/
  converting : ∀ w y v, s.wait w = some y → y.purpose = .conversion v →
    y.mode = .exclusive ∧ v = s.holdHandle v.index ∧
      ∃ h, s.hold v.index = some h ∧ h.conversion = some (s.waitHandle w) ∧ h.client = y.client ∧ h.slot = y.slot

/-- R7, R13, R29: the holders and waits of each record. -/
structure HolderLaw (s : State) : Prop where
  bound : ∀ r x, s.record r = some x → x.holders.length ≤ x.holderCap
  /-- R7: one EXCLUSIVE hold stands alone -/
  exclusive : ∀ r x i h, s.record r = some x → i ∈ x.holders → s.hold i = some h → h.mode = .exclusive → x.holders = [i]
  sharedHold : ∀ r x i h, s.record r = some x → x.shareable = false → i ∈ x.holders → s.hold i = some h →
    h.mode = .exclusive
  sharedWait : ∀ r x w y, s.record r = some x → x.shareable = false → w ∈ x.waitQueue → s.wait w = some y →
    y.mode = .exclusive
  /-- R29: at most one hold and at most one wait of a client on a record -/
  oneHold : ∀ i j h k, s.hold i = some h → s.hold j = some k → h.slot = k.slot → h.client = k.client → i = j
  oneWait : ∀ v w x y, s.wait v = some x → s.wait w = some y → x.slot = y.slot → x.client = y.client → v = w
  /-- R29: both only when the wait is the CONVERSION of the hold -/
  both : ∀ i h w y, s.hold i = some h → s.wait w = some y → h.slot = y.slot → h.client = y.client →
    y.purpose = .conversion (s.holdHandle i)

/-- R32: wait a may stand before wait b: b is NEW, and a is a CONVERSION or a NEW wait of at least b's priority. -/
def State.mayPrecede (s : State) (a b : WaitIx) : Prop :=
  ∀ x y, s.wait a = some x → s.wait b = some y → y.purpose = .new ∧ (x.purpose ≠ .new ∨ y.priority ≤ x.priority)

/-- R32: the order of every wait queue, but for the arrivals. -/
def QueueLaw (s : State) : Prop := ∀ r x, s.record r = some x → x.waitQueue.Pairwise s.mayPrecede

/-- R41: the first wait of every effective queue is incompatible with the holders, unless the fence counter is exhausted. -/
def GrantLaw (s : State) : Prop :=
  s.fence.exhausted = false → ∀ r x w y, s.record r = some x → (s.effectiveQueue x).head? = some w → s.wait w = some y →
    s.waitCompatible x y = false

/-- The number of hold slots in use. -/
def State.holdsInUse (s : State) : Nat := (List.finRange 256).countP fun i => (s.hold i).isSome

/-- The number of WAITING NEW waits. -/
def State.newWaits (s : State) : Nat :=
  (List.finRange 128).countP fun w => (s.wait w).any fun y => y.purpose == .new

/-- R27: the law of the Hold Pool. -/
structure PoolLaw (s : State) : Prop where
  sum : s.holdCounts.free + s.holdCounts.reserved + s.holdCounts.inUse = 256
  inUse : s.holdCounts.inUse = s.holdsInUse
  reserved : s.holdCounts.reserved = s.newWaits

/-- R83: the law of the two counts of a client. -/
structure CountLaw (s : State) : Prop where
  holds : ∀ c : Client, (s.session c).holdCount =
    ((List.finRange 256).countP fun i => (s.hold i).any fun h => h.client == c) +
      (List.finRange 128).countP fun w => (s.wait w).any fun y => y.client == c && y.purpose == .new
  waits : ∀ c : Client, (s.session c).waitCount =
    (List.finRange 128).countP fun w => (s.wait w).any fun y => y.client == c

/-- The deadline of the thing an entry refers to, if the thing has one (R56). -/
def State.deadlineOf (s : State) : DeadlineRef → Option Word
  | .hold i => (s.hold i).map (·.deadline)
  | .wait w => (s.wait w).map (·.deadline)
  | .record r => (s.record r).bind (·.idleDeadline)

/-- R56: exactly one entry for each thing that has a deadline, with that deadline, and no other entries. -/
structure DeadlineLaw (s : State) : Prop where
  once : (s.deadlines.map (·.ref)).Nodup
  entry : ∀ ref d, s.deadlineOf ref = some d ↔ ∃ b, (⟨ref, d, b⟩ : DeadlineEntry) ∈ s.deadlines

/-- R74, R124: who may own what, and what the walk has left behind. -/
structure OwnerLaw (s : State) : Prop where
  hold : ∀ i h, s.hold i = some h →
    (s.session h.client).state ≠ .detached ∧ (s.session h.client).state ≠ .barred
  wait : ∀ w y, s.wait w = some y →
    (s.session y.client).state ≠ .detached ∧ (s.session y.client).state ≠ .barred
  notices : ∀ c : Client, (s.session c).state = .detached ∨ (s.session c).state = .barred →
    (s.link c).noticeQueue = []
  /-- R123: the notice queue of the client being walked is empty -/
  walked : ∀ c, s.purge.queue.head? = some c → (s.link c).noticeQueue = []
  /-- R124: every wait slot the walk has passed holds no wait of the purging client -/
  passedWait : ∀ c w y v, s.purge.queue.head? = some c → s.wait w = some y → y.client = c → s.purge.walk = .wait v → v ≤ w
  noWait : ∀ c w y j, s.purge.queue.head? = some c → s.wait w = some y → s.purge.walk = .hold j → y.client ≠ c
  /-- R124: every hold slot the walk has passed holds no hold of the purging client -/
  passedHold : ∀ c i h j, s.purge.queue.head? = some c → s.hold i = some h → h.client = c → s.purge.walk = .hold j → j ≤ i

/-- R21, R158: a closing mark is set exactly for the domain of the walk in progress. -/
def MarkLaw (s : State) : Prop :=
  ∀ d : BitVec 4, s.isClosing d = true ↔ ∃ k, s.admin.busy = .walking k ∧ k.domain = d

/-- All the laws that the chapters state of the part's own state. -/
structure Lawful (s : State) : Prop where
  links : LinksLaw s
  sessions : SessionsLaw s
  fences : FenceLaw s
  table : TableLaw s
  references : ReferenceLaw s
  holders : HolderLaw s
  queues : QueueLaw s
  grants : GrantLaw s
  pool : PoolLaw s
  counts : CountLaw s
  deadlines : DeadlineLaw s
  owners : OwnerLaw s
  marks : MarkLaw s

end Sys2Proof.Machine
end

