-- ==== Sys2Proof/Certificates/Slice0/Obligations.lean ====
section
/-! DEFINITION. The statements for the provers, block by block. `Admits` (Safety) is a request that its link takes and that passes
the checks of R85; `State.admitted` is the state in which it is decided. -/

open Sys2Proof Sys2Proof.Machine

/-! ### The step, the queue, the reset -/

/-- Derived from R49, R85, R90, R153, R173: the step runs the front command on the state with the rest of the queue, and every command
answers a next state with the queue as it was. Three parts of this are the model's choice: a command that does not fit the state
changes nothing (log 1), POWER_ON_RESET keeps the queue (log 13), and on an empty queue a clock passes (log 2). -/
def Obligations.StepTakesTheFrontCommand : Prop :=
  (∀ (c : Instr) (rest : List Instr) (s : State), step (s.setPending (c :: rest)) = exec c (s.setPending rest)) ∧
  (∀ (c : Instr) (s : State), ∃ t, exec c s = .next t ∧ t.pending = s.pending) ∧
    ∀ s : State, s.pending = [] → step s = .next s.clockPasses

/-- Derived from R22, R30, R31, R33, R48, R50, R51, R53, R56, R71, R73, R122, R148, R153, R169, R172 to R175, R180: the state right
after power-on reset; and POWER_ON_RESET brings every state there, the queue of commands and the levels of the inputs kept (log 13,
25, the model's choice). -/
def Obligations.PowerOnResetValues : Prop :=
  (∀ s : State, exec .powerOnReset s = .next ((State.reset.setPending s.pending).setPins s.pins)) ∧
  (∀ r, State.reset.record r = none) ∧ State.reset.hashSeed = 0 ∧ (∀ d, State.reset.isClosing d = false) ∧
  (∀ i, State.reset.holdSlot i = ⟨0, none⟩) ∧ State.reset.holdCounts = ⟨256, 0, 0⟩ ∧
  (∀ w, State.reset.waitSlot w = ⟨0, none⟩) ∧ State.reset.fence = ⟨1, false⟩ ∧ State.reset.arrival = 0 ∧
  State.reset.deadlines = [] ∧ State.reset.timer = ⟨0, 100, 100⟩ ∧
  State.reset.device.minTerm = 10 ∧ State.reset.device.maxTerm = 60000 ∧ State.reset.device.graceTerm = 0 ∧
  State.reset.device.idleAge = 5000 ∧ State.reset.device.urgencyMap = #v[0, 0, 1, 1, 2, 2, 3, 3] ∧
  State.reset.device.holdLowMark = 16 ∧ State.reset.device.waitLowMark = 8 ∧
  (∀ c, State.reset.session c =
    { state := .detached, tag := 0, afterPurge := none, pendingTag := none, deferred := none, domainMask := 0xFFFF,
      holdQuota := 8, waitQuota := 16, ceiling := 3, defaultTerm := 1000, mayCreate := true, guardCapability := false,
      creditBurst := 32, creditRefill := 0, refillInForce := 0, credits := 32, holdCount := 0, waitCount := 0 }) ∧
  (∀ l, State.reset.link l =
    { enabled := true, divider := 25, stopBits := 1, gapLimit := 8, receiver := .idle, rxQueue := [], inProgress := none,
      slots := Vector.replicate 4 .free, responseQueue := [], noticeQueue := [], lossMark := false, lossCount := 0,
      discardCount := 0, inFlight := none, tx := .rest }) ∧
  State.reset.purge = ⟨[], .idle⟩ ∧ State.reset.admin = ⟨.idle, 0, Vector.replicate 4 0, 0, Vector.replicate 8 0⟩ ∧
  State.reset.flags = 0 ∧ State.reset.enables = 0 ∧ State.reset.intActive = false ∧
  (∀ l : Client, State.reset.live.links[l] = ⟨0, 0, 0, 0, 0, 0, 0, 0⟩) ∧
  (∀ c : Client, State.reset.live.clients[c] = ⟨0, 0, 0, 0, 0⟩) ∧ State.reset.snapshot = ⟨0, State.reset.live⟩ ∧
  State.reset.port = ⟨none, false⟩ ∧ State.reset.wires.prescaler = 0 ∧ State.reset.wires.spi = ⟨false, false, [], []⟩ ∧
  ∀ l : Client, State.reset.wires.links[l] = ⟨.watching none, 0⟩ ∧ State.reset.transmitLevel l = true

/-! ### Keys, lookup, placement -/

/-- Stated, R2: the bucket of a key, worked out from the seed of the moment whenever a key is looked up or placed: the slots
that a lookup and a placement try are the four of that bucket. -/
def Obligations.BucketIsTheXorOfBytesAndSeed : Prop :=
  (∀ (a b c d seed : Byte), bucketOf seed (a ++ b ++ c ++ d) = a ^^^ b ^^^ c ^^^ d ^^^ seed) ∧
  ∀ (s : State) (key : Word) (r : Slot),
    r ∈ s.waysOf key ↔ ∃ way : Fin 4, r.val = 4 * (bucketOf s.hashSeed key).toNat + way.val

/-- Derived from R5: a lookup gives the slot of the record whose key is equal, or absent when no way of the bucket holds it. -/
def Obligations.LookupFindsTheKey : Prop :=
  ∀ (s : State) (key : Word), TableLaw s →
    (∀ r x, s.record r = some x → x.key = key → s.lookup key = some r) ∧
    ((∀ r x, s.record r = some x → x.key ≠ key) → s.lookup key = none)

/-- Derived from R16, R17, R57: where a new record goes, the distance of a deadline from now by which the earliest idle record is found,
and the placing: what stood in the way is retired, so that its entry leaves the Deadline List, and the new record is there. -/
def Obligations.PlacementTakesTheFirstFreeOrEarliestIdleWay : Prop :=
  (∀ now d : Word, distance now d =
    if (d - now).toNat < 2147483648 then ((d - now).toNat : Int) else ((d - now).toNat : Int) - 4294967296) ∧
  (∀ (s : State) (r : Slot) (x : Record), s.place r x = { s with
    records := s.records.set r (some x), deadlines := s.deadlines.filter fun e => e.ref != .record r }) ∧
  ∀ (s : State) (key : Word),
    (∀ r, s.placeFor key = some r → r ∈ s.waysOf key ∧
      (s.record r = none ∧ (∀ q ∈ s.waysOf key, s.record q = none → r ≤ q) ∨
        (∀ q ∈ s.waysOf key, s.record q ≠ none) ∧ ∃ x d, s.record r = some x ∧ x.idleDeadline = some d ∧
          ∀ q ∈ s.waysOf key, ∀ y e, s.record q = some y → y.idleDeadline = some e →
            distance s.now d < distance s.now e ∨ distance s.now d = distance s.now e ∧ r ≤ q)) ∧
    (s.placeFor key = none ↔ ∀ q ∈ s.waysOf key, ∃ x, s.record q = some x ∧ x.idleDeadline = none)

/-! ### Records, queues, pools -/

/-- Derived from R7, R25, R27 to R29, R31, R32, R34 to R36, R98: what the statements on requests and grants speak of: a record's mode, the
effective priority of an ACQUIRE, the effective queue, compatibility, the place at the head, the position in the effective queue,
a client's own hold and wait, and the free slots that are taken next. -/
def Obligations.ViewsOfRecordsAndQueues : Prop :=
  (∀ (s : State) (r : Slot) (x : Record), ReferenceLaw s → HolderLaw s → s.record r = some x →
    (s.recordMode x = .free ↔ x.holders = []) ∧
    (s.recordMode x = .exclusive ↔ ∃ i h, x.holders = [i] ∧ s.hold i = some h ∧ h.mode = .exclusive) ∧
    (s.recordMode x = .shared ↔ x.holders ≠ [] ∧ ∀ i ∈ x.holders, ∃ h, s.hold i = some h ∧ h.mode = .shared)) ∧
  (∀ (s : State) (c : Client) (u : Fin 8), (s.effectivePriority c (BitVec.ofNat 3 u.val)).toNat =
    min (s.device.urgencyMap[u]).toNat (s.session c).ceiling.toNat) ∧
  (∀ (s : State) (x : Record),
    s.effectiveQueue x = x.waitQueue.filter (fun w => (s.wait w).any fun y => (s.session y.client).state != .purging) ∧
    (s.compatible x .exclusive none = true ↔ x.holders = []) ∧
    (∀ i, s.compatible x .exclusive (some i) = true ↔ ∀ j ∈ x.holders, j = i) ∧
    (∀ e, s.compatible x .shared e = true ↔ x.shareable = true ∧ x.holders.length < x.holderCap ∧
      ∀ i ∈ x.holders, ∃ h, s.hold i = some h ∧ h.mode = .shared) ∧
    (∀ y, s.waitCompatible x y = s.compatible x y.mode (match y.purpose with
      | .new => none
      | .conversion v => some v.index)) ∧
    (∀ w, s.isConversion w = true ↔ ∃ y, s.wait w = some y ∧ y.purpose ≠ .new) ∧
    (∀ p, s.wouldLead x p = true ↔
      ∀ w ∈ s.effectiveQueue x, ∃ y, s.wait w = some y ∧ y.purpose = .new ∧ y.priority < p) ∧
    (∀ c, s.holdOf c x = none ↔ ∀ i ∈ x.holders, ∀ h, s.hold i = some h → h.client ≠ c) ∧
    (∀ c i, s.holdOf c x = some i → i ∈ x.holders ∧ ∃ h, s.hold i = some h ∧ h.client = c) ∧
    (∀ c, s.waitOf c x = none ↔ ∀ w ∈ x.waitQueue, ∀ y, s.wait w = some y → y.client ≠ c) ∧
    ∀ c w, s.waitOf c x = some w → w ∈ x.waitQueue ∧ ∃ y, s.wait w = some y ∧ y.client = c) ∧
  (∀ (s : State) (r : Slot) (x : Record) (w : WaitIx), s.record r = some x → w ∈ s.effectiveQueue x →
    ∃ front back, s.effectiveQueue x = front ++ w :: back ∧ w ∉ front ∧ s.position r w = front.length + 1) ∧
  ∀ s : State,
    (∀ i, s.availableHold = some i ↔ s.holdCounts.free ≠ 0 ∧ s.hold i = none ∧ ∀ j, j < i → s.hold j ≠ none) ∧
    (∀ i, s.lowestFreeHold = some i ↔ s.hold i = none ∧ ∀ j, j < i → s.hold j ≠ none) ∧
    (∀ w, s.lowestFreeWait = some w ↔ s.wait w = none ∧ ∀ v, v < w → s.wait v ≠ none) ∧
    (∀ i, s.holdHandle i = ⟨i, (s.holdSlot i).generation⟩) ∧ ∀ w, s.waitHandle w = ⟨w, (s.waitSlot w).generation⟩

/-! ### Taking, gating, answering -/

/-- Derived from R94, R100, R136, R176, R178, R179 and Formats: which kind a queued message is, by its kind code and its length L; where its
two tags and its body stand; and the fields of an ACQUIRE and of a CONVERT, if none is out of its values. -/
def Obligations.RequestFormats : Prop :=
  (∀ (m : RxMessage) (k : RequestKind), m.requestKind = some k ↔ (m.kind.toNat, m.length.toNat) = match k with
    | .attach => (0x01, 3)
    | .detach => (0x02, 2)
    | .ping => (0x03, 6)
    | .acquire => (0x10, 13)
    | .convert => (0x11, 9)
    | .renew => (0x12, 6)
    | .release => (0x13, 4)
    | .cancel => (0x14, 4)
    | .query => (0x20, 6)
    | .validate => (0x21, 12)) ∧
  (∀ (kind length requestTag sessionTag : Byte) (body : List Byte) (m : RxMessage),
    m = ⟨kind, length, requestTag :: sessionTag :: body⟩ →
    m.requestTag = requestTag ∧ m.sessionTag = sessionTag ∧ ∀ (n : Nat) (b : Byte), body[n]? = some b → m.body n = b) ∧
  (∀ (m : RxMessage) (requestTag sessionTag k3 k2 k1 k0 mode urgency w1 w0 t1 t0 create : Byte),
    m.chars = [requestTag, sessionTag, k3, k2, k1, k0, mode, urgency, w1, w0, t1, t0, create] →
    m.acquireBody =
      if (mode = 1 ∨ mode = 2) ∧ urgency.toNat ≤ 7 ∧ create.toNat ≤ 1 then
        some { key := k3 ++ k2 ++ k1 ++ k0, mode := if mode = 1 then .shared else .exclusive,
               urgency := urgency.extractLsb' 0 3, waitTicks := w1 ++ w0, term := t1 ++ t0, create := decide (create = 1) }
      else none) ∧
  ∀ (m : RxMessage) (requestTag sessionTag index generation target w1 w0 t1 t0 : Byte),
    m.chars = [requestTag, sessionTag, index, generation, target, w1, w0, t1, t0] →
    m.convertBody =
      if target = 1 ∨ target = 2 then
        some { index := index, generation := generation, target := if target = 1 then .shared else .exclusive,
               waitTicks := w1 ++ w0, term := t1 ++ t0 }
      else none

/-- Derived from R143: when a link takes, which message and which slot; otherwise a request row changes nothing (log 1). -/
def Obligations.TakeConditions : Prop :=
  (∀ (s : State) (l : Client) (m : RxMessage) (i : Fin 4), (s.link l).takable = some (m, i) ↔ Takes s l m i) ∧
  ∀ (s : State) (l : Client) (k : RequestKind),
    (∀ (m : RxMessage) (i : Fin 4), Takes s l m i → m.requestKind ≠ some k) → exec (k.row l) s = .next s

/-- Derived from R71, R73, R86 to R88, R151: checks 2 to 4 of R85, in order, with the costs of R88. Limiting is on or off by the refill
that the last tick brought into force (log 24). -/
def Obligations.GateChecksInOrder : Prop :=
  ∀ (x : Session) (k : RequestKind) (new : Bool) (tag : Byte),
    gateRefusal x k new tag =
      if x.state = .purging ∧ k ≠ .ping then some .purging
      else if x.state = .barred ∧ k ≠ .ping then some .barred
      else if x.state = .detached ∧ k ≠ .ping ∧ k ≠ .attach then some .notAttached
      else if x.state = .queryOnly ∧ new = true then some .queryOnly
      else if k ≠ .ping ∧ k ≠ .attach ∧ tag ≠ x.tag then some .staleSession
      else if x.refillInForce ≠ 0 ∧
        x.credits < (if k = .acquire ∨ k = .convert then 2 else if k = .ping then 0 else 1) then some .rate
      else none

/-- Derived from R85 to R88, R171, R178, R179: a request that the state, tag or credit check refuses, a message of no request
kind or of a wrong length, and a request with a field out of its values (MALFORMED) are counted and answered, and nothing else
changes. -/
def Obligations.RefusedRequestIsCountedAndAnswered : Prop :=
  ∀ (s : State) (l : Client) (m : RxMessage) (i : Fin 4), Takes s l m i →
    (∀ (k : RequestKind) (r : Reply), m.requestKind = some k → m.fieldsGood k = true →
      gateRefusal (s.session l) k (m.asksNewClaim k) m.sessionTag = some r →
      exec (k.row l) s = .next (((s.taken l i).countClient l fun c => { c with refusals := c.refusals + 1 }).respond l
        m.requestTag r)) ∧
    (∀ k : RequestKind, m.requestKind = some k → m.fieldsGood k = false →
      exec (k.row l) s = .next (((s.taken l i).countClient l fun c => { c with refusals := c.refusals + 1 }).respond l
        m.requestTag .malformed)) ∧
    ((∀ k : RequestKind, k.code ≠ m.kind ∨ k.length ≠ m.length) →
      exec (.malformedRequest l) s = .next (((s.taken l i).countClient l fun c =>
        { c with refusals := c.refusals + 1 }).respond l m.requestTag .malformed))

/-- Derived from R71, R88: the cost of an admitted request is spent, while the refill in force is not 0 (log 24), whatever the later
checks and the Grant Engine decide, and a refused or malformed request spends nothing. -/
def Obligations.CreditsSpentWhateverFollows : Prop :=
  ∀ (s t : State) (l : Client) (k : RequestKind) (m : RxMessage) (i : Fin 4), Takes s l m i → m.requestKind = some k →
    exec (k.row l) s = .next t →
    (t.session l).credits =
      if m.fieldsGood k = true ∧ gateRefusal (s.session l) k (m.asksNewClaim k) m.sessionTag = none ∧
        (s.session l).refillInForce ≠ 0
      then (s.session l).credits - (if k = .acquire ∨ k = .convert then 2 else if k = .ping then 0 else 1)
      else (s.session l).credits

/-- Derived from R89, R118, R119, R146, R176: the response is placed in the reserved slot under the client's tag, the request in
progress ends, and an idle transmitter begins the response, with its first character, when it is the oldest; the response to a request marked to be dropped
is placed nowhere. Nothing but the link changes. -/
def Obligations.ResponseIsPlacedAndSent : Prop :=
  ∀ (s : State) (l : Client) (tag : Byte) (reply : Reply),
    (∀ i : Fin 4, (s.link l).inProgress = some (.reserved i) →
      ((s.link l).inFlight ≠ none ∨ (s.link l).enabled = false →
        s.respond l tag reply = s.modifyLink l fun k =>
          { k with slots := k.slots.set i (.ready ⟨tag, (s.session l).tag, reply⟩), inProgress := none }) ∧
      ((s.link l).enabled = true → (s.link l).inFlight = none → (s.link l).responseQueue.head? = some i →
        s.respond l tag reply = s.modifyLink l fun k =>
          { k with
            slots := k.slots.set i .sending
            inProgress := none
            inFlight := some (.response i ⟨tag, (s.session l).tag, reply⟩)
            tx := TxLine.begin k (InFlight.response i ⟨tag, (s.session l).tag, reply⟩).characters })) ∧
    ((s.link l).inProgress = some .toBeDropped → LinkLaw (s.link l) →
      s.respond l tag reply = s.modifyLink l fun k => { k with inProgress := none })

/-! ### Session requests -/

/-- Derived from R75 to R78, R88, R91 to R93: an ATTACH from a DETACHED client opens the session; a repeat of the tag changes nothing;
an ATTACH with another tag, and every DETACH, put the client into PURGING with a deferred response. A PING is answered in every
state, whatever its tag and the credits, and changes nothing but its link. -/
def Obligations.AttachDetachAndPing : Prop :=
  (∀ (s : State) (l : Client) (m : RxMessage) (i : Fin 4), Admits s l .attach m i →
    ((s.session l).state = .detached →
      exec (.attach l) s = .next (((s.admitted l .attach i).modifySession l fun x =>
        { x with state := .active, tag := m.body 0 }).respond l m.requestTag (.attached (m.body 0)))) ∧
    ((s.session l).state ≠ .detached → m.body 0 = (s.session l).tag →
      exec (.attach l) s = .next ((s.admitted l .attach i).respond l m.requestTag (.attached (s.session l).tag))) ∧
    ((s.session l).state ≠ .detached → m.body 0 ≠ (s.session l).tag →
      exec (.attach l) s = .next ((s.admitted l .attach i).enterPurging l .active (some (m.body 0))
        (some ⟨.attach, m.requestTag⟩)))) ∧
  (∀ (s : State) (l : Client) (m : RxMessage) (i : Fin 4), Admits s l .detach m i →
    exec (.detach l) s = .next ((s.admitted l .detach i).enterPurging l .detached none (some ⟨.detach, m.requestTag⟩))) ∧
  ∀ (s : State) (l : Client) (m : RxMessage) (i : Fin 4), Takes s l m i → m.requestKind = some .ping →
    exec (.ping l) s = .next ((s.taken l i).respond l m.requestTag
      (.pong [m.body 0, m.body 1, m.body 2, m.body 3] (s.session l).state s.timer.clock))

/-- Derived from R34, R41, R78, R122, R123, R171, R173: a client enters PURGING: its session record changes, it joins the tail of the
purge queue, its purge starts if the queue was empty, and then a grant pass runs on the record of each of its waits, in ascending
order of the wait slots. The passes leave the client's session record, its link and the Purge Unit
as the first part made them. What they may change is the state of the Grant Engine, other clients' counts and links, the flags and
the live counters. -/
def Obligations.EnteringPurgingSetsTheSessionAndTheQueue : Prop :=
  ∀ (s u : State) (c : Client) (after : AfterPurge) (tag : Option Byte) (d : Option Deferred),
    u = { s with
      sessions := s.sessions.set c
        { s.session c with state := .purging, afterPurge := some after, pendingTag := tag, deferred := d }
      purge := ⟨s.purge.queue ++ [c], if s.purge.queue = [] then .wait 0 else s.purge.walk⟩
      links := if s.purge.queue = []
        then s.links.set c { s.link c with noticeQueue := [], lossMark := false, lossCount := 0 } else s.links } →
    s.enterPurging c after tag d =
      ((List.finRange 128).filter fun w => (s.wait w).any fun y => y.client == c).foldl
        (fun t w => match t.wait w with
          | some y => t.grantPass y.slot
          | none => t) u ∧
    (s.enterPurging c after tag d).session c = u.session c ∧ (s.enterPurging c after tag d).link c = u.link c ∧
    (s.enterPurging c after tag d).purge = u.purge ∧ SameOutsideEngine u (s.enterPurging c after tag d)

/-! ### ACQUIRE -/

/-- Derived from R15, R17, R84, R94, R95 steps 1 to 8, R96: the refusals of an ACQUIRE before a record is found or made, in which nothing
is placed or reclaimed, and those on a present key before displacement. -/
def Obligations.AcquireIsRefusedBeforeDisplacement : Prop :=
  (∀ (s : State) (l : Client) (m : RxMessage) (i : Fin 4) (b : AcquireBody), AdmitsAcquire s l m i b →
    ((s.session l).domainMask.getLsbD (domainOf b.key).toNat = false →
      exec (.acquire l) s = .next ((s.admitted l .acquire i).refuse l m.requestTag .domain)) ∧
    ((s.session l).domainMask.getLsbD (domainOf b.key).toNat = true → s.isClosing (domainOf b.key) = true →
      exec (.acquire l) s = .next ((s.admitted l .acquire i).refuse l m.requestTag .domainClosing)) ∧
    (MayName s l b → s.lookup b.key = none → b.create = false ∨ (s.session l).mayCreate = false →
      exec (.acquire l) s = .next ((s.admitted l .acquire i).refuse l m.requestTag .noRecord)) ∧
    (MayName s l b → s.lookup b.key = none → b.create = true → (s.session l).mayCreate = true →
      (s.placeFor b.key = none →
        exec (.acquire l) s = .next (((s.admitted l .acquire i).raise .bucketFull).refuse l m.requestTag .bucketFull)) ∧
      (s.placeFor b.key ≠ none → (s.session l).holdQuota.toNat * 4 ≤ (s.session l).holdCount →
        exec (.acquire l) s = .next ((s.admitted l .acquire i).refuse l m.requestTag .holdQuota)) ∧
      (s.placeFor b.key ≠ none → (s.session l).holdCount < (s.session l).holdQuota.toNat * 4 → s.availableHold = none →
        exec (.acquire l) s = .next ((s.admitted l .acquire i).refuse l m.requestTag .poolEmpty)) ∧
      (s.placeFor b.key ≠ none → (s.session l).holdCount < (s.session l).holdQuota.toNat * 4 → s.availableHold ≠ none →
        s.fence.exhausted = true →
        exec (.acquire l) s =
          .next (((s.admitted l .acquire i).raise .fenceExhausted).refuse l m.requestTag .fenceExhausted)))) ∧
  ∀ (s : State) (l : Client) (m : RxMessage) (i : Fin 4) (b : AcquireBody) (r : Slot) (x : Record),
    AdmitsAcquire s l m i b → MayName s l b → s.lookup b.key = some r → s.record r = some x →
    (x.shareable = false → b.mode = .shared →
      exec (.acquire l) s = .next ((s.admitted l .acquire i).refuse l m.requestTag .mode)) ∧
    (x.shareable = true ∨ b.mode = .exclusive →
      (∀ j, s.holdOf l x = some j →
        exec (.acquire l) s = .next ((s.admitted l .acquire i).refuse l m.requestTag (.alreadyHeld (s.holdHandle j)))) ∧
      (∀ w, s.holdOf l x = none → s.waitOf l x = some w →
        exec (.acquire l) s = .next ((s.admitted l .acquire i).refuse l m.requestTag (.alreadyWaiting (s.waitHandle w)))) ∧
      (s.holdOf l x = none → s.waitOf l x = none → (s.session l).holdQuota.toNat * 4 ≤ (s.session l).holdCount →
        exec (.acquire l) s = .next ((s.admitted l .acquire i).refuse l m.requestTag .holdQuota)))

/-- Derived from R15, R16, R36, R97: an ACQUIRE on an absent key, with creation allowed, makes the record and is granted on it. -/
def Obligations.AcquireCreatesAndIsGranted : Prop :=
  ∀ (s : State) (l : Client) (m : RxMessage) (i : Fin 4) (b : AcquireBody) (r : Slot) (j : HoldIx),
    AdmitsAcquire s l m i b → MayName s l b → s.lookup b.key = none → b.create = true → (s.session l).mayCreate = true →
    s.placeFor b.key = some r → (s.session l).holdCount < (s.session l).holdQuota.toNat * 4 → s.availableHold = some j →
    s.fence.exhausted = false →
    exec (.acquire l) s = .next
      ((((s.admitted l .acquire i).place r ⟨b.key, .dynamic, true, 8, 0, [], [], 0, none⟩).grantAtOnce j l r b.mode
        (s.clampTerm l ⟨b.key, .dynamic, true, 8, 0, [], [], 0, none⟩ b.term)).respond l m.requestTag
        (.granted ⟨j, (s.holdSlot j).generation + 1⟩ b.mode s.fence.next
          (s.timer.clock + (s.clampTerm l ⟨b.key, .dynamic, true, 8, 0, [], [], 0, none⟩ b.term).setWidth 32)))

/-- Derived from R36, R38, R95 step 10, R97, R99: after displacement, an ACQUIRE that would stand at the head and is compatible is
granted at once, or refused for want of a hold slot or of a fence. -/
def Obligations.AcquireIsGrantedAtOnce : Prop :=
  ∀ (s e : State) (l : Client) (m : RxMessage) (i : Fin 4) (b : AcquireBody) (r : Slot) (x y : Record),
    AdmitsAcquire s l m i b → ReachesDisplacement s l b r x → e = (s.admitted l .acquire i).displace l r b.mode →
    e.record r = some y → e.wouldLead y (e.effectivePriority l b.urgency) = true → e.compatible y b.mode none = true →
    (e.availableHold = none → exec (.acquire l) s = .next (e.refuse l m.requestTag .poolEmpty)) ∧
    (e.availableHold ≠ none → e.fence.exhausted = true →
      exec (.acquire l) s = .next ((e.raise .fenceExhausted).refuse l m.requestTag .fenceExhausted)) ∧
    (∀ j, e.availableHold = some j → e.fence.exhausted = false →
      exec (.acquire l) s = .next ((e.grantAtOnce j l r b.mode (e.clampTerm l y b.term)).respond l m.requestTag
        (.granted ⟨j, (e.holdSlot j).generation + 1⟩ b.mode e.fence.next
          (e.timer.clock + (e.clampTerm l y b.term).setWidth 32))))

/-- Derived from R33, R37, R38, R95 step 11, R98: after displacement, an ACQUIRE that is not granted at once is refused or queued;
the grant pass follows the answer (log 7). -/
def Obligations.AcquireIsQueued : Prop :=
  ∀ (s e : State) (l : Client) (m : RxMessage) (i : Fin 4) (b : AcquireBody) (r : Slot) (x y : Record),
    AdmitsAcquire s l m i b → ReachesDisplacement s l b r x → e = (s.admitted l .acquire i).displace l r b.mode →
    e.record r = some y →
    e.wouldLead y (e.effectivePriority l b.urgency) = false ∨ e.compatible y b.mode none = false →
    (b.waitTicks = 0 → exec (.acquire l) s = .next (e.refuse l m.requestTag .conflict)) ∧
    (b.waitTicks ≠ 0 → (e.session l).waitQuota.toNat ≤ (e.session l).waitCount →
      exec (.acquire l) s = .next (e.refuse l m.requestTag .waitQuota)) ∧
    (b.waitTicks ≠ 0 → (e.session l).waitCount < (e.session l).waitQuota.toNat →
      e.availableHold = none ∨ e.lowestFreeWait = none →
      exec (.acquire l) s = .next (e.refuse l m.requestTag .poolEmpty)) ∧
    (∀ w t, b.waitTicks ≠ 0 → (e.session l).waitCount < (e.session l).waitQuota.toNat → e.availableHold ≠ none →
      e.lowestFreeWait = some w →
      t = e.queueNew w ⟨l, r, .new, b.mode, e.effectivePriority l b.urgency, e.arrival,
        e.timer.clock + b.waitTicks.setWidth 32, e.clampTerm l y b.term, m.requestTag⟩ →
      exec (.acquire l) s = .next ((t.respond l m.requestTag
        (.queued ⟨w, (e.waitSlot w).generation + 1⟩ (t.position r w))).grantPass r))

/-! ### CONVERT -/

/-- Derived from R45, R47, R100, R101 steps 1 to 6, R102: the refusals of a CONVERT before the hold is recovered; and the downgrade, which
takes effect at once and keeps fence, place and deadline, but for the recovery of a LAPSED hold; on a record that is not shareable
it is refused with MODE, the recovery standing. The grant pass follows the answer (log 7). -/
def Obligations.ConvertIsRefusedOrDowngrades : Prop :=
  (∀ (s : State) (l : Client) (m : RxMessage) (i : Fin 4) (b : ConvertBody), Admits s l .convert m i →
    m.convertBody = some b →
    (s.ownNamedHold l b.index b.generation = none →
      exec (.convert l) s = .next ((s.admitted l .convert i).refuse l m.requestTag .badHandle)) ∧
    ∀ j h x, s.ownNamedHold l b.index b.generation = some (j, h) → s.record h.slot = some x →
      (b.target = h.mode →
        exec (.convert l) s = .next ((s.admitted l .convert i).refuse l m.requestTag .mode)) ∧
      (b.target ≠ h.mode → b.target = .exclusive → s.isClosing (domainOf x.key) = true →
        exec (.convert l) s = .next ((s.admitted l .convert i).refuse l m.requestTag .domainClosing))) ∧
  ∀ (s e : State) (l : Client) (m : RxMessage) (i : Fin 4) (b : ConvertBody) (j : HoldIx) (h : Hold) (x : Record) (d : Word),
    Admits s l .convert m i → m.convertBody = some b → s.ownNamedHold l b.index b.generation = some (j, h) →
    s.record h.slot = some x → b.target = .shared → h.mode = .exclusive →
    e = (if h.state = .lapsed then
        ((s.admitted l .convert i).modifyHold j fun k => { k with state := .active }).setHoldDeadline j
          (s.timer.clock + (s.clampTerm l x b.term).setWidth 32)
      else s.admitted l .convert i) →
    d = (if h.state = .lapsed then s.timer.clock + (s.clampTerm l x b.term).setWidth 32 else h.deadline) →
    (x.shareable = false → exec (.convert l) s = .next (e.refuse l m.requestTag .mode)) ∧
    (x.shareable = true →
      exec (.convert l) s = .next (((e.modifyHold j fun k => { k with mode := .shared }).respond l m.requestTag
        (.granted ⟨j, b.generation⟩ .shared h.fence d)).settleRecord h.slot))

/-- Derived from R38, R42, R43, R45, R46, R101 steps 7 to 10, R102: an upgrade is refused while a CONVERSION wait is queued; after
displacement it is granted at once when the hold is the only holder, and otherwise refused or queued. -/
def Obligations.ConvertToExclusiveUpgradesOrQueues : Prop :=
  ∀ (s c : State) (l : Client) (m : RxMessage) (i : Fin 4) (b : ConvertBody) (j : HoldIx) (h : Hold) (x : Record),
    Admits s l .convert m i → m.convertBody = some b → s.ownNamedHold l b.index b.generation = some (j, h) →
    s.record h.slot = some x → b.target = .exclusive → h.mode = .shared → s.isClosing (domainOf x.key) = false →
    c = (if h.state = .lapsed then
        ((s.admitted l .convert i).modifyHold j fun k => { k with state := .active }).setHoldDeadline j
          (s.timer.clock + (s.clampTerm l x b.term).setWidth 32)
      else s.admitted l .convert i) →
    (x.waitQueue.any s.isConversion = true →
      exec (.convert l) s = .next (c.refuse l m.requestTag .convertConflict)) ∧
    ∀ (e : State) (y : Record) (k : Hold) (term : Half), x.waitQueue.any s.isConversion = false →
      e = c.displace l h.slot .exclusive → e.record h.slot = some y → e.hold j = some k → term = e.clampTerm l y b.term →
      (y.holders = [j] →
        (e.fence.exhausted = true →
          exec (.convert l) s = .next ((e.raise .fenceExhausted).refuse l m.requestTag .fenceExhausted)) ∧
        (e.fence.exhausted = false →
          exec (.convert l) s = .next ((((e.upgrade j h.slot term).countGrant l).respond l m.requestTag
            (.granted (e.holdHandle j) .exclusive e.fence.next (e.timer.clock + term.setWidth 32))).settleRecord
            h.slot))) ∧
      (y.holders ≠ [j] →
        (b.waitTicks = 0 → exec (.convert l) s = .next (e.refuse l m.requestTag .conflict)) ∧
        (b.waitTicks ≠ 0 → (e.session l).waitQuota.toNat ≤ (e.session l).waitCount →
          exec (.convert l) s = .next (e.refuse l m.requestTag .waitQuota)) ∧
        (b.waitTicks ≠ 0 → (e.session l).waitCount < (e.session l).waitQuota.toNat → e.lowestFreeWait = none →
          exec (.convert l) s = .next (e.refuse l m.requestTag .poolEmpty)) ∧
        ∀ w, b.waitTicks ≠ 0 → (e.session l).waitCount < (e.session l).waitQuota.toNat → e.lowestFreeWait = some w →
          exec (.convert l) s = .next (((e.queueUpgrade j w ⟨l, h.slot, .conversion (e.holdHandle j), .exclusive,
            (e.session l).ceiling, e.arrival, e.timer.clock + b.waitTicks.setWidth 32, term, m.requestTag⟩).respond l
            m.requestTag (.queued ⟨w, (e.waitSlot w).generation + 1⟩ 1)).grantPass h.slot))

/-! ### RENEW, RELEASE, CANCEL -/

/-- Derived from R25, R68, R103 to R105: when a handle of a request is valid; RENEW, RELEASE and CANCEL with a handle that fails are
answered BAD_HANDLE. -/
def Obligations.HandleTestHasFourConditions : Prop :=
  (∀ (s : State) (c : Client) (b g : Byte) (i : HoldIx) (h : Hold), s.ownNamedHold c b g = some (i, h) ↔
    b.toNat = i.val ∧ s.hold i = some h ∧ (s.holdSlot i).generation = g ∧ h.client = c) ∧
  (∀ (s : State) (c : Client) (b g : Byte) (w : WaitIx) (y : Wait), s.ownNamedWait c b g = some (w, y) ↔
    b.toNat = w.val ∧ s.wait w = some y ∧ (s.waitSlot w).generation = g ∧ y.client = c) ∧
  ∀ (s : State) (l : Client) (m : RxMessage) (i : Fin 4),
    (∀ k : RequestKind, k = .renew ∨ k = .release → Admits s l k m i → s.ownNamedHold l (m.body 0) (m.body 1) = none →
      exec (k.row l) s = .next ((s.admitted l k i).refuse l m.requestTag .badHandle)) ∧
    (Admits s l .cancel m i → s.ownNamedWait l (m.body 0) (m.body 1) = none →
      exec (.cancel l) s = .next ((s.admitted l .cancel i).refuse l m.requestTag .badHandle))

/-- Stated, R66, R67 (with R54, R65, R103): a RENEW of an ACTIVE or LAPSED hold makes it ACTIVE until now plus the clamped
term; its entry moves and loses its mark; fence, mode and place are kept, and nothing else changes but the answer. -/
def Obligations.RenewMovesTheDeadline : Prop :=
  ∀ (s : State) (l : Client) (m : RxMessage) (i : Fin 4) (j : HoldIx) (h : Hold) (x : Record) (d : Word),
    Admits s l .renew m i → s.ownNamedHold l (m.body 0) (m.body 1) = some (j, h) → s.record h.slot = some x →
    d = s.timer.clock + (s.clampTerm l x (m.body 2 ++ m.body 3)).setWidth 32 →
    exec (.renew l) s = .next ((((s.admitted l .renew i).setHold j (some { h with state := .active, deadline := d })
      ).setDeadlines (insertEntry s.timer.clock ⟨.hold j, d, false⟩ (s.deadlines.filter fun e => e.ref != .hold j))).respond l
      m.requestTag (.renewed d))

/-- Derived from R39, R40, R104, R105: a RELEASE ends the hold, ACTIVE or LAPSED, with a RELEASED response, a CANCEL ends the wait
with a CANCELLED response, neither with a notice; then the record is settled (log 7). -/
def Obligations.ReleaseAndCancelEndTheClaim : Prop :=
  ∀ (s : State) (l : Client) (m : RxMessage) (i : Fin 4),
    (∀ (j : HoldIx) (h : Hold), Admits s l .release m i → s.ownNamedHold l (m.body 0) (m.body 1) = some (j, h) →
      exec (.release l) s = .next ((((s.admitted l .release i).freeHold j h).respond l m.requestTag
        (.released h.conversion.isSome)).settleRecord h.slot)) ∧
    ∀ (w : WaitIx) (y : Wait), Admits s l .cancel m i → s.ownNamedWait l (m.body 0) (m.body 1) = some (w, y) →
      exec (.cancel l) s = .next ((((s.admitted l .cancel i).freeWait w y).respond l m.requestTag
        .cancelled).settleRecord y.slot)

/-! ### QUERY, VALIDATE -/

/-- Stated, R106, R107, R108 (with R21, R84, R109): the answers to QUERY and the steps of VALIDATE; nothing but the link, the credits and
a refusal's count changes. -/
def Obligations.QueryAndValidateAnswer : Prop :=
  (∀ (s : State) (l : Client) (m : RxMessage) (i : Fin 4) (key : Word), Admits s l .query m i →
    key = m.body 0 ++ m.body 1 ++ m.body 2 ++ m.body 3 →
    ((s.session l).domainMask.getLsbD (domainOf key).toNat = false →
      exec (.query l) s = .next ((s.admitted l .query i).refuse l m.requestTag .domain)) ∧
    ((s.session l).domainMask.getLsbD (domainOf key).toNat = true → s.lookup key = none →
      exec (.query l) s = .next ((s.admitted l .query i).respond l m.requestTag .noRecord)) ∧
    ∀ r x, (s.session l).domainMask.getLsbD (domainOf key).toNat = true → s.lookup key = some r → s.record r = some x →
      exec (.query l) s = .next ((s.admitted l .query i).respond l m.requestTag (.record
        { mode := s.recordMode x, holders := x.holders.length,
          waiters := (x.waitQueue.filter fun w => (s.wait w).any fun y => (s.session y.client).state != .purging).length,
          lastFence := x.lastFence, kind := x.kind, ownHold := (s.holdOf l x).map s.holdHandle,
          ownWait := (s.waitOf l x).map s.waitHandle }))) ∧
  ∀ (s : State) (l : Client) (m : RxMessage) (i : Fin 4) (key : Word) (f : Fence), Admits s l .validate m i →
    key = m.body 0 ++ m.body 1 ++ m.body 2 ++ m.body 3 →
    f = m.body 4 ++ m.body 5 ++ m.body 6 ++ m.body 7 ++ m.body 8 ++ m.body 9 →
    ((s.session l).guardCapability = false →
      exec (.validate l) s = .next ((s.admitted l .validate i).refuse l m.requestTag .notGuard)) ∧
    ((s.session l).guardCapability = true → (s.session l).domainMask.getLsbD (domainOf key).toNat = false →
      exec (.validate l) s = .next ((s.admitted l .validate i).refuse l m.requestTag .domain)) ∧
    ((s.session l).guardCapability = true → (s.session l).domainMask.getLsbD (domainOf key).toNat = true →
      (s.isClosing (domainOf key) = true →
        exec (.validate l) s = .next ((s.admitted l .validate i).respond l m.requestTag .stale)) ∧
      (s.isClosing (domainOf key) = false → s.lookup key = none →
        exec (.validate l) s = .next ((s.admitted l .validate i).respond l m.requestTag .noRecord)) ∧
      ∀ r x, s.isClosing (domainOf key) = false → s.lookup key = some r → s.record r = some x →
        ((∀ j ∈ x.holders, ∀ h, s.hold j = some h → h.fence ≠ f) →
          exec (.validate l) s = .next ((s.admitted l .validate i).respond l m.requestTag .stale)) ∧
        ∀ j h, j ∈ x.holders → s.hold j = some h → h.fence = f →
          (∀ j' h', s.hold j' = some h' → h'.fence = f → j' = j) →
          exec (.validate l) s = .next ((s.admitted l .validate i).respond l m.requestTag
            (if (s.session h.client).state = .purging then .stale
             else if h.state = .lapsed then .lapsed else .current h.mode)))

/-! ### The transmit path -/

/-- Stated, R113 (with R114, R115): the five tests of a posted notice; each of the states and nothing else. -/
def Obligations.PostedNoticeIsSettled : Prop :=
  ∀ (s : State) (c : Client) (tag : Byte) (n : NoticeBody),
    ((s.link c).enabled = false ∨ (s.session c).state = .purging ∨ (s.session c).state = .detached ∨
      (s.session c).state = .barred → s.postNotice c tag n = s) ∧
    ((s.link c).enabled = true → (s.session c).state = .active ∨ (s.session c).state = .queryOnly →
      ((s.link c).lossMark = true → s.postNotice c tag n = s.modifyLink c fun k =>
        { k with lossCount := if k.lossCount = 65535 then 65535 else k.lossCount + 1 }) ∧
      ((s.link c).lossMark = false → 32 ≤ (s.link c).noticeQueue.length → s.postNotice c tag n =
        ((s.modifyLink c fun k => { k with lossMark := true, lossCount := 1 }).raise .noticeLoss).choose c) ∧
      ((s.link c).lossMark = false → (s.link c).noticeQueue.length < 32 → s.postNotice c tag n =
        (s.modifyLink c fun k => { k with noticeQueue := k.noticeQueue ++ [⟨tag, (s.session c).tag, n⟩] }).choose c))

/-- Derived from R116, R117, R119, R120, R133, R146, R170, R176: the choice of the transmitter, which is made under the client's session
tag (of DISCARDS and NOTICES_LOST), and what each choice does to the link, on whose line the first character begins in the same
happening; and the end of a message, which frees the slot of a response, advances the sent counter and lets the transmitter choose (a
MESSAGE_SENT from outside before the end on the line: log 10, the model's choice). -/
def Obligations.TransmitterChoosesAndFinishes : Prop :=
  (∀ (k : Link) (tag : Byte),
    (k.enabled = false ∨ k.inFlight ≠ none → k.choose tag = k) ∧
    (k.enabled = true → k.inFlight = none →
      (∀ i q r, k.responseQueue = i :: q → k.slots[i] = .ready r →
        k.choose tag = { k with
          inFlight := some (.response i r), tx := TxLine.begin k (InFlight.response i r).characters
          slots := k.slots.set i .sending }) ∧
      ((∀ i r, k.responseQueue.head? = some i → k.slots[i] ≠ .ready r) →
        (k.discardCount ≠ 0 →
          k.choose tag = { k with
            inFlight := some (.discards tag k.discardCount)
            tx := TxLine.begin k (InFlight.discards tag k.discardCount).characters, discardCount := 0 }) ∧
        (∀ n q, k.discardCount = 0 → k.noticeQueue = n :: q →
          k.choose tag = { k with
            inFlight := some (.notice n), tx := TxLine.begin k (InFlight.notice n).characters, noticeQueue := q }) ∧
        (k.discardCount = 0 → k.noticeQueue = [] → k.lossCount ≠ 0 →
          k.choose tag = { k with
            inFlight := some (.noticesLost tag k.lossCount)
            tx := TxLine.begin k (InFlight.noticesLost tag k.lossCount).characters, lossCount := 0, lossMark := false }) ∧
        (k.discardCount = 0 → k.noticeQueue = [] → k.lossCount = 0 → k.choose tag = k)))) ∧
  (∀ (s : State) (l : Client), s.choose l = s.modifyLink l fun k => k.choose (s.session l).tag) ∧
  ∀ (s : State) (l : Client),
    (∀ i r, (s.link l).inFlight = some (.response i r) →
      exec (.messageSent l) s = .next (((s.modifyLink l fun k =>
        { k with inFlight := none, tx := .rest, slots := k.slots.set i .free, responseQueue := k.responseQueue.erase i }).countLink l
        fun c => { c with responsesSent := c.responsesSent + 1 }).choose l)) ∧
    ∀ f, (s.link l).inFlight = some f → (∀ i r, f ≠ .response i r) →
      exec (.messageSent l) s = .next (((s.modifyLink l fun k => { k with inFlight := none, tx := .rest }).countLink l
        fun c => { c with noticesSent := c.noticesSent + 1 }).choose l)

/-- Derived from R133, R136, R176, R177 and Formats: the characters of every message the part sends: kind, length, the two tags, the
outcome code with its contents or the notice's body, and the checksum; high bytes first, the first character marked. A message is
from 6 to 24 characters long. -/
def Obligations.SentMessageFormats : Prop :=
  (∀ m : InFlight, m.bytes = [m.kind, BitVec.ofNat 8 m.chars.length] ++ m.chars ++
    halfBytes (crc16 ([m.kind, BitVec.ofNat 8 m.chars.length] ++ m.chars))) ∧
  (∀ (m : InFlight) (b : Byte) (bs : List Byte), m.bytes = b :: bs →
    m.characters = ⟨b, true⟩ :: bs.map fun c => ⟨c, false⟩) ∧
  (∀ m : InFlight, (∀ i r echo state now, m = .response i r → r.reply = .pong echo state now → echo.length = 4) →
    6 ≤ m.bytes.length ∧ m.bytes.length ≤ 24) ∧
  (∀ a b c d e f : Byte, halfBytes (a ++ b) = [a, b] ∧ wordBytes (a ++ b ++ c ++ d) = [a, b, c, d] ∧
    fenceBytes (a ++ b ++ c ++ d ++ e ++ f) = [a, b, c, d, e, f]) ∧
  (∀ (h : HoldHandle) (w : WaitHandle), h.bytes = [BitVec.ofNat 8 h.index.val, h.generation] ∧
    w.bytes = [BitVec.ofNat 8 w.index.val, w.generation]) ∧
  (∀ (i : Fin 4) (r : Response), (InFlight.response i r).kind = 0x80 ∧ (InFlight.response i r).chars =
    [r.requestTag, r.sessionTag] ++ match r.reply with
      | .attached tag => [0x01, tag]
      | .detached => [0x02]
      | .cleared => [0x03]
      | .pong echo state now => 0x04 :: echo ++ [match state with
          | .detached => 0
          | .active => 1
          | .queryOnly => 2
          | .purging => 3
          | .barred => 4] ++ wordBytes now
      | .granted h m f d => 0x05 :: h.bytes ++ [if m = .shared then 1 else 2] ++ fenceBytes f ++ wordBytes d
      | .queued h position => 0x06 :: h.bytes ++ [BitVec.ofNat 8 position]
      | .renewed d => 0x07 :: wordBytes d
      | .released cancelled => [0x08, if cancelled then 1 else 0]
      | .cancelled => [0x09]
      | .record a => 0x0A :: [match a.mode with
            | .free => 0
            | .shared => 1
            | .exclusive => 2,
          BitVec.ofNat 8 a.holders, BitVec.ofNat 8 a.waiters] ++ fenceBytes a.lastFence ++
          [if a.kind = .dynamic then 1 else 2, match a.ownHold.isSome, a.ownWait.isSome with
            | false, false => 0
            | true, false => 1
            | false, true => 2
            | true, true => 3] ++
          (match a.ownHold with
            | some h => h.bytes
            | none => [0, 0]) ++
          (match a.ownWait with
            | some w => w.bytes
            | none => [0, 0])
      | .current m => [0x0B, if m = .shared then 1 else 2]
      | .lapsed => [0x0C]
      | .stale => [0x0D]
      | .noRecord => [0x0E]
      | .barred => [0x0F]
      | .malformed => [0x20]
      | .notAttached => [0x21]
      | .purging => [0x22]
      | .queryOnly => [0x23]
      | .staleSession => [0x24]
      | .rate => [0x25]
      | .domain => [0x26]
      | .domainClosing => [0x27]
      | .bucketFull => [0x28]
      | .mode => [0x29]
      | .alreadyHeld h => 0x2A :: h.bytes
      | .alreadyWaiting w => 0x2B :: w.bytes
      | .holdQuota => [0x2C]
      | .waitQuota => [0x2D]
      | .poolEmpty => [0x2E]
      | .fenceExhausted => [0x2F]
      | .conflict => [0x30]
      | .convertConflict => [0x31]
      | .badHandle => [0x32]
      | .notGuard => [0x33]) ∧
  (∀ n : Notice, ((InFlight.notice n).kind :: (InFlight.notice n).chars) = match n.body with
    | .granted h m f d =>
      [0x90, n.requestTag, n.sessionTag] ++ h.bytes ++ [if m = .shared then 1 else 2] ++ fenceBytes f ++ wordBytes d
    | .lapsed h d => [0x91, n.requestTag, n.sessionTag] ++ h.bytes ++ wordBytes d
    | .lost h f cause cancelled => [0x92, n.requestTag, n.sessionTag] ++ h.bytes ++ fenceBytes f ++
        [match cause with
          | .expired => 1
          | .displaced => 2
          | .revoked => 3
          | .removed => 4,
        if cancelled then 1 else 0]
    | .waitEnded w cause => [0x93, n.requestTag, n.sessionTag] ++ w.bytes ++
        [match cause with
          | .timeout => 1
          | .cancelledByManager => 2
          | .removed => 3]) ∧
  ∀ (tag : Byte) (count : Half),
    (InFlight.discards tag count).kind = 0x94 ∧ (InFlight.discards tag count).chars = [0, tag] ++ halfBytes count ∧
    (InFlight.noticesLost tag count).kind = 0x95 ∧ (InFlight.noticesLost tag count).chars = [0, tag] ++ halfBytes count

/-- Derived from R119, R120, R133, R134, R145, R148: the transmit line. It rests at 1 when no message is in flight; a message begins with its
first start bit in the happening that chooses it; a character is a start bit, eight data bits, the mark and the stop bits, each for
16 times the divider plus 1 clocks; a message's characters follow back to back, and its last stop bit ends it. A character keeps the
divider and the stop bits that it began with, and the next one takes those in force when it begins. When the message has been sent
and another is chosen, the other's start bit follows directly on the last stop bit. That a MESSAGE_SENT from outside ends the message
on the line before its last stop bit, too, is the model's choice, and so is that the rest of a message in flight on a disabled link
takes a divider or stop bits written since the disable (log 10). -/
def Obligations.TransmitLineSendsTheMessage : Prop :=
  (∀ (s : State) (l : Client), ((s.link l).inFlight = none → s.transmitLevel l = true) ∧
    ((s.link l).inFlight ≠ none → s.transmitLevel l = (s.link l).tx.level)) ∧
  (∀ (b : Byte) (mark : Bool) (n : BitVec 2), Character.levels ⟨b, mark⟩ n =
    [false, b.getLsbD 0, b.getLsbD 1, b.getLsbD 2, b.getLsbD 3, b.getLsbD 4, b.getLsbD 5, b.getLsbD 6, b.getLsbD 7, mark] ++
      List.replicate n.toNat true) ∧
  (∀ (k : Link) (x : TxLine), k.inFlight = none → x.clock k = (.rest, false)) ∧
  (∀ (k : Link) (c : Character) (cs : List Character),
    TxLine.begin k (c :: cs) = .sending k.divider (c.levels k.stopBits) 0 cs ∧ (TxLine.begin k (c :: cs)).level = false) ∧
  (∀ (k : Link) (d : Byte) (b : Bool) (bits : List Bool) (n : Nat) (later : List Character), k.inFlight ≠ none →
    (TxLine.sending d (b :: bits) n later).level = b ∧
    (n + 1 < 16 * (d.toNat + 1) →
      (TxLine.sending d (b :: bits) n later).clock k = (.sending d (b :: bits) (n + 1) later, false)) ∧
    (16 * (d.toNat + 1) ≤ n + 1 →
      (bits ≠ [] → (TxLine.sending d (b :: bits) n later).clock k = (.sending d bits 0 later, false)) ∧
      (∀ c cs, bits = [] → later = c :: cs → (TxLine.sending d (b :: bits) n later).clock k =
        (.sending k.divider (c.levels k.stopBits) 0 cs, false)) ∧
      (bits = [] → later = [] → (TxLine.sending d (b :: bits) n later).clock k = (.rest, true)))) ∧
  (∀ (k : Link) (m : InFlight) (levels : List Bool), k.inFlight = some m →
    levels = m.characters.flatMap (fun c => c.levels k.stopBits) →
    (∀ n, n < levels.length * (16 * (k.divider.toNat + 1)) →
      (((fun y : TxLine × Bool => y.1.clock k)^[n] (TxLine.begin k m.characters, false)).1.level =
        levels.getD (n / (16 * (k.divider.toNat + 1))) true ∧
      ((fun y : TxLine × Bool => y.1.clock k)^[n] (TxLine.begin k m.characters, false)).2 = false)) ∧
    (fun y : TxLine × Bool => y.1.clock k)^[levels.length * (16 * (k.divider.toNat + 1))] (TxLine.begin k m.characters, false) =
      (.rest, true)) ∧
  ∀ (s t : State) (l : Client) (m : InFlight), (s.link l).inFlight ≠ none → exec (.messageSent l) s = .next t →
    (t.link l).inFlight = some m →
    (t.link l).tx = TxLine.begin (s.link l) m.characters ∧ t.transmitLevel l = false

/-! ### Holds and waits -/

/-- Derived from R25, R27, R29, R36, R46, R48, R171, R174: an immediate grant and an upgrade, every field. The flags set are
FENCE_EXHAUSTED with the last fence and, in an immediate grant, HOLD_POOL_LOW at the fall across the mark. -/
def Obligations.GrantAtOnceMakesOrUpgradesTheHold : Prop :=
  (∀ (s : State) (i : HoldIx) (c : Client) (r : Slot) (m : Mode) (term : Half) (x : Record) (d : Word),
    s.record r = some x → d = s.timer.clock + term.setWidth 32 →
    s.grantAtOnce i c r m term =
      { s with
        holds := s.holds.set i ⟨(s.holdSlot i).generation + 1, some ⟨.active, c, r, m, s.fence.next, d, none⟩⟩
        records := s.records.set r (some { x with
          holders := x.holders ++ [i], lastFence := s.fence.next, idleDeadline := none })
        fence := if s.fence.next = BitVec.allOnes 48 then ⟨s.fence.next, true⟩ else ⟨s.fence.next + 1, s.fence.exhausted⟩
        deadlines := (insertEntry s.timer.clock ⟨.hold i, d, false⟩ s.deadlines).filter fun e => e.ref != .record r
        holdCounts := ⟨s.holdCounts.free - 1, s.holdCounts.reserved, s.holdCounts.inUse + 1⟩
        sessions := s.sessions.set c { s.session c with holdCount := (s.session c).holdCount + 1 }
        live := countedClient s.live c fun k => { k with grants := k.grants + 1 }
        flags := s.flags ||| (if s.fence.next = BitVec.allOnes 48 then EventFlag.fenceExhausted.mask else 0) |||
          (if s.device.holdLowMark.toNat ≤ s.holdCounts.free ∧ s.holdCounts.free - 1 < s.device.holdLowMark.toNat
            then EventFlag.holdPoolLow.mask else 0) }) ∧
  ∀ (s : State) (i : HoldIx) (r : Slot) (term : Half) (h : Hold) (x : Record) (d : Word),
    s.hold i = some h → s.record r = some x → d = s.timer.clock + term.setWidth 32 →
    s.upgrade i r term =
      { s with
        holds := s.holds.set i ⟨(s.holdSlot i).generation,
          some { h with mode := .exclusive, fence := s.fence.next, deadline := d, conversion := none }⟩
        records := s.records.set r (some { x with lastFence := s.fence.next })
        fence := if s.fence.next = BitVec.allOnes 48 then ⟨s.fence.next, true⟩ else ⟨s.fence.next + 1, s.fence.exhausted⟩
        deadlines := insertEntry s.timer.clock ⟨.hold i, d, false⟩ (s.deadlines.filter fun e => e.ref != .hold i)
        flags := s.flags ||| (if s.fence.next = BitVec.allOnes 48 then EventFlag.fenceExhausted.mask else 0) }

/-- Derived from R25, R27, R29, R32, R33, R37, R42, R171, R174: a NEW wait and a CONVERSION wait, every field. -/
def Obligations.QueuedRequestMakesTheWait : Prop :=
  ∀ (s : State) (w : WaitIx) (y : Wait) (x : Record), s.wait w = none → s.record y.slot = some x →
    (s.queueNew w y =
      { s with
        waits := s.waits.set w ⟨(s.waitSlot w).generation + 1, some { y with arrival := s.arrival }⟩
        arrival := s.arrival + 1
        records := s.records.set y.slot (some { x with
          waitQueue := insertAfterLast (s.staysAhead y.priority) w x.waitQueue, idleDeadline := none })
        deadlines := (insertEntry s.timer.clock ⟨.wait w, y.deadline, false⟩ s.deadlines).filter
          fun e => e.ref != .record y.slot
        holdCounts := ⟨s.holdCounts.free - 1, s.holdCounts.reserved + 1, s.holdCounts.inUse⟩
        sessions := s.sessions.set y.client { s.session y.client with
          holdCount := (s.session y.client).holdCount + 1, waitCount := (s.session y.client).waitCount + 1 }
        live := countedClient s.live y.client fun k => { k with waitsBegun := k.waitsBegun + 1 }
        flags := s.flags |||
          (if s.device.waitLowMark.toNat ≤ s.freeWaitCount ∧ s.freeWaitCount - 1 < s.device.waitLowMark.toNat
            then EventFlag.waitPoolLow.mask else 0) |||
          (if s.device.holdLowMark.toNat ≤ s.holdCounts.free ∧ s.holdCounts.free - 1 < s.device.holdLowMark.toNat
            then EventFlag.holdPoolLow.mask else 0) }) ∧
    ∀ (i : HoldIx) (h : Hold), s.hold i = some h → s.queueUpgrade i w y =
      { s with
        holds := s.holds.set i ⟨(s.holdSlot i).generation,
          some { h with conversion := some ⟨w, (s.waitSlot w).generation + 1⟩ }⟩
        waits := s.waits.set w ⟨(s.waitSlot w).generation + 1, some { y with arrival := s.arrival }⟩
        arrival := s.arrival + 1
        records := s.records.set y.slot (some { x with waitQueue := w :: x.waitQueue, idleDeadline := none })
        deadlines := (insertEntry s.timer.clock ⟨.wait w, y.deadline, false⟩ s.deadlines).filter
          fun e => e.ref != .record y.slot
        sessions := s.sessions.set y.client { s.session y.client with waitCount := (s.session y.client).waitCount + 1 }
        live := countedClient s.live y.client fun k => { k with waitsBegun := k.waitsBegun + 1 }
        flags := s.flags |||
          (if s.device.waitLowMark.toNat ≤ s.freeWaitCount ∧ s.freeWaitCount - 1 < s.device.waitLowMark.toNat
            then EventFlag.waitPoolLow.mask else 0) }

/-- Derived from R39 steps 1 to 4, 6 and 7, R40 steps 1 to 5, 7 and 8, R18: the end of a hold, with and without a pending
conversion, and of a wait, NEW or CONVERSION, before the report; and the settling of the record after it, a grant pass and then an
idle deadline for a DYNAMIC record that is left idle. -/
def Obligations.EndedClaimIsFreedAndItsRecordSettled : Prop :=
  (∀ (s : State) (i : HoldIx) (h : Hold) (x : Record), s.hold i = some h → s.record h.slot = some x →
    (h.conversion = none → s.freeHold i h =
      { s with
        records := s.records.set h.slot (some { x with holders := x.holders.filter (· != i) })
        deadlines := s.deadlines.filter fun e => e.ref != .hold i
        holds := s.holds.set i ⟨(s.holdSlot i).generation, none⟩
        holdCounts := ⟨s.holdCounts.free + 1, s.holdCounts.reserved, s.holdCounts.inUse - 1⟩
        sessions := s.sessions.set h.client { s.session h.client with holdCount := (s.session h.client).holdCount - 1 } }) ∧
    ∀ (v : WaitHandle) (y : Wait), h.conversion = some v → s.wait v.index = some y → y.slot = h.slot →
      y.client = h.client → s.freeHold i h =
      { s with
        records := s.records.set h.slot (some { x with
          holders := x.holders.filter (· != i), waitQueue := x.waitQueue.filter (· != v.index) })
        deadlines := (s.deadlines.filter fun e => e.ref != .hold i).filter fun e => e.ref != .wait v.index
        holds := s.holds.set i ⟨(s.holdSlot i).generation, none⟩
        waits := s.waits.set v.index ⟨(s.waitSlot v.index).generation, none⟩
        holdCounts := ⟨s.holdCounts.free + 1, s.holdCounts.reserved, s.holdCounts.inUse - 1⟩
        sessions := s.sessions.set h.client { s.session h.client with
          holdCount := (s.session h.client).holdCount - 1, waitCount := (s.session h.client).waitCount - 1 } }) ∧
  (∀ (s : State) (w : WaitIx) (y : Wait) (x : Record), s.wait w = some y → s.record y.slot = some x →
    (y.purpose = .new → s.freeWait w y =
      { s with
        records := s.records.set y.slot (some { x with waitQueue := x.waitQueue.filter (· != w) })
        deadlines := s.deadlines.filter fun e => e.ref != .wait w
        waits := s.waits.set w ⟨(s.waitSlot w).generation, none⟩
        holdCounts := ⟨s.holdCounts.free + 1, s.holdCounts.reserved - 1, s.holdCounts.inUse⟩
        sessions := s.sessions.set y.client { s.session y.client with
          holdCount := (s.session y.client).holdCount - 1, waitCount := (s.session y.client).waitCount - 1 } }) ∧
    ∀ (v : HoldHandle) (h : Hold), y.purpose = .conversion v → s.hold v.index = some h → s.freeWait w y =
      { s with
        records := s.records.set y.slot (some { x with waitQueue := x.waitQueue.filter (· != w) })
        deadlines := s.deadlines.filter fun e => e.ref != .wait w
        waits := s.waits.set w ⟨(s.waitSlot w).generation, none⟩
        holds := s.holds.set v.index ⟨(s.holdSlot v.index).generation, some { h with conversion := none }⟩
        sessions := s.sessions.set y.client { s.session y.client with waitCount := (s.session y.client).waitCount - 1 } }) ∧
  ∀ (s t : State) (r : Slot) (d : Word), t = s.grantPass r → d = t.timer.clock + t.device.idleAge.setWidth 32 →
    (∀ x, t.record r = some x → x.kind = .dynamic → x.holders = [] → x.waitQueue = [] → x.idleDeadline = none →
      s.settleRecord r =
        { t with
          records := t.records.set r (some { x with idleDeadline := some d })
          deadlines := insertEntry t.timer.clock ⟨.record r, d, false⟩ t.deadlines }) ∧
    ((∀ x, t.record r = some x → x.kind = .pinned ∨ x.holders ≠ [] ∨ x.waitQueue ≠ [] ∨ x.idleDeadline ≠ none) →
      s.settleRecord r = t)

/-- Derived from R42, R44, R48, R54, R171: what the grant of a queued NEW wait and of a CONVERSION wait does, every field, before its
GRANTED notice is posted. -/
def Obligations.GrantedWaitBecomesTheHold : Prop :=
  ∀ (s : State) (r : Slot) (x : Record) (w : WaitIx) (y : Wait) (d : Word), s.record r = some x → s.wait w = some y →
    y.slot = r → d = s.timer.clock + (s.clampTerm y.client x y.term).setWidth 32 →
    (∀ i, y.purpose = .new → s.lowestFreeHold = some i → s.grantHead r x w y = State.postNotice
      { s with
        holds := s.holds.set i ⟨(s.holdSlot i).generation + 1,
          some ⟨.active, y.client, r, y.mode, s.fence.next, d, none⟩⟩
        waits := s.waits.set w ⟨(s.waitSlot w).generation, none⟩
        records := s.records.set r (some { x with
          holders := x.holders ++ [i], waitQueue := x.waitQueue.filter (· != w), lastFence := s.fence.next,
          idleDeadline := none })
        fence := if s.fence.next = BitVec.allOnes 48 then ⟨s.fence.next, true⟩ else ⟨s.fence.next + 1, s.fence.exhausted⟩
        deadlines := (insertEntry s.timer.clock ⟨.hold i, d, false⟩ (s.deadlines.filter fun e => e.ref != .wait w)).filter
          fun e => e.ref != .record r
        holdCounts := ⟨s.holdCounts.free, s.holdCounts.reserved - 1, s.holdCounts.inUse + 1⟩
        sessions := s.sessions.set y.client { s.session y.client with waitCount := (s.session y.client).waitCount - 1 }
        live := countedClient s.live y.client fun k => { k with grants := k.grants + 1 }
        flags := s.flags ||| (if s.fence.next = BitVec.allOnes 48 then EventFlag.fenceExhausted.mask else 0) }
      y.client y.requestTag (.granted ⟨i, (s.holdSlot i).generation + 1⟩ y.mode s.fence.next d)) ∧
    ∀ v h, y.purpose = .conversion v → s.hold v.index = some h → s.grantHead r x w y = State.postNotice
      { s with
        holds := s.holds.set v.index ⟨(s.holdSlot v.index).generation,
          some { h with mode := .exclusive, fence := s.fence.next, deadline := d, conversion := none }⟩
        waits := s.waits.set w ⟨(s.waitSlot w).generation, none⟩
        records := s.records.set r (some { x with
          waitQueue := x.waitQueue.filter (· != w), lastFence := s.fence.next })
        fence := if s.fence.next = BitVec.allOnes 48 then ⟨s.fence.next, true⟩ else ⟨s.fence.next + 1, s.fence.exhausted⟩
        deadlines := insertEntry s.timer.clock ⟨.hold v.index, d, false⟩
          ((s.deadlines.filter fun e => e.ref != .wait w).filter fun e => e.ref != .hold v.index)
        sessions := s.sessions.set y.client { s.session y.client with waitCount := (s.session y.client).waitCount - 1 }
        live := countedClient s.live y.client fun k => { k with grants := k.grants + 1 }
        flags := s.flags ||| (if s.fence.next = BitVec.allOnes 48 then EventFlag.fenceExhausted.mask else 0) }
      y.client y.requestTag (.granted (s.holdHandle v.index) .exclusive s.fence.next d)

/-- Derived from R34, R41, R48, R171, R173: a grant pass, one examination at a time: with an empty effective queue or an incompatible head
it ends and changes nothing; for want of a fence it raises FENCE_EXHAUSTED and ends; otherwise the head is granted and the pass goes
on. So it leaves the head incompatible, unless the fences are exhausted. It changes no other record and frees no hold, and what it
may change beside holds, waits and the record is the Deadline List, the pool counts, the fence counter, the sessions' counts, the
links, the live counters and the flags. -/
def Obligations.GrantPassGrantsFromTheHead : Prop :=
  ∀ (s t : State) (r : Slot), ReferenceLaw s → PoolLaw s → t = s.grantPass r →
    (s.record r = none → t = s) ∧
    (∀ x, s.record r = some x → s.effectiveQueue x = [] → t = s) ∧
    (∀ x w q y, s.record r = some x → s.effectiveQueue x = w :: q → s.wait w = some y →
      (s.waitCompatible x y = false → t = s) ∧
      (s.waitCompatible x y = true → s.fence.exhausted = true → t = s.raise .fenceExhausted) ∧
      (s.waitCompatible x y = true → s.fence.exhausted = false → t = (s.grantHead r x w y).grantPass r)) ∧
    (t.fence.exhausted = false → ∀ x w y, t.record r = some x → (t.effectiveQueue x).head? = some w → t.wait w = some y →
      t.waitCompatible x y = false) ∧
    (∀ q, q ≠ r → t.record q = s.record q) ∧ (∀ i h, s.hold i = some h → ∃ k, t.hold i = some k ∧ k.client = h.client ∧
      k.slot = h.slot) ∧
    (∀ w y, t.wait w = some y → s.wait w = some y) ∧ SameOutsideEngine s t ∧ ReferenceLaw t ∧ PoolLaw t

/-- Derived from R32: a NEW wait is inserted behind the CONVERSION and every NEW wait of at least its priority, and before the
others; a queue in order stays in order. -/
def Obligations.NewWaitIsInsertedByPriority : Prop :=
  ∀ (s : State) (w : WaitIx) (y : Wait) (q : List WaitIx), (∀ v ∈ q, ∃ x, s.wait v = some x) → q.Pairwise s.mayPrecede →
    s.wait w = some y → y.purpose = .new →
    (insertAfterLast (s.staysAhead y.priority) w q).Pairwise s.mayPrecede ∧
    ∃ front back, q = front ++ back ∧ insertAfterLast (s.staysAhead y.priority) w q = front ++ w :: back ∧
      (∀ v ∈ front, ∀ x, s.wait v = some x → x.purpose ≠ .new ∨ y.priority ≤ x.priority) ∧
      ∀ v ∈ back, ∀ x, s.wait v = some x → x.purpose = .new ∧ x.priority < y.priority

/-- Derived from R38, R39: which holds a request displaces, and that each ends with a LOST notice of cause DISPLACED and a settled
record, one after the other. That several of them end in the order of the holder list is the model's choice, and that the list is at
the cap when its length is the cap or more, and that the holds are found before the first of them ends, are its reading (log 17). -/
def Obligations.LapsedHoldsOfOthersAreDisplaced : Prop :=
  (∀ (s : State) (c : Client) (r : Slot) (m : Mode),
    (s.record r = none → s.displace c r m = s) ∧
    ∀ x, s.record r = some x → s.displace c r m = (s.displaced c x m).foldl State.displaceOne s) ∧
  (∀ (s : State) (i : HoldIx),
    (s.hold i = none → s.displaceOne i = s) ∧
    ∀ h, s.hold i = some h → s.displaceOne i = (((s.freeHold i h).postNotice h.client 0
      (.lost (s.holdHandle i) h.fence .displaced h.conversion.isSome)).settleRecord h.slot)) ∧
  ∀ (s : State) (c : Client) (x : Record) (lapsed : List HoldIx),
    lapsed = x.holders.filter (fun i => (s.hold i).any fun h => h.state == .lapsed && h.client != c) →
    s.displaced c x .exclusive = lapsed ∧
    ((∃ i h, i ∈ lapsed ∧ s.hold i = some h ∧ h.mode = .exclusive) →
      s.displaced c x .shared = lapsed.filter fun i => (s.hold i).any fun h => h.mode == .exclusive) ∧
    ((∀ i h, i ∈ lapsed → s.hold i = some h → h.mode = .shared) →
      (x.holderCap ≤ x.holders.length → s.displaced c x .shared = lapsed.head?.toList) ∧
      (x.holders.length < x.holderCap → s.displaced c x .shared = []))

/-- Stated, R54: the clamped term, in its four steps, from 1 to 65535. -/
def Obligations.RequestedTermIsClamped : Prop :=
  ∀ (s : State) (c : Client) (x : Record) (t base hi : Half),
    base = (if t = 0 then (s.session c).defaultTerm else t) →
    hi = (if x.maxTerm = 0 ∨ s.device.maxTerm ≤ x.maxTerm then s.device.maxTerm else x.maxTerm) →
    (s.clampTerm c x t).toNat = min hi.toNat (max s.device.minTerm.toNat base.toNat) ∧
    (SettingsLaw s → 1 ≤ (s.clampTerm c x t).toNat)

/-! ### The Lease Timer -/

/-- Derived from R50, R52, R58, R71, R73, R151: a tick. The refill as written is the one by which the credits rise, and it comes into
force (log 24). -/
def Obligations.TickAdvancesMarksAndRefills : Prop :=
  ∀ s : State, exec .tick s = .next
    { s with
      timer := ⟨s.timer.clock + 1, s.timer.pendingPeriod, s.timer.pendingPeriod⟩
      deadlines := s.deadlines.map fun e =>
        if (s.timer.clock + 1 - e.deadline).toNat < 2147483648 then { e with marked := true } else e
      sessions := s.sessions.map fun x =>
        { x with
          credits := min x.creditBurst.toNat (x.credits + x.creditRefill.toNat)
          refillInForce := x.creditRefill } }

/-- Derived from R57: the three keys of the order, the distance from now, then holds before waits before records, then the index; an entry
that joins the list takes the place these give it, and the others keep theirs. A tick keeps the order of two entries neither of which
has passed by 2³¹ ticks; so the list is kept in its order between the joinings (log 14, the model's reading). -/
def Obligations.DeadlineListStaysInOrder : Prop :=
  (∀ (now : Word) (a b : DeadlineEntry) (ka kb na nb : Nat),
    (ka, na) = (match a.ref with
      | .hold i => (0, i.val)
      | .wait w => (1, w.val)
      | .record r => (2, r.val)) →
    (kb, nb) = (match b.ref with
      | .hold i => (0, i.val)
      | .wait w => (1, w.val)
      | .record r => (2, r.val)) →
    (a.precedes now b = true ↔ distance now a.deadline < distance now b.deadline ∨
      distance now a.deadline = distance now b.deadline ∧ (ka < kb ∨ ka = kb ∧ na < nb))) ∧
  (∀ (now : Word) (a b : DeadlineEntry), distance now a.deadline ≠ -2147483648 → distance now b.deadline ≠ -2147483648 →
    a.precedes (now + 1) b = a.precedes now b) ∧
  ∀ (now : Word) (e : DeadlineEntry) (es : List DeadlineEntry),
    es.Pairwise (fun a b => b.precedes now a = false) →
    (insertEntry now e es).Pairwise (fun a b => b.precedes now a = false) ∧
    ∃ front back, es = front ++ back ∧ insertEntry now e es = front ++ e :: back ∧
      (∀ a ∈ front, e.precedes now a = false) ∧ ∀ b ∈ back.head?, e.precedes now b = true

/-- Stated, R60, R61, R62, R63, R64 (with R19, R20, R59, R112, R171): the taking of a due entry, the first marked one
in list order. An ACTIVE hold lapses into
grace under the four conditions; in every other case the hold ends EXPIRED, and so does a LAPSED one; a wait ends TIMEOUT; an
idle record is retired. -/
def Obligations.DueEntryIsTaken : Prop :=
  (∀ (s : State) (e : DeadlineEntry), s.nextMarked = some e ↔
    ∃ front back, s.deadlines = front ++ e :: back ∧ e.marked = true ∧ ∀ a ∈ front, a.marked = false) ∧
  (∀ (s : State) (e : DeadlineEntry) (i : HoldIx) (h : Hold) (x : Record) (d : Word),
    s.nextMarked = some e → e.ref = .hold i → s.hold i = some h → s.record h.slot = some x →
    d = s.timer.clock + s.device.graceTerm.setWidth 32 →
    (h.state = .active → s.device.graceTerm ≠ 0 ∧ s.effectiveQueue x = [] ∧ h.conversion = none ∧
        (s.session h.client).state ≠ .purging →
      exec .dueLeaseEntry s = .next (((s.setHold i (some { h with state := .lapsed, deadline := d })).setDeadlines
        (insertEntry s.timer.clock ⟨.hold i, d, false⟩ (s.deadlines.filter fun e => e.ref != .hold i))).postNotice h.client 0
        (.lapsed (s.holdHandle i) d))) ∧
    (h.state = .active → ¬(s.device.graceTerm ≠ 0 ∧ s.effectiveQueue x = [] ∧ h.conversion = none ∧
        (s.session h.client).state ≠ .purging) →
      exec .dueLeaseEntry s = .next ((((s.countClient h.client fun k =>
        { k with holdsExpired := k.holdsExpired + 1 }).freeHold i h).postNotice h.client 0
        (.lost (s.holdHandle i) h.fence .expired h.conversion.isSome)).settleRecord h.slot)) ∧
    (h.state = .lapsed →
      exec .dueGraceEntry s = .next ((((s.countClient h.client fun k =>
        { k with holdsExpired := k.holdsExpired + 1 }).freeHold i h).postNotice h.client 0
        (.lost (s.holdHandle i) h.fence .expired h.conversion.isSome)).settleRecord h.slot))) ∧
  ∀ (s : State) (e : DeadlineEntry), s.nextMarked = some e →
    (∀ w y, e.ref = .wait w → s.wait w = some y →
      exec .dueWaitEntry s = .next ((((s.countClient y.client fun k =>
        { k with waitsTimedOut := k.waitsTimedOut + 1 }).freeWait w y).postNotice y.client y.requestTag
        (.waitEnded (s.waitHandle w) .timeout)).settleRecord y.slot)) ∧
    ∀ r, e.ref = .record r →
      exec .dueIdleRecordEntry s = .next
        { s with records := s.records.set r none, deadlines := s.deadlines.filter fun e => e.ref != .record r }

/-! ### The Purge Unit -/

/-- Stated, R125, R126 (with R80, R122, R123, R124, R130): the steps of the walk, the end of the purge with the step on hold slot 255, and
what that end does. -/
def Obligations.PurgeWalksEverySlot : Prop :=
  (∀ (s : State) (c : Client) (q : List Client), s.purge.queue = c :: q →
    (∀ w : WaitIx, s.purge.walk = .wait w →
      exec .purgeWaitStep s = .next ((match s.wait w with
          | some y => if y.client = c then (s.freeWait w y).settleRecord y.slot else s
          | none => s).setPurge ⟨c :: q, if h : w.val + 1 < 128 then .wait ⟨w.val + 1, h⟩ else .hold 0⟩)) ∧
    ∀ (i : HoldIx) (t : State), s.purge.walk = .hold i →
      t = (match s.hold i with
        | some h => if h.client = c then (s.freeHold i h).settleRecord h.slot else s
        | none => s) →
      (∀ h : i.val + 1 < 256, exec .purgeHoldStep s = .next (t.setPurge ⟨c :: q, .hold ⟨i.val + 1, h⟩⟩)) ∧
      (i = 255 → exec .purgeHoldStep s = .next (t.purgeEnd c))) ∧
  ∀ (s u : State) (c : Client) (q : List Client) (a : AfterPurge), s.purge.queue = c :: q →
    (s.session c).afterPurge = some a →
    u = (s.modifySession c fun x =>
      { x with
        state := match a with
          | .active => .active
          | .detached => .detached
          | .barred => .barred
        tag := if a = .active then x.pendingTag.getD 0 else 0
        afterPurge := none
        pendingTag := none
        deferred := none }) →
    s.purgeEnd c =
      (((match (s.session c).deferred, a with
          | some d, .active => u.respond c d.requestTag (.attached ((s.session c).pendingTag.getD 0))
          | some d, .detached => u.respond c d.requestTag .detached
          | some d, .barred => u.respond c d.requestTag .barred
          | none, _ => u).setPurge ⟨q, s.purge.walk⟩).raise .purgeDone).nextPurge ∧
    ∀ t : State, t.nextPurge = match t.purge.queue with
      | n :: _ => (t.modifyLink n fun k => { k with noticeQueue := [], lossMark := false, lossCount := 0 }).setPurge
          { t.purge with walk := .wait 0 }
      | [] => t.setPurge { t.purge with walk := .idle }

/-! ### Client links -/

/-- Derived from R117, R136 to R141, R146, R170: the checksum, bit by bit, and which messages it calls good; every received character, broken character and running-out of the gap limit, by the
receiver's state, the stopped receiver among them, and what a discard advances. That CHARACTER_RECEIVED has the same effect as the
row that names the happening (MESSAGE_COMPLETE, FRAMING with a length, TRUNCATED, STRAY) is the model's choice (log 5), and that
FRAMING with a broken character is the row in every state is its reading (log 22). -/
def Obligations.ReceiverDealsWithEachCharacter : Prop :=
  crc16 [0x31, 0x32, 0x33, 0x34, 0x35, 0x36, 0x37, 0x38, 0x39] = 0x29B1 ∧ crc16 [] = 0xFFFF ∧
  (∀ (bs : List Byte) (b : Byte), crc16 (bs ++ [b]) =
    Nat.repeat (fun c => if c.msb then (c <<< 1) ^^^ 0x1021 else c <<< 1) 8 (crc16 bs ^^^ (b ++ (0 : Byte)))) ∧
  (∀ (front : List Byte) (high low : Byte), front.length = 2 + (front.getD 1 0).toNat →
    (checksumGood (front ++ [high, low]) = true ↔ crc16 front = high ++ low)) ∧
  (∀ (s : State) (l : Client) (cause : DiscardCause) (r : Receiver), s.discard l cause r =
    (((s.modifyLink l fun k => { k with
      receiver := r, discardCount := if k.discardCount = 65535 then 65535 else k.discardCount + 1 }).countLink l
      fun k => match cause with
        | .framing => { k with framing := k.framing + 1 }
        | .crc => { k with crc := k.crc + 1 }
        | .truncated => { k with truncated := k.truncated + 1 }
        | .overrun => { k with overrun := k.overrun + 1 }).raise .linkDiscard).choose l) ∧
  ∀ (s : State) (l : Client) (b : Byte),
    ((s.link l).receiver = .idle ∨ (s.link l).receiver = .hunt →
      exec (.characterReceived l b true) s = .next (s.modifyLink l fun k =>
        { k with receiver := .inMessage [b] ⟨k.gapLimit, k.divider, k.stopBits, 0⟩ })) ∧
    ((s.link l).receiver = .idle →
      exec (.stray l b) s = .next (s.countLink l fun k => { k with stray := k.stray + 1 }) ∧
      exec (.characterReceived l b false) s = .next (s.countLink l fun k => { k with stray := k.stray + 1 }) ∧
      exec (.framing l .broken) s = .next (s.modifyLink l fun k => { k with receiver := .hunt })) ∧
    ((s.link l).receiver = .hunt →
      exec (.characterReceived l b false) s = .next s ∧ exec (.framing l .broken) s = .next s) ∧
    ((s.link l).receiver = .stopped →
      exec (.framing l .broken) s = .next s ∧ ∀ mark, exec (.characterReceived l b mark) s = .next s) ∧
    ∀ (chars : List Byte) (g : Gap), (s.link l).receiver = .inMessage chars g →
      exec (.truncated l b) s = .next (s.discard l .truncated
        (.inMessage [b] ⟨(s.link l).gapLimit, (s.link l).divider, (s.link l).stopBits, 0⟩)) ∧
      exec (.characterReceived l b true) s = .next (s.discard l .truncated
        (.inMessage [b] ⟨(s.link l).gapLimit, (s.link l).divider, (s.link l).stopBits, 0⟩)) ∧
      exec (.gapLimit l) s = .next (s.discard l .truncated .idle) ∧
      exec (.framing l .broken) s = .next (s.discard l .framing .hunt) ∧
      (chars.length = 1 → b.toNat < 2 ∨ 20 < b.toNat →
        exec (.framing l (.length b)) s = .next (s.discard l .framing .hunt) ∧
        exec (.characterReceived l b false) s = .next (s.discard l .framing .hunt)) ∧
      (chars.length = 1 ∧ 2 ≤ b.toNat ∧ b.toNat ≤ 20 ∨
          2 ≤ chars.length ∧ chars.length + 1 ≠ 4 + (chars.getD 1 0).toNat →
        exec (.characterReceived l b false) s = .next (s.modifyLink l fun k =>
          { k with receiver := .inMessage (chars ++ [b]) ⟨k.gapLimit, k.divider, k.stopBits, 0⟩ })) ∧
      (2 ≤ chars.length → chars.length + 1 = 4 + (chars.getD 1 0).toNat →
        ∀ c : Instr, c = .messageComplete l b ∨ c = .characterReceived l b false →
          (checksumGood (chars ++ [b]) = false → exec c s = .next (s.discard l .crc .idle)) ∧
          (checksumGood (chars ++ [b]) = true → 4 ≤ (s.link l).rxQueue.length →
            exec c s = .next (s.discard l .overrun .idle)) ∧
          (checksumGood (chars ++ [b]) = true → (s.link l).rxQueue.length < 4 →
            exec c s = .next ((s.modifyLink l fun k =>
              { k with
                receiver := .idle
                rxQueue := k.rxQueue ++ [⟨chars.getD 0 0, chars.getD 1 0,
                  (chars.drop 2).take (chars.getD 1 0).toNat⟩] }).countLink l fun k => { k with good := k.good + 1 })))

/-- Derived from R114, R115, R117, R118, R146, R147: the disabling and the enabling of a link; each changes nothing when the link is
so already. An enabled receiver enters HUNT and watches its line for a start edge, with nothing kept of what passed on it before (that
it sees a fall only after it has seen a 1, and that its first sample comes a sample time later, are log 25, the model's choice). A
message that is still in flight when the link is enabled stays in flight, with its slot and its place in the response queue; that is
the model's reading of R147, which calls the transmitter idle and the response queue empty (log 21). -/
def Obligations.LinkIsDisabledAndEnabled : Prop :=
  ∀ (s : State) (l : Client),
    ((s.link l).enabled = true →
      exec (.linkEnable l) s = .next s ∧
      exec (.linkDisable l) s = .next (s.modifyLink l fun k =>
        { k with
          enabled := false
          receiver := .stopped
          rxQueue := []
          inProgress := if k.inProgress = none then none else some .toBeDropped
          slots := k.slots.map fun x => if x = .sending then .sending else .free
          responseQueue := k.responseQueue.filter fun i => k.slots[i] == .sending
          noticeQueue := []
          lossMark := false
          lossCount := 0
          discardCount := 0 })) ∧
    ((s.link l).enabled = false →
      exec (.linkDisable l) s = .next s ∧
      exec (.linkEnable l) s = .next ((({ s with
        wires := { s.wires with links := s.wires.links.set l ⟨.watching none, 0⟩ } }).modifyLink l
          fun k => { k with enabled := true, receiver := .hunt }).choose l))

/-- Derived from R133 to R135, R139, R146: the receive line. It is sampled every divider plus 1 clocks, inside a character by the divider the
character began with; a fall from 1 to 0 begins a character; the majority of the middle samples decides each bit, a start bit of 1
ends it unheard, and the first stop bit ends it; a character of clean bit times is received whole, and a line held at 0 is one
broken character. A stopped receiver ignores the line. The model's choice is that the sampling runs on while the line is watched and
that the first sample that reads 0 after a 1 is the character's first; the model deduces the length of a sample time, that a character
keeps its divider, and that the line is watched again from the deciding sample on (log 10). That a receiver which has seen no level
yet sees no fall is the model's choice (log 25). -/
def Obligations.ReceiveLineDecidesTheCharacter : Prop :=
  (∀ (samples : List Bool) (n : Nat) (a b c : Bool), samples[16 * n + 6]? = some a → samples[16 * n + 7]? = some b →
    samples[16 * n + 8]? = some c → (sampledBit samples n = true ↔ 2 ≤ a.toNat + b.toNat + c.toNat)) ∧
  (∀ (d : Byte) (level : Bool) (last : Option Bool), RxLine.sample d level (.watching last) =
    (if last = some true ∧ level = false then .inside d [level] else .watching (some level), none)) ∧
  (∀ (d e : Byte) (level : Bool) (samples all : List Bool), all = samples ++ [level] →
    (all.length ≠ 9 ∧ all.length ≠ 169 → RxLine.sample d level (.inside e samples) = (.inside e all, none)) ∧
    (all.length = 9 → RxLine.sample d level (.inside e samples) =
      if sampledBit all 0 then (.watching (some level), some .noCharacter) else (.inside e all, none)) ∧
    (all.length = 169 → sampledBit all 0 = false → RxLine.sample d level (.inside e samples) = (.watching (some level),
      some (if sampledBit all 10 then
        .received ⟨BitVec.ofFnLE (fun i : Fin 8 => sampledBit all (i.val + 1)), sampledBit all 9⟩ else .broken)))) ∧
  (∀ (k : Link) (w : LinkWire) (level : Bool) (d : Byte), d = (match w.rx with
      | .watching _ => k.divider
      | .inside e _ => e) →
    (k.receiver = .stopped → w.receive k level = ({ w with rx := .watching none, sampleClocks := 0 }, none)) ∧
    (k.receiver ≠ .stopped → w.sampleClocks < d.toNat →
      w.receive k level = ({ w with sampleClocks := w.sampleClocks + 1 }, none)) ∧
    (k.receiver ≠ .stopped → d.toNat ≤ w.sampleClocks → ∀ x y, RxLine.sample k.divider level w.rx = (x, y) →
      w.receive k level = ({ w with rx := x, sampleClocks := 0 }, y))) ∧
  (∀ (d : Byte) (c : Character) (n : BitVec 2), 1 ≤ n.toNat → n.toNat ≤ 2 → heardOver d (.watching (some true))
    ((c.levels n).flatMap fun level => List.replicate 16 level) = [.received c]) ∧
  ∀ (d : Byte) (n : Nat), 169 ≤ n → heardOver d (.watching (some true)) (List.replicate n false) = [.broken]

/-- Derived from R51, R120, R134, R135, R139, R149: what a clock does. It moves the prescaler, the lines and the running gaps on, the
port sees chip select, and nothing else changes; the happenings it brings about join the queue: a tick when the prescaler has
counted 480 times the period in progress, and for each link a character, a broken character, the running-out of the gap limit
without a start edge, and the end of a message. That this is what a step does on an empty queue, and the order of the happenings of
one clock, are the model's choice (log 2, 10, 25). -/
def Obligations.ClockBringsTheHappenings : Prop :=
  (∀ s : State, s.clockPasses = { s with
    wires := s.clockPasses.wires
    links := s.links.map fun k => { k with
      receiver := match k.receiver with
        | .inMessage chars g => .inMessage chars { g with elapsed := g.elapsed + 1 }
        | other => other
      tx := (k.tx.clock k).1 }
    port := { s.port with seenSelectHigh := s.port.seenSelectHigh || s.pins.chipSelect }
    pending := s.clockPasses.pending }) ∧
  (∀ s : State, s.clockPasses.pending = s.pending ++
    (if s.timer.period.toNat * 480 ≤ s.wires.prescaler + 1 then [.tick] else []) ++
    (List.finRange 8).flatMap (fun l => ((s.link l).clock l s.wires.links[l] s.pins.receive[l]).2) ++
    (s.wires.spi.clock s.port.seenSelectHigh s.pins s.readWord).2) ∧
  (∀ s : State,
    s.clockPasses.wires.prescaler = (if s.timer.period.toNat * 480 ≤ s.wires.prescaler + 1 then 0 else s.wires.prescaler + 1) ∧
    s.clockPasses.wires.spi = (s.wires.spi.clock s.port.seenSelectHigh s.pins s.readWord).1 ∧
    ∀ l : Client, s.clockPasses.wires.links[l] = ((s.link l).clock l s.wires.links[l] s.pins.receive[l]).1) ∧
  ∀ (k : Link) (l : Client) (w v : LinkWire) (level : Bool) (decided : Option Decided), w.receive k level = (v, decided) →
    (k.clock l w level).1 = v ∧
    (∀ c : Character, decided = some (.received c) → (k.clock l w level).2 =
      .characterReceived l c.byte c.mark :: if (k.tx.clock k).2 then [.messageSent l] else []) ∧
    (decided = some .broken → (k.clock l w level).2 =
      .framing l .broken :: if (k.tx.clock k).2 then [.messageSent l] else []) ∧
    (decided = none ∨ decided = some .noCharacter →
      (∀ chars g last, k.receiver = .inMessage chars g → v.rx = .watching last →
        g.limit.toNat * ((10 + g.stopBits.toNat) * (16 * (g.divider.toNat + 1))) ≤ g.elapsed + 1 →
        (k.clock l w level).2 = .gapLimit l :: if (k.tx.clock k).2 then [.messageSent l] else []) ∧
      ((∀ chars g last, k.receiver = .inMessage chars g → v.rx = .watching last →
        g.elapsed + 1 < g.limit.toNat * ((10 + g.stopBits.toNat) * (16 * (g.divider.toNat + 1)))) →
        (k.clock l w level).2 = if (k.tx.clock k).2 then [.messageSent l] else []))

/-! ### The management port -/

/-- Derived from R145, R150, R151, R153, R180 and the management window of Formats: the write of every word of the window that has
no row of its own, but for the command word, field by field. A word that is not written to, or not in the window, ignores it; the
gaps of the window are listed. -/
def Obligations.SettingIsWrittenFieldByField : Prop :=
  (∀ a : Half, windowWord a = none ↔
    (0x0006 ≤ a.toNat ∧ a.toNat < 0x0100 ∨
      0x0100 ≤ a.toNat ∧ a.toNat < 0x0180 ∧ 4 ≤ a.toNat % 16 ∨ 0x0180 ≤ a.toNat ∧ a.toNat < 0x0200 ∨
      0x0200 ≤ a.toNat ∧ a.toNat < 0x0280 ∧ 2 ≤ a.toNat % 16 ∨ 0x0280 ≤ a.toNat ∧ a.toNat < 0x0400 ∨
      0x041C ≤ a.toNat ∧ a.toNat < 0x0500 ∨ 0x0502 ≤ a.toNat ∧ a.toNat < 0x0600 ∨ 0x060E ≤ a.toNat ∧ a.toNat < 0x0700 ∨
      0x0701 ≤ a.toNat ∧ a.toNat < 0x0710 ∨ 0x0790 ≤ a.toNat ∧ a.toNat < 0x0810 ∨ 0x0890 ≤ a.toNat)) ∧
  ∀ (s : State) (v : Word),
    exec (.settingWrite 0x0000 v) s = .next (s.setTimer { s.timer with pendingPeriod :=
      if 1 ≤ (v.extractLsb' 0 14).toNat ∧ (v.extractLsb' 0 14).toNat ≤ 10000 then v.extractLsb' 0 14
      else s.timer.pendingPeriod }) ∧
    exec (.settingWrite 0x0001 v) s = .next (s.setDevice { s.device with
      minTerm := if v.extractLsb' 0 16 = 0 then s.device.minTerm else v.extractLsb' 0 16
      maxTerm := if v.extractLsb' 16 16 = 0 then s.device.maxTerm else v.extractLsb' 16 16 }) ∧
    exec (.settingWrite 0x0002 v) s = .next (s.setDevice { s.device with
      idleAge := v.extractLsb' 0 16, graceTerm := v.extractLsb' 16 8 }) ∧
    exec (.settingWrite 0x0003 v) s = .next (s.setDevice { s.device with
      urgencyMap := Vector.ofFn fun u => v.extractLsb' (2 * u.val) 2 }) ∧
    exec (.settingWrite 0x0005 v) s = .next (s.setDevice { s.device with
      holdLowMark := v.extractLsb' 0 8
      waitLowMark := if (v.extractLsb' 8 8).toNat < 128 then v.extractLsb' 8 7 else s.device.waitLowMark }) ∧
    (∀ c : Client,
      exec (.settingWrite (BitVec.ofNat 16 (0x0100 + 16 * c.val)) v) s = .next (s.modifySession c fun k =>
        { k with domainMask := v.extractLsb' 0 16 }) ∧
      exec (.settingWrite (BitVec.ofNat 16 (0x0101 + 16 * c.val)) v) s = .next (s.modifySession c fun k =>
        { k with
          holdQuota := v.extractLsb' 0 4
          waitQuota := if (v.extractLsb' 8 5).toNat ≤ 16 then v.extractLsb' 8 5 else k.waitQuota
          ceiling := v.extractLsb' 16 2
          mayCreate := v.getLsbD 24
          guardCapability := v.getLsbD 25 }) ∧
      exec (.settingWrite (BitVec.ofNat 16 (0x0102 + 16 * c.val)) v) s = .next (s.modifySession c fun k =>
        { k with defaultTerm := if v.extractLsb' 0 16 = 0 then k.defaultTerm else v.extractLsb' 0 16 }) ∧
      exec (.settingWrite (BitVec.ofNat 16 (0x0103 + 16 * c.val)) v) s = .next (s.modifySession c fun k =>
        { k with
          creditBurst := if v.extractLsb' 0 8 = 0 then k.creditBurst else v.extractLsb' 0 8
          creditRefill := v.extractLsb' 8 8 }) ∧
      exec (.settingWrite (BitVec.ofNat 16 (0x0201 + 16 * c.val)) v) s = .next (s.modifyLink c fun k =>
        { k with
          divider := v.extractLsb' 0 8
          stopBits := if v.extractLsb' 8 2 = 1 ∨ v.extractLsb' 8 2 = 2 then v.extractLsb' 8 2 else k.stopBits
          gapLimit := if v.extractLsb' 16 8 = 0 then k.gapLimit else v.extractLsb' 16 8 })) ∧
    (∀ i : Fin 4, exec (.settingWrite (BitVec.ofNat 16 (0x0600 + i.val)) v) s = .next (s.setAdmin { s.admin with
      params := s.admin.params.set i v })) ∧
    ∀ a : Half, a = 0x0004 ∨ 0x0400 ≤ a.toNat ∧ a.toNat < 0x0500 ∨ 0x0605 ≤ a.toNat ∨ windowWord a = none →
      exec (.settingWrite a v) s = .next s ∧ (windowWord a = none → s.readWord a = 0)

/-- Derived from R153, R154, R173, R175, R181, R182 and Formats: the flags and enables words and the interrupt line; the write of the
command word by the busy state, and the completion of a command; the numbers of the flags, the commands and the result codes. That the command word takes a code which names no command is the
model's reading (log 19). -/
def Obligations.FlagsInterruptAndCommandWord : Prop :=
  (∀ s : State,
    (∀ v : Word, exec (.flagsWrite v) s = .next (s.setFlags (s.flags &&& ~~~(v.extractLsb' 0 9)))) ∧
    (∀ v : Word, exec (.enablesWrite v) s = .next (s.setEnables (v.extractLsb' 0 9))) ∧
    (∀ f : EventFlag, s.raise f = s.setFlags (s.flags ||| BitVec.ofNat 9 (2 ^ f.bit))) ∧
    (s.intActive = true ↔ ∃ f : EventFlag, s.flags.getLsbD f.bit = true ∧ s.enables.getLsbD f.bit = true) ∧
    s.intLevel = (!s.intActive) ∧ s.readWord 0x041B = (if s.intActive then 1 else 0)) ∧
  (∀ (s : State) (v : Word) (c : AdminCommand), s.admin.busy = .idle → v.extractLsb' 0 8 = c.code →
    exec (.settingWrite 0x0604 v) s = .next (s.setAdmin { s.admin with
      command := c.code, busy := .pending c s.admin.params })) ∧
  (∀ (s : State) (v : Word), s.admin.busy = .idle → v.extractLsb' 0 8 = 0 ∨ 0x0E < (v.extractLsb' 0 8).toNat →
    exec (.settingWrite 0x0604 v) s =
      .next ((s.setAdmin { s.admin with command := v.extractLsb' 0 8 }).complete .badParameter [])) ∧
  (∀ (s : State) (v : Word), s.admin.busy ≠ .idle → exec (.settingWrite 0x0604 v) s = .next (s.raise .adminRefused)) ∧
  (∀ (s : State) (code : ResultCode) (ws : List Word), s.complete code ws =
    (s.setAdmin { s.admin with
      busy := .idle, resultCode := code.word, results := Vector.ofFn fun i => ws.getD i.val 0 }).raise .adminDone) ∧
  ((EventFlag.adminDone).bit = 0 ∧ (EventFlag.adminRefused).bit = 1 ∧ (EventFlag.purgeDone).bit = 2 ∧
    (EventFlag.holdPoolLow).bit = 3 ∧ (EventFlag.waitPoolLow).bit = 4 ∧ (EventFlag.bucketFull).bit = 5 ∧
    (EventFlag.noticeLoss).bit = 6 ∧ (EventFlag.linkDiscard).bit = 7 ∧ (EventFlag.fenceExhausted).bit = 8) ∧
  ((AdminCommand.installRecord).code = 0x01 ∧ (AdminCommand.unpinRecord).code = 0x02 ∧ (AdminCommand.removeRecord).code = 0x03 ∧
    (AdminCommand.removeDomain).code = 0x04 ∧ (AdminCommand.revokeHold).code = 0x05 ∧ (AdminCommand.cancelWait).code = 0x06 ∧
    (AdminCommand.findRecord).code = 0x07 ∧ (AdminCommand.readRecord).code = 0x08 ∧ (AdminCommand.readHold).code = 0x09 ∧
    (AdminCommand.readWait).code = 0x0A ∧ (AdminCommand.setClientState).code = 0x0B ∧
    (AdminCommand.snapshotCounters).code = 0x0C ∧ (AdminCommand.clearAll).code = 0x0D ∧ (AdminCommand.setHashSeed).code = 0x0E) ∧
  ((ResultCode.done).word = 1 ∧ (ResultCode.noRecord).word = 2 ∧ (ResultCode.bucketFull).word = 3 ∧
    (ResultCode.recordBusy).word = 4 ∧ (ResultCode.badHandle).word = 5 ∧ (ResultCode.badState).word = 6 ∧
    (ResultCode.badParameter).word = 7 ∧ (ResultCode.tableNotEmpty).word = 8)

/-- Derived from R51, R150, R152, R153, R165, R170 to R172, R175, R180 and the management window of Formats: what a READ of each word of the
window returns, field by field: settings as written, status as it stands, the mailbox, the snapshot bank and the live counters, and 0
from every address in a gap of the window. The fields of 0x0418 and 0x0419 that Formats gives no value in some states are left out (log 6). -/
def Obligations.WindowIsReadFieldByField : Prop :=
  (∀ s : State,
    s.readWord 0x0000 = s.timer.pendingPeriod.setWidth 32 ∧ s.readWord 0x0001 = s.device.maxTerm ++ s.device.minTerm ∧
    s.readWord 0x0002 = (0 : Byte) ++ s.device.graceTerm ++ s.device.idleAge ∧
    (s.readWord 0x0003).extractLsb' 16 16 = 0 ∧
    (∀ u : Fin 8, (s.readWord 0x0003).extractLsb' (2 * u.val) 2 = s.device.urgencyMap[u]) ∧
    s.readWord 0x0004 = s.hashSeed.setWidth 32 ∧
    s.readWord 0x0005 = (0 : BitVec 17) ++ s.device.waitLowMark ++ s.device.holdLowMark ∧
    s.readWord 0x0410 =
      BitVec.ofNat 32 s.holdCounts.free ||| BitVec.ofNat 32 s.holdCounts.reserved <<< 9 |||
        BitVec.ofNat 32 s.holdCounts.inUse <<< 18 ∧
    s.readWord 0x0411 = BitVec.ofNat 32 ((List.finRange 128).countP fun w => (s.wait w).isNone) ∧
    s.readWord 0x0412 = (if s.fence.exhausted then (1 : BitVec 1) else 0) ++ (0 : BitVec 15) ++ s.fence.next.extractLsb' 32 16 ∧
    s.readWord 0x0414 = s.arrival ∧ s.readWord 0x0415 = s.timer.clock ∧
    s.readWord 0x0416 = BitVec.ofNat 32 s.purge.queue.length ∧
    (s.purge.queue.length ≤ 8 → ∀ n : Fin 8, (s.readWord 0x0417).extractLsb' (4 * n.val) 4 =
      match s.purge.queue[n.val]? with
      | some c => BitVec.ofNat 4 c.val
      | none => 0) ∧
    s.readWord 0x041A = (match s.admin.busy with
      | .walking k => BitVec.ofNat 32 k.next.val
      | .idle => 1024
      | .pending _ _ => 1024) ∧
    s.readWord 0x041B = (if s.intActive then 1 else 0) ∧
    s.readWord 0x0500 = s.flags.setWidth 32 ∧ s.readWord 0x0501 = s.enables.setWidth 32 ∧
    s.readWord 0x0604 = s.admin.command.setWidth 32 ∧ s.readWord 0x0605 = s.admin.resultCode ∧
    s.readWord 0x0700 = s.snapshot.clock ∧ ∀ a : Half,
      0x0006 ≤ a.toNat ∧ a.toNat < 0x0100 ∨
      0x0100 ≤ a.toNat ∧ a.toNat < 0x0180 ∧ 4 ≤ a.toNat % 16 ∨ 0x0180 ≤ a.toNat ∧ a.toNat < 0x0200 ∨
      0x0200 ≤ a.toNat ∧ a.toNat < 0x0280 ∧ 2 ≤ a.toNat % 16 ∨ 0x0280 ≤ a.toNat ∧ a.toNat < 0x0400 ∨
      0x041C ≤ a.toNat ∧ a.toNat < 0x0500 ∨ 0x0502 ≤ a.toNat ∧ a.toNat < 0x0600 ∨ 0x060E ≤ a.toNat ∧ a.toNat < 0x0700 ∨
      0x0701 ≤ a.toNat ∧ a.toNat < 0x0710 ∨ 0x0790 ≤ a.toNat ∧ a.toNat < 0x0810 ∨ 0x0890 ≤ a.toNat →
      s.readWord a = 0) ∧
  (∀ s : State,
    (s.purge.walk = .idle → (s.readWord 0x0418).extractLsb' 0 8 = 0 ∧ (s.readWord 0x0418).extractLsb' 16 16 = 0) ∧
    (∀ w, s.purge.walk = .wait w → s.readWord 0x0418 = 1 ||| BitVec.ofNat 32 w.val <<< 8) ∧
    (∀ i, s.purge.walk = .hold i → s.readWord 0x0418 = 2 ||| BitVec.ofNat 32 i.val <<< 8) ∧
    (s.admin.busy = .idle → (s.readWord 0x0419).extractLsb' 0 8 = 0 ∧ (s.readWord 0x0419).extractLsb' 20 12 = 0) ∧
    (∀ c p, s.admin.busy = .pending c p →
      (s.readWord 0x0419).extractLsb' 0 16 = c.code ++ (1 : Byte) ∧ (s.readWord 0x0419).extractLsb' 20 12 = 0) ∧
    (∀ k, s.admin.busy = .walking k → s.readWord 0x0419 = 0x00000402 ||| k.domain.setWidth 32 <<< 16)) ∧
  (∀ (s : State) (c : Client) (x : Session) (k : Link), x = s.session c → k = s.link c →
    s.readWord (BitVec.ofNat 16 (0x0100 + 16 * c.val)) = x.domainMask.setWidth 32 ∧
    s.readWord (BitVec.ofNat 16 (0x0101 + 16 * c.val)) = x.holdQuota.setWidth 32 ||| x.waitQuota.setWidth 32 <<< 8 |||
      x.ceiling.setWidth 32 <<< 16 ||| (if x.mayCreate then (0x01000000 : Word) else 0) |||
      (if x.guardCapability then (0x02000000 : Word) else 0) ∧
    s.readWord (BitVec.ofNat 16 (0x0102 + 16 * c.val)) = x.defaultTerm.setWidth 32 ∧
    s.readWord (BitVec.ofNat 16 (0x0103 + 16 * c.val)) = (0 : Half) ++ x.creditRefill ++ x.creditBurst ∧
    s.readWord (BitVec.ofNat 16 (0x0200 + 16 * c.val)) = (if k.enabled then 1 else 0) ∧
    s.readWord (BitVec.ofNat 16 (0x0201 + 16 * c.val)) =
      k.divider.setWidth 32 ||| k.stopBits.setWidth 32 <<< 8 ||| k.gapLimit.setWidth 32 <<< 16 ∧
    s.readWord (BitVec.ofNat 16 (0x0400 + c.val)) =
      (match x.state with
        | .detached => (0 : Word)
        | .active => 1
        | .queryOnly => 2
        | .purging => 3
        | .barred => 4) ||| x.tag.setWidth 32 <<< 8 |||
      (match x.afterPurge with
        | some .detached => (0 : Word)
        | some .active => 0x10000
        | some .barred => 0x40000
        | none => 0x70000) |||
      (match x.deferred with
        | none => (0 : Word)
        | some d => if d.kind = .attach then 0x80000 else 0x100000) ||| (x.pendingTag.getD 0).setWidth 32 <<< 24 ∧
    s.readWord (BitVec.ofNat 16 (0x0408 + c.val)) =
      BitVec.ofNat 32 x.credits ||| BitVec.ofNat 32 x.holdCount <<< 8 ||| BitVec.ofNat 32 x.waitCount <<< 16) ∧
  (∀ (s : State) (i : Fin 4) (j : Fin 8), s.readWord (BitVec.ofNat 16 (0x0600 + i.val)) = s.admin.params[i] ∧
    s.readWord (BitVec.ofNat 16 (0x0606 + j.val)) = s.admin.results[j]) ∧
  ∀ (s : State) (n : Client) (i : Fin 8) (base : Nat) (b : CounterBank),
    base = 0x0710 ∧ b = s.snapshot.bank ∨ base = 0x0810 ∧ b = s.live →
    s.readWord (BitVec.ofNat 16 (base + 8 * n.val + i.val)) = (#v[(b.links[n]).good, (b.links[n]).framing, (b.links[n]).crc,
      (b.links[n]).truncated, (b.links[n]).overrun, (b.links[n]).stray, (b.links[n]).responsesSent,
      (b.links[n]).noticesSent])[i] ∧
    s.readWord (BitVec.ofNat 16 (base + 0x40 + 8 * n.val + i.val)) = (#v[(b.clients[n]).grants, (b.clients[n]).waitsBegun,
      (b.clients[n]).refusals, (b.clients[n]).holdsExpired, (b.clients[n]).waitsTimedOut, 0, 0, 0])[i]

/-- Derived from R149, R180 and Formats: a transaction of the SPI bus. A WRITE writes each word at its 32nd bit and drops a partial one; a
READ takes word n at the falling edge after which the word's first bit is shifted out, so n data bits take n/32 + 1 words; the
address advances from 0xFFFF to 0; another opcode, or a transaction too short for its address, writes and takes nothing; a port that
has not seen chip select high ignores the bus. The row of a written word has the effect of the write (log 5, the model's choice).
The latch of the fence counter is filled, read and emptied. Log 11 has the rest that is the model's: deduced, the edge at which a word
is taken and so their number, and that the taking of 0x0412 and the rise of chip select are FENCE_COUNTER_LATCH; chosen, that the
taking of another word is no command, that the bus is looked at once in a clock, and that there is no output level outside an
accepted transaction. -/
def Obligations.SpiTransactionGivesItsCommands : Prop :=
  (∀ (read : Half → Word) (p : Pins) (a : Half) (vs : List Word) (rest : List Bool), rest.length < 32 →
    transactionCommands read p (msbFirst (2 : Byte) ++ msbFirst a ++ vs.flatMap msbFirst ++ rest) =
      (vs.zipIdx.map fun q => writeCommand (a + BitVec.ofNat 16 q.2) q.1) ++ [.fenceCounterLatch .selectRises]) ∧
  (∀ (read : Half → Word) (p : Pins) (a : Half) (data : List Bool),
    transactionCommands read p (msbFirst (3 : Byte) ++ msbFirst a ++ data) =
      (((List.range (data.length / 32 + 1)).filter fun n => a + BitVec.ofNat 16 n == 0x0412).map fun _ =>
        .fenceCounterLatch .readHigh) ++ [.fenceCounterLatch .selectRises]) ∧
  (∀ (read : Half → Word) (p : Pins) (o : Byte) (a : Half) (bs : List Bool),
    (bs.length < 24 → transactionCommands read p bs = [.fenceCounterLatch .selectRises]) ∧
    (o ≠ 2 → o ≠ 3 →
      transactionCommands read p (msbFirst o ++ msbFirst a ++ bs) = [.fenceCounterLatch .selectRises])) ∧
  (∀ (x : SpiLine) (read : Half → Word) (p : Pins), p.chipSelect = false →
    (x.clock false p read).2 = [] ∧ (x.clock false p read).1.selected = false ∧ (x.clock false p read).1.output = none) ∧
  (∀ (x : SpiLine) (read : Half → Word) (p : Pins) (o : Byte) (a : Half) (data : List Bool), x.selected = true →
    x.bits = msbFirst o ++ msbFirst a ++ data →
    (p.chipSelect = false → p.serialClock = false → x.clockLevel = true → o = 3 → data.length % 32 = 0 →
      (x.clock true p read).1 = { x with
        clockLevel := false, taken := x.taken ++ [read (a + BitVec.ofNat 16 (data.length / 32))] }) ∧
    (x.clockLevel = false → o = 3 → x.output =
      some ((x.taken.getD (data.length / 32) 0).getLsbD (31 - data.length % 32))) ∧
    (o ≠ 2 → o ≠ 3 → x.output = some false)) ∧
  (∀ x : SpiLine, x.selected = true → x.bits.length < 24 → x.output = some false) ∧
  ∀ s : State, (∀ a v, exec (writeCommand a v) s = exec (.settingWrite a v) s) ∧
    exec (.fenceCounterLatch .readHigh) s = .next (s.setPort { s.port with
      latch := some (s.fence.next.extractLsb' 0 32) }) ∧
    exec (.fenceCounterLatch .selectRises) s = .next (s.setPort ⟨none, true⟩) ∧
    s.readWord 0x0413 = s.port.latch.getD (s.fence.next.extractLsb' 0 32)

/-! ### Administrative commands -/

/-- Stated, R14, R155 (with R11, R12, R13, R16, R17, R181): INSTALL RECORD and UNPIN RECORD. -/
def Obligations.InstallAndUnpinRecord : Prop :=
  (∀ (s : State) (p : Vector Word 4) (cap : Nat) (shareable : Bool) (maxTerm : Half), Awaits s .installRecord p →
    cap = (p[1].extractLsb' 8 4).toNat → shareable = p[1].getLsbD 0 → maxTerm = p[1].extractLsb' 16 16 →
    (cap = 0 ∨ 8 < cap → exec .installRecord s = .next (s.complete .badParameter [])) ∧
    (1 ≤ cap ∧ cap ≤ 8 →
      (s.lookup p[0] = none → s.placeFor p[0] = none →
        exec .installRecord s = .next ((s.raise .bucketFull).complete .bucketFull [])) ∧
      (∀ r, s.lookup p[0] = none → s.placeFor p[0] = some r →
        exec .installRecord s = .next ((s.place r ⟨p[0], .pinned, shareable, cap, maxTerm, [], [], 0, none⟩).complete .done
          [BitVec.ofNat 32 r.val, 1])) ∧
      ∀ r x, s.lookup p[0] = some r → s.record r = some x →
        (x.holders.length > cap ∨ shareable = false ∧
            ((∃ i ∈ x.holders, ∃ h, s.hold i = some h ∧ h.mode = .shared) ∨
              ∃ w ∈ x.waitQueue, ∃ y, s.wait w = some y ∧ y.mode = .shared) →
          exec .installRecord s = .next (s.complete .recordBusy [])) ∧
        ∀ t : State, ¬(x.holders.length > cap ∨ shareable = false ∧
            ((∃ i ∈ x.holders, ∃ h, s.hold i = some h ∧ h.mode = .shared) ∨
              ∃ w ∈ x.waitQueue, ∃ y, s.wait w = some y ∧ y.mode = .shared)) →
          t = { s with
            records := s.records.set r (some { x with
              kind := .pinned, shareable := shareable, holderCap := cap, maxTerm := maxTerm, idleDeadline := none })
            deadlines := s.deadlines.filter fun e => e.ref != .record r } →
          exec .installRecord s = .next ((if x.shareable = false ∧ shareable = true ∨ x.holderCap < cap then t.grantPass r
            else t).complete .done [BitVec.ofNat 32 r.val, 0]))) ∧
  ∀ (s : State) (p : Vector Word 4), Awaits s .unpinRecord p →
    (s.lookup p[0] = none → exec .unpinRecord s = .next (s.complete .noRecord [])) ∧
    ∀ r x, s.lookup p[0] = some r → s.record r = some x →
      (x.kind = .dynamic → exec .unpinRecord s = .next (s.complete .done [BitVec.ofNat 32 r.val])) ∧
      (x.kind = .pinned → exec .unpinRecord s = .next (((s.setRecord r (some { x with
        kind := .dynamic, shareable := true, holderCap := 8, maxTerm := 0 })).settleRecord r).complete .done
        [BitVec.ofNat 32 r.val]))

/-- Stated, R156, R157 (with R20, R21, R158, R181): REMOVE RECORD, REMOVE DOMAIN and the steps of its walk: the waits end,
then the holds, then the record is retired, and no grant pass runs. -/
def Obligations.RemoveRecordAndDomain : Prop :=
  (∀ (s : State) (r : Slot) (x : Record), s.removeClaims r x =
    (x.holders.foldl (fun t i => match t.hold i with
      | some h => (t.freeHold i h).postNotice h.client 0 (.lost (t.holdHandle i) h.fence .removed h.conversion.isSome)
      | none => t) (x.waitQueue.foldl (fun t w => match t.wait w with
        | some y => (t.freeWait w y).postNotice y.client y.requestTag (.waitEnded (t.waitHandle w) .removed)
        | none => t) s)).retire r) ∧
  (∀ (s : State) (p : Vector Word 4), Awaits s .removeRecord p →
    (s.lookup p[0] = none → exec .removeRecord s = .next (s.complete .noRecord [])) ∧
    ∀ r x, s.lookup p[0] = some r → s.record r = some x → exec .removeRecord s = .next ((s.removeClaims r x).complete .done
      [BitVec.ofNat 32 r.val, BitVec.ofNat 32 x.holders.length, BitVec.ofNat 32 x.waitQueue.length])) ∧
  (∀ (s : State) (p : Vector Word 4), Awaits s .removeDomain p →
    (15 < p[0].toNat → exec .removeDomain s = .next (s.complete .badParameter [])) ∧
    ∀ (d : BitVec 4) (u : State), p[0].toNat ≤ 15 → d = p[0].extractLsb' 0 4 → u = s.setMark d true →
      (∀ (x : Record) (t : State), s.record 0 = some x → domainOf x.key = d → t = u.removeClaims 0 x →
        exec .removeDomain s = .next (t.setAdmin { t.admin with
          busy := .walking ⟨d, 1, 1, x.holders.length, x.waitQueue.length⟩ })) ∧
      ((∀ x, s.record 0 = some x → domainOf x.key ≠ d) →
        exec .removeDomain s = .next (u.setAdmin { u.admin with busy := .walking ⟨d, 1, 0, 0, 0⟩ }))) ∧
  ∀ (s t : State) (k n : DomainWalk), s.admin.busy = .walking k →
    ((∃ x, s.record k.next = some x ∧ domainOf x.key = k.domain ∧ t = s.removeClaims k.next x ∧
        n = ⟨k.domain, k.next, k.records + 1, k.holds + x.holders.length, k.waits + x.waitQueue.length⟩) ∨
      (∀ x, s.record k.next = some x → domainOf x.key ≠ k.domain) ∧ t = s ∧ n = k) →
    (∀ h : k.next.val + 1 < 1024, exec .domainWalkStep s = .next (t.setAdmin { t.admin with
      busy := .walking { n with next := ⟨k.next.val + 1, h⟩ } })) ∧
    (k.next = 1023 → exec .domainWalkStep s = .next ((t.setMark k.domain false).complete .done
      [k.domain.setWidth 32, BitVec.ofNat 32 n.records, BitVec.ofNat 32 n.holds, BitVec.ofNat 32 n.waits]))

/-- Stated, R160, R161 (with R25, R39, R40, R112): REVOKE HOLD and CANCEL WAIT, on the claim of any client. -/
def Obligations.RevokeHoldAndCancelWait : Prop :=
  (∀ (s : State) (p : Vector Word 4), Awaits s .revokeHold p →
    (∀ i h, (p[0].extractLsb' 8 8).toNat = i.val → s.hold i = some h →
      (s.holdSlot i).generation = p[0].extractLsb' 0 8 →
      exec .revokeHold s = .next ((((s.freeHold i h).postNotice h.client 0
        (.lost (s.holdHandle i) h.fence .revoked h.conversion.isSome)).settleRecord h.slot).complete .done
        [BitVec.ofNat 32 h.client.val, BitVec.ofNat 32 h.slot.val, (h.fence.extractLsb' 32 16).setWidth 32,
          h.fence.extractLsb' 0 32, if h.conversion = none then 0 else 1])) ∧
    ((∀ i : HoldIx, (p[0].extractLsb' 8 8).toNat = i.val → s.hold i = none ∨
        (s.holdSlot i).generation ≠ p[0].extractLsb' 0 8) →
      exec .revokeHold s = .next (s.complete .badHandle []))) ∧
  ∀ (s : State) (p : Vector Word 4), Awaits s .cancelWait p →
    (∀ w y, (p[0].extractLsb' 8 8).toNat = w.val → s.wait w = some y →
      (s.waitSlot w).generation = p[0].extractLsb' 0 8 →
      exec .cancelWait s = .next ((((s.freeWait w y).postNotice y.client y.requestTag
        (.waitEnded (s.waitHandle w) .cancelledByManager)).settleRecord y.slot).complete .done
        [BitVec.ofNat 32 y.client.val, BitVec.ofNat 32 y.slot.val, if y.purpose = .new then 0 else 1])) ∧
    ((∀ w : WaitIx, (p[0].extractLsb' 8 8).toNat = w.val → s.wait w = none ∨
        (s.waitSlot w).generation ≠ p[0].extractLsb' 0 8) →
      exec .cancelWait s = .next (s.complete .badHandle []))

/-- Derived from R5, R162, R163, R181, R182 and Formats: FIND RECORD, READ RECORD, READ HOLD and READ WAIT change nothing
but the mailbox and ADMIN_DONE. Handles are packed two in a word, the first in bits 31 to 16, an unused half 0. The idle deadline in W3
of READ RECORD and the conversion handle in W5 of READ HOLD have any value when they are absent, which is the model's choice, and W5 of
READ WAIT is 0 for a NEW wait, which it deduces from R182 (log 6). -/
def Obligations.ReadingCommandsReport : Prop :=
  (∀ (s : State) (p : Vector Word 4), Awaits s .findRecord p →
    (s.lookup p[0] = none → exec .findRecord s = .next (s.complete .noRecord [])) ∧
    ∀ r x, s.lookup p[0] = some r → s.record r = some x → exec .findRecord s = .next (s.complete .done
      [BitVec.ofNat 32 r.val, if x.kind = .dynamic then 1 else 2])) ∧
  (∀ (s : State) (p : Vector Word 4), Awaits s .readRecord p →
    (1023 < p[0].toNat ∨ 1 < p[1].toNat → exec .readRecord s = .next (s.complete .badParameter [])) ∧
    ∀ r : Slot, p[0].toNat = r.val → p[1].toNat ≤ 1 →
      (s.record r = none → exec .readRecord s = .next (s.complete .noRecord [])) ∧
      ∀ x, s.record r = some x →
        (p[1] = 0 → ∃ idle : Word, (∀ d, x.idleDeadline = some d → idle = d) ∧ exec .readRecord s = .next (s.complete .done
          [x.key,
            (if x.kind = .dynamic then (1 : Word) else 2) ||| (if x.shareable then (4 : Word) else 0) |||
              BitVec.ofNat 32 x.holderCap <<< 4 |||
              (match s.recordMode x with | .free => (0 : Word) | .shared => 0x100 | .exclusive => 0x200) |||
              BitVec.ofNat 32 x.holders.length <<< 16 ||| BitVec.ofNat 32 x.waitQueue.length <<< 24,
            x.maxTerm.setWidth 32 ||| (if x.idleDeadline = none then (0 : Word) else 0x10000),
            idle, (x.lastFence.extractLsb' 32 16).setWidth 32, x.lastFence.extractLsb' 0 32])) ∧
        (p[1] = 1 → exec .readRecord s = .next (s.complete .done
          ([x.key, BitVec.ofNat 32 x.holders.length ||| BitVec.ofNat 32 x.waitQueue.length <<< 8] ++
            packHalves (x.holders.map (fun i => BitVec.ofNat 8 i.val ++ (s.holdSlot i).generation) ++
              x.waitQueue.map fun w => BitVec.ofNat 8 w.val ++ (s.waitSlot w).generation))))) ∧
  (∀ (s : State) (p : Vector Word 4), Awaits s .readHold p →
    (255 < p[0].toNat → exec .readHold s = .next (s.complete .badParameter [])) ∧
    ∀ i : HoldIx, p[0].toNat = i.val →
      (s.hold i = none → exec .readHold s = .next (s.complete .done [(s.holdSlot i).generation.setWidth 32 <<< 8])) ∧
      ∀ h, s.hold i = some h → ∃ absent : Half, exec .readHold s = .next (s.complete .done
        [(if h.state = .active then (1 : Word) else 2) ||| (s.holdSlot i).generation.setWidth 32 <<< 8 |||
            BitVec.ofNat 32 h.client.val <<< 16 ||| (if h.mode = .shared then (0x100000 : Word) else 0x200000),
          BitVec.ofNat 32 h.slot.val, (h.fence.extractLsb' 32 16).setWidth 32, h.fence.extractLsb' 0 32, h.deadline,
          match h.conversion with
          | none => absent.setWidth 32
          | some v => (BitVec.ofNat 8 v.index.val ++ v.generation).setWidth 32 ||| 0x10000])) ∧
  (packHalves [] = [] ∧ (∀ a : Half, packHalves [a] = [a ++ (0 : Half)]) ∧
    ∀ (a b : Half) (hs : List Half), packHalves (a :: b :: hs) = (a ++ b) :: packHalves hs) ∧
  ∀ (s : State) (p : Vector Word 4), Awaits s .readWait p →
    (127 < p[0].toNat → exec .readWait s = .next (s.complete .badParameter [])) ∧
    ∀ w : WaitIx, p[0].toNat = w.val →
      (s.wait w = none → exec .readWait s = .next (s.complete .done [(s.waitSlot w).generation.setWidth 32 <<< 8])) ∧
      ∀ y, s.wait w = some y → exec .readWait s = .next (s.complete .done
        [(1 : Word) ||| (s.waitSlot w).generation.setWidth 32 <<< 8 ||| BitVec.ofNat 32 y.client.val <<< 16 |||
            (if y.purpose = .new then (0 : Word) else 0x100000) ||| (if y.mode = .shared then (0x400000 : Word) else 0x800000) |||
            y.priority.setWidth 32 <<< 24,
          BitVec.ofNat 32 y.slot.val, y.arrival, y.deadline, y.term.setWidth 32 ||| y.requestTag.setWidth 32 <<< 16,
          match y.purpose with
          | .new => 0
          | .conversion v => (BitVec.ofNat 8 v.index.val ++ v.generation).setWidth 32])

/-- Stated, R164 (with R78, R81, R181, R182): SET CLIENT STATE, by the action and the client's state. -/
def Obligations.SetClientStateFollowsTheTable : Prop :=
  ∀ (s : State) (p : Vector Word 4), Awaits s .setClientState p →
    (7 < p[0].toNat ∨ p[1] = 0 ∨ 5 < p[1].toNat → exec .setClientState s = .next (s.complete .badParameter [])) ∧
    ∀ (c : Client) (state : ClientState), p[0].toNat = c.val → (s.session c).state = state →
      (∀ t : State,
        (p[1] = 1 ∧ state = .active ∧ t = s.modifySession c fun k => { k with state := .queryOnly }) ∨
        (p[1] = 1 ∧ state = .queryOnly ∧ t = s) ∨
        (p[1] = 2 ∧ state = .queryOnly ∧ t = s.modifySession c fun k => { k with state := .active }) ∨
        (p[1] = 2 ∧ state = .active ∧ t = s) ∨
        (p[1] = 3 ∧ (state = .active ∨ state = .queryOnly) ∧ t = s.enterPurging c .barred none none) ∨
        (p[1] = 3 ∧ state = .detached ∧ t = s.modifySession c fun k => { k with state := .barred }) ∨
        (p[1] = 3 ∧ state = .purging ∧ t = s.modifySession c fun k =>
          { k with afterPurge := some .barred, pendingTag := none }) ∨
        (p[1] = 4 ∧ state = .barred ∧ t = s.modifySession c fun k => { k with state := .detached, tag := 0 }) ∨
        (p[1] = 5 ∧ (state = .active ∨ state = .queryOnly) ∧ t = s.enterPurging c .detached none none) →
        exec .setClientState s = .next (t.complete .done
          [(t.session c).state.code.setWidth 32, (afterPurgeCode (t.session c).afterPurge).setWidth 32])) ∧
      ((p[1] = 1 ∨ p[1] = 2) ∧ (state = .detached ∨ state = .purging ∨ state = .barred) ∨
          p[1] = 3 ∧ state = .barred ∨ p[1] = 4 ∧ state ≠ .barred ∨
          p[1] = 5 ∧ (state = .detached ∨ state = .purging ∨ state = .barred) →
        exec .setClientState s = .next (s.complete .badState
          [state.code.setWidth 32, (afterPurgeCode (s.session c).afterPurge).setWidth 32]))

/-- Derived from R3, R23, R30, R82, R132, R148, R165 to R167, R172, R181, R182: SNAPSHOT COUNTERS, SET HASH SEED and CLEAR ALL, each
with all that it keeps. In CLEAR ALL the links and sessions are emptied before a deferred request is answered (log 18). -/
def Obligations.SnapshotSeedAndClearAll : Prop :=
  (∀ (s : State) (p : Vector Word 4), Awaits s .snapshotCounters p →
    (1 < p[0].toNat → exec .snapshotCounters s = .next (s.complete .badParameter [])) ∧
    (p[0] = 0 → exec .snapshotCounters s =
      .next ((s.setSnapshot ⟨s.timer.clock, s.live⟩).complete .done [s.timer.clock])) ∧
    (p[0] = 1 → exec .snapshotCounters s =
      .next (((s.setSnapshot ⟨s.timer.clock, s.live⟩).setLive CounterBank.zero).complete .done [s.timer.clock]))) ∧
  (∀ (s : State) (p : Vector Word 4), Awaits s .setHashSeed p →
    (255 < p[0].toNat → exec .setHashSeed s = .next (s.complete .badParameter [s.hashSeed.setWidth 32])) ∧
    (p[0].toNat ≤ 255 → (∃ r x, s.record r = some x) →
      exec .setHashSeed s = .next (s.complete .tableNotEmpty [s.hashSeed.setWidth 32])) ∧
    (p[0].toNat ≤ 255 → (∀ r, s.record r = none) →
      exec .setHashSeed s = .next ((s.setSeed (p[0].extractLsb' 0 8)).complete .done [p[0]]))) ∧
  ∀ (s u : State) (p : Vector Word 4), Awaits s .clearAll p →
    u = { s with
      records := Vector.replicate 1024 none
      closing := Vector.replicate 16 false
      holds := s.holds.map fun k => ⟨k.generation, none⟩
      holdCounts := ⟨256, 0, 0⟩
      waits := s.waits.map fun k => ⟨k.generation, none⟩
      deadlines := []
      sessions := s.sessions.map fun k =>
        if k.state = .barred then { k with holdCount := 0, waitCount := 0 }
        else { k with
          state := .detached, tag := 0, afterPurge := none, pendingTag := none, deferred := none, holdCount := 0,
          waitCount := 0 }
      links := s.links.map fun k =>
        { k with noticeQueue := [], lossMark := false, lossCount := 0, discardCount := 0 }
      purge := ⟨[], .idle⟩ } →
    exec .clearAll s = .next (((List.finRange 8).foldl (fun t c => match (s.session c).deferred with
      | some d => t.respond c d.requestTag .cleared
      | none => t) u).complete .done
      [BitVec.ofNat 32 ((List.finRange 1024).countP fun r => (s.record r).isSome),
        BitVec.ofNat 32 ((List.finRange 256).countP fun i => (s.hold i).isSome),
        BitVec.ofNat 32 ((List.finRange 128).countP fun w => (s.wait w).isSome)])

/-! ### The laws that every step keeps -/

/-- Derived from R22, R30, R53, R73, R148: the state right after power-on reset obeys every law. -/
def Obligations.ResetObeysTheLaws : Prop := SettingsLaw State.reset ∧ Lawful State.reset

/-- Derived from R51, R53, R72, R114 to R119, R139, R142, R145 to R147, R150: every step keeps the settings in their ranges, and keeps
the laws of every link. -/
def Obligations.SettingsAndLinksKeepTheirLaws : Prop :=
  (∀ s t : State, SettingsLaw s → step s = .next t → SettingsLaw t) ∧
    ∀ s t : State, LinksLaw s → step s = .next t → LinksLaw t

/-- Derived from R72, R74, R79, R80, R122, R124: every step keeps the laws of the session records and of the purge queue. -/
def Obligations.SessionsKeepTheirLaws : Prop :=
  ∀ s t : State, SessionsLaw s → step s = .next t → SessionsLaw t

/-- Derived from R48: every step keeps the law of fences; the counter never falls and its exhaustion stays, but at a power-on
reset. -/
def Obligations.FencesKeepTheirLaw : Prop :=
  (∀ s t : State, FenceLaw s → step s = .next t → FenceLaw t) ∧
    ∀ (c : Instr) (s t : State), c ≠ .powerOnReset → exec c s = .next t →
      s.fence.next ≤ t.fence.next ∧ (s.fence.exhausted = true → t.fence = s.fence)

/-- Derived from R4, R6, R7, R11, R18, R21, R24, R26, R27, R29, R32, R41, R48, R56, R72, R74, R83, R118, R122 to R124, R142, R158:
every step keeps Lawful: the laws of links, of sessions and the purge queue, of fences, of records in their buckets, of the
references between records, holds and waits, of the modes of holders, of queues by kind and priority (not by arrival), of grantable
heads, of the pool, of the two counts, of one Deadline List entry for each thing with a deadline (not the order of the list, log 14),
of who may own what, and of closing marks. -/
def Obligations.EveryStepKeepsTheLaws : Prop :=
  ∀ s t : State, Lawful s → step s = .next t → Lawful t

/-- Derived from R3, R21, R50 to R52, R71, R73, R120, R145, R147, R149, R151, R153, R169, R172, R173, R180: which commands change the clock, the
refill in force (a field of the model for R71 and R151, log 24), the seed, the closing marks, the settings, the enables, a link's
enable, the parameter words, the snapshot bank and the port, whose latch and sight of chip select only FENCE_COUNTER_LATCH changes. Of
the wires, a command changes only a receiver's, and only by the enabling of its link; no command but MESSAGE_SENT changes a message
in flight or what goes on at its line; no command changes the inputs. For the rest a clock changes the wires and the port's sight of chip select, and the outside the inputs (log 10, 25). -/
def Obligations.OnlyItsCommandsChangeASetting : Prop :=
  ∀ (c : Instr) (s t : State), exec c s = .next t → c ≠ .powerOnReset →
    (c ≠ .tick → t.timer.clock = s.timer.clock ∧ t.timer.period = s.timer.period ∧
      ∀ k : Client, (t.session k).refillInForce = (s.session k).refillInForce) ∧
    t.pins = s.pins ∧ t.wires.prescaler = s.wires.prescaler ∧ t.wires.spi = s.wires.spi ∧
    (∀ l : Client, c ≠ .linkEnable l → (∀ v, c ≠ .settingWrite (BitVec.ofNat 16 (0x0200 + 16 * l.val)) v) →
      t.wires.links[l] = s.wires.links[l]) ∧
    (∀ l : Client, c ≠ .messageSent l → (s.link l).inFlight ≠ none →
      (t.link l).inFlight = (s.link l).inFlight ∧ (t.link l).tx = (s.link l).tx) ∧
    (c ≠ .setHashSeed → t.hashSeed = s.hashSeed) ∧
    (c ≠ .removeDomain → c ≠ .domainWalkStep → c ≠ .clearAll → t.closing = s.closing) ∧
    (c ≠ .snapshotCounters → t.snapshot = s.snapshot) ∧
    ((∀ e, c ≠ .fenceCounterLatch e) → t.port = s.port) ∧
    ((∀ a v, c ≠ .settingWrite a v) →
      SameSettings s t ∧ t.admin.params = s.admin.params ∧ ((∀ v, c ≠ .enablesWrite v) → t.enables = s.enables) ∧
      ∀ l, c ≠ .linkEnable l → c ≠ .linkDisable l → (t.link l).enabled = (s.link l).enabled)
end

