-- ==== Sys2Proof/Laws/State.lean ====
section
/-! SUPPORT. One lemma per field per update of State, true by rfl, so that no later proof unfolds a record update; and the reads of
one element after the update of one element. -/

namespace Sys2Proof.Machine

/-! ### Fields after an update of a field -/

@[simp] theorem setRecords_records (s : State) x : (s.setRecords x).records = x := rfl
@[simp] theorem setRecords_hashSeed (s : State) x : (s.setRecords x).hashSeed = s.hashSeed := rfl
@[simp] theorem setRecords_closing (s : State) x : (s.setRecords x).closing = s.closing := rfl
@[simp] theorem setRecords_holds (s : State) x : (s.setRecords x).holds = s.holds := rfl
@[simp] theorem setRecords_holdCounts (s : State) x : (s.setRecords x).holdCounts = s.holdCounts := rfl
@[simp] theorem setRecords_waits (s : State) x : (s.setRecords x).waits = s.waits := rfl
@[simp] theorem setRecords_fence (s : State) x : (s.setRecords x).fence = s.fence := rfl
@[simp] theorem setRecords_arrival (s : State) x : (s.setRecords x).arrival = s.arrival := rfl
@[simp] theorem setRecords_deadlines (s : State) x : (s.setRecords x).deadlines = s.deadlines := rfl
@[simp] theorem setRecords_timer (s : State) x : (s.setRecords x).timer = s.timer := rfl
@[simp] theorem setRecords_device (s : State) x : (s.setRecords x).device = s.device := rfl
@[simp] theorem setRecords_sessions (s : State) x : (s.setRecords x).sessions = s.sessions := rfl
@[simp] theorem setRecords_links (s : State) x : (s.setRecords x).links = s.links := rfl
@[simp] theorem setRecords_purge (s : State) x : (s.setRecords x).purge = s.purge := rfl
@[simp] theorem setRecords_admin (s : State) x : (s.setRecords x).admin = s.admin := rfl
@[simp] theorem setRecords_flags (s : State) x : (s.setRecords x).flags = s.flags := rfl
@[simp] theorem setRecords_enables (s : State) x : (s.setRecords x).enables = s.enables := rfl
@[simp] theorem setRecords_live (s : State) x : (s.setRecords x).live = s.live := rfl
@[simp] theorem setRecords_snapshot (s : State) x : (s.setRecords x).snapshot = s.snapshot := rfl
@[simp] theorem setRecords_port (s : State) x : (s.setRecords x).port = s.port := rfl
@[simp] theorem setRecords_wires (s : State) x : (s.setRecords x).wires = s.wires := rfl
@[simp] theorem setRecords_pins (s : State) x : (s.setRecords x).pins = s.pins := rfl
@[simp] theorem setRecords_pending (s : State) x : (s.setRecords x).pending = s.pending := rfl

@[simp] theorem setSeed_records (s : State) x : (s.setSeed x).records = s.records := rfl
@[simp] theorem setSeed_hashSeed (s : State) x : (s.setSeed x).hashSeed = x := rfl
@[simp] theorem setSeed_closing (s : State) x : (s.setSeed x).closing = s.closing := rfl
@[simp] theorem setSeed_holds (s : State) x : (s.setSeed x).holds = s.holds := rfl
@[simp] theorem setSeed_holdCounts (s : State) x : (s.setSeed x).holdCounts = s.holdCounts := rfl
@[simp] theorem setSeed_waits (s : State) x : (s.setSeed x).waits = s.waits := rfl
@[simp] theorem setSeed_fence (s : State) x : (s.setSeed x).fence = s.fence := rfl
@[simp] theorem setSeed_arrival (s : State) x : (s.setSeed x).arrival = s.arrival := rfl
@[simp] theorem setSeed_deadlines (s : State) x : (s.setSeed x).deadlines = s.deadlines := rfl
@[simp] theorem setSeed_timer (s : State) x : (s.setSeed x).timer = s.timer := rfl
@[simp] theorem setSeed_device (s : State) x : (s.setSeed x).device = s.device := rfl
@[simp] theorem setSeed_sessions (s : State) x : (s.setSeed x).sessions = s.sessions := rfl
@[simp] theorem setSeed_links (s : State) x : (s.setSeed x).links = s.links := rfl
@[simp] theorem setSeed_purge (s : State) x : (s.setSeed x).purge = s.purge := rfl
@[simp] theorem setSeed_admin (s : State) x : (s.setSeed x).admin = s.admin := rfl
@[simp] theorem setSeed_flags (s : State) x : (s.setSeed x).flags = s.flags := rfl
@[simp] theorem setSeed_enables (s : State) x : (s.setSeed x).enables = s.enables := rfl
@[simp] theorem setSeed_live (s : State) x : (s.setSeed x).live = s.live := rfl
@[simp] theorem setSeed_snapshot (s : State) x : (s.setSeed x).snapshot = s.snapshot := rfl
@[simp] theorem setSeed_port (s : State) x : (s.setSeed x).port = s.port := rfl
@[simp] theorem setSeed_wires (s : State) x : (s.setSeed x).wires = s.wires := rfl
@[simp] theorem setSeed_pins (s : State) x : (s.setSeed x).pins = s.pins := rfl
@[simp] theorem setSeed_pending (s : State) x : (s.setSeed x).pending = s.pending := rfl

@[simp] theorem setClosing_records (s : State) x : (s.setClosing x).records = s.records := rfl
@[simp] theorem setClosing_hashSeed (s : State) x : (s.setClosing x).hashSeed = s.hashSeed := rfl
@[simp] theorem setClosing_closing (s : State) x : (s.setClosing x).closing = x := rfl
@[simp] theorem setClosing_holds (s : State) x : (s.setClosing x).holds = s.holds := rfl
@[simp] theorem setClosing_holdCounts (s : State) x : (s.setClosing x).holdCounts = s.holdCounts := rfl
@[simp] theorem setClosing_waits (s : State) x : (s.setClosing x).waits = s.waits := rfl
@[simp] theorem setClosing_fence (s : State) x : (s.setClosing x).fence = s.fence := rfl
@[simp] theorem setClosing_arrival (s : State) x : (s.setClosing x).arrival = s.arrival := rfl
@[simp] theorem setClosing_deadlines (s : State) x : (s.setClosing x).deadlines = s.deadlines := rfl
@[simp] theorem setClosing_timer (s : State) x : (s.setClosing x).timer = s.timer := rfl
@[simp] theorem setClosing_device (s : State) x : (s.setClosing x).device = s.device := rfl
@[simp] theorem setClosing_sessions (s : State) x : (s.setClosing x).sessions = s.sessions := rfl
@[simp] theorem setClosing_links (s : State) x : (s.setClosing x).links = s.links := rfl
@[simp] theorem setClosing_purge (s : State) x : (s.setClosing x).purge = s.purge := rfl
@[simp] theorem setClosing_admin (s : State) x : (s.setClosing x).admin = s.admin := rfl
@[simp] theorem setClosing_flags (s : State) x : (s.setClosing x).flags = s.flags := rfl
@[simp] theorem setClosing_enables (s : State) x : (s.setClosing x).enables = s.enables := rfl
@[simp] theorem setClosing_live (s : State) x : (s.setClosing x).live = s.live := rfl
@[simp] theorem setClosing_snapshot (s : State) x : (s.setClosing x).snapshot = s.snapshot := rfl
@[simp] theorem setClosing_port (s : State) x : (s.setClosing x).port = s.port := rfl
@[simp] theorem setClosing_wires (s : State) x : (s.setClosing x).wires = s.wires := rfl
@[simp] theorem setClosing_pins (s : State) x : (s.setClosing x).pins = s.pins := rfl
@[simp] theorem setClosing_pending (s : State) x : (s.setClosing x).pending = s.pending := rfl

@[simp] theorem setHolds_records (s : State) x : (s.setHolds x).records = s.records := rfl
@[simp] theorem setHolds_hashSeed (s : State) x : (s.setHolds x).hashSeed = s.hashSeed := rfl
@[simp] theorem setHolds_closing (s : State) x : (s.setHolds x).closing = s.closing := rfl
@[simp] theorem setHolds_holds (s : State) x : (s.setHolds x).holds = x := rfl
@[simp] theorem setHolds_holdCounts (s : State) x : (s.setHolds x).holdCounts = s.holdCounts := rfl
@[simp] theorem setHolds_waits (s : State) x : (s.setHolds x).waits = s.waits := rfl
@[simp] theorem setHolds_fence (s : State) x : (s.setHolds x).fence = s.fence := rfl
@[simp] theorem setHolds_arrival (s : State) x : (s.setHolds x).arrival = s.arrival := rfl
@[simp] theorem setHolds_deadlines (s : State) x : (s.setHolds x).deadlines = s.deadlines := rfl
@[simp] theorem setHolds_timer (s : State) x : (s.setHolds x).timer = s.timer := rfl
@[simp] theorem setHolds_device (s : State) x : (s.setHolds x).device = s.device := rfl
@[simp] theorem setHolds_sessions (s : State) x : (s.setHolds x).sessions = s.sessions := rfl
@[simp] theorem setHolds_links (s : State) x : (s.setHolds x).links = s.links := rfl
@[simp] theorem setHolds_purge (s : State) x : (s.setHolds x).purge = s.purge := rfl
@[simp] theorem setHolds_admin (s : State) x : (s.setHolds x).admin = s.admin := rfl
@[simp] theorem setHolds_flags (s : State) x : (s.setHolds x).flags = s.flags := rfl
@[simp] theorem setHolds_enables (s : State) x : (s.setHolds x).enables = s.enables := rfl
@[simp] theorem setHolds_live (s : State) x : (s.setHolds x).live = s.live := rfl
@[simp] theorem setHolds_snapshot (s : State) x : (s.setHolds x).snapshot = s.snapshot := rfl
@[simp] theorem setHolds_port (s : State) x : (s.setHolds x).port = s.port := rfl
@[simp] theorem setHolds_wires (s : State) x : (s.setHolds x).wires = s.wires := rfl
@[simp] theorem setHolds_pins (s : State) x : (s.setHolds x).pins = s.pins := rfl
@[simp] theorem setHolds_pending (s : State) x : (s.setHolds x).pending = s.pending := rfl

@[simp] theorem setHoldCounts_records (s : State) x : (s.setHoldCounts x).records = s.records := rfl
@[simp] theorem setHoldCounts_hashSeed (s : State) x : (s.setHoldCounts x).hashSeed = s.hashSeed := rfl
@[simp] theorem setHoldCounts_closing (s : State) x : (s.setHoldCounts x).closing = s.closing := rfl
@[simp] theorem setHoldCounts_holds (s : State) x : (s.setHoldCounts x).holds = s.holds := rfl
@[simp] theorem setHoldCounts_holdCounts (s : State) x : (s.setHoldCounts x).holdCounts = x := rfl
@[simp] theorem setHoldCounts_waits (s : State) x : (s.setHoldCounts x).waits = s.waits := rfl
@[simp] theorem setHoldCounts_fence (s : State) x : (s.setHoldCounts x).fence = s.fence := rfl
@[simp] theorem setHoldCounts_arrival (s : State) x : (s.setHoldCounts x).arrival = s.arrival := rfl
@[simp] theorem setHoldCounts_deadlines (s : State) x : (s.setHoldCounts x).deadlines = s.deadlines := rfl
@[simp] theorem setHoldCounts_timer (s : State) x : (s.setHoldCounts x).timer = s.timer := rfl
@[simp] theorem setHoldCounts_device (s : State) x : (s.setHoldCounts x).device = s.device := rfl
@[simp] theorem setHoldCounts_sessions (s : State) x : (s.setHoldCounts x).sessions = s.sessions := rfl
@[simp] theorem setHoldCounts_links (s : State) x : (s.setHoldCounts x).links = s.links := rfl
@[simp] theorem setHoldCounts_purge (s : State) x : (s.setHoldCounts x).purge = s.purge := rfl
@[simp] theorem setHoldCounts_admin (s : State) x : (s.setHoldCounts x).admin = s.admin := rfl
@[simp] theorem setHoldCounts_flags (s : State) x : (s.setHoldCounts x).flags = s.flags := rfl
@[simp] theorem setHoldCounts_enables (s : State) x : (s.setHoldCounts x).enables = s.enables := rfl
@[simp] theorem setHoldCounts_live (s : State) x : (s.setHoldCounts x).live = s.live := rfl
@[simp] theorem setHoldCounts_snapshot (s : State) x : (s.setHoldCounts x).snapshot = s.snapshot := rfl
@[simp] theorem setHoldCounts_port (s : State) x : (s.setHoldCounts x).port = s.port := rfl
@[simp] theorem setHoldCounts_wires (s : State) x : (s.setHoldCounts x).wires = s.wires := rfl
@[simp] theorem setHoldCounts_pins (s : State) x : (s.setHoldCounts x).pins = s.pins := rfl
@[simp] theorem setHoldCounts_pending (s : State) x : (s.setHoldCounts x).pending = s.pending := rfl

@[simp] theorem setWaits_records (s : State) x : (s.setWaits x).records = s.records := rfl
@[simp] theorem setWaits_hashSeed (s : State) x : (s.setWaits x).hashSeed = s.hashSeed := rfl
@[simp] theorem setWaits_closing (s : State) x : (s.setWaits x).closing = s.closing := rfl
@[simp] theorem setWaits_holds (s : State) x : (s.setWaits x).holds = s.holds := rfl
@[simp] theorem setWaits_holdCounts (s : State) x : (s.setWaits x).holdCounts = s.holdCounts := rfl
@[simp] theorem setWaits_waits (s : State) x : (s.setWaits x).waits = x := rfl
@[simp] theorem setWaits_fence (s : State) x : (s.setWaits x).fence = s.fence := rfl
@[simp] theorem setWaits_arrival (s : State) x : (s.setWaits x).arrival = s.arrival := rfl
@[simp] theorem setWaits_deadlines (s : State) x : (s.setWaits x).deadlines = s.deadlines := rfl
@[simp] theorem setWaits_timer (s : State) x : (s.setWaits x).timer = s.timer := rfl
@[simp] theorem setWaits_device (s : State) x : (s.setWaits x).device = s.device := rfl
@[simp] theorem setWaits_sessions (s : State) x : (s.setWaits x).sessions = s.sessions := rfl
@[simp] theorem setWaits_links (s : State) x : (s.setWaits x).links = s.links := rfl
@[simp] theorem setWaits_purge (s : State) x : (s.setWaits x).purge = s.purge := rfl
@[simp] theorem setWaits_admin (s : State) x : (s.setWaits x).admin = s.admin := rfl
@[simp] theorem setWaits_flags (s : State) x : (s.setWaits x).flags = s.flags := rfl
@[simp] theorem setWaits_enables (s : State) x : (s.setWaits x).enables = s.enables := rfl
@[simp] theorem setWaits_live (s : State) x : (s.setWaits x).live = s.live := rfl
@[simp] theorem setWaits_snapshot (s : State) x : (s.setWaits x).snapshot = s.snapshot := rfl
@[simp] theorem setWaits_port (s : State) x : (s.setWaits x).port = s.port := rfl
@[simp] theorem setWaits_wires (s : State) x : (s.setWaits x).wires = s.wires := rfl
@[simp] theorem setWaits_pins (s : State) x : (s.setWaits x).pins = s.pins := rfl
@[simp] theorem setWaits_pending (s : State) x : (s.setWaits x).pending = s.pending := rfl

@[simp] theorem setFence_records (s : State) x : (s.setFence x).records = s.records := rfl
@[simp] theorem setFence_hashSeed (s : State) x : (s.setFence x).hashSeed = s.hashSeed := rfl
@[simp] theorem setFence_closing (s : State) x : (s.setFence x).closing = s.closing := rfl
@[simp] theorem setFence_holds (s : State) x : (s.setFence x).holds = s.holds := rfl
@[simp] theorem setFence_holdCounts (s : State) x : (s.setFence x).holdCounts = s.holdCounts := rfl
@[simp] theorem setFence_waits (s : State) x : (s.setFence x).waits = s.waits := rfl
@[simp] theorem setFence_fence (s : State) x : (s.setFence x).fence = x := rfl
@[simp] theorem setFence_arrival (s : State) x : (s.setFence x).arrival = s.arrival := rfl
@[simp] theorem setFence_deadlines (s : State) x : (s.setFence x).deadlines = s.deadlines := rfl
@[simp] theorem setFence_timer (s : State) x : (s.setFence x).timer = s.timer := rfl
@[simp] theorem setFence_device (s : State) x : (s.setFence x).device = s.device := rfl
@[simp] theorem setFence_sessions (s : State) x : (s.setFence x).sessions = s.sessions := rfl
@[simp] theorem setFence_links (s : State) x : (s.setFence x).links = s.links := rfl
@[simp] theorem setFence_purge (s : State) x : (s.setFence x).purge = s.purge := rfl
@[simp] theorem setFence_admin (s : State) x : (s.setFence x).admin = s.admin := rfl
@[simp] theorem setFence_flags (s : State) x : (s.setFence x).flags = s.flags := rfl
@[simp] theorem setFence_enables (s : State) x : (s.setFence x).enables = s.enables := rfl
@[simp] theorem setFence_live (s : State) x : (s.setFence x).live = s.live := rfl
@[simp] theorem setFence_snapshot (s : State) x : (s.setFence x).snapshot = s.snapshot := rfl
@[simp] theorem setFence_port (s : State) x : (s.setFence x).port = s.port := rfl
@[simp] theorem setFence_wires (s : State) x : (s.setFence x).wires = s.wires := rfl
@[simp] theorem setFence_pins (s : State) x : (s.setFence x).pins = s.pins := rfl
@[simp] theorem setFence_pending (s : State) x : (s.setFence x).pending = s.pending := rfl

@[simp] theorem setArrival_records (s : State) x : (s.setArrival x).records = s.records := rfl
@[simp] theorem setArrival_hashSeed (s : State) x : (s.setArrival x).hashSeed = s.hashSeed := rfl
@[simp] theorem setArrival_closing (s : State) x : (s.setArrival x).closing = s.closing := rfl
@[simp] theorem setArrival_holds (s : State) x : (s.setArrival x).holds = s.holds := rfl
@[simp] theorem setArrival_holdCounts (s : State) x : (s.setArrival x).holdCounts = s.holdCounts := rfl
@[simp] theorem setArrival_waits (s : State) x : (s.setArrival x).waits = s.waits := rfl
@[simp] theorem setArrival_fence (s : State) x : (s.setArrival x).fence = s.fence := rfl
@[simp] theorem setArrival_arrival (s : State) x : (s.setArrival x).arrival = x := rfl
@[simp] theorem setArrival_deadlines (s : State) x : (s.setArrival x).deadlines = s.deadlines := rfl
@[simp] theorem setArrival_timer (s : State) x : (s.setArrival x).timer = s.timer := rfl
@[simp] theorem setArrival_device (s : State) x : (s.setArrival x).device = s.device := rfl
@[simp] theorem setArrival_sessions (s : State) x : (s.setArrival x).sessions = s.sessions := rfl
@[simp] theorem setArrival_links (s : State) x : (s.setArrival x).links = s.links := rfl
@[simp] theorem setArrival_purge (s : State) x : (s.setArrival x).purge = s.purge := rfl
@[simp] theorem setArrival_admin (s : State) x : (s.setArrival x).admin = s.admin := rfl
@[simp] theorem setArrival_flags (s : State) x : (s.setArrival x).flags = s.flags := rfl
@[simp] theorem setArrival_enables (s : State) x : (s.setArrival x).enables = s.enables := rfl
@[simp] theorem setArrival_live (s : State) x : (s.setArrival x).live = s.live := rfl
@[simp] theorem setArrival_snapshot (s : State) x : (s.setArrival x).snapshot = s.snapshot := rfl
@[simp] theorem setArrival_port (s : State) x : (s.setArrival x).port = s.port := rfl
@[simp] theorem setArrival_wires (s : State) x : (s.setArrival x).wires = s.wires := rfl
@[simp] theorem setArrival_pins (s : State) x : (s.setArrival x).pins = s.pins := rfl
@[simp] theorem setArrival_pending (s : State) x : (s.setArrival x).pending = s.pending := rfl

@[simp] theorem setDeadlines_records (s : State) x : (s.setDeadlines x).records = s.records := rfl
@[simp] theorem setDeadlines_hashSeed (s : State) x : (s.setDeadlines x).hashSeed = s.hashSeed := rfl
@[simp] theorem setDeadlines_closing (s : State) x : (s.setDeadlines x).closing = s.closing := rfl
@[simp] theorem setDeadlines_holds (s : State) x : (s.setDeadlines x).holds = s.holds := rfl
@[simp] theorem setDeadlines_holdCounts (s : State) x : (s.setDeadlines x).holdCounts = s.holdCounts := rfl
@[simp] theorem setDeadlines_waits (s : State) x : (s.setDeadlines x).waits = s.waits := rfl
@[simp] theorem setDeadlines_fence (s : State) x : (s.setDeadlines x).fence = s.fence := rfl
@[simp] theorem setDeadlines_arrival (s : State) x : (s.setDeadlines x).arrival = s.arrival := rfl
@[simp] theorem setDeadlines_deadlines (s : State) x : (s.setDeadlines x).deadlines = x := rfl
@[simp] theorem setDeadlines_timer (s : State) x : (s.setDeadlines x).timer = s.timer := rfl
@[simp] theorem setDeadlines_device (s : State) x : (s.setDeadlines x).device = s.device := rfl
@[simp] theorem setDeadlines_sessions (s : State) x : (s.setDeadlines x).sessions = s.sessions := rfl
@[simp] theorem setDeadlines_links (s : State) x : (s.setDeadlines x).links = s.links := rfl
@[simp] theorem setDeadlines_purge (s : State) x : (s.setDeadlines x).purge = s.purge := rfl
@[simp] theorem setDeadlines_admin (s : State) x : (s.setDeadlines x).admin = s.admin := rfl
@[simp] theorem setDeadlines_flags (s : State) x : (s.setDeadlines x).flags = s.flags := rfl
@[simp] theorem setDeadlines_enables (s : State) x : (s.setDeadlines x).enables = s.enables := rfl
@[simp] theorem setDeadlines_live (s : State) x : (s.setDeadlines x).live = s.live := rfl
@[simp] theorem setDeadlines_snapshot (s : State) x : (s.setDeadlines x).snapshot = s.snapshot := rfl
@[simp] theorem setDeadlines_port (s : State) x : (s.setDeadlines x).port = s.port := rfl
@[simp] theorem setDeadlines_wires (s : State) x : (s.setDeadlines x).wires = s.wires := rfl
@[simp] theorem setDeadlines_pins (s : State) x : (s.setDeadlines x).pins = s.pins := rfl
@[simp] theorem setDeadlines_pending (s : State) x : (s.setDeadlines x).pending = s.pending := rfl

@[simp] theorem setTimer_records (s : State) x : (s.setTimer x).records = s.records := rfl
@[simp] theorem setTimer_hashSeed (s : State) x : (s.setTimer x).hashSeed = s.hashSeed := rfl
@[simp] theorem setTimer_closing (s : State) x : (s.setTimer x).closing = s.closing := rfl
@[simp] theorem setTimer_holds (s : State) x : (s.setTimer x).holds = s.holds := rfl
@[simp] theorem setTimer_holdCounts (s : State) x : (s.setTimer x).holdCounts = s.holdCounts := rfl
@[simp] theorem setTimer_waits (s : State) x : (s.setTimer x).waits = s.waits := rfl
@[simp] theorem setTimer_fence (s : State) x : (s.setTimer x).fence = s.fence := rfl
@[simp] theorem setTimer_arrival (s : State) x : (s.setTimer x).arrival = s.arrival := rfl
@[simp] theorem setTimer_deadlines (s : State) x : (s.setTimer x).deadlines = s.deadlines := rfl
@[simp] theorem setTimer_timer (s : State) x : (s.setTimer x).timer = x := rfl
@[simp] theorem setTimer_device (s : State) x : (s.setTimer x).device = s.device := rfl
@[simp] theorem setTimer_sessions (s : State) x : (s.setTimer x).sessions = s.sessions := rfl
@[simp] theorem setTimer_links (s : State) x : (s.setTimer x).links = s.links := rfl
@[simp] theorem setTimer_purge (s : State) x : (s.setTimer x).purge = s.purge := rfl
@[simp] theorem setTimer_admin (s : State) x : (s.setTimer x).admin = s.admin := rfl
@[simp] theorem setTimer_flags (s : State) x : (s.setTimer x).flags = s.flags := rfl
@[simp] theorem setTimer_enables (s : State) x : (s.setTimer x).enables = s.enables := rfl
@[simp] theorem setTimer_live (s : State) x : (s.setTimer x).live = s.live := rfl
@[simp] theorem setTimer_snapshot (s : State) x : (s.setTimer x).snapshot = s.snapshot := rfl
@[simp] theorem setTimer_port (s : State) x : (s.setTimer x).port = s.port := rfl
@[simp] theorem setTimer_wires (s : State) x : (s.setTimer x).wires = s.wires := rfl
@[simp] theorem setTimer_pins (s : State) x : (s.setTimer x).pins = s.pins := rfl
@[simp] theorem setTimer_pending (s : State) x : (s.setTimer x).pending = s.pending := rfl

@[simp] theorem setDevice_records (s : State) x : (s.setDevice x).records = s.records := rfl
@[simp] theorem setDevice_hashSeed (s : State) x : (s.setDevice x).hashSeed = s.hashSeed := rfl
@[simp] theorem setDevice_closing (s : State) x : (s.setDevice x).closing = s.closing := rfl
@[simp] theorem setDevice_holds (s : State) x : (s.setDevice x).holds = s.holds := rfl
@[simp] theorem setDevice_holdCounts (s : State) x : (s.setDevice x).holdCounts = s.holdCounts := rfl
@[simp] theorem setDevice_waits (s : State) x : (s.setDevice x).waits = s.waits := rfl
@[simp] theorem setDevice_fence (s : State) x : (s.setDevice x).fence = s.fence := rfl
@[simp] theorem setDevice_arrival (s : State) x : (s.setDevice x).arrival = s.arrival := rfl
@[simp] theorem setDevice_deadlines (s : State) x : (s.setDevice x).deadlines = s.deadlines := rfl
@[simp] theorem setDevice_timer (s : State) x : (s.setDevice x).timer = s.timer := rfl
@[simp] theorem setDevice_device (s : State) x : (s.setDevice x).device = x := rfl
@[simp] theorem setDevice_sessions (s : State) x : (s.setDevice x).sessions = s.sessions := rfl
@[simp] theorem setDevice_links (s : State) x : (s.setDevice x).links = s.links := rfl
@[simp] theorem setDevice_purge (s : State) x : (s.setDevice x).purge = s.purge := rfl
@[simp] theorem setDevice_admin (s : State) x : (s.setDevice x).admin = s.admin := rfl
@[simp] theorem setDevice_flags (s : State) x : (s.setDevice x).flags = s.flags := rfl
@[simp] theorem setDevice_enables (s : State) x : (s.setDevice x).enables = s.enables := rfl
@[simp] theorem setDevice_live (s : State) x : (s.setDevice x).live = s.live := rfl
@[simp] theorem setDevice_snapshot (s : State) x : (s.setDevice x).snapshot = s.snapshot := rfl
@[simp] theorem setDevice_port (s : State) x : (s.setDevice x).port = s.port := rfl
@[simp] theorem setDevice_wires (s : State) x : (s.setDevice x).wires = s.wires := rfl
@[simp] theorem setDevice_pins (s : State) x : (s.setDevice x).pins = s.pins := rfl
@[simp] theorem setDevice_pending (s : State) x : (s.setDevice x).pending = s.pending := rfl

@[simp] theorem setSessions_records (s : State) x : (s.setSessions x).records = s.records := rfl
@[simp] theorem setSessions_hashSeed (s : State) x : (s.setSessions x).hashSeed = s.hashSeed := rfl
@[simp] theorem setSessions_closing (s : State) x : (s.setSessions x).closing = s.closing := rfl
@[simp] theorem setSessions_holds (s : State) x : (s.setSessions x).holds = s.holds := rfl
@[simp] theorem setSessions_holdCounts (s : State) x : (s.setSessions x).holdCounts = s.holdCounts := rfl
@[simp] theorem setSessions_waits (s : State) x : (s.setSessions x).waits = s.waits := rfl
@[simp] theorem setSessions_fence (s : State) x : (s.setSessions x).fence = s.fence := rfl
@[simp] theorem setSessions_arrival (s : State) x : (s.setSessions x).arrival = s.arrival := rfl
@[simp] theorem setSessions_deadlines (s : State) x : (s.setSessions x).deadlines = s.deadlines := rfl
@[simp] theorem setSessions_timer (s : State) x : (s.setSessions x).timer = s.timer := rfl
@[simp] theorem setSessions_device (s : State) x : (s.setSessions x).device = s.device := rfl
@[simp] theorem setSessions_sessions (s : State) x : (s.setSessions x).sessions = x := rfl
@[simp] theorem setSessions_links (s : State) x : (s.setSessions x).links = s.links := rfl
@[simp] theorem setSessions_purge (s : State) x : (s.setSessions x).purge = s.purge := rfl
@[simp] theorem setSessions_admin (s : State) x : (s.setSessions x).admin = s.admin := rfl
@[simp] theorem setSessions_flags (s : State) x : (s.setSessions x).flags = s.flags := rfl
@[simp] theorem setSessions_enables (s : State) x : (s.setSessions x).enables = s.enables := rfl
@[simp] theorem setSessions_live (s : State) x : (s.setSessions x).live = s.live := rfl
@[simp] theorem setSessions_snapshot (s : State) x : (s.setSessions x).snapshot = s.snapshot := rfl
@[simp] theorem setSessions_port (s : State) x : (s.setSessions x).port = s.port := rfl
@[simp] theorem setSessions_wires (s : State) x : (s.setSessions x).wires = s.wires := rfl
@[simp] theorem setSessions_pins (s : State) x : (s.setSessions x).pins = s.pins := rfl
@[simp] theorem setSessions_pending (s : State) x : (s.setSessions x).pending = s.pending := rfl

@[simp] theorem setLinks_records (s : State) x : (s.setLinks x).records = s.records := rfl
@[simp] theorem setLinks_hashSeed (s : State) x : (s.setLinks x).hashSeed = s.hashSeed := rfl
@[simp] theorem setLinks_closing (s : State) x : (s.setLinks x).closing = s.closing := rfl
@[simp] theorem setLinks_holds (s : State) x : (s.setLinks x).holds = s.holds := rfl
@[simp] theorem setLinks_holdCounts (s : State) x : (s.setLinks x).holdCounts = s.holdCounts := rfl
@[simp] theorem setLinks_waits (s : State) x : (s.setLinks x).waits = s.waits := rfl
@[simp] theorem setLinks_fence (s : State) x : (s.setLinks x).fence = s.fence := rfl
@[simp] theorem setLinks_arrival (s : State) x : (s.setLinks x).arrival = s.arrival := rfl
@[simp] theorem setLinks_deadlines (s : State) x : (s.setLinks x).deadlines = s.deadlines := rfl
@[simp] theorem setLinks_timer (s : State) x : (s.setLinks x).timer = s.timer := rfl
@[simp] theorem setLinks_device (s : State) x : (s.setLinks x).device = s.device := rfl
@[simp] theorem setLinks_sessions (s : State) x : (s.setLinks x).sessions = s.sessions := rfl
@[simp] theorem setLinks_links (s : State) x : (s.setLinks x).links = x := rfl
@[simp] theorem setLinks_purge (s : State) x : (s.setLinks x).purge = s.purge := rfl
@[simp] theorem setLinks_admin (s : State) x : (s.setLinks x).admin = s.admin := rfl
@[simp] theorem setLinks_flags (s : State) x : (s.setLinks x).flags = s.flags := rfl
@[simp] theorem setLinks_enables (s : State) x : (s.setLinks x).enables = s.enables := rfl
@[simp] theorem setLinks_live (s : State) x : (s.setLinks x).live = s.live := rfl
@[simp] theorem setLinks_snapshot (s : State) x : (s.setLinks x).snapshot = s.snapshot := rfl
@[simp] theorem setLinks_port (s : State) x : (s.setLinks x).port = s.port := rfl
@[simp] theorem setLinks_wires (s : State) x : (s.setLinks x).wires = s.wires := rfl
@[simp] theorem setLinks_pins (s : State) x : (s.setLinks x).pins = s.pins := rfl
@[simp] theorem setLinks_pending (s : State) x : (s.setLinks x).pending = s.pending := rfl

@[simp] theorem setPurge_records (s : State) x : (s.setPurge x).records = s.records := rfl
@[simp] theorem setPurge_hashSeed (s : State) x : (s.setPurge x).hashSeed = s.hashSeed := rfl
@[simp] theorem setPurge_closing (s : State) x : (s.setPurge x).closing = s.closing := rfl
@[simp] theorem setPurge_holds (s : State) x : (s.setPurge x).holds = s.holds := rfl
@[simp] theorem setPurge_holdCounts (s : State) x : (s.setPurge x).holdCounts = s.holdCounts := rfl
@[simp] theorem setPurge_waits (s : State) x : (s.setPurge x).waits = s.waits := rfl
@[simp] theorem setPurge_fence (s : State) x : (s.setPurge x).fence = s.fence := rfl
@[simp] theorem setPurge_arrival (s : State) x : (s.setPurge x).arrival = s.arrival := rfl
@[simp] theorem setPurge_deadlines (s : State) x : (s.setPurge x).deadlines = s.deadlines := rfl
@[simp] theorem setPurge_timer (s : State) x : (s.setPurge x).timer = s.timer := rfl
@[simp] theorem setPurge_device (s : State) x : (s.setPurge x).device = s.device := rfl
@[simp] theorem setPurge_sessions (s : State) x : (s.setPurge x).sessions = s.sessions := rfl
@[simp] theorem setPurge_links (s : State) x : (s.setPurge x).links = s.links := rfl
@[simp] theorem setPurge_purge (s : State) x : (s.setPurge x).purge = x := rfl
@[simp] theorem setPurge_admin (s : State) x : (s.setPurge x).admin = s.admin := rfl
@[simp] theorem setPurge_flags (s : State) x : (s.setPurge x).flags = s.flags := rfl
@[simp] theorem setPurge_enables (s : State) x : (s.setPurge x).enables = s.enables := rfl
@[simp] theorem setPurge_live (s : State) x : (s.setPurge x).live = s.live := rfl
@[simp] theorem setPurge_snapshot (s : State) x : (s.setPurge x).snapshot = s.snapshot := rfl
@[simp] theorem setPurge_port (s : State) x : (s.setPurge x).port = s.port := rfl
@[simp] theorem setPurge_wires (s : State) x : (s.setPurge x).wires = s.wires := rfl
@[simp] theorem setPurge_pins (s : State) x : (s.setPurge x).pins = s.pins := rfl
@[simp] theorem setPurge_pending (s : State) x : (s.setPurge x).pending = s.pending := rfl

@[simp] theorem setAdmin_records (s : State) x : (s.setAdmin x).records = s.records := rfl
@[simp] theorem setAdmin_hashSeed (s : State) x : (s.setAdmin x).hashSeed = s.hashSeed := rfl
@[simp] theorem setAdmin_closing (s : State) x : (s.setAdmin x).closing = s.closing := rfl
@[simp] theorem setAdmin_holds (s : State) x : (s.setAdmin x).holds = s.holds := rfl
@[simp] theorem setAdmin_holdCounts (s : State) x : (s.setAdmin x).holdCounts = s.holdCounts := rfl
@[simp] theorem setAdmin_waits (s : State) x : (s.setAdmin x).waits = s.waits := rfl
@[simp] theorem setAdmin_fence (s : State) x : (s.setAdmin x).fence = s.fence := rfl
@[simp] theorem setAdmin_arrival (s : State) x : (s.setAdmin x).arrival = s.arrival := rfl
@[simp] theorem setAdmin_deadlines (s : State) x : (s.setAdmin x).deadlines = s.deadlines := rfl
@[simp] theorem setAdmin_timer (s : State) x : (s.setAdmin x).timer = s.timer := rfl
@[simp] theorem setAdmin_device (s : State) x : (s.setAdmin x).device = s.device := rfl
@[simp] theorem setAdmin_sessions (s : State) x : (s.setAdmin x).sessions = s.sessions := rfl
@[simp] theorem setAdmin_links (s : State) x : (s.setAdmin x).links = s.links := rfl
@[simp] theorem setAdmin_purge (s : State) x : (s.setAdmin x).purge = s.purge := rfl
@[simp] theorem setAdmin_admin (s : State) x : (s.setAdmin x).admin = x := rfl
@[simp] theorem setAdmin_flags (s : State) x : (s.setAdmin x).flags = s.flags := rfl
@[simp] theorem setAdmin_enables (s : State) x : (s.setAdmin x).enables = s.enables := rfl
@[simp] theorem setAdmin_live (s : State) x : (s.setAdmin x).live = s.live := rfl
@[simp] theorem setAdmin_snapshot (s : State) x : (s.setAdmin x).snapshot = s.snapshot := rfl
@[simp] theorem setAdmin_port (s : State) x : (s.setAdmin x).port = s.port := rfl
@[simp] theorem setAdmin_wires (s : State) x : (s.setAdmin x).wires = s.wires := rfl
@[simp] theorem setAdmin_pins (s : State) x : (s.setAdmin x).pins = s.pins := rfl
@[simp] theorem setAdmin_pending (s : State) x : (s.setAdmin x).pending = s.pending := rfl

@[simp] theorem setFlags_records (s : State) x : (s.setFlags x).records = s.records := rfl
@[simp] theorem setFlags_hashSeed (s : State) x : (s.setFlags x).hashSeed = s.hashSeed := rfl
@[simp] theorem setFlags_closing (s : State) x : (s.setFlags x).closing = s.closing := rfl
@[simp] theorem setFlags_holds (s : State) x : (s.setFlags x).holds = s.holds := rfl
@[simp] theorem setFlags_holdCounts (s : State) x : (s.setFlags x).holdCounts = s.holdCounts := rfl
@[simp] theorem setFlags_waits (s : State) x : (s.setFlags x).waits = s.waits := rfl
@[simp] theorem setFlags_fence (s : State) x : (s.setFlags x).fence = s.fence := rfl
@[simp] theorem setFlags_arrival (s : State) x : (s.setFlags x).arrival = s.arrival := rfl
@[simp] theorem setFlags_deadlines (s : State) x : (s.setFlags x).deadlines = s.deadlines := rfl
@[simp] theorem setFlags_timer (s : State) x : (s.setFlags x).timer = s.timer := rfl
@[simp] theorem setFlags_device (s : State) x : (s.setFlags x).device = s.device := rfl
@[simp] theorem setFlags_sessions (s : State) x : (s.setFlags x).sessions = s.sessions := rfl
@[simp] theorem setFlags_links (s : State) x : (s.setFlags x).links = s.links := rfl
@[simp] theorem setFlags_purge (s : State) x : (s.setFlags x).purge = s.purge := rfl
@[simp] theorem setFlags_admin (s : State) x : (s.setFlags x).admin = s.admin := rfl
@[simp] theorem setFlags_flags (s : State) x : (s.setFlags x).flags = x := rfl
@[simp] theorem setFlags_enables (s : State) x : (s.setFlags x).enables = s.enables := rfl
@[simp] theorem setFlags_live (s : State) x : (s.setFlags x).live = s.live := rfl
@[simp] theorem setFlags_snapshot (s : State) x : (s.setFlags x).snapshot = s.snapshot := rfl
@[simp] theorem setFlags_port (s : State) x : (s.setFlags x).port = s.port := rfl
@[simp] theorem setFlags_wires (s : State) x : (s.setFlags x).wires = s.wires := rfl
@[simp] theorem setFlags_pins (s : State) x : (s.setFlags x).pins = s.pins := rfl
@[simp] theorem setFlags_pending (s : State) x : (s.setFlags x).pending = s.pending := rfl

@[simp] theorem setEnables_records (s : State) x : (s.setEnables x).records = s.records := rfl
@[simp] theorem setEnables_hashSeed (s : State) x : (s.setEnables x).hashSeed = s.hashSeed := rfl
@[simp] theorem setEnables_closing (s : State) x : (s.setEnables x).closing = s.closing := rfl
@[simp] theorem setEnables_holds (s : State) x : (s.setEnables x).holds = s.holds := rfl
@[simp] theorem setEnables_holdCounts (s : State) x : (s.setEnables x).holdCounts = s.holdCounts := rfl
@[simp] theorem setEnables_waits (s : State) x : (s.setEnables x).waits = s.waits := rfl
@[simp] theorem setEnables_fence (s : State) x : (s.setEnables x).fence = s.fence := rfl
@[simp] theorem setEnables_arrival (s : State) x : (s.setEnables x).arrival = s.arrival := rfl
@[simp] theorem setEnables_deadlines (s : State) x : (s.setEnables x).deadlines = s.deadlines := rfl
@[simp] theorem setEnables_timer (s : State) x : (s.setEnables x).timer = s.timer := rfl
@[simp] theorem setEnables_device (s : State) x : (s.setEnables x).device = s.device := rfl
@[simp] theorem setEnables_sessions (s : State) x : (s.setEnables x).sessions = s.sessions := rfl
@[simp] theorem setEnables_links (s : State) x : (s.setEnables x).links = s.links := rfl
@[simp] theorem setEnables_purge (s : State) x : (s.setEnables x).purge = s.purge := rfl
@[simp] theorem setEnables_admin (s : State) x : (s.setEnables x).admin = s.admin := rfl
@[simp] theorem setEnables_flags (s : State) x : (s.setEnables x).flags = s.flags := rfl
@[simp] theorem setEnables_enables (s : State) x : (s.setEnables x).enables = x := rfl
@[simp] theorem setEnables_live (s : State) x : (s.setEnables x).live = s.live := rfl
@[simp] theorem setEnables_snapshot (s : State) x : (s.setEnables x).snapshot = s.snapshot := rfl
@[simp] theorem setEnables_port (s : State) x : (s.setEnables x).port = s.port := rfl
@[simp] theorem setEnables_wires (s : State) x : (s.setEnables x).wires = s.wires := rfl
@[simp] theorem setEnables_pins (s : State) x : (s.setEnables x).pins = s.pins := rfl
@[simp] theorem setEnables_pending (s : State) x : (s.setEnables x).pending = s.pending := rfl

@[simp] theorem setLive_records (s : State) x : (s.setLive x).records = s.records := rfl
@[simp] theorem setLive_hashSeed (s : State) x : (s.setLive x).hashSeed = s.hashSeed := rfl
@[simp] theorem setLive_closing (s : State) x : (s.setLive x).closing = s.closing := rfl
@[simp] theorem setLive_holds (s : State) x : (s.setLive x).holds = s.holds := rfl
@[simp] theorem setLive_holdCounts (s : State) x : (s.setLive x).holdCounts = s.holdCounts := rfl
@[simp] theorem setLive_waits (s : State) x : (s.setLive x).waits = s.waits := rfl
@[simp] theorem setLive_fence (s : State) x : (s.setLive x).fence = s.fence := rfl
@[simp] theorem setLive_arrival (s : State) x : (s.setLive x).arrival = s.arrival := rfl
@[simp] theorem setLive_deadlines (s : State) x : (s.setLive x).deadlines = s.deadlines := rfl
@[simp] theorem setLive_timer (s : State) x : (s.setLive x).timer = s.timer := rfl
@[simp] theorem setLive_device (s : State) x : (s.setLive x).device = s.device := rfl
@[simp] theorem setLive_sessions (s : State) x : (s.setLive x).sessions = s.sessions := rfl
@[simp] theorem setLive_links (s : State) x : (s.setLive x).links = s.links := rfl
@[simp] theorem setLive_purge (s : State) x : (s.setLive x).purge = s.purge := rfl
@[simp] theorem setLive_admin (s : State) x : (s.setLive x).admin = s.admin := rfl
@[simp] theorem setLive_flags (s : State) x : (s.setLive x).flags = s.flags := rfl
@[simp] theorem setLive_enables (s : State) x : (s.setLive x).enables = s.enables := rfl
@[simp] theorem setLive_live (s : State) x : (s.setLive x).live = x := rfl
@[simp] theorem setLive_snapshot (s : State) x : (s.setLive x).snapshot = s.snapshot := rfl
@[simp] theorem setLive_port (s : State) x : (s.setLive x).port = s.port := rfl
@[simp] theorem setLive_wires (s : State) x : (s.setLive x).wires = s.wires := rfl
@[simp] theorem setLive_pins (s : State) x : (s.setLive x).pins = s.pins := rfl
@[simp] theorem setLive_pending (s : State) x : (s.setLive x).pending = s.pending := rfl

@[simp] theorem setSnapshot_records (s : State) x : (s.setSnapshot x).records = s.records := rfl
@[simp] theorem setSnapshot_hashSeed (s : State) x : (s.setSnapshot x).hashSeed = s.hashSeed := rfl
@[simp] theorem setSnapshot_closing (s : State) x : (s.setSnapshot x).closing = s.closing := rfl
@[simp] theorem setSnapshot_holds (s : State) x : (s.setSnapshot x).holds = s.holds := rfl
@[simp] theorem setSnapshot_holdCounts (s : State) x : (s.setSnapshot x).holdCounts = s.holdCounts := rfl
@[simp] theorem setSnapshot_waits (s : State) x : (s.setSnapshot x).waits = s.waits := rfl
@[simp] theorem setSnapshot_fence (s : State) x : (s.setSnapshot x).fence = s.fence := rfl
@[simp] theorem setSnapshot_arrival (s : State) x : (s.setSnapshot x).arrival = s.arrival := rfl
@[simp] theorem setSnapshot_deadlines (s : State) x : (s.setSnapshot x).deadlines = s.deadlines := rfl
@[simp] theorem setSnapshot_timer (s : State) x : (s.setSnapshot x).timer = s.timer := rfl
@[simp] theorem setSnapshot_device (s : State) x : (s.setSnapshot x).device = s.device := rfl
@[simp] theorem setSnapshot_sessions (s : State) x : (s.setSnapshot x).sessions = s.sessions := rfl
@[simp] theorem setSnapshot_links (s : State) x : (s.setSnapshot x).links = s.links := rfl
@[simp] theorem setSnapshot_purge (s : State) x : (s.setSnapshot x).purge = s.purge := rfl
@[simp] theorem setSnapshot_admin (s : State) x : (s.setSnapshot x).admin = s.admin := rfl
@[simp] theorem setSnapshot_flags (s : State) x : (s.setSnapshot x).flags = s.flags := rfl
@[simp] theorem setSnapshot_enables (s : State) x : (s.setSnapshot x).enables = s.enables := rfl
@[simp] theorem setSnapshot_live (s : State) x : (s.setSnapshot x).live = s.live := rfl
@[simp] theorem setSnapshot_snapshot (s : State) x : (s.setSnapshot x).snapshot = x := rfl
@[simp] theorem setSnapshot_port (s : State) x : (s.setSnapshot x).port = s.port := rfl
@[simp] theorem setSnapshot_wires (s : State) x : (s.setSnapshot x).wires = s.wires := rfl
@[simp] theorem setSnapshot_pins (s : State) x : (s.setSnapshot x).pins = s.pins := rfl
@[simp] theorem setSnapshot_pending (s : State) x : (s.setSnapshot x).pending = s.pending := rfl

@[simp] theorem setPort_records (s : State) x : (s.setPort x).records = s.records := rfl
@[simp] theorem setPort_hashSeed (s : State) x : (s.setPort x).hashSeed = s.hashSeed := rfl
@[simp] theorem setPort_closing (s : State) x : (s.setPort x).closing = s.closing := rfl
@[simp] theorem setPort_holds (s : State) x : (s.setPort x).holds = s.holds := rfl
@[simp] theorem setPort_holdCounts (s : State) x : (s.setPort x).holdCounts = s.holdCounts := rfl
@[simp] theorem setPort_waits (s : State) x : (s.setPort x).waits = s.waits := rfl
@[simp] theorem setPort_fence (s : State) x : (s.setPort x).fence = s.fence := rfl
@[simp] theorem setPort_arrival (s : State) x : (s.setPort x).arrival = s.arrival := rfl
@[simp] theorem setPort_deadlines (s : State) x : (s.setPort x).deadlines = s.deadlines := rfl
@[simp] theorem setPort_timer (s : State) x : (s.setPort x).timer = s.timer := rfl
@[simp] theorem setPort_device (s : State) x : (s.setPort x).device = s.device := rfl
@[simp] theorem setPort_sessions (s : State) x : (s.setPort x).sessions = s.sessions := rfl
@[simp] theorem setPort_links (s : State) x : (s.setPort x).links = s.links := rfl
@[simp] theorem setPort_purge (s : State) x : (s.setPort x).purge = s.purge := rfl
@[simp] theorem setPort_admin (s : State) x : (s.setPort x).admin = s.admin := rfl
@[simp] theorem setPort_flags (s : State) x : (s.setPort x).flags = s.flags := rfl
@[simp] theorem setPort_enables (s : State) x : (s.setPort x).enables = s.enables := rfl
@[simp] theorem setPort_live (s : State) x : (s.setPort x).live = s.live := rfl
@[simp] theorem setPort_snapshot (s : State) x : (s.setPort x).snapshot = s.snapshot := rfl
@[simp] theorem setPort_port (s : State) x : (s.setPort x).port = x := rfl
@[simp] theorem setPort_wires (s : State) x : (s.setPort x).wires = s.wires := rfl
@[simp] theorem setPort_pins (s : State) x : (s.setPort x).pins = s.pins := rfl
@[simp] theorem setPort_pending (s : State) x : (s.setPort x).pending = s.pending := rfl

@[simp] theorem setWires_records (s : State) x : (s.setWires x).records = s.records := rfl
@[simp] theorem setWires_hashSeed (s : State) x : (s.setWires x).hashSeed = s.hashSeed := rfl
@[simp] theorem setWires_closing (s : State) x : (s.setWires x).closing = s.closing := rfl
@[simp] theorem setWires_holds (s : State) x : (s.setWires x).holds = s.holds := rfl
@[simp] theorem setWires_holdCounts (s : State) x : (s.setWires x).holdCounts = s.holdCounts := rfl
@[simp] theorem setWires_waits (s : State) x : (s.setWires x).waits = s.waits := rfl
@[simp] theorem setWires_fence (s : State) x : (s.setWires x).fence = s.fence := rfl
@[simp] theorem setWires_arrival (s : State) x : (s.setWires x).arrival = s.arrival := rfl
@[simp] theorem setWires_deadlines (s : State) x : (s.setWires x).deadlines = s.deadlines := rfl
@[simp] theorem setWires_timer (s : State) x : (s.setWires x).timer = s.timer := rfl
@[simp] theorem setWires_device (s : State) x : (s.setWires x).device = s.device := rfl
@[simp] theorem setWires_sessions (s : State) x : (s.setWires x).sessions = s.sessions := rfl
@[simp] theorem setWires_links (s : State) x : (s.setWires x).links = s.links := rfl
@[simp] theorem setWires_purge (s : State) x : (s.setWires x).purge = s.purge := rfl
@[simp] theorem setWires_admin (s : State) x : (s.setWires x).admin = s.admin := rfl
@[simp] theorem setWires_flags (s : State) x : (s.setWires x).flags = s.flags := rfl
@[simp] theorem setWires_enables (s : State) x : (s.setWires x).enables = s.enables := rfl
@[simp] theorem setWires_live (s : State) x : (s.setWires x).live = s.live := rfl
@[simp] theorem setWires_snapshot (s : State) x : (s.setWires x).snapshot = s.snapshot := rfl
@[simp] theorem setWires_port (s : State) x : (s.setWires x).port = s.port := rfl
@[simp] theorem setWires_wires (s : State) x : (s.setWires x).wires = x := rfl
@[simp] theorem setWires_pins (s : State) x : (s.setWires x).pins = s.pins := rfl
@[simp] theorem setWires_pending (s : State) x : (s.setWires x).pending = s.pending := rfl

@[simp] theorem setPins_records (s : State) x : (s.setPins x).records = s.records := rfl
@[simp] theorem setPins_hashSeed (s : State) x : (s.setPins x).hashSeed = s.hashSeed := rfl
@[simp] theorem setPins_closing (s : State) x : (s.setPins x).closing = s.closing := rfl
@[simp] theorem setPins_holds (s : State) x : (s.setPins x).holds = s.holds := rfl
@[simp] theorem setPins_holdCounts (s : State) x : (s.setPins x).holdCounts = s.holdCounts := rfl
@[simp] theorem setPins_waits (s : State) x : (s.setPins x).waits = s.waits := rfl
@[simp] theorem setPins_fence (s : State) x : (s.setPins x).fence = s.fence := rfl
@[simp] theorem setPins_arrival (s : State) x : (s.setPins x).arrival = s.arrival := rfl
@[simp] theorem setPins_deadlines (s : State) x : (s.setPins x).deadlines = s.deadlines := rfl
@[simp] theorem setPins_timer (s : State) x : (s.setPins x).timer = s.timer := rfl
@[simp] theorem setPins_device (s : State) x : (s.setPins x).device = s.device := rfl
@[simp] theorem setPins_sessions (s : State) x : (s.setPins x).sessions = s.sessions := rfl
@[simp] theorem setPins_links (s : State) x : (s.setPins x).links = s.links := rfl
@[simp] theorem setPins_purge (s : State) x : (s.setPins x).purge = s.purge := rfl
@[simp] theorem setPins_admin (s : State) x : (s.setPins x).admin = s.admin := rfl
@[simp] theorem setPins_flags (s : State) x : (s.setPins x).flags = s.flags := rfl
@[simp] theorem setPins_enables (s : State) x : (s.setPins x).enables = s.enables := rfl
@[simp] theorem setPins_live (s : State) x : (s.setPins x).live = s.live := rfl
@[simp] theorem setPins_snapshot (s : State) x : (s.setPins x).snapshot = s.snapshot := rfl
@[simp] theorem setPins_port (s : State) x : (s.setPins x).port = s.port := rfl
@[simp] theorem setPins_wires (s : State) x : (s.setPins x).wires = s.wires := rfl
@[simp] theorem setPins_pins (s : State) x : (s.setPins x).pins = x := rfl
@[simp] theorem setPins_pending (s : State) x : (s.setPins x).pending = s.pending := rfl

@[simp] theorem setPending_records (s : State) x : (s.setPending x).records = s.records := rfl
@[simp] theorem setPending_hashSeed (s : State) x : (s.setPending x).hashSeed = s.hashSeed := rfl
@[simp] theorem setPending_closing (s : State) x : (s.setPending x).closing = s.closing := rfl
@[simp] theorem setPending_holds (s : State) x : (s.setPending x).holds = s.holds := rfl
@[simp] theorem setPending_holdCounts (s : State) x : (s.setPending x).holdCounts = s.holdCounts := rfl
@[simp] theorem setPending_waits (s : State) x : (s.setPending x).waits = s.waits := rfl
@[simp] theorem setPending_fence (s : State) x : (s.setPending x).fence = s.fence := rfl
@[simp] theorem setPending_arrival (s : State) x : (s.setPending x).arrival = s.arrival := rfl
@[simp] theorem setPending_deadlines (s : State) x : (s.setPending x).deadlines = s.deadlines := rfl
@[simp] theorem setPending_timer (s : State) x : (s.setPending x).timer = s.timer := rfl
@[simp] theorem setPending_device (s : State) x : (s.setPending x).device = s.device := rfl
@[simp] theorem setPending_sessions (s : State) x : (s.setPending x).sessions = s.sessions := rfl
@[simp] theorem setPending_links (s : State) x : (s.setPending x).links = s.links := rfl
@[simp] theorem setPending_purge (s : State) x : (s.setPending x).purge = s.purge := rfl
@[simp] theorem setPending_admin (s : State) x : (s.setPending x).admin = s.admin := rfl
@[simp] theorem setPending_flags (s : State) x : (s.setPending x).flags = s.flags := rfl
@[simp] theorem setPending_enables (s : State) x : (s.setPending x).enables = s.enables := rfl
@[simp] theorem setPending_live (s : State) x : (s.setPending x).live = s.live := rfl
@[simp] theorem setPending_snapshot (s : State) x : (s.setPending x).snapshot = s.snapshot := rfl
@[simp] theorem setPending_port (s : State) x : (s.setPending x).port = s.port := rfl
@[simp] theorem setPending_wires (s : State) x : (s.setPending x).wires = s.wires := rfl
@[simp] theorem setPending_pins (s : State) x : (s.setPending x).pins = s.pins := rfl
@[simp] theorem setPending_pending (s : State) x : (s.setPending x).pending = x := rfl

/-! ### Named updates as updates of one field -/

theorem setRecord_eq (s : State) (r : Slot) (x : Option Record) : s.setRecord r x = s.setRecords (s.records.set r x) := rfl

theorem setHold_eq (s : State) (i : HoldIx) (x : Option Hold) :
    s.setHold i x = s.setHolds (s.holds.set i ⟨(s.holdSlot i).generation, x⟩) := rfl

theorem setWait_eq (s : State) (w : WaitIx) (x : Option Wait) :
    s.setWait w x = s.setWaits (s.waits.set w ⟨(s.waitSlot w).generation, x⟩) := rfl

theorem modifyRecord_some {s : State} {r : Slot} {x : Record} (f : Record → Record) (h : s.record r = some x) :
    s.modifyRecord r f = s.setRecord r (some (f x)) := by simp only [State.modifyRecord, h]

theorem modifyRecord_none {s : State} {r : Slot} (f : Record → Record) (h : s.record r = none) : s.modifyRecord r f = s := by
  simp only [State.modifyRecord, h]

theorem modifyHold_some {s : State} {i : HoldIx} {x : Hold} (f : Hold → Hold) (h : s.hold i = some x) :
    s.modifyHold i f = s.setHold i (some (f x)) := by simp only [State.modifyHold, h]

theorem modifyHold_none {s : State} {i : HoldIx} (f : Hold → Hold) (h : s.hold i = none) : s.modifyHold i f = s := by
  simp only [State.modifyHold, h]

/-! ### Reading one element after writing one element -/

theorem getElem_set_fin {α : Type} {n : Nat} (v : Vector α n) (i j : Fin n) (x : α) :
    (v.set i x)[j] = if i = j then x else v[j] := by
  simp only [Fin.getElem_fin, Vector.getElem_set, Fin.ext_iff]

@[simp] theorem record_setRecord (s : State) (r q : Slot) (x : Option Record) :
    (s.setRecord r x).record q = if r = q then x else s.record q := getElem_set_fin _ _ _ _

@[simp] theorem holdSlot_setHoldSlot (s : State) (i j : HoldIx) (x : HoldSlot) :
    (s.setHoldSlot i x).holdSlot j = if i = j then x else s.holdSlot j := getElem_set_fin _ _ _ _

@[simp] theorem waitSlot_setWaitSlot (s : State) (v w : WaitIx) (x : WaitSlot) :
    (s.setWaitSlot v x).waitSlot w = if v = w then x else s.waitSlot w := getElem_set_fin _ _ _ _

@[simp] theorem session_modifySession (s : State) (c d : Client) (f : Session → Session) :
    (s.modifySession c f).session d = if c = d then f (s.session c) else s.session d := getElem_set_fin _ _ _ _

@[simp] theorem link_modifyLink (s : State) (l k : Client) (f : Link → Link) :
    (s.modifyLink l f).link k = if l = k then f (s.link l) else s.link k := getElem_set_fin _ _ _ _

@[simp] theorem links_modifyWire (s : State) (l k : Client) (f : LinkWire → LinkWire) :
    (s.modifyWire l f).wires.links[k] = if l = k then f s.wires.links[l] else s.wires.links[k] := getElem_set_fin _ _ _ _

@[simp] theorem prescaler_modifyWire (s : State) (l : Client) (f : LinkWire → LinkWire) :
    (s.modifyWire l f).wires.prescaler = s.wires.prescaler := rfl

@[simp] theorem spi_modifyWire (s : State) (l : Client) (f : LinkWire → LinkWire) :
    (s.modifyWire l f).wires.spi = s.wires.spi := rfl

@[simp] theorem hold_setHoldSlot (s : State) (i j : HoldIx) (x : HoldSlot) :
    (s.setHoldSlot i x).hold j = if i = j then x.occupant else s.hold j := by
  unfold State.hold; rw [holdSlot_setHoldSlot]; split <;> rfl

@[simp] theorem wait_setWaitSlot (s : State) (v w : WaitIx) (x : WaitSlot) :
    (s.setWaitSlot v x).wait w = if v = w then x.occupant else s.wait w := by
  unfold State.wait; rw [waitSlot_setWaitSlot]; split <;> rfl

@[simp] theorem hold_setHold (s : State) (i j : HoldIx) (x : Option Hold) :
    (s.setHold i x).hold j = if i = j then x else s.hold j := hold_setHoldSlot s i j _

@[simp] theorem wait_setWait (s : State) (v w : WaitIx) (x : Option Wait) :
    (s.setWait v x).wait w = if v = w then x else s.wait w := wait_setWaitSlot s v w _

/-! ### Fields after the update of an element -/

@[simp] theorem setRecord_hashSeed (s : State) (r : Slot) x : (s.setRecord r x).hashSeed = s.hashSeed := rfl
@[simp] theorem setRecord_closing (s : State) (r : Slot) x : (s.setRecord r x).closing = s.closing := rfl
@[simp] theorem setRecord_holds (s : State) (r : Slot) x : (s.setRecord r x).holds = s.holds := rfl
@[simp] theorem setRecord_holdCounts (s : State) (r : Slot) x : (s.setRecord r x).holdCounts = s.holdCounts := rfl
@[simp] theorem setRecord_waits (s : State) (r : Slot) x : (s.setRecord r x).waits = s.waits := rfl
@[simp] theorem setRecord_fence (s : State) (r : Slot) x : (s.setRecord r x).fence = s.fence := rfl
@[simp] theorem setRecord_arrival (s : State) (r : Slot) x : (s.setRecord r x).arrival = s.arrival := rfl
@[simp] theorem setRecord_deadlines (s : State) (r : Slot) x : (s.setRecord r x).deadlines = s.deadlines := rfl
@[simp] theorem setRecord_timer (s : State) (r : Slot) x : (s.setRecord r x).timer = s.timer := rfl
@[simp] theorem setRecord_device (s : State) (r : Slot) x : (s.setRecord r x).device = s.device := rfl
@[simp] theorem setRecord_sessions (s : State) (r : Slot) x : (s.setRecord r x).sessions = s.sessions := rfl
@[simp] theorem setRecord_links (s : State) (r : Slot) x : (s.setRecord r x).links = s.links := rfl
@[simp] theorem setRecord_purge (s : State) (r : Slot) x : (s.setRecord r x).purge = s.purge := rfl
@[simp] theorem setRecord_admin (s : State) (r : Slot) x : (s.setRecord r x).admin = s.admin := rfl
@[simp] theorem setRecord_flags (s : State) (r : Slot) x : (s.setRecord r x).flags = s.flags := rfl
@[simp] theorem setRecord_enables (s : State) (r : Slot) x : (s.setRecord r x).enables = s.enables := rfl
@[simp] theorem setRecord_live (s : State) (r : Slot) x : (s.setRecord r x).live = s.live := rfl
@[simp] theorem setRecord_snapshot (s : State) (r : Slot) x : (s.setRecord r x).snapshot = s.snapshot := rfl
@[simp] theorem setRecord_port (s : State) (r : Slot) x : (s.setRecord r x).port = s.port := rfl
@[simp] theorem setRecord_wires (s : State) (r : Slot) x : (s.setRecord r x).wires = s.wires := rfl
@[simp] theorem setRecord_pins (s : State) (r : Slot) x : (s.setRecord r x).pins = s.pins := rfl
@[simp] theorem setRecord_pending (s : State) (r : Slot) x : (s.setRecord r x).pending = s.pending := rfl

@[simp] theorem setHoldSlot_records (s : State) (i : HoldIx) x : (s.setHoldSlot i x).records = s.records := rfl
@[simp] theorem setHoldSlot_hashSeed (s : State) (i : HoldIx) x : (s.setHoldSlot i x).hashSeed = s.hashSeed := rfl
@[simp] theorem setHoldSlot_closing (s : State) (i : HoldIx) x : (s.setHoldSlot i x).closing = s.closing := rfl
@[simp] theorem setHoldSlot_holdCounts (s : State) (i : HoldIx) x : (s.setHoldSlot i x).holdCounts = s.holdCounts := rfl
@[simp] theorem setHoldSlot_waits (s : State) (i : HoldIx) x : (s.setHoldSlot i x).waits = s.waits := rfl
@[simp] theorem setHoldSlot_fence (s : State) (i : HoldIx) x : (s.setHoldSlot i x).fence = s.fence := rfl
@[simp] theorem setHoldSlot_arrival (s : State) (i : HoldIx) x : (s.setHoldSlot i x).arrival = s.arrival := rfl
@[simp] theorem setHoldSlot_deadlines (s : State) (i : HoldIx) x : (s.setHoldSlot i x).deadlines = s.deadlines := rfl
@[simp] theorem setHoldSlot_timer (s : State) (i : HoldIx) x : (s.setHoldSlot i x).timer = s.timer := rfl
@[simp] theorem setHoldSlot_device (s : State) (i : HoldIx) x : (s.setHoldSlot i x).device = s.device := rfl
@[simp] theorem setHoldSlot_sessions (s : State) (i : HoldIx) x : (s.setHoldSlot i x).sessions = s.sessions := rfl
@[simp] theorem setHoldSlot_links (s : State) (i : HoldIx) x : (s.setHoldSlot i x).links = s.links := rfl
@[simp] theorem setHoldSlot_purge (s : State) (i : HoldIx) x : (s.setHoldSlot i x).purge = s.purge := rfl
@[simp] theorem setHoldSlot_admin (s : State) (i : HoldIx) x : (s.setHoldSlot i x).admin = s.admin := rfl
@[simp] theorem setHoldSlot_flags (s : State) (i : HoldIx) x : (s.setHoldSlot i x).flags = s.flags := rfl
@[simp] theorem setHoldSlot_enables (s : State) (i : HoldIx) x : (s.setHoldSlot i x).enables = s.enables := rfl
@[simp] theorem setHoldSlot_live (s : State) (i : HoldIx) x : (s.setHoldSlot i x).live = s.live := rfl
@[simp] theorem setHoldSlot_snapshot (s : State) (i : HoldIx) x : (s.setHoldSlot i x).snapshot = s.snapshot := rfl
@[simp] theorem setHoldSlot_port (s : State) (i : HoldIx) x : (s.setHoldSlot i x).port = s.port := rfl
@[simp] theorem setHoldSlot_wires (s : State) (i : HoldIx) x : (s.setHoldSlot i x).wires = s.wires := rfl
@[simp] theorem setHoldSlot_pins (s : State) (i : HoldIx) x : (s.setHoldSlot i x).pins = s.pins := rfl
@[simp] theorem setHoldSlot_pending (s : State) (i : HoldIx) x : (s.setHoldSlot i x).pending = s.pending := rfl

@[simp] theorem setHold_records (s : State) (i : HoldIx) x : (s.setHold i x).records = s.records := rfl
@[simp] theorem setHold_hashSeed (s : State) (i : HoldIx) x : (s.setHold i x).hashSeed = s.hashSeed := rfl
@[simp] theorem setHold_closing (s : State) (i : HoldIx) x : (s.setHold i x).closing = s.closing := rfl
@[simp] theorem setHold_holdCounts (s : State) (i : HoldIx) x : (s.setHold i x).holdCounts = s.holdCounts := rfl
@[simp] theorem setHold_waits (s : State) (i : HoldIx) x : (s.setHold i x).waits = s.waits := rfl
@[simp] theorem setHold_fence (s : State) (i : HoldIx) x : (s.setHold i x).fence = s.fence := rfl
@[simp] theorem setHold_arrival (s : State) (i : HoldIx) x : (s.setHold i x).arrival = s.arrival := rfl
@[simp] theorem setHold_deadlines (s : State) (i : HoldIx) x : (s.setHold i x).deadlines = s.deadlines := rfl
@[simp] theorem setHold_timer (s : State) (i : HoldIx) x : (s.setHold i x).timer = s.timer := rfl
@[simp] theorem setHold_device (s : State) (i : HoldIx) x : (s.setHold i x).device = s.device := rfl
@[simp] theorem setHold_sessions (s : State) (i : HoldIx) x : (s.setHold i x).sessions = s.sessions := rfl
@[simp] theorem setHold_links (s : State) (i : HoldIx) x : (s.setHold i x).links = s.links := rfl
@[simp] theorem setHold_purge (s : State) (i : HoldIx) x : (s.setHold i x).purge = s.purge := rfl
@[simp] theorem setHold_admin (s : State) (i : HoldIx) x : (s.setHold i x).admin = s.admin := rfl
@[simp] theorem setHold_flags (s : State) (i : HoldIx) x : (s.setHold i x).flags = s.flags := rfl
@[simp] theorem setHold_enables (s : State) (i : HoldIx) x : (s.setHold i x).enables = s.enables := rfl
@[simp] theorem setHold_live (s : State) (i : HoldIx) x : (s.setHold i x).live = s.live := rfl
@[simp] theorem setHold_snapshot (s : State) (i : HoldIx) x : (s.setHold i x).snapshot = s.snapshot := rfl
@[simp] theorem setHold_port (s : State) (i : HoldIx) x : (s.setHold i x).port = s.port := rfl
@[simp] theorem setHold_wires (s : State) (i : HoldIx) x : (s.setHold i x).wires = s.wires := rfl
@[simp] theorem setHold_pins (s : State) (i : HoldIx) x : (s.setHold i x).pins = s.pins := rfl
@[simp] theorem setHold_pending (s : State) (i : HoldIx) x : (s.setHold i x).pending = s.pending := rfl

@[simp] theorem setWaitSlot_records (s : State) (w : WaitIx) x : (s.setWaitSlot w x).records = s.records := rfl
@[simp] theorem setWaitSlot_hashSeed (s : State) (w : WaitIx) x : (s.setWaitSlot w x).hashSeed = s.hashSeed := rfl
@[simp] theorem setWaitSlot_closing (s : State) (w : WaitIx) x : (s.setWaitSlot w x).closing = s.closing := rfl
@[simp] theorem setWaitSlot_holds (s : State) (w : WaitIx) x : (s.setWaitSlot w x).holds = s.holds := rfl
@[simp] theorem setWaitSlot_holdCounts (s : State) (w : WaitIx) x : (s.setWaitSlot w x).holdCounts = s.holdCounts := rfl
@[simp] theorem setWaitSlot_fence (s : State) (w : WaitIx) x : (s.setWaitSlot w x).fence = s.fence := rfl
@[simp] theorem setWaitSlot_arrival (s : State) (w : WaitIx) x : (s.setWaitSlot w x).arrival = s.arrival := rfl
@[simp] theorem setWaitSlot_deadlines (s : State) (w : WaitIx) x : (s.setWaitSlot w x).deadlines = s.deadlines := rfl
@[simp] theorem setWaitSlot_timer (s : State) (w : WaitIx) x : (s.setWaitSlot w x).timer = s.timer := rfl
@[simp] theorem setWaitSlot_device (s : State) (w : WaitIx) x : (s.setWaitSlot w x).device = s.device := rfl
@[simp] theorem setWaitSlot_sessions (s : State) (w : WaitIx) x : (s.setWaitSlot w x).sessions = s.sessions := rfl
@[simp] theorem setWaitSlot_links (s : State) (w : WaitIx) x : (s.setWaitSlot w x).links = s.links := rfl
@[simp] theorem setWaitSlot_purge (s : State) (w : WaitIx) x : (s.setWaitSlot w x).purge = s.purge := rfl
@[simp] theorem setWaitSlot_admin (s : State) (w : WaitIx) x : (s.setWaitSlot w x).admin = s.admin := rfl
@[simp] theorem setWaitSlot_flags (s : State) (w : WaitIx) x : (s.setWaitSlot w x).flags = s.flags := rfl
@[simp] theorem setWaitSlot_enables (s : State) (w : WaitIx) x : (s.setWaitSlot w x).enables = s.enables := rfl
@[simp] theorem setWaitSlot_live (s : State) (w : WaitIx) x : (s.setWaitSlot w x).live = s.live := rfl
@[simp] theorem setWaitSlot_snapshot (s : State) (w : WaitIx) x : (s.setWaitSlot w x).snapshot = s.snapshot := rfl
@[simp] theorem setWaitSlot_port (s : State) (w : WaitIx) x : (s.setWaitSlot w x).port = s.port := rfl
@[simp] theorem setWaitSlot_wires (s : State) (w : WaitIx) x : (s.setWaitSlot w x).wires = s.wires := rfl
@[simp] theorem setWaitSlot_pins (s : State) (w : WaitIx) x : (s.setWaitSlot w x).pins = s.pins := rfl
@[simp] theorem setWaitSlot_pending (s : State) (w : WaitIx) x : (s.setWaitSlot w x).pending = s.pending := rfl

@[simp] theorem setWait_records (s : State) (w : WaitIx) x : (s.setWait w x).records = s.records := rfl
@[simp] theorem setWait_hashSeed (s : State) (w : WaitIx) x : (s.setWait w x).hashSeed = s.hashSeed := rfl
@[simp] theorem setWait_closing (s : State) (w : WaitIx) x : (s.setWait w x).closing = s.closing := rfl
@[simp] theorem setWait_holds (s : State) (w : WaitIx) x : (s.setWait w x).holds = s.holds := rfl
@[simp] theorem setWait_holdCounts (s : State) (w : WaitIx) x : (s.setWait w x).holdCounts = s.holdCounts := rfl
@[simp] theorem setWait_fence (s : State) (w : WaitIx) x : (s.setWait w x).fence = s.fence := rfl
@[simp] theorem setWait_arrival (s : State) (w : WaitIx) x : (s.setWait w x).arrival = s.arrival := rfl
@[simp] theorem setWait_deadlines (s : State) (w : WaitIx) x : (s.setWait w x).deadlines = s.deadlines := rfl
@[simp] theorem setWait_timer (s : State) (w : WaitIx) x : (s.setWait w x).timer = s.timer := rfl
@[simp] theorem setWait_device (s : State) (w : WaitIx) x : (s.setWait w x).device = s.device := rfl
@[simp] theorem setWait_sessions (s : State) (w : WaitIx) x : (s.setWait w x).sessions = s.sessions := rfl
@[simp] theorem setWait_links (s : State) (w : WaitIx) x : (s.setWait w x).links = s.links := rfl
@[simp] theorem setWait_purge (s : State) (w : WaitIx) x : (s.setWait w x).purge = s.purge := rfl
@[simp] theorem setWait_admin (s : State) (w : WaitIx) x : (s.setWait w x).admin = s.admin := rfl
@[simp] theorem setWait_flags (s : State) (w : WaitIx) x : (s.setWait w x).flags = s.flags := rfl
@[simp] theorem setWait_enables (s : State) (w : WaitIx) x : (s.setWait w x).enables = s.enables := rfl
@[simp] theorem setWait_live (s : State) (w : WaitIx) x : (s.setWait w x).live = s.live := rfl
@[simp] theorem setWait_snapshot (s : State) (w : WaitIx) x : (s.setWait w x).snapshot = s.snapshot := rfl
@[simp] theorem setWait_port (s : State) (w : WaitIx) x : (s.setWait w x).port = s.port := rfl
@[simp] theorem setWait_wires (s : State) (w : WaitIx) x : (s.setWait w x).wires = s.wires := rfl
@[simp] theorem setWait_pins (s : State) (w : WaitIx) x : (s.setWait w x).pins = s.pins := rfl
@[simp] theorem setWait_pending (s : State) (w : WaitIx) x : (s.setWait w x).pending = s.pending := rfl

@[simp] theorem modifySession_records (s : State) (c : Client) f : (s.modifySession c f).records = s.records := rfl
@[simp] theorem modifySession_hashSeed (s : State) (c : Client) f : (s.modifySession c f).hashSeed = s.hashSeed := rfl
@[simp] theorem modifySession_closing (s : State) (c : Client) f : (s.modifySession c f).closing = s.closing := rfl
@[simp] theorem modifySession_holds (s : State) (c : Client) f : (s.modifySession c f).holds = s.holds := rfl
@[simp] theorem modifySession_holdCounts (s : State) (c : Client) f : (s.modifySession c f).holdCounts = s.holdCounts := rfl
@[simp] theorem modifySession_waits (s : State) (c : Client) f : (s.modifySession c f).waits = s.waits := rfl
@[simp] theorem modifySession_fence (s : State) (c : Client) f : (s.modifySession c f).fence = s.fence := rfl
@[simp] theorem modifySession_arrival (s : State) (c : Client) f : (s.modifySession c f).arrival = s.arrival := rfl
@[simp] theorem modifySession_deadlines (s : State) (c : Client) f : (s.modifySession c f).deadlines = s.deadlines := rfl
@[simp] theorem modifySession_timer (s : State) (c : Client) f : (s.modifySession c f).timer = s.timer := rfl
@[simp] theorem modifySession_device (s : State) (c : Client) f : (s.modifySession c f).device = s.device := rfl
@[simp] theorem modifySession_links (s : State) (c : Client) f : (s.modifySession c f).links = s.links := rfl
@[simp] theorem modifySession_purge (s : State) (c : Client) f : (s.modifySession c f).purge = s.purge := rfl
@[simp] theorem modifySession_admin (s : State) (c : Client) f : (s.modifySession c f).admin = s.admin := rfl
@[simp] theorem modifySession_flags (s : State) (c : Client) f : (s.modifySession c f).flags = s.flags := rfl
@[simp] theorem modifySession_enables (s : State) (c : Client) f : (s.modifySession c f).enables = s.enables := rfl
@[simp] theorem modifySession_live (s : State) (c : Client) f : (s.modifySession c f).live = s.live := rfl
@[simp] theorem modifySession_snapshot (s : State) (c : Client) f : (s.modifySession c f).snapshot = s.snapshot := rfl
@[simp] theorem modifySession_port (s : State) (c : Client) f : (s.modifySession c f).port = s.port := rfl
@[simp] theorem modifySession_wires (s : State) (c : Client) f : (s.modifySession c f).wires = s.wires := rfl
@[simp] theorem modifySession_pins (s : State) (c : Client) f : (s.modifySession c f).pins = s.pins := rfl
@[simp] theorem modifySession_pending (s : State) (c : Client) f : (s.modifySession c f).pending = s.pending := rfl

@[simp] theorem modifyLink_records (s : State) (l : Client) f : (s.modifyLink l f).records = s.records := rfl
@[simp] theorem modifyLink_hashSeed (s : State) (l : Client) f : (s.modifyLink l f).hashSeed = s.hashSeed := rfl
@[simp] theorem modifyLink_closing (s : State) (l : Client) f : (s.modifyLink l f).closing = s.closing := rfl
@[simp] theorem modifyLink_holds (s : State) (l : Client) f : (s.modifyLink l f).holds = s.holds := rfl
@[simp] theorem modifyLink_holdCounts (s : State) (l : Client) f : (s.modifyLink l f).holdCounts = s.holdCounts := rfl
@[simp] theorem modifyLink_waits (s : State) (l : Client) f : (s.modifyLink l f).waits = s.waits := rfl
@[simp] theorem modifyLink_fence (s : State) (l : Client) f : (s.modifyLink l f).fence = s.fence := rfl
@[simp] theorem modifyLink_arrival (s : State) (l : Client) f : (s.modifyLink l f).arrival = s.arrival := rfl
@[simp] theorem modifyLink_deadlines (s : State) (l : Client) f : (s.modifyLink l f).deadlines = s.deadlines := rfl
@[simp] theorem modifyLink_timer (s : State) (l : Client) f : (s.modifyLink l f).timer = s.timer := rfl
@[simp] theorem modifyLink_device (s : State) (l : Client) f : (s.modifyLink l f).device = s.device := rfl
@[simp] theorem modifyLink_sessions (s : State) (l : Client) f : (s.modifyLink l f).sessions = s.sessions := rfl
@[simp] theorem modifyLink_purge (s : State) (l : Client) f : (s.modifyLink l f).purge = s.purge := rfl
@[simp] theorem modifyLink_admin (s : State) (l : Client) f : (s.modifyLink l f).admin = s.admin := rfl
@[simp] theorem modifyLink_flags (s : State) (l : Client) f : (s.modifyLink l f).flags = s.flags := rfl
@[simp] theorem modifyLink_enables (s : State) (l : Client) f : (s.modifyLink l f).enables = s.enables := rfl
@[simp] theorem modifyLink_live (s : State) (l : Client) f : (s.modifyLink l f).live = s.live := rfl
@[simp] theorem modifyLink_snapshot (s : State) (l : Client) f : (s.modifyLink l f).snapshot = s.snapshot := rfl
@[simp] theorem modifyLink_port (s : State) (l : Client) f : (s.modifyLink l f).port = s.port := rfl
@[simp] theorem modifyLink_wires (s : State) (l : Client) f : (s.modifyLink l f).wires = s.wires := rfl
@[simp] theorem modifyLink_pins (s : State) (l : Client) f : (s.modifyLink l f).pins = s.pins := rfl
@[simp] theorem modifyLink_pending (s : State) (l : Client) f : (s.modifyLink l f).pending = s.pending := rfl

@[simp] theorem modifyWire_records (s : State) (l : Client) f : (s.modifyWire l f).records = s.records := rfl
@[simp] theorem modifyWire_hashSeed (s : State) (l : Client) f : (s.modifyWire l f).hashSeed = s.hashSeed := rfl
@[simp] theorem modifyWire_closing (s : State) (l : Client) f : (s.modifyWire l f).closing = s.closing := rfl
@[simp] theorem modifyWire_holds (s : State) (l : Client) f : (s.modifyWire l f).holds = s.holds := rfl
@[simp] theorem modifyWire_holdCounts (s : State) (l : Client) f : (s.modifyWire l f).holdCounts = s.holdCounts := rfl
@[simp] theorem modifyWire_waits (s : State) (l : Client) f : (s.modifyWire l f).waits = s.waits := rfl
@[simp] theorem modifyWire_fence (s : State) (l : Client) f : (s.modifyWire l f).fence = s.fence := rfl
@[simp] theorem modifyWire_arrival (s : State) (l : Client) f : (s.modifyWire l f).arrival = s.arrival := rfl
@[simp] theorem modifyWire_deadlines (s : State) (l : Client) f : (s.modifyWire l f).deadlines = s.deadlines := rfl
@[simp] theorem modifyWire_timer (s : State) (l : Client) f : (s.modifyWire l f).timer = s.timer := rfl
@[simp] theorem modifyWire_device (s : State) (l : Client) f : (s.modifyWire l f).device = s.device := rfl
@[simp] theorem modifyWire_sessions (s : State) (l : Client) f : (s.modifyWire l f).sessions = s.sessions := rfl
@[simp] theorem modifyWire_links (s : State) (l : Client) f : (s.modifyWire l f).links = s.links := rfl
@[simp] theorem modifyWire_purge (s : State) (l : Client) f : (s.modifyWire l f).purge = s.purge := rfl
@[simp] theorem modifyWire_admin (s : State) (l : Client) f : (s.modifyWire l f).admin = s.admin := rfl
@[simp] theorem modifyWire_flags (s : State) (l : Client) f : (s.modifyWire l f).flags = s.flags := rfl
@[simp] theorem modifyWire_enables (s : State) (l : Client) f : (s.modifyWire l f).enables = s.enables := rfl
@[simp] theorem modifyWire_live (s : State) (l : Client) f : (s.modifyWire l f).live = s.live := rfl
@[simp] theorem modifyWire_snapshot (s : State) (l : Client) f : (s.modifyWire l f).snapshot = s.snapshot := rfl
@[simp] theorem modifyWire_port (s : State) (l : Client) f : (s.modifyWire l f).port = s.port := rfl
@[simp] theorem modifyWire_pins (s : State) (l : Client) f : (s.modifyWire l f).pins = s.pins := rfl
@[simp] theorem modifyWire_pending (s : State) (l : Client) f : (s.modifyWire l f).pending = s.pending := rfl

@[simp] theorem countLink_records (s : State) (l : Client) f : (s.countLink l f).records = s.records := rfl
@[simp] theorem countLink_hashSeed (s : State) (l : Client) f : (s.countLink l f).hashSeed = s.hashSeed := rfl
@[simp] theorem countLink_closing (s : State) (l : Client) f : (s.countLink l f).closing = s.closing := rfl
@[simp] theorem countLink_holds (s : State) (l : Client) f : (s.countLink l f).holds = s.holds := rfl
@[simp] theorem countLink_holdCounts (s : State) (l : Client) f : (s.countLink l f).holdCounts = s.holdCounts := rfl
@[simp] theorem countLink_waits (s : State) (l : Client) f : (s.countLink l f).waits = s.waits := rfl
@[simp] theorem countLink_fence (s : State) (l : Client) f : (s.countLink l f).fence = s.fence := rfl
@[simp] theorem countLink_arrival (s : State) (l : Client) f : (s.countLink l f).arrival = s.arrival := rfl
@[simp] theorem countLink_deadlines (s : State) (l : Client) f : (s.countLink l f).deadlines = s.deadlines := rfl
@[simp] theorem countLink_timer (s : State) (l : Client) f : (s.countLink l f).timer = s.timer := rfl
@[simp] theorem countLink_device (s : State) (l : Client) f : (s.countLink l f).device = s.device := rfl
@[simp] theorem countLink_sessions (s : State) (l : Client) f : (s.countLink l f).sessions = s.sessions := rfl
@[simp] theorem countLink_links (s : State) (l : Client) f : (s.countLink l f).links = s.links := rfl
@[simp] theorem countLink_purge (s : State) (l : Client) f : (s.countLink l f).purge = s.purge := rfl
@[simp] theorem countLink_admin (s : State) (l : Client) f : (s.countLink l f).admin = s.admin := rfl
@[simp] theorem countLink_flags (s : State) (l : Client) f : (s.countLink l f).flags = s.flags := rfl
@[simp] theorem countLink_enables (s : State) (l : Client) f : (s.countLink l f).enables = s.enables := rfl
@[simp] theorem countLink_snapshot (s : State) (l : Client) f : (s.countLink l f).snapshot = s.snapshot := rfl
@[simp] theorem countLink_port (s : State) (l : Client) f : (s.countLink l f).port = s.port := rfl
@[simp] theorem countLink_wires (s : State) (l : Client) f : (s.countLink l f).wires = s.wires := rfl
@[simp] theorem countLink_pins (s : State) (l : Client) f : (s.countLink l f).pins = s.pins := rfl
@[simp] theorem countLink_pending (s : State) (l : Client) f : (s.countLink l f).pending = s.pending := rfl

@[simp] theorem countClient_records (s : State) (c : Client) f : (s.countClient c f).records = s.records := rfl
@[simp] theorem countClient_hashSeed (s : State) (c : Client) f : (s.countClient c f).hashSeed = s.hashSeed := rfl
@[simp] theorem countClient_closing (s : State) (c : Client) f : (s.countClient c f).closing = s.closing := rfl
@[simp] theorem countClient_holds (s : State) (c : Client) f : (s.countClient c f).holds = s.holds := rfl
@[simp] theorem countClient_holdCounts (s : State) (c : Client) f : (s.countClient c f).holdCounts = s.holdCounts := rfl
@[simp] theorem countClient_waits (s : State) (c : Client) f : (s.countClient c f).waits = s.waits := rfl
@[simp] theorem countClient_fence (s : State) (c : Client) f : (s.countClient c f).fence = s.fence := rfl
@[simp] theorem countClient_arrival (s : State) (c : Client) f : (s.countClient c f).arrival = s.arrival := rfl
@[simp] theorem countClient_deadlines (s : State) (c : Client) f : (s.countClient c f).deadlines = s.deadlines := rfl
@[simp] theorem countClient_timer (s : State) (c : Client) f : (s.countClient c f).timer = s.timer := rfl
@[simp] theorem countClient_device (s : State) (c : Client) f : (s.countClient c f).device = s.device := rfl
@[simp] theorem countClient_sessions (s : State) (c : Client) f : (s.countClient c f).sessions = s.sessions := rfl
@[simp] theorem countClient_links (s : State) (c : Client) f : (s.countClient c f).links = s.links := rfl
@[simp] theorem countClient_purge (s : State) (c : Client) f : (s.countClient c f).purge = s.purge := rfl
@[simp] theorem countClient_admin (s : State) (c : Client) f : (s.countClient c f).admin = s.admin := rfl
@[simp] theorem countClient_flags (s : State) (c : Client) f : (s.countClient c f).flags = s.flags := rfl
@[simp] theorem countClient_enables (s : State) (c : Client) f : (s.countClient c f).enables = s.enables := rfl
@[simp] theorem countClient_snapshot (s : State) (c : Client) f : (s.countClient c f).snapshot = s.snapshot := rfl
@[simp] theorem countClient_port (s : State) (c : Client) f : (s.countClient c f).port = s.port := rfl
@[simp] theorem countClient_wires (s : State) (c : Client) f : (s.countClient c f).wires = s.wires := rfl
@[simp] theorem countClient_pins (s : State) (c : Client) f : (s.countClient c f).pins = s.pins := rfl
@[simp] theorem countClient_pending (s : State) (c : Client) f : (s.countClient c f).pending = s.pending := rfl

@[simp] theorem removeEntry_records (s : State) (e : DeadlineRef) : (s.removeEntry e).records = s.records := rfl
@[simp] theorem removeEntry_hashSeed (s : State) (e : DeadlineRef) : (s.removeEntry e).hashSeed = s.hashSeed := rfl
@[simp] theorem removeEntry_closing (s : State) (e : DeadlineRef) : (s.removeEntry e).closing = s.closing := rfl
@[simp] theorem removeEntry_holds (s : State) (e : DeadlineRef) : (s.removeEntry e).holds = s.holds := rfl
@[simp] theorem removeEntry_holdCounts (s : State) (e : DeadlineRef) : (s.removeEntry e).holdCounts = s.holdCounts := rfl
@[simp] theorem removeEntry_waits (s : State) (e : DeadlineRef) : (s.removeEntry e).waits = s.waits := rfl
@[simp] theorem removeEntry_fence (s : State) (e : DeadlineRef) : (s.removeEntry e).fence = s.fence := rfl
@[simp] theorem removeEntry_arrival (s : State) (e : DeadlineRef) : (s.removeEntry e).arrival = s.arrival := rfl
@[simp] theorem removeEntry_timer (s : State) (e : DeadlineRef) : (s.removeEntry e).timer = s.timer := rfl
@[simp] theorem removeEntry_device (s : State) (e : DeadlineRef) : (s.removeEntry e).device = s.device := rfl
@[simp] theorem removeEntry_sessions (s : State) (e : DeadlineRef) : (s.removeEntry e).sessions = s.sessions := rfl
@[simp] theorem removeEntry_links (s : State) (e : DeadlineRef) : (s.removeEntry e).links = s.links := rfl
@[simp] theorem removeEntry_purge (s : State) (e : DeadlineRef) : (s.removeEntry e).purge = s.purge := rfl
@[simp] theorem removeEntry_admin (s : State) (e : DeadlineRef) : (s.removeEntry e).admin = s.admin := rfl
@[simp] theorem removeEntry_flags (s : State) (e : DeadlineRef) : (s.removeEntry e).flags = s.flags := rfl
@[simp] theorem removeEntry_enables (s : State) (e : DeadlineRef) : (s.removeEntry e).enables = s.enables := rfl
@[simp] theorem removeEntry_live (s : State) (e : DeadlineRef) : (s.removeEntry e).live = s.live := rfl
@[simp] theorem removeEntry_snapshot (s : State) (e : DeadlineRef) : (s.removeEntry e).snapshot = s.snapshot := rfl
@[simp] theorem removeEntry_port (s : State) (e : DeadlineRef) : (s.removeEntry e).port = s.port := rfl
@[simp] theorem removeEntry_wires (s : State) (e : DeadlineRef) : (s.removeEntry e).wires = s.wires := rfl
@[simp] theorem removeEntry_pins (s : State) (e : DeadlineRef) : (s.removeEntry e).pins = s.pins := rfl
@[simp] theorem removeEntry_pending (s : State) (e : DeadlineRef) : (s.removeEntry e).pending = s.pending := rfl

@[simp] theorem addEntry_records (s : State) (e : DeadlineRef) (u : Word) : (s.addEntry e u).records = s.records := rfl
@[simp] theorem addEntry_hashSeed (s : State) (e : DeadlineRef) (u : Word) : (s.addEntry e u).hashSeed = s.hashSeed := rfl
@[simp] theorem addEntry_closing (s : State) (e : DeadlineRef) (u : Word) : (s.addEntry e u).closing = s.closing := rfl
@[simp] theorem addEntry_holds (s : State) (e : DeadlineRef) (u : Word) : (s.addEntry e u).holds = s.holds := rfl
@[simp] theorem addEntry_holdCounts (s : State) (e : DeadlineRef) (u : Word) : (s.addEntry e u).holdCounts = s.holdCounts := rfl
@[simp] theorem addEntry_waits (s : State) (e : DeadlineRef) (u : Word) : (s.addEntry e u).waits = s.waits := rfl
@[simp] theorem addEntry_fence (s : State) (e : DeadlineRef) (u : Word) : (s.addEntry e u).fence = s.fence := rfl
@[simp] theorem addEntry_arrival (s : State) (e : DeadlineRef) (u : Word) : (s.addEntry e u).arrival = s.arrival := rfl
@[simp] theorem addEntry_timer (s : State) (e : DeadlineRef) (u : Word) : (s.addEntry e u).timer = s.timer := rfl
@[simp] theorem addEntry_device (s : State) (e : DeadlineRef) (u : Word) : (s.addEntry e u).device = s.device := rfl
@[simp] theorem addEntry_sessions (s : State) (e : DeadlineRef) (u : Word) : (s.addEntry e u).sessions = s.sessions := rfl
@[simp] theorem addEntry_links (s : State) (e : DeadlineRef) (u : Word) : (s.addEntry e u).links = s.links := rfl
@[simp] theorem addEntry_purge (s : State) (e : DeadlineRef) (u : Word) : (s.addEntry e u).purge = s.purge := rfl
@[simp] theorem addEntry_admin (s : State) (e : DeadlineRef) (u : Word) : (s.addEntry e u).admin = s.admin := rfl
@[simp] theorem addEntry_flags (s : State) (e : DeadlineRef) (u : Word) : (s.addEntry e u).flags = s.flags := rfl
@[simp] theorem addEntry_enables (s : State) (e : DeadlineRef) (u : Word) : (s.addEntry e u).enables = s.enables := rfl
@[simp] theorem addEntry_live (s : State) (e : DeadlineRef) (u : Word) : (s.addEntry e u).live = s.live := rfl
@[simp] theorem addEntry_snapshot (s : State) (e : DeadlineRef) (u : Word) : (s.addEntry e u).snapshot = s.snapshot := rfl
@[simp] theorem addEntry_port (s : State) (e : DeadlineRef) (u : Word) : (s.addEntry e u).port = s.port := rfl
@[simp] theorem addEntry_wires (s : State) (e : DeadlineRef) (u : Word) : (s.addEntry e u).wires = s.wires := rfl
@[simp] theorem addEntry_pins (s : State) (e : DeadlineRef) (u : Word) : (s.addEntry e u).pins = s.pins := rfl
@[simp] theorem addEntry_pending (s : State) (e : DeadlineRef) (u : Word) : (s.addEntry e u).pending = s.pending := rfl

@[simp] theorem moveEntry_records (s : State) (e : DeadlineRef) (u : Word) : (s.moveEntry e u).records = s.records := rfl
@[simp] theorem moveEntry_hashSeed (s : State) (e : DeadlineRef) (u : Word) : (s.moveEntry e u).hashSeed = s.hashSeed := rfl
@[simp] theorem moveEntry_closing (s : State) (e : DeadlineRef) (u : Word) : (s.moveEntry e u).closing = s.closing := rfl
@[simp] theorem moveEntry_holds (s : State) (e : DeadlineRef) (u : Word) : (s.moveEntry e u).holds = s.holds := rfl
@[simp] theorem moveEntry_holdCounts (s : State) (e : DeadlineRef) (u : Word) : (s.moveEntry e u).holdCounts = s.holdCounts := rfl
@[simp] theorem moveEntry_waits (s : State) (e : DeadlineRef) (u : Word) : (s.moveEntry e u).waits = s.waits := rfl
@[simp] theorem moveEntry_fence (s : State) (e : DeadlineRef) (u : Word) : (s.moveEntry e u).fence = s.fence := rfl
@[simp] theorem moveEntry_arrival (s : State) (e : DeadlineRef) (u : Word) : (s.moveEntry e u).arrival = s.arrival := rfl
@[simp] theorem moveEntry_timer (s : State) (e : DeadlineRef) (u : Word) : (s.moveEntry e u).timer = s.timer := rfl
@[simp] theorem moveEntry_device (s : State) (e : DeadlineRef) (u : Word) : (s.moveEntry e u).device = s.device := rfl
@[simp] theorem moveEntry_sessions (s : State) (e : DeadlineRef) (u : Word) : (s.moveEntry e u).sessions = s.sessions := rfl
@[simp] theorem moveEntry_links (s : State) (e : DeadlineRef) (u : Word) : (s.moveEntry e u).links = s.links := rfl
@[simp] theorem moveEntry_purge (s : State) (e : DeadlineRef) (u : Word) : (s.moveEntry e u).purge = s.purge := rfl
@[simp] theorem moveEntry_admin (s : State) (e : DeadlineRef) (u : Word) : (s.moveEntry e u).admin = s.admin := rfl
@[simp] theorem moveEntry_flags (s : State) (e : DeadlineRef) (u : Word) : (s.moveEntry e u).flags = s.flags := rfl
@[simp] theorem moveEntry_enables (s : State) (e : DeadlineRef) (u : Word) : (s.moveEntry e u).enables = s.enables := rfl
@[simp] theorem moveEntry_live (s : State) (e : DeadlineRef) (u : Word) : (s.moveEntry e u).live = s.live := rfl
@[simp] theorem moveEntry_snapshot (s : State) (e : DeadlineRef) (u : Word) : (s.moveEntry e u).snapshot = s.snapshot := rfl
@[simp] theorem moveEntry_port (s : State) (e : DeadlineRef) (u : Word) : (s.moveEntry e u).port = s.port := rfl
@[simp] theorem moveEntry_wires (s : State) (e : DeadlineRef) (u : Word) : (s.moveEntry e u).wires = s.wires := rfl
@[simp] theorem moveEntry_pins (s : State) (e : DeadlineRef) (u : Word) : (s.moveEntry e u).pins = s.pins := rfl
@[simp] theorem moveEntry_pending (s : State) (e : DeadlineRef) (u : Word) : (s.moveEntry e u).pending = s.pending := rfl

@[simp] theorem modifyRecord_hashSeed (s : State) (r : Slot) (f : Record → Record) : (s.modifyRecord r f).hashSeed = s.hashSeed := by
  unfold State.modifyRecord; split <;> rfl
@[simp] theorem modifyRecord_closing (s : State) (r : Slot) (f : Record → Record) : (s.modifyRecord r f).closing = s.closing := by
  unfold State.modifyRecord; split <;> rfl
@[simp] theorem modifyRecord_holds (s : State) (r : Slot) (f : Record → Record) : (s.modifyRecord r f).holds = s.holds := by
  unfold State.modifyRecord; split <;> rfl
@[simp] theorem modifyRecord_holdCounts (s : State) (r : Slot) (f : Record → Record) : (s.modifyRecord r f).holdCounts = s.holdCounts := by
  unfold State.modifyRecord; split <;> rfl
@[simp] theorem modifyRecord_waits (s : State) (r : Slot) (f : Record → Record) : (s.modifyRecord r f).waits = s.waits := by
  unfold State.modifyRecord; split <;> rfl
@[simp] theorem modifyRecord_fence (s : State) (r : Slot) (f : Record → Record) : (s.modifyRecord r f).fence = s.fence := by
  unfold State.modifyRecord; split <;> rfl
@[simp] theorem modifyRecord_arrival (s : State) (r : Slot) (f : Record → Record) : (s.modifyRecord r f).arrival = s.arrival := by
  unfold State.modifyRecord; split <;> rfl
@[simp] theorem modifyRecord_deadlines (s : State) (r : Slot) (f : Record → Record) : (s.modifyRecord r f).deadlines = s.deadlines := by
  unfold State.modifyRecord; split <;> rfl
@[simp] theorem modifyRecord_timer (s : State) (r : Slot) (f : Record → Record) : (s.modifyRecord r f).timer = s.timer := by
  unfold State.modifyRecord; split <;> rfl
@[simp] theorem modifyRecord_device (s : State) (r : Slot) (f : Record → Record) : (s.modifyRecord r f).device = s.device := by
  unfold State.modifyRecord; split <;> rfl
@[simp] theorem modifyRecord_sessions (s : State) (r : Slot) (f : Record → Record) : (s.modifyRecord r f).sessions = s.sessions := by
  unfold State.modifyRecord; split <;> rfl
@[simp] theorem modifyRecord_links (s : State) (r : Slot) (f : Record → Record) : (s.modifyRecord r f).links = s.links := by
  unfold State.modifyRecord; split <;> rfl
@[simp] theorem modifyRecord_purge (s : State) (r : Slot) (f : Record → Record) : (s.modifyRecord r f).purge = s.purge := by
  unfold State.modifyRecord; split <;> rfl
@[simp] theorem modifyRecord_admin (s : State) (r : Slot) (f : Record → Record) : (s.modifyRecord r f).admin = s.admin := by
  unfold State.modifyRecord; split <;> rfl
@[simp] theorem modifyRecord_flags (s : State) (r : Slot) (f : Record → Record) : (s.modifyRecord r f).flags = s.flags := by
  unfold State.modifyRecord; split <;> rfl
@[simp] theorem modifyRecord_enables (s : State) (r : Slot) (f : Record → Record) : (s.modifyRecord r f).enables = s.enables := by
  unfold State.modifyRecord; split <;> rfl
@[simp] theorem modifyRecord_live (s : State) (r : Slot) (f : Record → Record) : (s.modifyRecord r f).live = s.live := by
  unfold State.modifyRecord; split <;> rfl
@[simp] theorem modifyRecord_snapshot (s : State) (r : Slot) (f : Record → Record) : (s.modifyRecord r f).snapshot = s.snapshot := by
  unfold State.modifyRecord; split <;> rfl
@[simp] theorem modifyRecord_port (s : State) (r : Slot) (f : Record → Record) : (s.modifyRecord r f).port = s.port := by
  unfold State.modifyRecord; split <;> rfl
@[simp] theorem modifyRecord_wires (s : State) (r : Slot) (f : Record → Record) : (s.modifyRecord r f).wires = s.wires := by
  unfold State.modifyRecord; split <;> rfl
@[simp] theorem modifyRecord_pins (s : State) (r : Slot) (f : Record → Record) : (s.modifyRecord r f).pins = s.pins := by
  unfold State.modifyRecord; split <;> rfl
@[simp] theorem modifyRecord_pending (s : State) (r : Slot) (f : Record → Record) : (s.modifyRecord r f).pending = s.pending := by
  unfold State.modifyRecord; split <;> rfl

@[simp] theorem modifyHold_records (s : State) (i : HoldIx) (f : Hold → Hold) : (s.modifyHold i f).records = s.records := by
  unfold State.modifyHold; split <;> rfl
@[simp] theorem modifyHold_hashSeed (s : State) (i : HoldIx) (f : Hold → Hold) : (s.modifyHold i f).hashSeed = s.hashSeed := by
  unfold State.modifyHold; split <;> rfl
@[simp] theorem modifyHold_closing (s : State) (i : HoldIx) (f : Hold → Hold) : (s.modifyHold i f).closing = s.closing := by
  unfold State.modifyHold; split <;> rfl
@[simp] theorem modifyHold_holdCounts (s : State) (i : HoldIx) (f : Hold → Hold) : (s.modifyHold i f).holdCounts = s.holdCounts := by
  unfold State.modifyHold; split <;> rfl
@[simp] theorem modifyHold_waits (s : State) (i : HoldIx) (f : Hold → Hold) : (s.modifyHold i f).waits = s.waits := by
  unfold State.modifyHold; split <;> rfl
@[simp] theorem modifyHold_fence (s : State) (i : HoldIx) (f : Hold → Hold) : (s.modifyHold i f).fence = s.fence := by
  unfold State.modifyHold; split <;> rfl
@[simp] theorem modifyHold_arrival (s : State) (i : HoldIx) (f : Hold → Hold) : (s.modifyHold i f).arrival = s.arrival := by
  unfold State.modifyHold; split <;> rfl
@[simp] theorem modifyHold_deadlines (s : State) (i : HoldIx) (f : Hold → Hold) : (s.modifyHold i f).deadlines = s.deadlines := by
  unfold State.modifyHold; split <;> rfl
@[simp] theorem modifyHold_timer (s : State) (i : HoldIx) (f : Hold → Hold) : (s.modifyHold i f).timer = s.timer := by
  unfold State.modifyHold; split <;> rfl
@[simp] theorem modifyHold_device (s : State) (i : HoldIx) (f : Hold → Hold) : (s.modifyHold i f).device = s.device := by
  unfold State.modifyHold; split <;> rfl
@[simp] theorem modifyHold_sessions (s : State) (i : HoldIx) (f : Hold → Hold) : (s.modifyHold i f).sessions = s.sessions := by
  unfold State.modifyHold; split <;> rfl
@[simp] theorem modifyHold_links (s : State) (i : HoldIx) (f : Hold → Hold) : (s.modifyHold i f).links = s.links := by
  unfold State.modifyHold; split <;> rfl
@[simp] theorem modifyHold_purge (s : State) (i : HoldIx) (f : Hold → Hold) : (s.modifyHold i f).purge = s.purge := by
  unfold State.modifyHold; split <;> rfl
@[simp] theorem modifyHold_admin (s : State) (i : HoldIx) (f : Hold → Hold) : (s.modifyHold i f).admin = s.admin := by
  unfold State.modifyHold; split <;> rfl
@[simp] theorem modifyHold_flags (s : State) (i : HoldIx) (f : Hold → Hold) : (s.modifyHold i f).flags = s.flags := by
  unfold State.modifyHold; split <;> rfl
@[simp] theorem modifyHold_enables (s : State) (i : HoldIx) (f : Hold → Hold) : (s.modifyHold i f).enables = s.enables := by
  unfold State.modifyHold; split <;> rfl
@[simp] theorem modifyHold_live (s : State) (i : HoldIx) (f : Hold → Hold) : (s.modifyHold i f).live = s.live := by
  unfold State.modifyHold; split <;> rfl
@[simp] theorem modifyHold_snapshot (s : State) (i : HoldIx) (f : Hold → Hold) : (s.modifyHold i f).snapshot = s.snapshot := by
  unfold State.modifyHold; split <;> rfl
@[simp] theorem modifyHold_port (s : State) (i : HoldIx) (f : Hold → Hold) : (s.modifyHold i f).port = s.port := by
  unfold State.modifyHold; split <;> rfl
@[simp] theorem modifyHold_wires (s : State) (i : HoldIx) (f : Hold → Hold) : (s.modifyHold i f).wires = s.wires := by
  unfold State.modifyHold; split <;> rfl
@[simp] theorem modifyHold_pins (s : State) (i : HoldIx) (f : Hold → Hold) : (s.modifyHold i f).pins = s.pins := by
  unfold State.modifyHold; split <;> rfl
@[simp] theorem modifyHold_pending (s : State) (i : HoldIx) (f : Hold → Hold) : (s.modifyHold i f).pending = s.pending := by
  unfold State.modifyHold; split <;> rfl

/-! ### Reads of one element after an update of another field -/

@[simp] theorem holdSlot_setRecords (s : State) x (i : HoldIx) : (s.setRecords x).holdSlot i = s.holdSlot i := rfl
@[simp] theorem hold_setRecords (s : State) x (i : HoldIx) : (s.setRecords x).hold i = s.hold i := rfl
@[simp] theorem waitSlot_setRecords (s : State) x (w : WaitIx) : (s.setRecords x).waitSlot w = s.waitSlot w := rfl
@[simp] theorem wait_setRecords (s : State) x (w : WaitIx) : (s.setRecords x).wait w = s.wait w := rfl
@[simp] theorem session_setRecords (s : State) x (c : Client) : (s.setRecords x).session c = s.session c := rfl
@[simp] theorem link_setRecords (s : State) x (l : Client) : (s.setRecords x).link l = s.link l := rfl
@[simp] theorem record_setSeed (s : State) x (r : Slot) : (s.setSeed x).record r = s.record r := rfl
@[simp] theorem holdSlot_setSeed (s : State) x (i : HoldIx) : (s.setSeed x).holdSlot i = s.holdSlot i := rfl
@[simp] theorem hold_setSeed (s : State) x (i : HoldIx) : (s.setSeed x).hold i = s.hold i := rfl
@[simp] theorem waitSlot_setSeed (s : State) x (w : WaitIx) : (s.setSeed x).waitSlot w = s.waitSlot w := rfl
@[simp] theorem wait_setSeed (s : State) x (w : WaitIx) : (s.setSeed x).wait w = s.wait w := rfl
@[simp] theorem session_setSeed (s : State) x (c : Client) : (s.setSeed x).session c = s.session c := rfl
@[simp] theorem link_setSeed (s : State) x (l : Client) : (s.setSeed x).link l = s.link l := rfl
@[simp] theorem record_setClosing (s : State) x (r : Slot) : (s.setClosing x).record r = s.record r := rfl
@[simp] theorem holdSlot_setClosing (s : State) x (i : HoldIx) : (s.setClosing x).holdSlot i = s.holdSlot i := rfl
@[simp] theorem hold_setClosing (s : State) x (i : HoldIx) : (s.setClosing x).hold i = s.hold i := rfl
@[simp] theorem waitSlot_setClosing (s : State) x (w : WaitIx) : (s.setClosing x).waitSlot w = s.waitSlot w := rfl
@[simp] theorem wait_setClosing (s : State) x (w : WaitIx) : (s.setClosing x).wait w = s.wait w := rfl
@[simp] theorem session_setClosing (s : State) x (c : Client) : (s.setClosing x).session c = s.session c := rfl
@[simp] theorem link_setClosing (s : State) x (l : Client) : (s.setClosing x).link l = s.link l := rfl
@[simp] theorem record_setHolds (s : State) x (r : Slot) : (s.setHolds x).record r = s.record r := rfl
@[simp] theorem waitSlot_setHolds (s : State) x (w : WaitIx) : (s.setHolds x).waitSlot w = s.waitSlot w := rfl
@[simp] theorem wait_setHolds (s : State) x (w : WaitIx) : (s.setHolds x).wait w = s.wait w := rfl
@[simp] theorem session_setHolds (s : State) x (c : Client) : (s.setHolds x).session c = s.session c := rfl
@[simp] theorem link_setHolds (s : State) x (l : Client) : (s.setHolds x).link l = s.link l := rfl
@[simp] theorem record_setHoldCounts (s : State) x (r : Slot) : (s.setHoldCounts x).record r = s.record r := rfl
@[simp] theorem holdSlot_setHoldCounts (s : State) x (i : HoldIx) : (s.setHoldCounts x).holdSlot i = s.holdSlot i := rfl
@[simp] theorem hold_setHoldCounts (s : State) x (i : HoldIx) : (s.setHoldCounts x).hold i = s.hold i := rfl
@[simp] theorem waitSlot_setHoldCounts (s : State) x (w : WaitIx) : (s.setHoldCounts x).waitSlot w = s.waitSlot w := rfl
@[simp] theorem wait_setHoldCounts (s : State) x (w : WaitIx) : (s.setHoldCounts x).wait w = s.wait w := rfl
@[simp] theorem session_setHoldCounts (s : State) x (c : Client) : (s.setHoldCounts x).session c = s.session c := rfl
@[simp] theorem link_setHoldCounts (s : State) x (l : Client) : (s.setHoldCounts x).link l = s.link l := rfl
@[simp] theorem record_setWaits (s : State) x (r : Slot) : (s.setWaits x).record r = s.record r := rfl
@[simp] theorem holdSlot_setWaits (s : State) x (i : HoldIx) : (s.setWaits x).holdSlot i = s.holdSlot i := rfl
@[simp] theorem hold_setWaits (s : State) x (i : HoldIx) : (s.setWaits x).hold i = s.hold i := rfl
@[simp] theorem session_setWaits (s : State) x (c : Client) : (s.setWaits x).session c = s.session c := rfl
@[simp] theorem link_setWaits (s : State) x (l : Client) : (s.setWaits x).link l = s.link l := rfl
@[simp] theorem record_setFence (s : State) x (r : Slot) : (s.setFence x).record r = s.record r := rfl
@[simp] theorem holdSlot_setFence (s : State) x (i : HoldIx) : (s.setFence x).holdSlot i = s.holdSlot i := rfl
@[simp] theorem hold_setFence (s : State) x (i : HoldIx) : (s.setFence x).hold i = s.hold i := rfl
@[simp] theorem waitSlot_setFence (s : State) x (w : WaitIx) : (s.setFence x).waitSlot w = s.waitSlot w := rfl
@[simp] theorem wait_setFence (s : State) x (w : WaitIx) : (s.setFence x).wait w = s.wait w := rfl
@[simp] theorem session_setFence (s : State) x (c : Client) : (s.setFence x).session c = s.session c := rfl
@[simp] theorem link_setFence (s : State) x (l : Client) : (s.setFence x).link l = s.link l := rfl
@[simp] theorem record_setArrival (s : State) x (r : Slot) : (s.setArrival x).record r = s.record r := rfl
@[simp] theorem holdSlot_setArrival (s : State) x (i : HoldIx) : (s.setArrival x).holdSlot i = s.holdSlot i := rfl
@[simp] theorem hold_setArrival (s : State) x (i : HoldIx) : (s.setArrival x).hold i = s.hold i := rfl
@[simp] theorem waitSlot_setArrival (s : State) x (w : WaitIx) : (s.setArrival x).waitSlot w = s.waitSlot w := rfl
@[simp] theorem wait_setArrival (s : State) x (w : WaitIx) : (s.setArrival x).wait w = s.wait w := rfl
@[simp] theorem session_setArrival (s : State) x (c : Client) : (s.setArrival x).session c = s.session c := rfl
@[simp] theorem link_setArrival (s : State) x (l : Client) : (s.setArrival x).link l = s.link l := rfl
@[simp] theorem record_setDeadlines (s : State) x (r : Slot) : (s.setDeadlines x).record r = s.record r := rfl
@[simp] theorem holdSlot_setDeadlines (s : State) x (i : HoldIx) : (s.setDeadlines x).holdSlot i = s.holdSlot i := rfl
@[simp] theorem hold_setDeadlines (s : State) x (i : HoldIx) : (s.setDeadlines x).hold i = s.hold i := rfl
@[simp] theorem waitSlot_setDeadlines (s : State) x (w : WaitIx) : (s.setDeadlines x).waitSlot w = s.waitSlot w := rfl
@[simp] theorem wait_setDeadlines (s : State) x (w : WaitIx) : (s.setDeadlines x).wait w = s.wait w := rfl
@[simp] theorem session_setDeadlines (s : State) x (c : Client) : (s.setDeadlines x).session c = s.session c := rfl
@[simp] theorem link_setDeadlines (s : State) x (l : Client) : (s.setDeadlines x).link l = s.link l := rfl
@[simp] theorem record_setTimer (s : State) x (r : Slot) : (s.setTimer x).record r = s.record r := rfl
@[simp] theorem holdSlot_setTimer (s : State) x (i : HoldIx) : (s.setTimer x).holdSlot i = s.holdSlot i := rfl
@[simp] theorem hold_setTimer (s : State) x (i : HoldIx) : (s.setTimer x).hold i = s.hold i := rfl
@[simp] theorem waitSlot_setTimer (s : State) x (w : WaitIx) : (s.setTimer x).waitSlot w = s.waitSlot w := rfl
@[simp] theorem wait_setTimer (s : State) x (w : WaitIx) : (s.setTimer x).wait w = s.wait w := rfl
@[simp] theorem session_setTimer (s : State) x (c : Client) : (s.setTimer x).session c = s.session c := rfl
@[simp] theorem link_setTimer (s : State) x (l : Client) : (s.setTimer x).link l = s.link l := rfl
@[simp] theorem record_setDevice (s : State) x (r : Slot) : (s.setDevice x).record r = s.record r := rfl
@[simp] theorem holdSlot_setDevice (s : State) x (i : HoldIx) : (s.setDevice x).holdSlot i = s.holdSlot i := rfl
@[simp] theorem hold_setDevice (s : State) x (i : HoldIx) : (s.setDevice x).hold i = s.hold i := rfl
@[simp] theorem waitSlot_setDevice (s : State) x (w : WaitIx) : (s.setDevice x).waitSlot w = s.waitSlot w := rfl
@[simp] theorem wait_setDevice (s : State) x (w : WaitIx) : (s.setDevice x).wait w = s.wait w := rfl
@[simp] theorem session_setDevice (s : State) x (c : Client) : (s.setDevice x).session c = s.session c := rfl
@[simp] theorem link_setDevice (s : State) x (l : Client) : (s.setDevice x).link l = s.link l := rfl
@[simp] theorem record_setSessions (s : State) x (r : Slot) : (s.setSessions x).record r = s.record r := rfl
@[simp] theorem holdSlot_setSessions (s : State) x (i : HoldIx) : (s.setSessions x).holdSlot i = s.holdSlot i := rfl
@[simp] theorem hold_setSessions (s : State) x (i : HoldIx) : (s.setSessions x).hold i = s.hold i := rfl
@[simp] theorem waitSlot_setSessions (s : State) x (w : WaitIx) : (s.setSessions x).waitSlot w = s.waitSlot w := rfl
@[simp] theorem wait_setSessions (s : State) x (w : WaitIx) : (s.setSessions x).wait w = s.wait w := rfl
@[simp] theorem link_setSessions (s : State) x (l : Client) : (s.setSessions x).link l = s.link l := rfl
@[simp] theorem record_setLinks (s : State) x (r : Slot) : (s.setLinks x).record r = s.record r := rfl
@[simp] theorem holdSlot_setLinks (s : State) x (i : HoldIx) : (s.setLinks x).holdSlot i = s.holdSlot i := rfl
@[simp] theorem hold_setLinks (s : State) x (i : HoldIx) : (s.setLinks x).hold i = s.hold i := rfl
@[simp] theorem waitSlot_setLinks (s : State) x (w : WaitIx) : (s.setLinks x).waitSlot w = s.waitSlot w := rfl
@[simp] theorem wait_setLinks (s : State) x (w : WaitIx) : (s.setLinks x).wait w = s.wait w := rfl
@[simp] theorem session_setLinks (s : State) x (c : Client) : (s.setLinks x).session c = s.session c := rfl
@[simp] theorem record_setPurge (s : State) x (r : Slot) : (s.setPurge x).record r = s.record r := rfl
@[simp] theorem holdSlot_setPurge (s : State) x (i : HoldIx) : (s.setPurge x).holdSlot i = s.holdSlot i := rfl
@[simp] theorem hold_setPurge (s : State) x (i : HoldIx) : (s.setPurge x).hold i = s.hold i := rfl
@[simp] theorem waitSlot_setPurge (s : State) x (w : WaitIx) : (s.setPurge x).waitSlot w = s.waitSlot w := rfl
@[simp] theorem wait_setPurge (s : State) x (w : WaitIx) : (s.setPurge x).wait w = s.wait w := rfl
@[simp] theorem session_setPurge (s : State) x (c : Client) : (s.setPurge x).session c = s.session c := rfl
@[simp] theorem link_setPurge (s : State) x (l : Client) : (s.setPurge x).link l = s.link l := rfl
@[simp] theorem record_setAdmin (s : State) x (r : Slot) : (s.setAdmin x).record r = s.record r := rfl
@[simp] theorem holdSlot_setAdmin (s : State) x (i : HoldIx) : (s.setAdmin x).holdSlot i = s.holdSlot i := rfl
@[simp] theorem hold_setAdmin (s : State) x (i : HoldIx) : (s.setAdmin x).hold i = s.hold i := rfl
@[simp] theorem waitSlot_setAdmin (s : State) x (w : WaitIx) : (s.setAdmin x).waitSlot w = s.waitSlot w := rfl
@[simp] theorem wait_setAdmin (s : State) x (w : WaitIx) : (s.setAdmin x).wait w = s.wait w := rfl
@[simp] theorem session_setAdmin (s : State) x (c : Client) : (s.setAdmin x).session c = s.session c := rfl
@[simp] theorem link_setAdmin (s : State) x (l : Client) : (s.setAdmin x).link l = s.link l := rfl
@[simp] theorem record_setFlags (s : State) x (r : Slot) : (s.setFlags x).record r = s.record r := rfl
@[simp] theorem holdSlot_setFlags (s : State) x (i : HoldIx) : (s.setFlags x).holdSlot i = s.holdSlot i := rfl
@[simp] theorem hold_setFlags (s : State) x (i : HoldIx) : (s.setFlags x).hold i = s.hold i := rfl
@[simp] theorem waitSlot_setFlags (s : State) x (w : WaitIx) : (s.setFlags x).waitSlot w = s.waitSlot w := rfl
@[simp] theorem wait_setFlags (s : State) x (w : WaitIx) : (s.setFlags x).wait w = s.wait w := rfl
@[simp] theorem session_setFlags (s : State) x (c : Client) : (s.setFlags x).session c = s.session c := rfl
@[simp] theorem link_setFlags (s : State) x (l : Client) : (s.setFlags x).link l = s.link l := rfl
@[simp] theorem record_setEnables (s : State) x (r : Slot) : (s.setEnables x).record r = s.record r := rfl
@[simp] theorem holdSlot_setEnables (s : State) x (i : HoldIx) : (s.setEnables x).holdSlot i = s.holdSlot i := rfl
@[simp] theorem hold_setEnables (s : State) x (i : HoldIx) : (s.setEnables x).hold i = s.hold i := rfl
@[simp] theorem waitSlot_setEnables (s : State) x (w : WaitIx) : (s.setEnables x).waitSlot w = s.waitSlot w := rfl
@[simp] theorem wait_setEnables (s : State) x (w : WaitIx) : (s.setEnables x).wait w = s.wait w := rfl
@[simp] theorem session_setEnables (s : State) x (c : Client) : (s.setEnables x).session c = s.session c := rfl
@[simp] theorem link_setEnables (s : State) x (l : Client) : (s.setEnables x).link l = s.link l := rfl
@[simp] theorem record_setLive (s : State) x (r : Slot) : (s.setLive x).record r = s.record r := rfl
@[simp] theorem holdSlot_setLive (s : State) x (i : HoldIx) : (s.setLive x).holdSlot i = s.holdSlot i := rfl
@[simp] theorem hold_setLive (s : State) x (i : HoldIx) : (s.setLive x).hold i = s.hold i := rfl
@[simp] theorem waitSlot_setLive (s : State) x (w : WaitIx) : (s.setLive x).waitSlot w = s.waitSlot w := rfl
@[simp] theorem wait_setLive (s : State) x (w : WaitIx) : (s.setLive x).wait w = s.wait w := rfl
@[simp] theorem session_setLive (s : State) x (c : Client) : (s.setLive x).session c = s.session c := rfl
@[simp] theorem link_setLive (s : State) x (l : Client) : (s.setLive x).link l = s.link l := rfl
@[simp] theorem record_setSnapshot (s : State) x (r : Slot) : (s.setSnapshot x).record r = s.record r := rfl
@[simp] theorem holdSlot_setSnapshot (s : State) x (i : HoldIx) : (s.setSnapshot x).holdSlot i = s.holdSlot i := rfl
@[simp] theorem hold_setSnapshot (s : State) x (i : HoldIx) : (s.setSnapshot x).hold i = s.hold i := rfl
@[simp] theorem waitSlot_setSnapshot (s : State) x (w : WaitIx) : (s.setSnapshot x).waitSlot w = s.waitSlot w := rfl
@[simp] theorem wait_setSnapshot (s : State) x (w : WaitIx) : (s.setSnapshot x).wait w = s.wait w := rfl
@[simp] theorem session_setSnapshot (s : State) x (c : Client) : (s.setSnapshot x).session c = s.session c := rfl
@[simp] theorem link_setSnapshot (s : State) x (l : Client) : (s.setSnapshot x).link l = s.link l := rfl
@[simp] theorem record_setPort (s : State) x (r : Slot) : (s.setPort x).record r = s.record r := rfl
@[simp] theorem holdSlot_setPort (s : State) x (i : HoldIx) : (s.setPort x).holdSlot i = s.holdSlot i := rfl
@[simp] theorem hold_setPort (s : State) x (i : HoldIx) : (s.setPort x).hold i = s.hold i := rfl
@[simp] theorem waitSlot_setPort (s : State) x (w : WaitIx) : (s.setPort x).waitSlot w = s.waitSlot w := rfl
@[simp] theorem wait_setPort (s : State) x (w : WaitIx) : (s.setPort x).wait w = s.wait w := rfl
@[simp] theorem session_setPort (s : State) x (c : Client) : (s.setPort x).session c = s.session c := rfl
@[simp] theorem link_setPort (s : State) x (l : Client) : (s.setPort x).link l = s.link l := rfl
@[simp] theorem record_setWires (s : State) x (r : Slot) : (s.setWires x).record r = s.record r := rfl
@[simp] theorem holdSlot_setWires (s : State) x (i : HoldIx) : (s.setWires x).holdSlot i = s.holdSlot i := rfl
@[simp] theorem hold_setWires (s : State) x (i : HoldIx) : (s.setWires x).hold i = s.hold i := rfl
@[simp] theorem waitSlot_setWires (s : State) x (w : WaitIx) : (s.setWires x).waitSlot w = s.waitSlot w := rfl
@[simp] theorem wait_setWires (s : State) x (w : WaitIx) : (s.setWires x).wait w = s.wait w := rfl
@[simp] theorem session_setWires (s : State) x (c : Client) : (s.setWires x).session c = s.session c := rfl
@[simp] theorem link_setWires (s : State) x (l : Client) : (s.setWires x).link l = s.link l := rfl
@[simp] theorem record_setPins (s : State) x (r : Slot) : (s.setPins x).record r = s.record r := rfl
@[simp] theorem holdSlot_setPins (s : State) x (i : HoldIx) : (s.setPins x).holdSlot i = s.holdSlot i := rfl
@[simp] theorem hold_setPins (s : State) x (i : HoldIx) : (s.setPins x).hold i = s.hold i := rfl
@[simp] theorem waitSlot_setPins (s : State) x (w : WaitIx) : (s.setPins x).waitSlot w = s.waitSlot w := rfl
@[simp] theorem wait_setPins (s : State) x (w : WaitIx) : (s.setPins x).wait w = s.wait w := rfl
@[simp] theorem session_setPins (s : State) x (c : Client) : (s.setPins x).session c = s.session c := rfl
@[simp] theorem link_setPins (s : State) x (l : Client) : (s.setPins x).link l = s.link l := rfl
@[simp] theorem record_setPending (s : State) x (r : Slot) : (s.setPending x).record r = s.record r := rfl
@[simp] theorem holdSlot_setPending (s : State) x (i : HoldIx) : (s.setPending x).holdSlot i = s.holdSlot i := rfl
@[simp] theorem hold_setPending (s : State) x (i : HoldIx) : (s.setPending x).hold i = s.hold i := rfl
@[simp] theorem waitSlot_setPending (s : State) x (w : WaitIx) : (s.setPending x).waitSlot w = s.waitSlot w := rfl
@[simp] theorem wait_setPending (s : State) x (w : WaitIx) : (s.setPending x).wait w = s.wait w := rfl
@[simp] theorem session_setPending (s : State) x (c : Client) : (s.setPending x).session c = s.session c := rfl
@[simp] theorem link_setPending (s : State) x (l : Client) : (s.setPending x).link l = s.link l := rfl
@[simp] theorem holdSlot_setRecord (s : State) (r : Slot) x (j : HoldIx) : (s.setRecord r x).holdSlot j = s.holdSlot j := rfl
@[simp] theorem hold_setRecord (s : State) (r : Slot) x (j : HoldIx) : (s.setRecord r x).hold j = s.hold j := rfl
@[simp] theorem waitSlot_setRecord (s : State) (r : Slot) x (v : WaitIx) : (s.setRecord r x).waitSlot v = s.waitSlot v := rfl
@[simp] theorem wait_setRecord (s : State) (r : Slot) x (v : WaitIx) : (s.setRecord r x).wait v = s.wait v := rfl
@[simp] theorem session_setRecord (s : State) (r : Slot) x (d : Client) : (s.setRecord r x).session d = s.session d := rfl
@[simp] theorem link_setRecord (s : State) (r : Slot) x (k : Client) : (s.setRecord r x).link k = s.link k := rfl
@[simp] theorem record_setHoldSlot (s : State) (i : HoldIx) x (q : Slot) : (s.setHoldSlot i x).record q = s.record q := rfl
@[simp] theorem waitSlot_setHoldSlot (s : State) (i : HoldIx) x (v : WaitIx) : (s.setHoldSlot i x).waitSlot v = s.waitSlot v := rfl
@[simp] theorem wait_setHoldSlot (s : State) (i : HoldIx) x (v : WaitIx) : (s.setHoldSlot i x).wait v = s.wait v := rfl
@[simp] theorem session_setHoldSlot (s : State) (i : HoldIx) x (d : Client) : (s.setHoldSlot i x).session d = s.session d := rfl
@[simp] theorem link_setHoldSlot (s : State) (i : HoldIx) x (k : Client) : (s.setHoldSlot i x).link k = s.link k := rfl
@[simp] theorem record_setHold (s : State) (i : HoldIx) x (q : Slot) : (s.setHold i x).record q = s.record q := rfl
@[simp] theorem waitSlot_setHold (s : State) (i : HoldIx) x (v : WaitIx) : (s.setHold i x).waitSlot v = s.waitSlot v := rfl
@[simp] theorem wait_setHold (s : State) (i : HoldIx) x (v : WaitIx) : (s.setHold i x).wait v = s.wait v := rfl
@[simp] theorem session_setHold (s : State) (i : HoldIx) x (d : Client) : (s.setHold i x).session d = s.session d := rfl
@[simp] theorem link_setHold (s : State) (i : HoldIx) x (k : Client) : (s.setHold i x).link k = s.link k := rfl
@[simp] theorem record_setWaitSlot (s : State) (w : WaitIx) x (q : Slot) : (s.setWaitSlot w x).record q = s.record q := rfl
@[simp] theorem holdSlot_setWaitSlot (s : State) (w : WaitIx) x (j : HoldIx) : (s.setWaitSlot w x).holdSlot j = s.holdSlot j := rfl
@[simp] theorem hold_setWaitSlot (s : State) (w : WaitIx) x (j : HoldIx) : (s.setWaitSlot w x).hold j = s.hold j := rfl
@[simp] theorem session_setWaitSlot (s : State) (w : WaitIx) x (d : Client) : (s.setWaitSlot w x).session d = s.session d := rfl
@[simp] theorem link_setWaitSlot (s : State) (w : WaitIx) x (k : Client) : (s.setWaitSlot w x).link k = s.link k := rfl
@[simp] theorem record_setWait (s : State) (w : WaitIx) x (q : Slot) : (s.setWait w x).record q = s.record q := rfl
@[simp] theorem holdSlot_setWait (s : State) (w : WaitIx) x (j : HoldIx) : (s.setWait w x).holdSlot j = s.holdSlot j := rfl
@[simp] theorem hold_setWait (s : State) (w : WaitIx) x (j : HoldIx) : (s.setWait w x).hold j = s.hold j := rfl
@[simp] theorem session_setWait (s : State) (w : WaitIx) x (d : Client) : (s.setWait w x).session d = s.session d := rfl
@[simp] theorem link_setWait (s : State) (w : WaitIx) x (k : Client) : (s.setWait w x).link k = s.link k := rfl
@[simp] theorem record_modifySession (s : State) (c : Client) f (q : Slot) : (s.modifySession c f).record q = s.record q := rfl
@[simp] theorem holdSlot_modifySession (s : State) (c : Client) f (j : HoldIx) : (s.modifySession c f).holdSlot j = s.holdSlot j := rfl
@[simp] theorem hold_modifySession (s : State) (c : Client) f (j : HoldIx) : (s.modifySession c f).hold j = s.hold j := rfl
@[simp] theorem waitSlot_modifySession (s : State) (c : Client) f (v : WaitIx) : (s.modifySession c f).waitSlot v = s.waitSlot v := rfl
@[simp] theorem wait_modifySession (s : State) (c : Client) f (v : WaitIx) : (s.modifySession c f).wait v = s.wait v := rfl
@[simp] theorem link_modifySession (s : State) (c : Client) f (k : Client) : (s.modifySession c f).link k = s.link k := rfl
@[simp] theorem record_modifyLink (s : State) (l : Client) f (q : Slot) : (s.modifyLink l f).record q = s.record q := rfl
@[simp] theorem holdSlot_modifyLink (s : State) (l : Client) f (j : HoldIx) : (s.modifyLink l f).holdSlot j = s.holdSlot j := rfl
@[simp] theorem hold_modifyLink (s : State) (l : Client) f (j : HoldIx) : (s.modifyLink l f).hold j = s.hold j := rfl
@[simp] theorem waitSlot_modifyLink (s : State) (l : Client) f (v : WaitIx) : (s.modifyLink l f).waitSlot v = s.waitSlot v := rfl
@[simp] theorem wait_modifyLink (s : State) (l : Client) f (v : WaitIx) : (s.modifyLink l f).wait v = s.wait v := rfl
@[simp] theorem session_modifyLink (s : State) (l : Client) f (d : Client) : (s.modifyLink l f).session d = s.session d := rfl
@[simp] theorem record_modifyWire (s : State) (l : Client) f (q : Slot) : (s.modifyWire l f).record q = s.record q := rfl
@[simp] theorem holdSlot_modifyWire (s : State) (l : Client) f (j : HoldIx) : (s.modifyWire l f).holdSlot j = s.holdSlot j := rfl
@[simp] theorem hold_modifyWire (s : State) (l : Client) f (j : HoldIx) : (s.modifyWire l f).hold j = s.hold j := rfl
@[simp] theorem waitSlot_modifyWire (s : State) (l : Client) f (v : WaitIx) : (s.modifyWire l f).waitSlot v = s.waitSlot v := rfl
@[simp] theorem wait_modifyWire (s : State) (l : Client) f (v : WaitIx) : (s.modifyWire l f).wait v = s.wait v := rfl
@[simp] theorem session_modifyWire (s : State) (l : Client) f (d : Client) : (s.modifyWire l f).session d = s.session d := rfl
@[simp] theorem link_modifyWire (s : State) (l : Client) f (k : Client) : (s.modifyWire l f).link k = s.link k := rfl
@[simp] theorem record_countLink (s : State) (l : Client) f (q : Slot) : (s.countLink l f).record q = s.record q := rfl
@[simp] theorem holdSlot_countLink (s : State) (l : Client) f (j : HoldIx) : (s.countLink l f).holdSlot j = s.holdSlot j := rfl
@[simp] theorem hold_countLink (s : State) (l : Client) f (j : HoldIx) : (s.countLink l f).hold j = s.hold j := rfl
@[simp] theorem waitSlot_countLink (s : State) (l : Client) f (v : WaitIx) : (s.countLink l f).waitSlot v = s.waitSlot v := rfl
@[simp] theorem wait_countLink (s : State) (l : Client) f (v : WaitIx) : (s.countLink l f).wait v = s.wait v := rfl
@[simp] theorem session_countLink (s : State) (l : Client) f (d : Client) : (s.countLink l f).session d = s.session d := rfl
@[simp] theorem link_countLink (s : State) (l : Client) f (k : Client) : (s.countLink l f).link k = s.link k := rfl
@[simp] theorem record_countClient (s : State) (c : Client) f (q : Slot) : (s.countClient c f).record q = s.record q := rfl
@[simp] theorem holdSlot_countClient (s : State) (c : Client) f (j : HoldIx) : (s.countClient c f).holdSlot j = s.holdSlot j := rfl
@[simp] theorem hold_countClient (s : State) (c : Client) f (j : HoldIx) : (s.countClient c f).hold j = s.hold j := rfl
@[simp] theorem waitSlot_countClient (s : State) (c : Client) f (v : WaitIx) : (s.countClient c f).waitSlot v = s.waitSlot v := rfl
@[simp] theorem wait_countClient (s : State) (c : Client) f (v : WaitIx) : (s.countClient c f).wait v = s.wait v := rfl
@[simp] theorem session_countClient (s : State) (c : Client) f (d : Client) : (s.countClient c f).session d = s.session d := rfl
@[simp] theorem link_countClient (s : State) (c : Client) f (k : Client) : (s.countClient c f).link k = s.link k := rfl
@[simp] theorem record_removeEntry (s : State) (e : DeadlineRef) (q : Slot) : (s.removeEntry e).record q = s.record q := rfl
@[simp] theorem holdSlot_removeEntry (s : State) (e : DeadlineRef) (j : HoldIx) : (s.removeEntry e).holdSlot j = s.holdSlot j := rfl
@[simp] theorem hold_removeEntry (s : State) (e : DeadlineRef) (j : HoldIx) : (s.removeEntry e).hold j = s.hold j := rfl
@[simp] theorem waitSlot_removeEntry (s : State) (e : DeadlineRef) (v : WaitIx) : (s.removeEntry e).waitSlot v = s.waitSlot v := rfl
@[simp] theorem wait_removeEntry (s : State) (e : DeadlineRef) (v : WaitIx) : (s.removeEntry e).wait v = s.wait v := rfl
@[simp] theorem session_removeEntry (s : State) (e : DeadlineRef) (d : Client) : (s.removeEntry e).session d = s.session d := rfl
@[simp] theorem link_removeEntry (s : State) (e : DeadlineRef) (k : Client) : (s.removeEntry e).link k = s.link k := rfl
@[simp] theorem record_addEntry (s : State) (e : DeadlineRef) (u : Word) (q : Slot) : (s.addEntry e u).record q = s.record q := rfl
@[simp] theorem holdSlot_addEntry (s : State) (e : DeadlineRef) (u : Word) (j : HoldIx) : (s.addEntry e u).holdSlot j = s.holdSlot j := rfl
@[simp] theorem hold_addEntry (s : State) (e : DeadlineRef) (u : Word) (j : HoldIx) : (s.addEntry e u).hold j = s.hold j := rfl
@[simp] theorem waitSlot_addEntry (s : State) (e : DeadlineRef) (u : Word) (v : WaitIx) : (s.addEntry e u).waitSlot v = s.waitSlot v := rfl
@[simp] theorem wait_addEntry (s : State) (e : DeadlineRef) (u : Word) (v : WaitIx) : (s.addEntry e u).wait v = s.wait v := rfl
@[simp] theorem session_addEntry (s : State) (e : DeadlineRef) (u : Word) (d : Client) : (s.addEntry e u).session d = s.session d := rfl
@[simp] theorem link_addEntry (s : State) (e : DeadlineRef) (u : Word) (k : Client) : (s.addEntry e u).link k = s.link k := rfl
@[simp] theorem record_moveEntry (s : State) (e : DeadlineRef) (u : Word) (q : Slot) : (s.moveEntry e u).record q = s.record q := rfl
@[simp] theorem holdSlot_moveEntry (s : State) (e : DeadlineRef) (u : Word) (j : HoldIx) : (s.moveEntry e u).holdSlot j = s.holdSlot j := rfl
@[simp] theorem hold_moveEntry (s : State) (e : DeadlineRef) (u : Word) (j : HoldIx) : (s.moveEntry e u).hold j = s.hold j := rfl
@[simp] theorem waitSlot_moveEntry (s : State) (e : DeadlineRef) (u : Word) (v : WaitIx) : (s.moveEntry e u).waitSlot v = s.waitSlot v := rfl
@[simp] theorem wait_moveEntry (s : State) (e : DeadlineRef) (u : Word) (v : WaitIx) : (s.moveEntry e u).wait v = s.wait v := rfl
@[simp] theorem session_moveEntry (s : State) (e : DeadlineRef) (u : Word) (d : Client) : (s.moveEntry e u).session d = s.session d := rfl
@[simp] theorem link_moveEntry (s : State) (e : DeadlineRef) (u : Word) (k : Client) : (s.moveEntry e u).link k = s.link k := rfl
@[simp] theorem holdSlot_modifyRecord (s : State) (r : Slot) (f : Record → Record) (j : HoldIx) :
    (s.modifyRecord r f).holdSlot j = s.holdSlot j := by
  unfold State.modifyRecord; split <;> rfl
@[simp] theorem hold_modifyRecord (s : State) (r : Slot) (f : Record → Record) (j : HoldIx) :
    (s.modifyRecord r f).hold j = s.hold j := by
  unfold State.modifyRecord; split <;> rfl
@[simp] theorem waitSlot_modifyRecord (s : State) (r : Slot) (f : Record → Record) (v : WaitIx) :
    (s.modifyRecord r f).waitSlot v = s.waitSlot v := by
  unfold State.modifyRecord; split <;> rfl
@[simp] theorem wait_modifyRecord (s : State) (r : Slot) (f : Record → Record) (v : WaitIx) :
    (s.modifyRecord r f).wait v = s.wait v := by
  unfold State.modifyRecord; split <;> rfl
@[simp] theorem session_modifyRecord (s : State) (r : Slot) (f : Record → Record) (d : Client) :
    (s.modifyRecord r f).session d = s.session d := by
  unfold State.modifyRecord; split <;> rfl
@[simp] theorem link_modifyRecord (s : State) (r : Slot) (f : Record → Record) (k : Client) :
    (s.modifyRecord r f).link k = s.link k := by
  unfold State.modifyRecord; split <;> rfl
@[simp] theorem record_modifyHold (s : State) (i : HoldIx) (f : Hold → Hold) (q : Slot) :
    (s.modifyHold i f).record q = s.record q := by
  unfold State.modifyHold; split <;> rfl
@[simp] theorem waitSlot_modifyHold (s : State) (i : HoldIx) (f : Hold → Hold) (v : WaitIx) :
    (s.modifyHold i f).waitSlot v = s.waitSlot v := by
  unfold State.modifyHold; split <;> rfl
@[simp] theorem wait_modifyHold (s : State) (i : HoldIx) (f : Hold → Hold) (v : WaitIx) :
    (s.modifyHold i f).wait v = s.wait v := by
  unfold State.modifyHold; split <;> rfl
@[simp] theorem session_modifyHold (s : State) (i : HoldIx) (f : Hold → Hold) (d : Client) :
    (s.modifyHold i f).session d = s.session d := by
  unfold State.modifyHold; split <;> rfl
@[simp] theorem link_modifyHold (s : State) (i : HoldIx) (f : Hold → Hold) (k : Client) :
    (s.modifyHold i f).link k = s.link k := by
  unfold State.modifyHold; split <;> rfl

end Sys2Proof.Machine
end

