-- ==== Sys2Proof/Laws/Clock.lean ====
section
/-! SUPPORT. What a step can do, and what a clock leaves as it was: only the wires, the running gaps, the transmit lines, the port and
the queue change. -/

namespace Sys2Proof.Machine

open Sys2Proof

/-! ### A step -/

/-- A step runs the front command, or a clock passes. -/
theorem step_cases {s t : State} (h : step s = .next t) :
    (∃ c rest, s.pending = c :: rest ∧ exec c (s.setPending rest) = .next t) ∨ s.pending = [] ∧ t = s.clockPasses := by
  unfold step at h
  split at h
  · exact .inl ⟨_, _, ‹_›, h⟩
  · exact .inr ⟨‹_›, by cases h; rfl⟩

/-! ### Fields after a clock -/

@[simp] theorem clockPasses_records (s : State) : s.clockPasses.records = s.records := rfl
@[simp] theorem clockPasses_hashSeed (s : State) : s.clockPasses.hashSeed = s.hashSeed := rfl
@[simp] theorem clockPasses_closing (s : State) : s.clockPasses.closing = s.closing := rfl
@[simp] theorem clockPasses_holds (s : State) : s.clockPasses.holds = s.holds := rfl
@[simp] theorem clockPasses_holdCounts (s : State) : s.clockPasses.holdCounts = s.holdCounts := rfl
@[simp] theorem clockPasses_waits (s : State) : s.clockPasses.waits = s.waits := rfl
@[simp] theorem clockPasses_fence (s : State) : s.clockPasses.fence = s.fence := rfl
@[simp] theorem clockPasses_arrival (s : State) : s.clockPasses.arrival = s.arrival := rfl
@[simp] theorem clockPasses_deadlines (s : State) : s.clockPasses.deadlines = s.deadlines := rfl
@[simp] theorem clockPasses_timer (s : State) : s.clockPasses.timer = s.timer := rfl
@[simp] theorem clockPasses_device (s : State) : s.clockPasses.device = s.device := rfl
@[simp] theorem clockPasses_sessions (s : State) : s.clockPasses.sessions = s.sessions := rfl
@[simp] theorem clockPasses_purge (s : State) : s.clockPasses.purge = s.purge := rfl
@[simp] theorem clockPasses_admin (s : State) : s.clockPasses.admin = s.admin := rfl
@[simp] theorem clockPasses_flags (s : State) : s.clockPasses.flags = s.flags := rfl
@[simp] theorem clockPasses_enables (s : State) : s.clockPasses.enables = s.enables := rfl
@[simp] theorem clockPasses_live (s : State) : s.clockPasses.live = s.live := rfl
@[simp] theorem clockPasses_snapshot (s : State) : s.clockPasses.snapshot = s.snapshot := rfl
@[simp] theorem clockPasses_pins (s : State) : s.clockPasses.pins = s.pins := rfl

@[simp] theorem clockPasses_wires (s : State) : s.clockPasses.wires = s.clockedWires := rfl
@[simp] theorem clockPasses_pending (s : State) : s.clockPasses.pending = s.pending ++ s.clockedCommands := rfl
@[simp] theorem clockPasses_port (s : State) : s.clockPasses.port = s.port.see s.pins.chipSelect := rfl

@[simp] theorem record_clockPasses (s : State) (r : Slot) : s.clockPasses.record r = s.record r := rfl
@[simp] theorem holdSlot_clockPasses (s : State) (i : HoldIx) : s.clockPasses.holdSlot i = s.holdSlot i := rfl
@[simp] theorem hold_clockPasses (s : State) (i : HoldIx) : s.clockPasses.hold i = s.hold i := rfl
@[simp] theorem waitSlot_clockPasses (s : State) (w : WaitIx) : s.clockPasses.waitSlot w = s.waitSlot w := rfl
@[simp] theorem wait_clockPasses (s : State) (w : WaitIx) : s.clockPasses.wait w = s.wait w := rfl
@[simp] theorem session_clockPasses (s : State) (c : Client) : s.clockPasses.session c = s.session c := rfl

@[simp] theorem link_clockPasses (s : State) (l : Client) :
    s.clockPasses.link l = { s.link l with
      receiver := (s.link l).receiver.gapPasses, tx := ((s.link l).tx.clock (s.link l)).1 } := by
  show (s.links.map _)[l] = _
  simp [State.link]

@[simp] theorem wires_links_clockPasses (s : State) (l : Client) : s.clockedWires.links[l] = (s.linkClock l).1 := by
  simp [State.clockedWires]

/-! ### The running gap -/

@[simp] theorem gapPasses_eq_stopped (r : Receiver) : r.gapPasses = .stopped ↔ r = .stopped := by
  cases r <;> simp [Receiver.gapPasses]

@[simp] theorem gapPasses_eq_idle (r : Receiver) : r.gapPasses = .idle ↔ r = .idle := by
  cases r <;> simp [Receiver.gapPasses]

@[simp] theorem gapPasses_eq_hunt (r : Receiver) : r.gapPasses = .hunt ↔ r = .hunt := by
  cases r <;> simp [Receiver.gapPasses]

/-- A message that is being assembled keeps its characters, and its gap only grows. -/
theorem gapPasses_inMessage {r : Receiver} {chars : List Byte} {g : Gap} (h : r.gapPasses = .inMessage chars g) :
    ∃ n, r = .inMessage chars { g with elapsed := n } ∧ g.elapsed = n + 1 := by
  cases r with
  | inMessage cs e => cases h; exact ⟨e.elapsed, rfl, rfl⟩
  | idle => cases h
  | hunt => cases h
  | stopped => cases h

end Sys2Proof.Machine
end

