-- ==== Sys2Proof/Laws/Grant.lean ====
section
/-! SUPPORT. What the shared operations of the Grant Engine do, field by field, said once: the flags' tests (R173, R174), the fence
counter (R48), the making of a hold (R36, R44), of a wait (R37, R42) and of an upgrade (R42, R46), and the leaving of a wait
(R40). -/

namespace Sys2Proof.Machine

theorem raise_eq (s : State) (f : EventFlag) : s.raise f = { s with flags := s.flags ||| f.mask } := rfl

theorem modifyRecord_eq (s : State) (r : Slot) (x : Record) (f : Record → Record) (h : s.record r = some x) :
    s.modifyRecord r f = { s with records := s.records.set r (some (f x)) } := by
  unfold State.modifyRecord
  rw [h]
  rfl

theorem modifyHold_eq (s : State) (i : HoldIx) (x : Hold) (f : Hold → Hold) (h : s.hold i = some x) :
    s.modifyHold i f = { s with holds := s.holds.set i ⟨(s.holdSlot i).generation, some (f x)⟩ } := by
  unfold State.modifyHold
  rw [h]
  rfl

/-- R48, R173. -/
theorem advanceFence_eq (s : State) : s.advanceFence =
    { s with
      fence := if s.fence.next = BitVec.allOnes 48 then ⟨s.fence.next, true⟩ else ⟨s.fence.next + 1, s.fence.exhausted⟩
      flags := s.flags ||| (if s.fence.next = BitVec.allOnes 48 then EventFlag.fenceExhausted.mask else 0) } := by
  unfold State.advanceFence Config.lastFence
  split <;> simp_all [State.setFence, State.raise, State.setFlags]

/-- R174. -/
theorem testHoldMark_eq (s : State) (n : Nat) : s.testHoldMark n =
    { s with flags := s.flags |||
        (if s.device.holdLowMark.toNat ≤ n ∧ s.holdCounts.free < s.device.holdLowMark.toNat
         then EventFlag.holdPoolLow.mask else 0) } := by
  unfold State.testHoldMark crosses
  by_cases h : s.device.holdLowMark.toNat ≤ n ∧ s.holdCounts.free < s.device.holdLowMark.toNat
  · simp [h, raise_eq]
  · rw [if_neg h, if_neg (by simpa using h)]; simp

/-- R174. -/
theorem testWaitMark_eq (s : State) (n : Nat) : s.testWaitMark n =
    { s with flags := s.flags |||
        (if s.device.waitLowMark.toNat ≤ n ∧ s.freeWaitCount < s.device.waitLowMark.toNat
         then EventFlag.waitPoolLow.mask else 0) } := by
  unfold State.testWaitMark crosses
  by_cases h : s.device.waitLowMark.toNat ≤ n ∧ s.freeWaitCount < s.device.waitLowMark.toNat
  · simp [h, raise_eq]
  · rw [if_neg h, if_neg (by simpa using h)]; simp

/-- R28: filling a FREE wait slot takes one from the free count. -/
theorem freeWaitCount_fill (s : State) (w : WaitIx) (h : s.wait w = none) (g : Byte) (y : Wait) :
    ((List.finRange 128).countP fun v => (State.wait { s with waits := s.waits.set w ⟨g, some y⟩ } v).isNone) =
      s.freeWaitCount - 1 := by
  have e : ∀ v, State.wait { s with waits := s.waits.set w ⟨g, some y⟩ } v = if v = w then some y else s.wait v := by
    intro v
    have := getElem_set_fin s.waits w v ⟨g, some y⟩
    unfold State.wait State.waitSlot
    rw [this]
    by_cases hv : w = v
    · subst hv; simp
    · have h' : ¬v = w := fun h => hv h.symm
      simp [hv, h']
  simp only [e]
  unfold State.freeWaitCount
  have hn : (List.finRange 128).Nodup := List.nodup_finRange 128
  have hp := List.perm_cons_erase (List.mem_finRange w)
  rw [List.Perm.countP_eq _ hp, List.Perm.countP_eq _ hp]
  have hx : w ∉ (List.finRange 128).erase w := fun hh => absurd rfl ((List.Nodup.mem_erase_iff hn).1 hh).1
  simp only [List.countP_cons, h]
  simp only [if_true, Option.isNone_some, Option.isNone_none, Bool.false_eq_true, if_false, Nat.add_zero,
    Nat.add_sub_cancel]
  apply List.countP_congr
  intro v hv
  have : v ≠ w := fun h => hx (h ▸ hv)
  simp [this]

/-- R36, R44, R48: everything that the making of a hold does. -/
theorem openHold_eq (s : State) (i : HoldIx) (c : Client) (r : Slot) (m : Mode) (term : Half) (x : Record)
    (hx : s.record r = some x) : s.openHold i c r m term =
    { s with
      holds := s.holds.set i ⟨(s.holdSlot i).generation + 1,
        some ⟨.active, c, r, m, s.fence.next, s.timer.clock + term.setWidth 32, none⟩⟩
      records := s.records.set r (some { x with
        holders := x.holders ++ [i], lastFence := s.fence.next, idleDeadline := none })
      fence := if s.fence.next = BitVec.allOnes 48 then ⟨s.fence.next, true⟩ else ⟨s.fence.next + 1, s.fence.exhausted⟩
      deadlines := (insertEntry s.timer.clock ⟨.hold i, s.timer.clock + term.setWidth 32, false⟩ s.deadlines).filter
        fun e => e.ref != .record r
      flags := s.flags ||| (if s.fence.next = BitVec.allOnes 48 then EventFlag.fenceExhausted.mask else 0) } := by
  unfold State.openHold State.clearIdle
  have hx' : s.records[r] = some x := hx
  simp only [advanceFence_eq, State.modifyRecord, State.setHoldSlot, State.record, State.setHolds, State.addEntry,
    State.setDeadlines, State.setRecord, State.setRecords, State.removeEntry, hx', Fin.getElem_fin,
    Vector.getElem_set_self, Vector.set_set]
  rfl

/-- R32, R33, R37, R42, R174: everything that the filling of a wait slot does. -/
theorem openWait_eq (s : State) (w : WaitIx) (y : Wait) (place : List WaitIx → List WaitIx) (x : Record)
    (hw : s.wait w = none) (hx : s.record y.slot = some x) : s.openWait w y place =
    { s with
      waits := s.waits.set w ⟨(s.waitSlot w).generation + 1, some { y with arrival := s.arrival }⟩
      arrival := s.arrival + 1
      records := s.records.set y.slot (some { x with waitQueue := place x.waitQueue, idleDeadline := none })
      deadlines := (insertEntry s.timer.clock ⟨.wait w, y.deadline, false⟩ s.deadlines).filter
        fun e => e.ref != .record y.slot
      sessions := s.sessions.set y.client { s.session y.client with waitCount := (s.session y.client).waitCount + 1 }
      flags := s.flags |||
        (if s.device.waitLowMark.toNat ≤ s.freeWaitCount ∧ s.freeWaitCount - 1 < s.device.waitLowMark.toNat
         then EventFlag.waitPoolLow.mask else 0) } := by
  unfold State.openWait State.clearIdle
  have hx' : s.records[y.slot] = some x := hx
  have key := freeWaitCount_fill s w hw ((s.waitSlot w).generation + 1) { y with arrival := s.arrival }
  rw [testWaitMark_eq, ← key]
  simp only [State.modifyRecord, State.setWaitSlot, State.setWaits, State.setArrival, State.record, State.addEntry,
    State.setDeadlines, State.setRecord, State.setRecords, State.removeEntry, hx', Fin.getElem_fin,
    Vector.getElem_set_self, Vector.set_set]
  rfl

/-- R39 step 3, R40 steps 1 to 3: everything that the leaving of a wait does. -/
theorem dropWait_eq (s : State) (w : WaitIx) (y : Wait) (x : Record) (hx : s.record y.slot = some x) : s.dropWait w y =
    { s with
      records := s.records.set y.slot (some { x with waitQueue := x.waitQueue.filter (· != w) })
      deadlines := s.deadlines.filter fun e => e.ref != .wait w
      waits := s.waits.set w ⟨(s.waitSlot w).generation, none⟩
      sessions := s.sessions.set y.client { s.session y.client with
        waitCount := (s.session y.client).waitCount - 1 } } := by
  unfold State.dropWait
  rw [modifyRecord_eq _ _ _ _ hx]
  rfl

/-- R24, R55, R57: a hold's deadline moves with its entry. -/
theorem setHoldDeadline_eq (s : State) (i : HoldIx) (h : Hold) (d : Word) (hh : s.hold i = some h) :
    s.setHoldDeadline i d =
    { s with
      holds := s.holds.set i ⟨(s.holdSlot i).generation, some { h with deadline := d }⟩
      deadlines := insertEntry s.timer.clock ⟨.hold i, d, false⟩ (s.deadlines.filter fun e => e.ref != .hold i) } := by
  unfold State.setHoldDeadline
  rw [modifyHold_eq _ _ h _ hh]
  rfl

/-- R42, R46: everything that an upgrade does. -/
theorem upgrade_eq (s : State) (i : HoldIx) (r : Slot) (term : Half) (h : Hold) (x : Record) (hh : s.hold i = some h)
    (hx : s.record r = some x) : s.upgrade i r term =
    { s with
      holds := s.holds.set i ⟨(s.holdSlot i).generation, some { h with
        mode := .exclusive, fence := s.fence.next, deadline := s.timer.clock + term.setWidth 32, conversion := none }⟩
      records := s.records.set r (some { x with lastFence := s.fence.next })
      fence := if s.fence.next = BitVec.allOnes 48 then ⟨s.fence.next, true⟩ else ⟨s.fence.next + 1, s.fence.exhausted⟩
      deadlines := insertEntry s.timer.clock ⟨.hold i, s.timer.clock + term.setWidth 32, false⟩
        (s.deadlines.filter fun e => e.ref != .hold i)
      flags := s.flags ||| (if s.fence.next = BitVec.allOnes 48 then EventFlag.fenceExhausted.mask else 0) } := by
  unfold State.upgrade
  dsimp only
  rw [modifyHold_eq _ _ h _ hh, setHoldDeadline_eq (h := { h with
    mode := .exclusive, fence := s.fence.next, conversion := none })]
  · rw [modifyRecord_eq (x := x)]
    · simp only [advanceFence_eq, State.holdSlot, Fin.getElem_fin, Vector.getElem_set_self, Vector.set_set]
      rfl
    · exact hx
  · simp [State.hold, State.holdSlot]

end Sys2Proof.Machine
end

