-- ==== Sys2Proof/Laws/Requests.lean ====
section
/-! SUPPORT. What the take and the gate of a request can do (R85 to R88, R143), said once: `exec_row` for a request that is taken,
`exec_admits` for one that passes, and the fields that `taken` and `admitted` keep. -/

namespace Sys2Proof.Machine

open Sys2Proof

/-! ### The take (R143) -/

theorem freeSlot_eq_some (k : Link) (i : Fin 4) :
    k.freeSlot = some i ↔ k.slots[i] = .free ∧ ∀ j : Fin 4, j < i → k.slots[j] ≠ .free := by
  unfold Link.freeSlot
  rw [List.find?_eq_some_iff_getElem]
  constructor
  · rintro ⟨h, n, hn, he, hlt⟩
    refine ⟨by simpa using h, fun j hj => ?_⟩
    have h4 : n < 4 := by simpa using hn
    simp only [List.getElem_finRange, Fin.cast_mk] at he
    subst he
    have := hlt j.val hj
    simpa using this
  · rintro ⟨h, h2⟩
    refine ⟨by simpa using h, i.val, by simp, by simp, fun j hj => ?_⟩
    have := h2 ⟨j, by omega⟩ hj
    simpa using this

theorem takable_eq_some (k : Link) (m : RxMessage) (i : Fin 4) :
    k.takable = some (m, i) ↔
      k.enabled = true ∧ k.inProgress = none ∧ k.rxQueue.head? = some m ∧ k.freeSlot = some i := by
  unfold Link.takable
  split
  · rename_i h
    split
    · rename_i m' q i' hq hi
      simp [h, hq, hi]
    · rename_i hne
      simp only [reduceCtorEq, false_iff]
      rintro ⟨-, -, h1, h2⟩
      cases hq : k.rxQueue with
      | nil => simp [hq] at h1
      | cons a b => exact hne a b i hq h2
  · rename_i h
    simp only [reduceCtorEq, false_iff]
    rintro ⟨h1, h2, -, -⟩
    exact h ⟨h1, h2⟩

theorem takable_takes (s : State) (l : Client) (m : RxMessage) (i : Fin 4) :
    (s.link l).takable = some (m, i) ↔ Takes s l m i := by
  rw [takable_eq_some, freeSlot_eq_some]

/-- A take of a message of the kind hands it over in the state `taken`. -/
theorem take_of_takes {s : State} {l : Client} {m : RxMessage} {i : Fin 4} {k : Option RequestKind}
    (act : RxMessage → State → State) (h : Takes s l m i) (hk : m.requestKind = k) :
    s.take l k act = act m (s.taken l i) := by
  unfold State.take
  rw [(takable_takes s l m i).2 h]
  simp only [hk, if_true]
  rfl

/-- When the link takes nothing, or a message of another kind, nothing happens. -/
theorem take_of_not {s : State} {l : Client} {k : Option RequestKind} (act : RxMessage → State → State)
    (h : ∀ m i, Takes s l m i → m.requestKind ≠ k) : s.take l k act = s := by
  unfold State.take
  split
  · rename_i m i hm
    rw [if_neg (h m i ((takable_takes ..).1 hm))]
  · rfl

/-! ### What `taken` and `admitted` keep -/

@[simp] theorem session_taken (s : State) (l : Client) (i : Fin 4) (c : Client) :
    (s.taken l i).session c = s.session c := rfl

theorem session_admitted (s : State) (l : Client) (k : RequestKind) (i : Fin 4) (c : Client) :
    (s.admitted l k i).session c = if c = l then (s.session l).spend k else s.session c := by
  simp [State.admitted, eq_comm]

@[simp] theorem spend_state (x : Session) (k : RequestKind) : (x.spend k).state = x.state := by
  unfold Session.spend; split <;> rfl
@[simp] theorem spend_tag (x : Session) (k : RequestKind) : (x.spend k).tag = x.tag := by
  unfold Session.spend; split <;> rfl
@[simp] theorem spend_defaultTerm (x : Session) (k : RequestKind) : (x.spend k).defaultTerm = x.defaultTerm := by
  unfold Session.spend; split <;> rfl
@[simp] theorem spend_domainMask (x : Session) (k : RequestKind) : (x.spend k).domainMask = x.domainMask := by
  unfold Session.spend; split <;> rfl
@[simp] theorem spend_holdQuota (x : Session) (k : RequestKind) : (x.spend k).holdQuota = x.holdQuota := by
  unfold Session.spend; split <;> rfl
@[simp] theorem spend_holdCount (x : Session) (k : RequestKind) : (x.spend k).holdCount = x.holdCount := by
  unfold Session.spend; split <;> rfl
@[simp] theorem spend_waitQuota (x : Session) (k : RequestKind) : (x.spend k).waitQuota = x.waitQuota := by
  unfold Session.spend; split <;> rfl
@[simp] theorem spend_waitCount (x : Session) (k : RequestKind) : (x.spend k).waitCount = x.waitCount := by
  unfold Session.spend; split <;> rfl
@[simp] theorem spend_mayCreate (x : Session) (k : RequestKind) : (x.spend k).mayCreate = x.mayCreate := by
  unfold Session.spend; split <;> rfl
@[simp] theorem spend_guard (x : Session) (k : RequestKind) : (x.spend k).guardCapability = x.guardCapability := by
  unfold Session.spend; split <;> rfl

@[simp] theorem admitted_state (s : State) (l k i c) : ((s.admitted l k i).session c).state = (s.session c).state := by
  rw [session_admitted]; split <;> simp_all
@[simp] theorem admitted_tag (s : State) (l k i c) : ((s.admitted l k i).session c).tag = (s.session c).tag := by
  rw [session_admitted]; split <;> simp_all
@[simp] theorem admitted_defaultTerm (s : State) (l k i c) :
    ((s.admitted l k i).session c).defaultTerm = (s.session c).defaultTerm := by
  rw [session_admitted]; split <;> simp_all
@[simp] theorem admitted_domainMask (s : State) (l k i c) :
    ((s.admitted l k i).session c).domainMask = (s.session c).domainMask := by
  rw [session_admitted]; split <;> simp_all
@[simp] theorem admitted_holdQuota (s : State) (l k i c) :
    ((s.admitted l k i).session c).holdQuota = (s.session c).holdQuota := by
  rw [session_admitted]; split <;> simp_all
@[simp] theorem admitted_holdCount (s : State) (l k i c) :
    ((s.admitted l k i).session c).holdCount = (s.session c).holdCount := by
  rw [session_admitted]; split <;> simp_all
@[simp] theorem admitted_waitQuota (s : State) (l k i c) :
    ((s.admitted l k i).session c).waitQuota = (s.session c).waitQuota := by
  rw [session_admitted]; split <;> simp_all
@[simp] theorem admitted_waitCount (s : State) (l k i c) :
    ((s.admitted l k i).session c).waitCount = (s.session c).waitCount := by
  rw [session_admitted]; split <;> simp_all
@[simp] theorem admitted_mayCreate (s : State) (l k i c) :
    ((s.admitted l k i).session c).mayCreate = (s.session c).mayCreate := by
  rw [session_admitted]; split <;> simp_all
@[simp] theorem admitted_guard (s : State) (l k i c) :
    ((s.admitted l k i).session c).guardCapability = (s.session c).guardCapability := by
  rw [session_admitted]; split <;> simp_all

@[simp] theorem admitted_hashSeed (s : State) (l k i) : (s.admitted l k i).hashSeed = s.hashSeed := rfl
@[simp] theorem admitted_timer (s : State) (l k i) : (s.admitted l k i).timer = s.timer := rfl
@[simp] theorem admitted_now (s : State) (l k i) : (s.admitted l k i).now = s.timer.clock := rfl
@[simp] theorem admitted_device (s : State) (l k i) : (s.admitted l k i).device = s.device := rfl
@[simp] theorem admitted_fence (s : State) (l k i) : (s.admitted l k i).fence = s.fence := rfl
@[simp] theorem admitted_deadlines (s : State) (l k i) : (s.admitted l k i).deadlines = s.deadlines := rfl
@[simp] theorem admitted_record (s : State) (l k i) (r : Slot) : (s.admitted l k i).record r = s.record r := rfl
@[simp] theorem admitted_hold (s : State) (l k i) (j : HoldIx) : (s.admitted l k i).hold j = s.hold j := rfl
@[simp] theorem admitted_holdSlot (s : State) (l k i) (j : HoldIx) : (s.admitted l k i).holdSlot j = s.holdSlot j := rfl
@[simp] theorem admitted_wait (s : State) (l k i) (w : WaitIx) : (s.admitted l k i).wait w = s.wait w := rfl
@[simp] theorem admitted_waitSlot (s : State) (l k i) (w : WaitIx) : (s.admitted l k i).waitSlot w = s.waitSlot w := rfl
@[simp] theorem admitted_isClosing (s : State) (l k i d) : (s.admitted l k i).isClosing d = s.isClosing d := rfl
@[simp] theorem admitted_lookup (s : State) (l k i key) : (s.admitted l k i).lookup key = s.lookup key := rfl
@[simp] theorem admitted_placeFor (s : State) (l k i key) : (s.admitted l k i).placeFor key = s.placeFor key := rfl
@[simp] theorem admitted_availableHold (s : State) (l k i) : (s.admitted l k i).availableHold = s.availableHold := rfl
@[simp] theorem admitted_holdOf (s : State) (l k i c x) : (s.admitted l k i).holdOf c x = s.holdOf c x := rfl
@[simp] theorem admitted_waitOf (s : State) (l k i c x) : (s.admitted l k i).waitOf c x = s.waitOf c x := rfl
@[simp] theorem admitted_recordMode (s : State) (l k i x) : (s.admitted l k i).recordMode x = s.recordMode x := rfl
@[simp] theorem admitted_holdHandle (s : State) (l k i j) : (s.admitted l k i).holdHandle j = s.holdHandle j := rfl
@[simp] theorem admitted_waitHandle (s : State) (l k i w) : (s.admitted l k i).waitHandle w = s.waitHandle w := rfl
@[simp] theorem admitted_ownNamedHold (s : State) (l k i c b g) :
    (s.admitted l k i).ownNamedHold c b g = s.ownNamedHold c b g := rfl
@[simp] theorem admitted_ownNamedWait (s : State) (l k i c b g) :
    (s.admitted l k i).ownNamedWait c b g = s.ownNamedWait c b g := rfl

@[simp] theorem admitted_clampTerm (s : State) (l k i c x t) : (s.admitted l k i).clampTerm c x t = s.clampTerm c x t := by
  unfold State.clampTerm
  rw [admitted_defaultTerm]
  rfl

@[simp] theorem admitted_allows (s : State) (l k i c key) :
    (s.admitted l k i).allows c key = (s.session c).domainMask.getLsbD (domainOf key).toNat := by
  simp [State.allows]

@[simp] theorem admitted_atHoldQuota (s : State) (l k i c) :
    (s.admitted l k i).atHoldQuota c = decide ((s.session c).holdQuota.toNat * 4 ≤ (s.session c).holdCount) := by
  simp [State.atHoldQuota]

/-! ### The gate (R85 to R88) -/

/-- A request that passes the gate is decided in the state `admitted`. -/
theorem gated_of_admits {s : State} {l : Client} {k : RequestKind} {m : RxMessage} {i : Fin 4} (act : State → State)
    (h : Admits s l k m i) : (s.taken l i).gated l k (m.asksNewClaim k) m act = act (s.admitted l k i) := by
  unfold State.gated
  rw [session_taken, h.2.2.2]
  rfl

/-- A request that the gate refuses is refused. -/
theorem gated_of_refusal {s : State} {l : Client} {k : RequestKind} {m : RxMessage} {i : Fin 4} {r : Reply}
    (act : State → State) (h : gateRefusal (s.session l) k (m.asksNewClaim k) m.sessionTag = some r) :
    (s.taken l i).gated l k (m.asksNewClaim k) m act = (s.taken l i).refuse l m.requestTag r := by
  unfold State.gated
  rw [session_taken, h]

/-! ### Bodies (R94, R100, R179) -/

theorem modeOfByte_eq_none (b : Byte) : modeOfByte b = none ↔ ¬(b = 1 ∨ b = 2) := by
  unfold modeOfByte; split <;> (try split) <;> simp_all

theorem modeOfByte_eq_some (b : Byte) (m : Mode) :
    modeOfByte b = some m ↔ b = 1 ∧ m = .shared ∨ b = 2 ∧ m = .exclusive := by
  unfold modeOfByte; split <;> (try split) <;> simp_all [eq_comm]

theorem fieldsGood_acquire (m : RxMessage) : m.fieldsGood .acquire = m.acquireBody.isSome := by
  unfold RxMessage.fieldsGood RxMessage.acquireBody
  cases h : modeOfByte (m.body 4) with
  | none => have := (modeOfByte_eq_none _).1 h; simp_all
  | some a =>
    have h2 : (m.body 4 == 1 || m.body 4 == 2) = true := by
      rcases (modeOfByte_eq_some _ _).1 h with h | h <;> simp [h]
    simp only [h2]
    split <;> simp_all

theorem fieldsGood_convert (m : RxMessage) : m.fieldsGood .convert = m.convertBody.isSome := by
  unfold RxMessage.fieldsGood RxMessage.convertBody
  cases h : modeOfByte (m.body 2) with
  | none => have := (modeOfByte_eq_none _).1 h; simp_all
  | some a => rcases (modeOfByte_eq_some _ _).1 h with h | h <;> simp [h]

theorem asksNewClaim_convert {m : RxMessage} {b : ConvertBody} (h : m.convertBody = some b) :
    m.asksNewClaim .convert = decide (b.target = .exclusive) := by
  unfold RxMessage.convertBody at h
  cases h' : modeOfByte (m.body 2) with
  | none => simp [h'] at h
  | some a =>
    simp [h'] at h
    subst h
    rcases (modeOfByte_eq_some _ _).1 h' with ⟨h, rfl⟩ | ⟨h, rfl⟩ <;> simp [RxMessage.asksNewClaim, h]

/-! ### The rows of the requests -/

/-- What follows the gate, by the kind of the request (R91 to R109). -/
def RequestKind.decision (k : RequestKind) (l : Client) (m : RxMessage) (u : State) : State :=
  match k with
  | .attach => u.decideAttach l m.requestTag (m.body 0)
  | .detach => u.enterPurging l .detached none (some ⟨.detach, m.requestTag⟩)
  | .ping => u.respond l m.requestTag (.pong [m.body 0, m.body 1, m.body 2, m.body 3] (u.session l).state u.now)
  | .acquire =>
    match m.acquireBody with
    | some b => u.decideAcquire l m.requestTag b
    | none => u
  | .convert =>
    match m.convertBody with
    | some b => u.decideConvert l m.requestTag b
    | none => u
  | .renew =>
    match u.ownNamedHold l (m.body 0) (m.body 1) with
    | none => u.refuse l m.requestTag .badHandle
    | some (i, h) =>
      match u.record h.slot with
      | some x => u.renewHold l m.requestTag i x (m.half 2)
      | none => u.refuse l m.requestTag .badHandle
  | .release =>
    match u.ownNamedHold l (m.body 0) (m.body 1) with
    | none => u.refuse l m.requestTag .badHandle
    | some (i, h) => u.releaseHold l m.requestTag i h
  | .cancel =>
    match u.ownNamedWait l (m.body 0) (m.body 1) with
    | none => u.refuse l m.requestTag .badHandle
    | some (w, y) => u.cancelNamed l m.requestTag w y
  | .query =>
    if u.allows l (m.word 0) = false then u.refuse l m.requestTag .domain
    else u.respond l m.requestTag (u.queryReply l (m.word 0))
  | .validate => u.decideValidate l m.requestTag (m.word 0) (m.fence 4)

/-- Everything that the row of a request does when its link takes a message of the kind. -/
theorem exec_row (s : State) (l : Client) (k : RequestKind) (m : RxMessage) (i : Fin 4) (h : Takes s l m i)
    (hk : m.requestKind = some k) :
    exec (k.row l) s = .next
      (if m.fieldsGood k then (s.taken l i).gated l k (m.asksNewClaim k) m (k.decision l m)
       else (s.taken l i).refuse l m.requestTag .malformed) := by
  cases k <;>
    simp only [RequestKind.row, exec, execAttach, execDetach, execPing, execAcquire, execConvert, execRenew, execRelease,
      execCancel, execQuery, execValidate] <;>
    rw [take_of_takes _ h hk]
  case attach => by_cases h0 : m.body 0 = 0 <;> (simp [RxMessage.fieldsGood, h0]; try rfl)
  case acquire =>
    rw [fieldsGood_acquire]
    have e : ∀ u : State, RequestKind.decision .acquire l m u =
      match m.acquireBody with
      | some b => u.decideAcquire l m.requestTag b
      | none => u := fun _ => rfl
    cases hb : m.acquireBody with
    | none => rfl
    | some b => simp [funext e, hb, RxMessage.asksNewClaim]
  case convert =>
    rw [fieldsGood_convert]
    have e : ∀ u : State, RequestKind.decision .convert l m u =
      match m.convertBody with
      | some b => u.decideConvert l m.requestTag b
      | none => u := fun _ => rfl
    cases hb : m.convertBody with
    | none => rfl
    | some b => simp [funext e, hb, asksNewClaim_convert hb]
  all_goals rfl

/-- The row of an admitted request runs its decision. -/
theorem exec_admits {s : State} {l : Client} {k : RequestKind} {m : RxMessage} {i : Fin 4} (h : Admits s l k m i) :
    exec (k.row l) s = .next (k.decision l m (s.admitted l k i)) := by
  rw [exec_row s l k m i h.1 h.2.1, if_pos h.2.2.1, gated_of_admits _ h]

end Sys2Proof.Machine
end

