-- ==== Sys2Proof/Tests/Slice0.lean ====
section
/-! SUPPORT. Tests: the checks of WellFormed on ill-formed commands, single steps on small states with results read from the spec, and
a concrete state and operands for the hypotheses of each statement. -/

namespace Sys2Proof.Tests

set_option Elab.async false

open Sys2Proof Sys2Proof.Machine

/-! ### WellFormed refuses -/

theorem test_wf_length_in_range : (Instr.framing 0 (.length 5)).wellFormed = false := by decide
theorem test_wf_length_bounds : (Instr.framing 0 (.length 2)).wellFormed = false ∧
    (Instr.framing 0 (.length 20)).wellFormed = false ∧ (Instr.framing 0 (.length 1)).wellFormed = true ∧
    (Instr.framing 0 (.length 21)).wellFormed = true := by decide
theorem test_wf_flags_word : (Instr.settingWrite 0x0500 1).wellFormed = false := by decide
theorem test_wf_enables_word : (Instr.settingWrite 0x0501 1).wellFormed = false := by decide
theorem test_wf_link_enable_word : (Instr.settingWrite 0x0270 1).wellFormed = false ∧
    (Instr.settingWrite 0x0280 1).wellFormed = true := by decide

/-! ### Small states -/

/-- The state after a command. -/
def run (c : Instr) (s : State) : State :=
  match exec c s with
  | .next t => t
  | .fault _ => s
  | .refused _ => s

/-- A request of a kind, with its request tag, its session tag and its body. -/
def msg (k : RequestKind) (tag sessionTag : Byte) (body : List Byte) : RxMessage :=
  ⟨k.code, k.length, [tag, sessionTag] ++ body⟩

/-- The state with one message in the receive queue of a link. -/
def heard (l : Client) (m : RxMessage) (s : State) : State := s.modifyLink l fun k => { k with rxQueue := [m] }

/-- The reply that link l is sending. -/
def sent (l : Client) (s : State) : Option Reply :=
  match (s.link l).inFlight with
  | some (.response _ r) => some r.reply
  | _ => none

/-- The notice that link l is sending. -/
def noticed (l : Client) (s : State) : Option NoticeBody :=
  match (s.link l).inFlight with
  | some (.notice n) => some n.body
  | _ => none

/-- An ACTIVE session under tag 7, with these counts. -/
def opened (holds waits : Nat) : Session :=
  { Session.reset with state := .active, tag := 7, holdCount := holds, waitCount := waits }

/-- Clients 0 and 1 are ACTIVE. -/
def base : State := State.reset.setSessions ((State.reset.sessions.set 0 (opened 0 0)).set 1 (opened 0 0))

/-- The bytes of the key 0x30012A7C of R2's example: bucket 0x67, slot 412, domain 3. -/
def keyBytes : List Byte := [0x30, 0x01, 0x2A, 0x7C]

/-- The record of that key with these holders and waits. -/
def recordOf (holders : List HoldIx) (waits : List WaitIx) : Record :=
  ⟨0x30012A7C, .dynamic, true, 8, 0, holders, waits, 1, none⟩

/-- Client 0 holds the record in this mode, in hold slot 0 under generation 1, with fence 1 and deadline 1000. -/
def held (m : Mode) : State :=
  { base with
    records := base.records.set 412 (some (recordOf [0] []))
    holds := base.holds.set 0 ⟨1, some ⟨.active, 0, 412, m, 1, 1000, none⟩⟩
    holdCounts := ⟨255, 0, 1⟩
    fence := ⟨2, false⟩
    deadlines := [⟨.hold 0, 1000, false⟩]
    sessions := base.sessions.set 0 (opened 1 0) }

/-- Client 1 waits for EXCLUSIVE on the record that client 0 holds SHARED, in wait slot 0 under generation 1. -/
def waited : State :=
  { held .shared with
    records := base.records.set 412 (some (recordOf [0] [0]))
    waits := base.waits.set 0 ⟨1, some ⟨1, 412, .new, .exclusive, 0, 0, 500, 1000, 0x21⟩⟩
    holdCounts := ⟨254, 1, 1⟩
    arrival := 1
    deadlines := [⟨.wait 0, 500, false⟩, ⟨.hold 0, 1000, false⟩]
    sessions := (held .shared).sessions.set 1 (opened 1 1) }

/-- The Admin Engine holds a command with its parameters. -/
def ordered (c : AdminCommand) (p : Vector Word 4) (s : State) : State :=
  { s with admin := { s.admin with busy := .pending c p } }

/-- The first entry of the Deadline List is marked. -/
def marked (s : State) : State := { s with deadlines := s.deadlines.map fun e => { e with marked := true } }

/-! ### Steps with results read from the spec -/

theorem test_bucket_example : bucketOf 0 0x30012A7C = 0x67 ∧ bucketOf 0x5A 0x30012A7C = 0x3D := by decide
theorem test_checksum_example : crc16 [0x31, 0x32, 0x33, 0x34, 0x35, 0x36, 0x37, 0x38, 0x39] = 0x29B1 := by decide +kernel

/-- R57's example: hold 12, wait 3 and record slot 61 at 4,000, hold 9 at 3,999, hold 7 at 4,010, at clock 4,000. -/
theorem test_deadline_list_example :
    ([⟨.record 61, 4000, false⟩, ⟨.hold 7, 4010, false⟩, ⟨.wait 3, 4000, false⟩, ⟨.hold 12, 4000, false⟩,
      ⟨.hold 9, 3999, false⟩] : List DeadlineEntry).foldl (fun es e => insertEntry 4000 e es) [] =
      [⟨.hold 9, 3999, false⟩, ⟨.hold 12, 4000, false⟩, ⟨.wait 3, 4000, false⟩, ⟨.record 61, 4000, false⟩,
        ⟨.hold 7, 4010, false⟩] := by decide

theorem test_attach : (let t := run (.attach 0) (heard 0 (msg .attach 0x11 0 [9]) State.reset);
    (t.session 0).state = .active ∧ (t.session 0).tag = 9 ∧ sent 0 t = some (.attached 9)) := by decide +kernel
theorem test_attach_tag_zero : sent 0 (run (.attach 0) (heard 0 (msg .attach 0x11 0 [0]) State.reset)) =
    some .malformed := by decide +kernel
theorem test_detach_defers : (let t := run (.detach 0) (heard 0 (msg .detach 0x11 7 []) base);
    (t.session 0).state = .purging ∧ t.purge = ⟨[0], .wait 0⟩ ∧ sent 0 t = none) := by decide +kernel
theorem test_ping_detached : sent 5 (run (.ping 5) (heard 5 (msg .ping 1 9 [1, 2, 3, 4]) State.reset)) =
    some (.pong [1, 2, 3, 4] .detached 0) := by decide +kernel
theorem test_acquire_creates :
    sent 0 (run (.acquire 0) (heard 0 (msg .acquire 1 7 (keyBytes ++ [1, 0, 0, 0, 0, 0, 1])) base)) =
      some (.granted ⟨0, 1⟩ .shared 1 1000) := by decide +kernel
theorem test_acquire_queued :
    sent 1 (run (.acquire 1) (heard 1 (msg .acquire 1 7 (keyBytes ++ [2, 7, 0, 9, 0, 0, 0])) (held .exclusive))) =
      some (.queued ⟨0, 1⟩ 1) := by decide +kernel
theorem test_convert_upgrades :
    sent 0 (run (.convert 0) (heard 0 (msg .convert 1 7 [0, 1, 2, 0, 0, 0, 20]) (held .shared))) =
      some (.granted ⟨0, 1⟩ .exclusive 2 20) := by decide +kernel
theorem test_convert_same_mode :
    sent 0 (run (.convert 0) (heard 0 (msg .convert 1 7 [0, 1, 2, 0, 0, 0, 20]) (held .exclusive))) = some .mode := by
  decide +kernel
/-- R54: 5 is below the device minimum of 10. -/
theorem test_renew_raises_to_minimum :
    sent 0 (run (.renew 0) (heard 0 (msg .renew 1 7 [0, 1, 0, 5]) (held .shared))) = some (.renewed 10) := by decide +kernel
theorem test_release_lets_the_wait_in : (let t := run (.release 0) (heard 0 (msg .release 1 7 [0, 1]) waited);
    sent 0 t = some (.released false) ∧ noticed 1 t = some (.granted ⟨0, 2⟩ .exclusive 2 1000)) := by decide +kernel
theorem test_cancel : (let t := run (.cancel 1) (heard 1 (msg .cancel 1 7 [0, 1]) waited);
    sent 1 t = some .cancelled ∧ t.holdCounts = ⟨255, 0, 1⟩ ∧ t.wait 0 = none) := by decide +kernel
theorem test_query : sent 1 (run (.query 1) (heard 1 (msg .query 1 7 keyBytes) waited)) =
    some (.record ⟨.shared, 1, 1, 1, .dynamic, none, some ⟨0, 1⟩⟩) := by decide +kernel
theorem test_validate_not_guard :
    sent 1 (run (.validate 1) (heard 1 (msg .validate 1 7 (keyBytes ++ [0, 0, 0, 0, 0, 1])) (held .shared))) =
      some .notGuard := by decide +kernel
theorem test_validate_current :
    sent 1 (run (.validate 1) (heard 1 (msg .validate 1 7 (keyBytes ++ [0, 0, 0, 0, 0, 1]))
      ((held .exclusive).modifySession 1 fun k => { k with guardCapability := true }))) = some (.current .exclusive) := by
  decide +kernel
theorem test_malformed_kind : (let t := run (.malformedRequest 0) (heard 0 ⟨0x55, 2, [1, 7]⟩ base);
    sent 0 t = some .malformed ∧ (t.live.clients[0]).refusals = 1) := by decide +kernel

theorem test_tick_marks : (let t := run .tick { held .shared with timer := ⟨999, 100, 50⟩ };
    t.timer = ⟨1000, 50, 50⟩ ∧ t.deadlines = [⟨.hold 0, 1000, true⟩]) := by decide +kernel
theorem test_lease_runs_out : (let t := run .dueLeaseEntry (marked (held .shared));
    noticed 0 t = some (.lost ⟨0, 1⟩ 1 .expired false) ∧ t.hold 0 = none ∧ t.deadlines = [⟨.record 412, 5000, false⟩]) := by
  decide +kernel
theorem test_lease_lapses : (let t := (run .dueLeaseEntry
      { marked (held .shared) with device := { DeviceSettings.reset with graceTerm := 3 } });
    noticed 0 t = some (.lapsed ⟨0, 1⟩ 3) ∧ t.deadlines = [⟨.hold 0, 3, false⟩]) := by decide +kernel
theorem test_grace_runs_out : (let t := (run .dueGraceEntry (marked ((held .shared).modifyHold 0 fun h =>
      { h with state := .lapsed })));
    noticed 0 t = some (.lost ⟨0, 1⟩ 1 .expired false) ∧ (t.live.clients[0]).holdsExpired = 1) := by decide +kernel
theorem test_wait_times_out : (let t := run .dueWaitEntry (marked waited);
    noticed 1 t = some (.waitEnded ⟨0, 1⟩ .timeout) ∧ (t.live.clients[1]).waitsTimedOut = 1) := by decide +kernel
theorem test_idle_record_retires : (let t := (run .dueIdleRecordEntry
      { base with
        records := base.records.set 412 (some { recordOf [] [] with idleDeadline := some 9 })
        deadlines := [⟨.record 412, 9, true⟩] });
    t.record 412 = none ∧ t.deadlines = []) := by decide +kernel

/-- Client 0 purges, with its walk at this position. -/
def purging (p : WalkPosition) (s : State) : State :=
  { (s.modifySession 0 fun k => { k with state := .purging, afterPurge := some .detached }) with purge := ⟨[0], p⟩ }

theorem test_purge_wait_step : (run .purgeWaitStep (purging (.wait 127) (held .shared))).purge = ⟨[0], .hold 0⟩ := by
  decide +kernel
theorem test_purge_hold_step : (let t := run .purgeHoldStep (purging (.hold 0) (held .shared));
    t.hold 0 = none ∧ t.purge = ⟨[0], .hold 1⟩ ∧ noticed 0 t = none) := by decide +kernel
theorem test_purge_ends : (let t := run .purgeHoldStep (purging (.hold 255) base);
    (t.session 0).state = .detached ∧ (t.session 0).tag = 0 ∧ t.purge = ⟨[], .idle⟩ ∧ t.flags = 4) := by decide +kernel

/-- Link 2 has received these characters of a message. -/
def hearing (chars : List Byte) : State :=
  State.reset.modifyLink 2 fun k => { k with receiver := .inMessage chars ⟨8, 25, 1, 0⟩ }

/-- A DETACH with tags 5 and 7; its checksum, worked out apart from the model, is 0x88DA. -/
theorem test_message_complete : ((run (.messageComplete 2 0xDA) (hearing [0x02, 0x02, 0x05, 0x07, 0x88])).link 2).rxQueue =
    [⟨0x02, 0x02, [0x05, 0x07]⟩] := by decide +kernel
theorem test_message_bad_checksum : (let t := run (.messageComplete 2 0xDB) (hearing [0x02, 0x02, 0x05, 0x07, 0x88]);
    (t.live.links[2]).crc = 1 ∧ (t.link 2).inFlight = some (.discards 0 1) ∧ t.flags = 128) := by decide +kernel
theorem test_length_one_is_framing : (let t := run (.framing 2 (.length 1)) (hearing [0x02]);
    (t.link 2).receiver = .hunt ∧ (t.live.links[2]).framing = 1) := by decide +kernel
theorem test_broken_in_idle : ((run (.framing 2 .broken) State.reset).link 2).receiver = .hunt ∧
    ((run (.framing 2 .broken) State.reset).live.links[2]).framing = 0 := by decide +kernel
theorem test_truncated : (let t := run (.truncated 2 0x03) (hearing [0x02, 0x02]);
    (t.link 2).receiver = .inMessage [0x03] ⟨8, 25, 1, 0⟩ ∧ (t.live.links[2]).truncated = 1) := by decide +kernel
theorem test_gap_limit : (let t := run (.gapLimit 2) (hearing [0x02, 0x02]);
    (t.link 2).receiver = .idle ∧ (t.live.links[2]).truncated = 1) := by decide +kernel
theorem test_stray : (run (.stray 2 0x44) State.reset).live.links[2] = { LinkCounters.zero with stray := 1 } := by
  decide +kernel
theorem test_character_begins : ((run (.characterReceived 2 0x10 true) State.reset).link 2).receiver =
    .inMessage [0x10] ⟨8, 25, 1, 0⟩ := by decide +kernel
theorem test_character_stopped : ((run (.characterReceived 2 0x10 true) (run (.linkDisable 2) State.reset)).link 2).receiver =
    .stopped := by decide +kernel
theorem test_message_sent : (let t := (run (.messageSent 5)
      (run (.ping 5) (heard 5 (msg .ping 1 9 [1, 2, 3, 4]) State.reset)));
    (t.link 5).inFlight = none ∧ (t.link 5).responseQueue = [] ∧ (t.live.links[5]).responsesSent = 1) := by decide +kernel
theorem test_link_disable : ((run (.linkDisable 0) (run (.detach 0) (heard 0 (msg .detach 1 7 []) base))).link 0).inProgress =
    some .toBeDropped := by decide +kernel
theorem test_link_enable : ((run (.linkEnable 0) (run (.linkDisable 0) base)).link 0).receiver = .hunt := by decide +kernel
/-- R147: with no clock between the disable and the enable, too, the receiver begins to watch its line. -/
theorem test_link_enable_watches : (run (.linkEnable 0) (run (.linkDisable 0)
    (base.modifyWire 0 fun w => { w with rx := .inside 25 [false], sampleClocks := 7 }))).wires.links[(0 : Client)] =
    ⟨.watching none, 0⟩ := by decide +kernel

theorem test_tick_period_write : (run (.settingWrite 0 10000) base).timer = ⟨0, 100, 10000⟩ ∧
    (run (.settingWrite 0 10001) base).timer = ⟨0, 100, 100⟩ := by decide +kernel
theorem test_busy_command_refused : (run (.settingWrite 0x0604 1) (ordered .clearAll (Vector.replicate 4 0) base)).flags = 2 := by
  decide +kernel
theorem test_flags_write_clears_ones : (run (.flagsWrite 5) { base with flags := 7 }).flags = 2 := by decide +kernel
theorem test_enables_drive_int : (run (.enablesWrite 4) { base with flags := 4 }).intActive = true ∧
    (run (.enablesWrite 3) { base with flags := 4 }).intActive = false := by decide +kernel
theorem test_fence_latch : ({ run (.fenceCounterLatch .readHigh) base with fence := ⟨0x100000000, false⟩ } : State).readWord
    0x0413 = 1 := by decide +kernel
theorem test_fence_latch_ends : (run (.fenceCounterLatch .selectRises) base).port = ⟨none, true⟩ := by decide +kernel

/-- The words of the key and of one more parameter. -/
def params (a b : Word) : Vector Word 4 := #v[a, b, 0, 0]

theorem test_install : (let t := run .installRecord (ordered .installRecord (params 0x30012A7C 0x00140301) base);
    t.record 412 = some ⟨0x30012A7C, .pinned, true, 3, 20, [], [], 0, none⟩ ∧
      t.admin.results = #v[412, 1, 0, 0, 0, 0, 0, 0]) := by decide +kernel
theorem test_install_cap_zero : (run .installRecord (ordered .installRecord (params 0x30012A7C 1) base)).admin.resultCode =
    7 := by decide +kernel
theorem test_unpin_idle : (let t := (run .unpinRecord (ordered .unpinRecord (params 0x30012A7C 0)
      { base with records := base.records.set 412 (some ⟨0x30012A7C, .pinned, false, 3, 20, [], [], 0, none⟩) }));
    t.record 412 = some ⟨0x30012A7C, .dynamic, true, 8, 0, [], [], 0, some 5000⟩) := by decide +kernel
theorem test_remove_record : (let t := run .removeRecord (ordered .removeRecord (params 0x30012A7C 0) waited);
    t.record 412 = none ∧ t.admin.results = #v[412, 1, 1, 0, 0, 0, 0, 0] ∧
      noticed 0 t = some (.lost ⟨0, 1⟩ 1 .removed false) ∧ noticed 1 t = some (.waitEnded ⟨0, 1⟩ .removed)) := by
  decide +kernel
theorem test_remove_domain : (let t := run .removeDomain (ordered .removeDomain (params 3 0) (held .shared));
    t.isClosing 3 = true ∧ t.admin.busy = .walking ⟨3, 1, 0, 0, 0⟩) := by decide +kernel
theorem test_walk_removes : (run .domainWalkStep
      { waited with admin := { waited.admin with busy := .walking ⟨3, 412, 0, 0, 0⟩ } }).admin.busy =
    .walking ⟨3, 413, 1, 1, 1⟩ := by decide +kernel
theorem test_walk_ends : (let t := (run .domainWalkStep
      { base with
        closing := base.closing.set 3 true
        admin := { base.admin with busy := .walking ⟨3, 1023, 2, 1, 1⟩ } });
    t.isClosing 3 = false ∧ t.admin.busy = .idle ∧ t.admin.results = #v[3, 2, 1, 1, 0, 0, 0, 0]) := by decide +kernel
theorem test_revoke : (let t := run .revokeHold (ordered .revokeHold (params 0x0001 0) (held .shared));
    noticed 0 t = some (.lost ⟨0, 1⟩ 1 .revoked false) ∧ t.admin.results = #v[0, 412, 0, 1, 0, 0, 0, 0]) := by decide +kernel
theorem test_revoke_stale_generation :
    (run .revokeHold (ordered .revokeHold (params 0x0002 0) (held .shared))).admin.resultCode = 5 := by decide +kernel
theorem test_cancel_wait : (let t := run .cancelWait (ordered .cancelWait (params 0x0001 0) waited);
    noticed 1 t = some (.waitEnded ⟨0, 1⟩ .cancelledByManager) ∧ t.admin.results = #v[1, 412, 0, 0, 0, 0, 0, 0]) := by
  decide +kernel
theorem test_cancel_wait_beyond_pool :
    (run .cancelWait (ordered .cancelWait (params 0x8001 0) waited)).admin.resultCode = 5 := by decide +kernel
theorem test_find : (run .findRecord (ordered .findRecord (params 0x30012A7C 0) (held .shared))).admin.results =
    #v[412, 1, 0, 0, 0, 0, 0, 0] := by decide +kernel
theorem test_read_record : (let ws := (run .readRecord (ordered .readRecord (params 412 0) waited)).admin.results;
    ws[0] = 0x30012A7C ∧ ws[1] = 0x01010185 ∧ ws[2] = 0 ∧ ws[4] = 0 ∧ ws[5] = 1 ∧ ws[6] = 0) := by decide +kernel
theorem test_read_record_handles : (run .readRecord (ordered .readRecord (params 412 1) waited)).admin.results =
    #v[0x30012A7C, 0x00000101, 0x00010001, 0, 0, 0, 0, 0] := by decide +kernel
theorem test_read_hold : (let ws := (run .readHold (ordered .readHold (params 0 0) (held .exclusive))).admin.results;
    ws[0] = 0x00200101 ∧ ws[1] = 412 ∧ ws[2] = 0 ∧ ws[3] = 1 ∧ ws[4] = 1000 ∧ ws[6] = 0) := by decide +kernel
theorem test_read_wait : (run .readWait (ordered .readWait (params 0 0) waited)).admin.results =
    #v[0x00810101, 412, 0, 500, 0x002103E8, 0, 0, 0] := by decide +kernel
theorem test_bar : (let t := run .setClientState (ordered .setClientState (params 0 3) base);
    (t.session 0).state = .purging ∧ t.admin.results = #v[3, 4, 0, 0, 0, 0, 0, 0]) := by decide +kernel
theorem test_unbar_active : (run .setClientState (ordered .setClientState (params 0 4) base)).admin.resultCode = 6 := by
  decide +kernel
theorem test_snapshot : (let t := (run .snapshotCounters (ordered .snapshotCounters (params 1 0)
      (base.countLink 3 fun k => { k with good := 9 })));
    (t.snapshot.bank.links[3]).good = 9 ∧ (t.live.links[3]).good = 0) := by decide +kernel
theorem test_clear_all : (let t := run .clearAll (ordered .clearAll (params 0 0) waited);
    t.record 412 = none ∧ t.holdSlot 0 = ⟨1, none⟩ ∧ t.fence = ⟨2, false⟩ ∧ (t.session 1).state = .detached) := by
  decide +kernel
theorem test_seed_above_255 : (let t := run .setHashSeed (ordered .setHashSeed (params 0x100 0) (held .shared));
    t.admin.resultCode = 7 ∧ t.hashSeed = 0) := by decide +kernel
theorem test_power_on_reset : run .powerOnReset waited = State.reset := rfl

/-! ### The wires -/

/-- R149: an SPI WRITE of the word 1 at 0x0501 and five bits of a further word, then the rise of chip select. -/
theorem test_spi_write : transactionCommands (fun _ => 0) Pins.atRest
    (msbFirst (0x02 : Byte) ++ msbFirst (0x0501 : Half) ++ msbFirst (1 : Word) ++ List.replicate 5 true) =
    [.enablesWrite 1, .fenceCounterLatch .selectRises] := by decide +kernel
/-- R149, R180: a READ of 0x0411 takes 0x0412 with the falling edge after its 32nd data bit. -/
theorem test_spi_read : transactionCommands (fun _ => 0) Pins.atRest
    (msbFirst (0x03 : Byte) ++ msbFirst (0x0411 : Half) ++ List.replicate 32 false) =
      [.fenceCounterLatch .readHigh, .fenceCounterLatch .selectRises] ∧
    transactionCommands (fun _ => 0) Pins.atRest
      (msbFirst (0x03 : Byte) ++ msbFirst (0x0411 : Half) ++ List.replicate 31 false) =
      [.fenceCounterLatch .selectRises] := by decide +kernel
/-- R149: a READ's first word is on the output, most significant bit first, after the falling edge of its 24th bit. -/
theorem test_spi_output : (let x := (SpiLine.run (fun _ => 0x80000000) ⟨false, false, [], []⟩ ((transactionPins Pins.atRest
      (msbFirst (0x03 : Byte) ++ msbFirst (0x0415 : Half) ++ [false])).take 51)).1;
    (SpiLine.run (fun _ => 0x80000000) ⟨false, false, [], []⟩ ((transactionPins Pins.atRest
      (msbFirst (0x03 : Byte) ++ msbFirst (0x0415 : Half))).take 48)).1.output = some false ∧
    (SpiLine.run (fun _ => 0x80000000) ⟨false, false, [], []⟩ ((transactionPins Pins.atRest
      (msbFirst (0x03 : Byte) ++ msbFirst (0x0415 : Half))).take 49)).1.output = some true ∧
    x.output = some false) := by decide +kernel

/-- The state after a step on an empty queue. -/
def clocked (s : State) : State :=
  match step (s.setPending []) with
  | .next t => t
  | .fault _ => s
  | .refused _ => s

/-- R149, R168: chip select rests high after the reset, so the port has seen it and accepts the first fall. -/
theorem test_first_transaction : (let s := clocked State.reset;
    s.port.seenSelectHigh = true ∧ (clocked (s.setPins { s.pins with chipSelect := false })).wires.spi.selected = true ∧
    (clocked (State.reset.setPins { State.reset.pins with chipSelect := false })).wires.spi.selected = false) := by
  decide +kernel
/-- R51: the period of 100 is 48,000 clocks. -/
theorem test_prescaler : (clocked { State.reset with wires := { Wires.reset with prescaler := 47999 } }).pending = [.tick] ∧
    (clocked { State.reset with wires := { Wires.reset with prescaler := 47998 } }).pending = [] := by decide +kernel
/-- R133: the line rests at 1, and falls in the happening that chooses a message. -/
theorem test_transmit_line : (let s := (State.reset.modifyLink 5 fun k => { k with discardCount := 1 }).choose 5;
    State.reset.transmitLevel 5 = true ∧ s.transmitLevel 5 = false ∧ s.transmitLevel 4 = true) := by decide +kernel
/-- R133: at the clock that ends the last stop bit, the start bit of the next message follows directly on it. -/
theorem test_messages_back_to_back : (let s := clocked (State.reset.modifyLink 5 fun k =>
      { k with discardCount := 2, inFlight := some (.discards 7 1), tx := .sending 25 [true] 415 [] });
    s.pending = [.messageSent 5] ∧ s.transmitLevel 5 = true ∧ (run (.messageSent 5) s).transmitLevel 5 = false ∧
    ((run (.messageSent 5) s).link 5).inFlight = some (.discards 0 2)) := by decide +kernel
/-- R133, R135: the receiver hears the character 0x53 with mark 1 from its levels; a line held at 0 is one broken character. -/
theorem test_receive_line : heardOver 25 (.watching (some true))
      (((⟨0x53, true⟩ : Character).levels 2).flatMap fun b => List.replicate 16 b) = [.received ⟨0x53, true⟩] ∧
    heardOver 25 (.watching (some true)) (List.replicate 400 false) = [.broken] ∧
    heardOver 25 (.watching none) (List.replicate 400 false) = [] ∧
    heardOver 25 (.watching (some true)) (List.replicate 6 false ++ List.replicate 40 true) = [.noCharacter] := by
  decide +kernel
/-- R139: 8 character times of 11 bits at divider 25 are 36,608 clocks. -/
theorem test_gap_measured :
    (clocked ((hearing [2, 2]).setReceiver 2 (.inMessage [2, 2] ⟨8, 25, 1, 36607⟩))).pending = [.gapLimit 2] ∧
    (clocked ((hearing [2, 2]).setReceiver 2 (.inMessage [2, 2] ⟨8, 25, 1, 36606⟩))).pending = [] := by decide +kernel
/-- R71, R73: a refill as written limits nothing before the next tick. -/
theorem test_refill_from_next_tick : (let s := run (.settingWrite 0x0103 0x0105) (base.modifySession 0 fun k => { k with credits := 0 });
    (s.session 0).creditRefill = 1 ∧ creditCheck (s.session 0) .acquire = none ∧
    creditCheck ((run .tick s).session 0) .acquire = some .rate ∧ ((run .tick s).session 0).credits = 1) := by decide +kernel

/-- R136, R176: the characters of a DISCARDS notice of count 258 under tag 7; the checksum was worked out apart from the model. -/
theorem test_discards_bytes : (InFlight.discards 7 258).bytes = [0x94, 0x04, 0x00, 0x07, 0x01, 0x02, 0xD9, 0xF0] := by
  decide +kernel

end Sys2Proof.Tests
end

