-- ==== Sys2Proof/Tests/Witnesses.lean ====
section
/-! SUPPORT. A concrete state and operands that meet the hypotheses of each statement together, clause by clause, at boundary values
where a clause has a range. -/

namespace Sys2Proof.Tests

set_option Elab.async false

open Sys2Proof Sys2Proof.Machine

/-! ### The queue, lookup, placement -/

theorem witness_StepTakesTheFrontCommand : State.reset.pending = [] := rfl

/-- The four ways of the key's bucket in use: a PINNED record and three records with these idle deadlines. -/
def fullBucket (a b c : Option Word) : State :=
  let idle (key : Word) (d : Option Word) : Option Record := some ⟨key, .pinned, true, 8, 0, [], [], 0, d⟩
  base.setRecords ((((base.records.set 412 (idle 0x67 none)).set 413 (idle 0x6700 a)).set 414 (idle 0x670000 b)).set 415
    (idle 0x67000000 c))

theorem witness_Placement_free : base.placeFor 0x30012A7C = some 412 := by decide +kernel
theorem witness_Placement_idle : (fullBucket (some 30) (some 20) (some 20)).placeFor 0x30012A7C = some 414 := by
  decide +kernel
theorem witness_Placement_due : (fullBucket (some 30) (some 20) (some 0xFFFFFFFF)).placeFor 0x30012A7C = some 415 := by
  decide +kernel
theorem witness_Placement_none : (fullBucket none none none).placeFor 0x30012A7C = none := by decide +kernel

theorem witness_View_position : waited.record 412 = some (recordOf [0] [0]) ∧ (0 : WaitIx) ∈ waited.effectiveQueue (recordOf [0] [0]) := by
  decide +kernel

/-! ### Taking, gating, answering -/

theorem witness_RequestFormats_acquire : (msg .acquire 1 7 (keyBytes ++ [2, 7, 1, 2, 3, 4, 1])).chars =
    [1, 7, 0x30, 0x01, 0x2A, 0x7C, 2, 7, 1, 2, 3, 4, 1] := by decide +kernel
theorem witness_RequestFormats_convert : (msg .convert 1 7 [0, 1, 2, 0, 9, 0, 0]).chars = [1, 7, 0, 1, 2, 0, 9, 0, 0] := by
  decide +kernel
theorem witness_RequestFormats_body : ([5, 6] : List Byte)[1]? = some 6 := rfl

/-- A PING of link 5. -/
def pinged (s : State) : State := heard 5 (msg .ping 1 9 [1, 2, 3, 4]) s

theorem witness_TakeConditions : Takes (pinged base) 5 (msg .ping 1 9 [1, 2, 3, 4]) 0 := by decide +kernel
theorem witness_TakeConditions_not (m : RxMessage) (i : Fin 4) : Takes base 5 m i → m.requestKind ≠ some .ping := by
  intro h
  have e : (base.link 5).rxQueue = [] := by decide +kernel
  have h' := h.2.2.1
  rw [e] at h'
  exact absurd h' (by simp)

theorem witness_Refused_gate : Takes (heard 0 (msg .query 1 8 keyBytes) base) 0 (msg .query 1 8 keyBytes) 0 ∧
    (msg .query 1 8 keyBytes).requestKind = some .query ∧ (msg .query 1 8 keyBytes).fieldsGood .query = true ∧
    gateRefusal ((heard 0 (msg .query 1 8 keyBytes) base).session 0) .query
      ((msg .query 1 8 keyBytes).asksNewClaim .query) 8 = some .staleSession := by decide +kernel
theorem witness_Refused_field : Takes (heard 0 (msg .acquire 1 7 (keyBytes ++ [3, 0, 0, 0, 0, 0, 1])) base) 0
      (msg .acquire 1 7 (keyBytes ++ [3, 0, 0, 0, 0, 0, 1])) 0 ∧
    (msg .acquire 1 7 (keyBytes ++ [3, 0, 0, 0, 0, 0, 1])).requestKind = some .acquire ∧
    (msg .acquire 1 7 (keyBytes ++ [3, 0, 0, 0, 0, 0, 1])).fieldsGood .acquire = false := by decide +kernel
theorem witness_Refused_urgency : (msg .acquire 1 7 (keyBytes ++ [1, 8, 0, 0, 0, 0, 1])).fieldsGood .acquire = false ∧
    (msg .acquire 1 7 (keyBytes ++ [1, 7, 0, 0, 0, 0, 1])).fieldsGood .acquire = true ∧
    (msg .acquire 1 7 (keyBytes ++ [1, 7, 0, 0, 0, 0, 2])).fieldsGood .acquire = false := by decide +kernel
theorem witness_Refused_kind : Takes (heard 0 ⟨0x55, 2, [1, 7]⟩ base) 0 ⟨0x55, 2, [1, 7]⟩ 0 ∧
    ∀ k ∈ RequestKind.all, k.code ≠ (⟨0x55, 2, [1, 7]⟩ : RxMessage).kind := by decide +kernel
theorem witness_Refused_length : Takes (heard 0 ⟨0x02, 3, [1, 7, 0]⟩ base) 0 ⟨0x02, 3, [1, 7, 0]⟩ 0 ∧
    ∀ k ∈ RequestKind.all, k.code ≠ (⟨0x02, 3, [1, 7, 0]⟩ : RxMessage).kind ∨ k.length ≠ 3 := by decide +kernel

/-- The credit check is on for client 0, with these credits. -/
def limited (n : Nat) (s : State) : State := s.modifySession 0 fun k => { k with creditRefill := 1, refillInForce := 1, credits := n }

theorem witness_Credits_spent : Takes (heard 0 (msg .query 1 7 keyBytes) (limited 1 base)) 0 (msg .query 1 7 keyBytes) 0 ∧
    (msg .query 1 7 keyBytes).requestKind = some .query ∧
    (∃ t, exec (.query 0) (heard 0 (msg .query 1 7 keyBytes) (limited 1 base)) = .next t) ∧
    gateRefusal ((limited 1 base).session 0) .query false 7 = none := ⟨by decide +kernel, by decide +kernel, ⟨_, rfl⟩, by decide +kernel⟩
theorem witness_Credits_rate : gateRefusal ((limited 1 base).session 0) .acquire true 7 = some .rate := by decide +kernel

/-- Link 0 has a request in progress in slot 1, with this in flight. -/
def answering (f : Option InFlight) (q : List (Fin 4)) : State :=
  base.modifyLink 0 fun k =>
    { k with slots := k.slots.set 1 .reserved, responseQueue := q, inProgress := some (.reserved 1), inFlight := f }

theorem witness_Response_waits : ((answering (some (.discards 7 1)) [1]).link 0).inProgress = some (.reserved 1) ∧
    ((answering (some (.discards 7 1)) [1]).link 0).inFlight ≠ none := by decide +kernel
theorem witness_Response_begins : ((answering none [1]).link 0).inProgress = some (.reserved 1) ∧
    ((answering none [1]).link 0).enabled = true ∧ ((answering none [1]).link 0).inFlight = none ∧
    ((answering none [1]).link 0).responseQueue.head? = some 1 := by decide +kernel

/-- Link 0 was disabled while its DETACH waited for the purge. -/
def dropping : State := base.modifyLink 0 fun k =>
  { k with enabled := false, receiver := .stopped, inProgress := some .toBeDropped }

theorem linkLaw_dropping : LinkLaw (dropping.link 0) := by
  have e : dropping.link 0 =
      { Link.reset with enabled := false, receiver := .stopped, inProgress := some .toBeDropped } := by decide +kernel
  rw [e]
  constructor <;> simp [Link.reset]
theorem witness_Response_dropped : (dropping.link 0).inProgress = some .toBeDropped ∧ LinkLaw (dropping.link 0) :=
  ⟨by decide +kernel, linkLaw_dropping⟩

/-! ### Session requests -/

theorem witness_Attach_detached : Admits (heard 2 (msg .attach 1 0 [1]) base) 2 .attach (msg .attach 1 0 [1]) 0 ∧
    ((heard 2 (msg .attach 1 0 [1]) base).session 2).state = .detached := by decide +kernel
theorem witness_Attach_repeated : Admits (heard 0 (msg .attach 1 0 [7]) base) 0 .attach (msg .attach 1 0 [7]) 0 ∧
    ((heard 0 (msg .attach 1 0 [7]) base).session 0).state ≠ .detached ∧
    (msg .attach 1 0 [7]).body 0 = ((heard 0 (msg .attach 1 0 [7]) base).session 0).tag := by decide +kernel
theorem witness_Attach_renewed : Admits (heard 0 (msg .attach 1 0 [8]) base) 0 .attach (msg .attach 1 0 [8]) 0 ∧
    ((heard 0 (msg .attach 1 0 [8]) base).session 0).state ≠ .detached ∧
    (msg .attach 1 0 [8]).body 0 ≠ ((heard 0 (msg .attach 1 0 [8]) base).session 0).tag := by decide +kernel
theorem witness_Detach : Admits (heard 0 (msg .detach 1 7 []) base) 0 .detach (msg .detach 1 7 []) 0 := by decide +kernel
theorem witness_Ping : Takes (pinged base) 5 (msg .ping 1 9 [1, 2, 3, 4]) 0 ∧
    (msg .ping 1 9 [1, 2, 3, 4]).requestKind = some .ping := by decide +kernel

/-! ### ACQUIRE -/

/-- An ACQUIRE of the key by client 0, whose body goes on with these bytes: mode, urgency, wait ticks, term, create flag. -/
def acq (b : List Byte) : RxMessage := msg .acquire 0x11 7 (keyBytes ++ b)

/-- An ACQUIRE that may create, for SHARED. -/
def making : RxMessage := acq [1, 0, 0, 0, 0, 0, 1]
def makingBody : AcquireBody := ⟨0x30012A7C, .shared, 0, 0, 0, true⟩

theorem witness_Acquire_domain :
    let s := heard 0 making (base.modifySession 0 fun k => { k with domainMask := 0xFFF7 })
    AdmitsAcquire s 0 making 0 makingBody ∧ (s.session 0).domainMask.getLsbD (domainOf makingBody.key).toNat = false := by
  decide +kernel
theorem witness_Acquire_closing :
    let s := heard 0 making (base.setMark 3 true)
    AdmitsAcquire s 0 making 0 makingBody ∧ (s.session 0).domainMask.getLsbD (domainOf makingBody.key).toNat = true ∧
      s.isClosing (domainOf makingBody.key) = true := by decide +kernel
theorem witness_Acquire_noRecord :
    let s := heard 0 (acq [1, 0, 0, 0, 0, 0, 0]) base
    AdmitsAcquire s 0 (acq [1, 0, 0, 0, 0, 0, 0]) 0 { makingBody with create := false } ∧
      MayName s 0 { makingBody with create := false } ∧ s.lookup 0x30012A7C = none := by decide +kernel
theorem witness_Acquire_mayNotCreate :
    let s := heard 0 making (base.modifySession 0 fun k => { k with mayCreate := false })
    AdmitsAcquire s 0 making 0 makingBody ∧ MayName s 0 makingBody ∧ s.lookup 0x30012A7C = none ∧
      (s.session 0).mayCreate = false := by decide +kernel
theorem witness_Acquire_bucketFull :
    let s := heard 0 making (fullBucket none none none)
    AdmitsAcquire s 0 making 0 makingBody ∧ MayName s 0 makingBody ∧ s.lookup 0x30012A7C = none ∧
      (s.session 0).mayCreate = true ∧ s.placeFor 0x30012A7C = none := by decide +kernel
theorem witness_Acquire_quota :
    let s := heard 0 making (base.modifySession 0 fun k => { k with holdQuota := 1, holdCount := 4 })
    AdmitsAcquire s 0 making 0 makingBody ∧ MayName s 0 makingBody ∧ s.lookup 0x30012A7C = none ∧
      (s.session 0).mayCreate = true ∧ s.placeFor 0x30012A7C ≠ none ∧
      (s.session 0).holdQuota.toNat * 4 ≤ (s.session 0).holdCount := by decide +kernel
theorem witness_Acquire_poolEmpty :
    let s := heard 0 making (base.setHoldCounts ⟨0, 0, 256⟩)
    AdmitsAcquire s 0 making 0 makingBody ∧ MayName s 0 makingBody ∧ s.lookup 0x30012A7C = none ∧
      (s.session 0).mayCreate = true ∧ s.placeFor 0x30012A7C ≠ none ∧
      (s.session 0).holdCount < (s.session 0).holdQuota.toNat * 4 ∧ s.availableHold = none := by decide +kernel
theorem witness_Acquire_fence :
    let s := heard 0 making (base.setFence ⟨Config.lastFence, true⟩)
    AdmitsAcquire s 0 making 0 makingBody ∧ MayName s 0 makingBody ∧ s.lookup 0x30012A7C = none ∧
      (s.session 0).mayCreate = true ∧ s.placeFor 0x30012A7C ≠ none ∧
      (s.session 0).holdCount < (s.session 0).holdQuota.toNat * 4 ∧ s.availableHold ≠ none ∧
      s.fence.exhausted = true := by decide +kernel
theorem witness_AcquireCreatesAndIsGranted :
    let s := heard 0 making (base.modifySession 0 fun k => { k with holdQuota := 1, holdCount := 3 })
    AdmitsAcquire s 0 making 0 makingBody ∧ MayName s 0 makingBody ∧ s.lookup 0x30012A7C = none ∧
      makingBody.create = true ∧ (s.session 0).mayCreate = true ∧ s.placeFor 0x30012A7C = some 412 ∧
      (s.session 0).holdCount < (s.session 0).holdQuota.toNat * 4 ∧ s.availableHold = some 0 ∧
      s.fence.exhausted = false := by decide +kernel

theorem witness_AcquirePresent_mode :
    let x : Record := { recordOf [] [] with kind := .pinned, shareable := false }
    let s := heard 0 making (base.setRecord 412 (some x))
    AdmitsAcquire s 0 making 0 makingBody ∧ MayName s 0 makingBody ∧ s.lookup 0x30012A7C = some 412 ∧
      s.record 412 = some x ∧ x.shareable = false ∧ makingBody.mode = .shared := by decide +kernel
theorem witness_AcquirePresent_held :
    let s := heard 0 making (held .shared)
    AdmitsAcquire s 0 making 0 makingBody ∧ MayName s 0 makingBody ∧ s.lookup 0x30012A7C = some 412 ∧
      s.record 412 = some (recordOf [0] []) ∧ (recordOf [0] []).shareable = true ∧
      s.holdOf 0 (recordOf [0] []) = some 0 := by decide +kernel
theorem witness_AcquirePresent_waiting :
    let s := heard 1 making waited
    AdmitsAcquire s 1 making 0 makingBody ∧ MayName s 1 makingBody ∧ s.lookup 0x30012A7C = some 412 ∧
      s.record 412 = some (recordOf [0] [0]) ∧ s.holdOf 1 (recordOf [0] [0]) = none ∧
      s.waitOf 1 (recordOf [0] [0]) = some 0 := by decide +kernel
theorem witness_AcquirePresent_quota :
    let s := heard 1 making ((held .shared).modifySession 1 fun k => { k with holdQuota := 0 })
    AdmitsAcquire s 1 making 0 makingBody ∧ MayName s 1 makingBody ∧ s.lookup 0x30012A7C = some 412 ∧
      s.record 412 = some (recordOf [0] []) ∧ s.holdOf 1 (recordOf [0] []) = none ∧
      s.waitOf 1 (recordOf [0] []) = none ∧ (s.session 1).holdQuota.toNat * 4 ≤ (s.session 1).holdCount := by decide +kernel

/-- A request of client 1 for the held record, after displacement. -/
def tried (m : Mode) (s : State) : State := (s.admitted 1 .acquire 0).displace 1 412 m

theorem witness_AcquireIsGrantedAtOnce :
    let s := heard 1 making (held .shared)
    let e := tried .shared s
    AdmitsAcquire s 1 making 0 makingBody ∧ ReachesDisplacement s 1 makingBody 412 (recordOf [0] []) ∧
      e.record 412 = some (recordOf [0] []) ∧
      e.wouldLead (recordOf [0] []) (e.effectivePriority 1 makingBody.urgency) = true ∧
      e.compatible (recordOf [0] []) makingBody.mode none = true ∧ e.availableHold = some 1 ∧
      e.fence.exhausted = false := by decide +kernel
theorem witness_AcquireIsGrantedAtOnce_poolEmpty :
    let s := heard 1 making ((held .shared).setHoldCounts ⟨0, 0, 256⟩)
    let e := tried .shared s
    AdmitsAcquire s 1 making 0 makingBody ∧ ReachesDisplacement s 1 makingBody 412 (recordOf [0] []) ∧
      e.record 412 = some (recordOf [0] []) ∧
      e.wouldLead (recordOf [0] []) (e.effectivePriority 1 makingBody.urgency) = true ∧
      e.compatible (recordOf [0] []) makingBody.mode none = true ∧ e.availableHold = none := by decide +kernel
theorem witness_AcquireIsGrantedAtOnce_fence :
    let s := heard 1 making ((held .shared).setFence ⟨Config.lastFence, true⟩)
    let e := tried .shared s
    AdmitsAcquire s 1 making 0 makingBody ∧ ReachesDisplacement s 1 makingBody 412 (recordOf [0] []) ∧
      e.record 412 = some (recordOf [0] []) ∧
      e.wouldLead (recordOf [0] []) (e.effectivePriority 1 makingBody.urgency) = true ∧
      e.compatible (recordOf [0] []) makingBody.mode none = true ∧ e.availableHold ≠ none ∧
      e.fence.exhausted = true := by decide +kernel

/-- An ACQUIRE for EXCLUSIVE with this many wait ticks. -/
def queueing (n : Byte) : RxMessage := acq [2, 0, 0, n, 0, 0, 0]
def queueingBody (n : Half) : AcquireBody := ⟨0x30012A7C, .exclusive, 0, n, 0, false⟩

theorem witness_AcquireIsQueued :
    let s := heard 1 (queueing 1) ((held .shared).modifySession 1 fun k => { k with waitQuota := 1 })
    let e := tried .exclusive s
    AdmitsAcquire s 1 (queueing 1) 0 (queueingBody 1) ∧ ReachesDisplacement s 1 (queueingBody 1) 412 (recordOf [0] []) ∧
      e.record 412 = some (recordOf [0] []) ∧ e.compatible (recordOf [0] []) .exclusive none = false ∧
      (queueingBody 1).waitTicks ≠ 0 ∧ (e.session 1).waitCount < (e.session 1).waitQuota.toNat ∧
      e.availableHold ≠ none ∧ e.lowestFreeWait = some 0 := by decide +kernel
theorem witness_AcquireIsQueued_conflict :
    let s := heard 1 (queueing 0) (held .shared)
    let e := tried .exclusive s
    AdmitsAcquire s 1 (queueing 0) 0 (queueingBody 0) ∧ ReachesDisplacement s 1 (queueingBody 0) 412 (recordOf [0] []) ∧
      e.record 412 = some (recordOf [0] []) ∧ e.compatible (recordOf [0] []) .exclusive none = false ∧
      (queueingBody 0).waitTicks = 0 := by decide +kernel
theorem witness_AcquireIsQueued_quota :
    let s := heard 1 (queueing 1) ((held .shared).modifySession 1 fun k => { k with waitQuota := 1, waitCount := 1 })
    let e := tried .exclusive s
    AdmitsAcquire s 1 (queueing 1) 0 (queueingBody 1) ∧ ReachesDisplacement s 1 (queueingBody 1) 412 (recordOf [0] []) ∧
      e.record 412 = some (recordOf [0] []) ∧ e.compatible (recordOf [0] []) .exclusive none = false ∧
      (e.session 1).waitQuota.toNat ≤ (e.session 1).waitCount := by decide +kernel
theorem witness_AcquireIsQueued_poolEmpty :
    let s := heard 1 (queueing 1) ((held .shared).setHoldCounts ⟨0, 0, 256⟩)
    let e := tried .exclusive s
    AdmitsAcquire s 1 (queueing 1) 0 (queueingBody 1) ∧ ReachesDisplacement s 1 (queueingBody 1) 412 (recordOf [0] []) ∧
      e.record 412 = some (recordOf [0] []) ∧ e.compatible (recordOf [0] []) .exclusive none = false ∧
      (e.session 1).waitCount < (e.session 1).waitQuota.toNat ∧ e.availableHold = none := by decide +kernel

/-! ### CONVERT -/

/-- A CONVERT of hold handle (0, g) with this target mode and wait ticks. -/
def cnv (g target ticks : Byte) : RxMessage := msg .convert 0x11 7 [0, g, target, 0, ticks, 0, 0]

theorem witness_Convert_badHandle :
    let s := heard 0 (cnv 2 2 0) (held .shared)
    Admits s 0 .convert (cnv 2 2 0) 0 ∧ (cnv 2 2 0).convertBody = some ⟨0, 2, .exclusive, 0, 0⟩ ∧
      s.ownNamedHold 0 0 2 = none := by decide +kernel
theorem witness_Convert_sameMode :
    let s := heard 0 (cnv 1 1 0) (held .shared)
    Admits s 0 .convert (cnv 1 1 0) 0 ∧ (cnv 1 1 0).convertBody = some ⟨0, 1, .shared, 0, 0⟩ ∧
      s.ownNamedHold 0 0 1 = some (0, ⟨.active, 0, 412, .shared, 1, 1000, none⟩) ∧
      s.record 412 = some (recordOf [0] []) := by decide +kernel
theorem witness_Convert_closing :
    let s := heard 0 (cnv 1 2 0) ((held .shared).setMark 3 true)
    Admits s 0 .convert (cnv 1 2 0) 0 ∧ (cnv 1 2 0).convertBody = some ⟨0, 1, .exclusive, 0, 0⟩ ∧
      s.ownNamedHold 0 0 1 = some (0, ⟨.active, 0, 412, .shared, 1, 1000, none⟩) ∧
      s.record 412 = some (recordOf [0] []) ∧ s.isClosing (domainOf (recordOf [0] []).key) = true := by decide +kernel
theorem witness_Downgrade :
    let s := heard 0 (cnv 1 1 0) (held .exclusive)
    Admits s 0 .convert (cnv 1 1 0) 0 ∧ (cnv 1 1 0).convertBody = some ⟨0, 1, .shared, 0, 0⟩ ∧
      s.ownNamedHold 0 0 1 = some (0, ⟨.active, 0, 412, .exclusive, 1, 1000, none⟩) ∧
      s.record 412 = some (recordOf [0] []) ∧ (recordOf [0] []).shareable = true := by decide +kernel
theorem witness_Downgrade_lapsed_notShareable :
    let x : Record := { recordOf [0] [] with kind := .pinned, shareable := false }
    let h : Hold := ⟨.lapsed, 0, 412, .exclusive, 1, 1000, none⟩
    let s := heard 0 (cnv 1 1 0) (((held .exclusive).setRecord 412 (some x)).setHold 0 (some h))
    Admits s 0 .convert (cnv 1 1 0) 0 ∧ (cnv 1 1 0).convertBody = some ⟨0, 1, .shared, 0, 0⟩ ∧
      s.ownNamedHold 0 0 1 = some (0, h) ∧ s.record 412 = some x ∧ x.shareable = false := by decide +kernel

/-- The hold of client 0, SHARED. -/
def sharedHold : Hold := ⟨.active, 0, 412, .shared, 1, 1000, none⟩

theorem witness_Upgrade_conflict :
    let x : Record := recordOf [0, 1] [0]
    let s := heard 0 (cnv 1 2 0) (((held .shared).setRecord 412 (some x)).setWait 0
      (some ⟨1, 412, .conversion ⟨1, 1⟩, .exclusive, 3, 0, 500, 1000, 0⟩))
    Admits s 0 .convert (cnv 1 2 0) 0 ∧ (cnv 1 2 0).convertBody = some ⟨0, 1, .exclusive, 0, 0⟩ ∧
      s.ownNamedHold 0 0 1 = some (0, sharedHold) ∧ s.record 412 = some x ∧ s.isClosing (domainOf x.key) = false ∧
      x.waitQueue.any s.isConversion = true := by decide +kernel

/-- After the recovery, which an ACTIVE hold does not need, and the displacement. -/
def raised (s : State) : State :=
  ((s.admitted 0 .convert 0).recover 0 sharedHold (s.timer.clock + (s.clampTerm 0 (recordOf [0] []) 0).setWidth 32)).displace
    0 412 .exclusive

theorem witness_Upgrade_atOnce :
    let s := heard 0 (cnv 1 2 0) (held .shared)
    Admits s 0 .convert (cnv 1 2 0) 0 ∧ (cnv 1 2 0).convertBody = some ⟨0, 1, .exclusive, 0, 0⟩ ∧
      s.ownNamedHold 0 0 1 = some (0, sharedHold) ∧ s.record 412 = some (recordOf [0] []) ∧
      s.isClosing (domainOf (recordOf [0] []).key) = false ∧ (recordOf [0] []).waitQueue.any s.isConversion = false ∧
      (raised s).record 412 = some (recordOf [0] []) ∧ (raised s).hold 0 = some sharedHold ∧
      (raised s).fence.exhausted = false := by decide +kernel
theorem witness_Upgrade_fence :
    let s := heard 0 (cnv 1 2 0) ((held .shared).setFence ⟨Config.lastFence, true⟩)
    Admits s 0 .convert (cnv 1 2 0) 0 ∧ s.ownNamedHold 0 0 1 = some (0, sharedHold) ∧
      (raised s).record 412 = some (recordOf [0] []) ∧ (raised s).hold 0 = some sharedHold ∧
      (raised s).fence.exhausted = true := by decide +kernel

/-- Client 1 holds the record SHARED too, in hold slot 1. -/
def both : State :=
  ((held .shared).setRecord 412 (some (recordOf [0, 1] []))).setHold 1 (some ⟨.active, 1, 412, .shared, 2, 1000, none⟩)

theorem witness_Upgrade_queued :
    let s := heard 0 (cnv 1 2 1) both
    let e := ((s.admitted 0 .convert 0).recover 0 sharedHold 1000).displace 0 412 .exclusive
    Admits s 0 .convert (cnv 1 2 1) 0 ∧ (cnv 1 2 1).convertBody = some ⟨0, 1, .exclusive, 1, 0⟩ ∧
      s.ownNamedHold 0 0 1 = some (0, sharedHold) ∧ s.record 412 = some (recordOf [0, 1] []) ∧
      e.record 412 = some (recordOf [0, 1] []) ∧ e.hold 0 = some sharedHold ∧ (recordOf [0, 1] []).holders ≠ [0] ∧
      (e.session 0).waitCount < (e.session 0).waitQuota.toNat ∧ e.lowestFreeWait = some 0 := by decide +kernel
theorem witness_Upgrade_noTicks :
    let s := heard 0 (cnv 1 2 0) both
    let e := ((s.admitted 0 .convert 0).recover 0 sharedHold 1000).displace 0 412 .exclusive
    Admits s 0 .convert (cnv 1 2 0) 0 ∧ (cnv 1 2 0).convertBody = some ⟨0, 1, .exclusive, 0, 0⟩ ∧
      s.ownNamedHold 0 0 1 = some (0, sharedHold) ∧ e.record 412 = some (recordOf [0, 1] []) ∧
      e.hold 0 = some sharedHold := by decide +kernel
theorem witness_Upgrade_quota :
    let s := heard 0 (cnv 1 2 1) (both.modifySession 0 fun k => { k with waitQuota := 0 })
    let e := ((s.admitted 0 .convert 0).recover 0 sharedHold 1000).displace 0 412 .exclusive
    Admits s 0 .convert (cnv 1 2 1) 0 ∧ s.ownNamedHold 0 0 1 = some (0, sharedHold) ∧
      e.record 412 = some (recordOf [0, 1] []) ∧ e.hold 0 = some sharedHold ∧
      (e.session 0).waitQuota.toNat ≤ (e.session 0).waitCount := by decide +kernel

/-- Every wait slot is in use. -/
def noFreeWait (s : State) : State :=
  s.setWaits (Vector.replicate 128 ⟨1, some ⟨2, 0, .new, .exclusive, 0, 0, 500, 1000, 0⟩⟩)

theorem witness_Upgrade_poolEmpty :
    let s := heard 0 (cnv 1 2 1) (noFreeWait both)
    let e := ((s.admitted 0 .convert 0).recover 0 sharedHold 1000).displace 0 412 .exclusive
    Admits s 0 .convert (cnv 1 2 1) 0 ∧ s.ownNamedHold 0 0 1 = some (0, sharedHold) ∧
      e.record 412 = some (recordOf [0, 1] []) ∧ e.hold 0 = some sharedHold ∧ e.lowestFreeWait = none := by decide +kernel

/-! ### RENEW, RELEASE, CANCEL, QUERY, VALIDATE -/

theorem witness_BadHandle_hold :
    let s := heard 1 (msg .renew 1 7 [0, 1, 0, 0]) (held .shared)
    Admits s 1 .renew (msg .renew 1 7 [0, 1, 0, 0]) 0 ∧ s.ownNamedHold 1 0 1 = none := by decide +kernel
theorem witness_BadHandle_wait :
    let s := heard 0 (msg .cancel 1 7 [128, 1]) waited
    Admits s 0 .cancel (msg .cancel 1 7 [128, 1]) 0 ∧ s.ownNamedWait 0 128 1 = none := by decide +kernel
theorem witness_RenewMovesTheDeadline :
    let s := heard 0 (msg .renew 1 7 [0, 1, 0, 0]) (held .shared)
    Admits s 0 .renew (msg .renew 1 7 [0, 1, 0, 0]) 0 ∧ s.ownNamedHold 0 0 1 = some (0, sharedHold) ∧
      s.record sharedHold.slot = some (recordOf [0] []) := by decide +kernel
theorem witness_Release :
    let s := heard 0 (msg .release 1 7 [0, 1]) waited
    Admits s 0 .release (msg .release 1 7 [0, 1]) 0 ∧ s.ownNamedHold 0 0 1 = some (0, sharedHold) := by decide +kernel
theorem witness_Cancel :
    let s := heard 1 (msg .cancel 1 7 [0, 1]) waited
    Admits s 1 .cancel (msg .cancel 1 7 [0, 1]) 0 ∧
      s.ownNamedWait 1 0 1 = some (0, ⟨1, 412, .new, .exclusive, 0, 0, 500, 1000, 0x21⟩) := by decide +kernel

theorem witness_Query_domain :
    let s := heard 1 (msg .query 1 7 keyBytes) (waited.modifySession 1 fun k => { k with domainMask := 0xFFF7 })
    Admits s 1 .query (msg .query 1 7 keyBytes) 0 ∧
      (s.session 1).domainMask.getLsbD (domainOf 0x30012A7C).toNat = false := by decide +kernel
theorem witness_Query_absent :
    let s := heard 1 (msg .query 1 7 keyBytes) base
    Admits s 1 .query (msg .query 1 7 keyBytes) 0 ∧
      (s.session 1).domainMask.getLsbD (domainOf 0x30012A7C).toNat = true ∧ s.lookup 0x30012A7C = none := by decide +kernel
theorem witness_Query_present :
    let s := heard 1 (msg .query 1 7 keyBytes) waited
    Admits s 1 .query (msg .query 1 7 keyBytes) 0 ∧
      (s.session 1).domainMask.getLsbD (domainOf 0x30012A7C).toNat = true ∧ s.lookup 0x30012A7C = some 412 ∧
      s.record 412 = some (recordOf [0] [0]) := by decide +kernel

/-- A VALIDATE of the key with this last byte of the fence, from client 1, which may ask it. -/
def val (f : Byte) : RxMessage := msg .validate 1 7 (keyBytes ++ [0, 0, 0, 0, 0, f])
def guarded (f : Byte) (s : State) : State := heard 1 (val f) (s.modifySession 1 fun k => { k with guardCapability := true })

theorem witness_Validate_notGuard :
    let s := heard 1 (val 1) (held .shared)
    Admits s 1 .validate (val 1) 0 ∧ (s.session 1).guardCapability = false := by decide +kernel
theorem witness_Validate_domain :
    let s := guarded 1 ((held .shared).modifySession 1 fun k => { k with domainMask := 0xFFF7 })
    Admits s 1 .validate (val 1) 0 ∧ (s.session 1).guardCapability = true ∧
      (s.session 1).domainMask.getLsbD (domainOf 0x30012A7C).toNat = false := by decide +kernel
theorem witness_Validate_closing :
    let s := guarded 1 ((held .shared).setMark 3 true)
    Admits s 1 .validate (val 1) 0 ∧ (s.session 1).guardCapability = true ∧
      (s.session 1).domainMask.getLsbD (domainOf 0x30012A7C).toNat = true ∧
      s.isClosing (domainOf 0x30012A7C) = true := by decide +kernel
theorem witness_Validate_absent :
    let s := guarded 1 base
    Admits s 1 .validate (val 1) 0 ∧ (s.session 1).guardCapability = true ∧
      s.isClosing (domainOf 0x30012A7C) = false ∧ s.lookup 0x30012A7C = none := by decide +kernel
theorem witness_Validate_otherFence :
    let s := guarded 2 (held .shared)
    Admits s 1 .validate (val 2) 0 ∧ s.lookup 0x30012A7C = some 412 ∧ s.record 412 = some (recordOf [0] []) ∧
      ∀ j ∈ (recordOf [0] []).holders, ∀ h ∈ s.hold j, h.fence ≠ 2 := by decide +kernel
theorem witness_Validate_vouched :
    let s := guarded 1 (held .shared)
    Admits s 1 .validate (val 1) 0 ∧ s.lookup 0x30012A7C = some 412 ∧ s.record 412 = some (recordOf [0] []) ∧
      (0 : HoldIx) ∈ (recordOf [0] []).holders ∧ s.hold 0 = some sharedHold ∧ sharedHold.fence = 1 ∧
      ∀ j : HoldIx, ∀ h ∈ s.hold j, h.fence = 1 → j = 0 := by decide +kernel

/-! ### The transmit path -/

/-- Link 0 with this many notices queued and this loss mark. -/
def noticing (n : Nat) (mark : Bool) : State := base.modifyLink 0 fun k =>
  { k with noticeQueue := List.replicate n ⟨0, 7, .lapsed ⟨0, 1⟩ 9⟩, lossMark := mark, lossCount := if mark then 65535 else 0 }

theorem witness_Notice_discarded : (dropping.link 0).enabled = false ∧ (base.session 2).state = .detached := by decide +kernel
theorem witness_Notice_lost : ((noticing 32 true).link 0).enabled = true ∧ ((noticing 32 true).session 0).state = .active ∧
    ((noticing 32 true).link 0).lossMark = true := by decide +kernel
theorem witness_Notice_full : ((noticing 32 false).link 0).enabled = true ∧ ((noticing 32 false).session 0).state = .active ∧
    ((noticing 32 false).link 0).lossMark = false ∧ 32 ≤ ((noticing 32 false).link 0).noticeQueue.length := by decide +kernel
theorem witness_Notice_queued : ((noticing 31 false).link 0).lossMark = false ∧
    ((noticing 31 false).link 0).noticeQueue.length < 32 := by decide +kernel

/-- A response. -/
def answer : Response := ⟨1, 7, .stale⟩
/-- A link whose oldest response is READY. -/
def readyLink : Link := { Link.reset with slots := Link.reset.slots.set 2 (.ready answer), responseQueue := [2] }

theorem witness_Transmitter_busy : ({ Link.reset with inFlight := some (.discards 7 1) } : Link).inFlight ≠ none := by decide
theorem witness_Transmitter_ready : readyLink.enabled = true ∧ readyLink.inFlight = none ∧ readyLink.responseQueue = 2 :: [] ∧
    readyLink.slots[(2 : Fin 4)] = .ready answer := by decide +kernel
theorem witness_Transmitter_discards : (∀ i ∈ Link.reset.responseQueue.head?, Link.reset.slots[i] ≠ .ready answer) ∧
    ({ Link.reset with discardCount := 1 } : Link).discardCount ≠ 0 := by decide +kernel
theorem witness_Transmitter_notice : ((noticing 1 false).link 0).discardCount = 0 ∧
    ((noticing 1 false).link 0).noticeQueue = ⟨0, 7, .lapsed ⟨0, 1⟩ 9⟩ :: [] := by decide +kernel
theorem witness_Transmitter_lost : ((noticing 0 true).link 0).discardCount = 0 ∧
    ((noticing 0 true).link 0).noticeQueue = [] ∧ ((noticing 0 true).link 0).lossCount ≠ 0 := by decide +kernel
theorem witness_Transmitter_nothing : Link.reset.discardCount = 0 ∧ Link.reset.noticeQueue = [] ∧ Link.reset.lossCount = 0 := by
  decide
theorem witness_Sent_response : ((answering (some (.response 1 answer)) [1]).link 0).inFlight = some (.response 1 answer) := by
  decide +kernel
theorem witness_Sent_notice : ((answering (some (.discards 7 1)) []).link 0).inFlight = some (.discards 7 1) := by decide +kernel

theorem witness_SentMessage_bytes : ∃ b bs, (InFlight.discards 7 258).bytes = b :: bs := ⟨_, _, rfl⟩
theorem witness_SentMessage_pong : (Reply.pong [1, 2, 3, 4] .active 9) = .pong [1, 2, 3, 4] .active 9 ∧
    ([1, 2, 3, 4] : List Byte).length = 4 := ⟨rfl, rfl⟩

/-- A link that sends a DISCARDS notice. -/
def sendingLink : Link := Link.reset.begin (.discards 7 258)
/-- The same as link 3, with a notice waiting. -/
def sendingNext : State := State.reset.modifyLink 3 fun _ => { sendingLink with noticeQueue := [⟨0, 7, .lapsed ⟨0, 1⟩ 9⟩] }

theorem witness_TransmitLine_rest : (State.reset.link 3).inFlight = none := by decide +kernel
theorem witness_TransmitLine_begins : sendingLink.inFlight = some (.discards 7 258) ∧
    ∃ c cs, (InFlight.discards 7 258).characters = c :: cs := ⟨rfl, _, _, rfl⟩
theorem witness_TransmitLine_next : (sendingNext.link 3).inFlight = some (.discards 7 258) ∧
    ((run (.messageSent 3) sendingNext).link 3).inFlight = some (.notice ⟨0, 7, .lapsed ⟨0, 1⟩ 9⟩) := by decide +kernel
theorem witness_TransmitLine_bit : 414 + 1 < 16 * ((25 : Byte).toNat + 1) ∧ 16 * ((25 : Byte).toNat + 1) ≤ 415 + 1 ∧
    0 < 16 * ((0 : Byte).toNat + 1) := by decide

/-! ### Holds and waits -/

theorem witness_ImmediateGrant : (held .shared).record 412 = some (recordOf [0] []) := by decide +kernel
theorem witness_QueuedRequest : (held .shared).wait 0 = none ∧ (held .shared).record 412 = some (recordOf [0] []) ∧
    (held .shared).hold 0 = some sharedHold := by decide +kernel

/-- Client 0's hold has a pending conversion, in wait slot 0. -/
def convertingHold : Hold := { sharedHold with conversion := some ⟨0, 1⟩ }
def conversionWait : Wait := ⟨0, 412, .conversion ⟨0, 1⟩, .exclusive, 3, 0, 500, 1000, 0x21⟩
def converting : State := ((both.setRecord 412 (some (recordOf [0, 1] [0]))).setHold 0 (some convertingHold)).setWaitSlot 0
  ⟨1, some conversionWait⟩

theorem witness_Ended_hold : waited.hold 0 = some sharedHold ∧ waited.record 412 = some (recordOf [0] [0]) ∧
    sharedHold.conversion = none := by decide +kernel
theorem witness_Ended_converting : converting.hold 0 = some convertingHold ∧
    converting.record 412 = some (recordOf [0, 1] [0]) ∧ convertingHold.conversion = some ⟨0, 1⟩ ∧
    converting.wait 0 = some conversionWait ∧ conversionWait.slot = convertingHold.slot ∧
    conversionWait.client = convertingHold.client := by decide +kernel

/-- Client 1's NEW wait. -/
def newWait : Wait := ⟨1, 412, .new, .exclusive, 0, 0, 500, 1000, 0x21⟩

theorem witness_Ended_wait : waited.wait 0 = some newWait ∧ waited.record 412 = some (recordOf [0] [0]) ∧
    newWait.purpose = .new := by decide +kernel
theorem witness_Granted_new : waited.record 412 = some (recordOf [0] [0]) ∧ waited.wait 0 = some newWait ∧
    newWait.slot = 412 ∧ waited.lowestFreeHold = some 1 := by decide +kernel
theorem witness_Granted_conversion : converting.record 412 = some (recordOf [0, 1] [0]) ∧
    converting.wait 0 = some conversionWait ∧ conversionWait.purpose = .conversion ⟨0, 1⟩ ∧
    converting.hold 0 = some convertingHold := by decide +kernel

/-- A DYNAMIC record that is left idle, and one that is held. -/
theorem witness_Settled_idle :
    ((base.setRecord 412 (some (recordOf [] []))).grantPass 412).record 412 = some (recordOf [] []) ∧
    (recordOf [] []).kind = .dynamic ∧ (recordOf [] []).idleDeadline = none := by decide +kernel
theorem witness_Settled_held : ((held .shared).grantPass 412).record 412 = some (recordOf [0] []) := by decide +kernel

/-- Two waits of the record: a NEW one of priority 2 before one of priority 1. -/
def ranked : State := (waited.setWait 1 (some { newWait with client := 2, priority := 2 })).setWait 2
  (some { newWait with client := 3, priority := 1 })

theorem witness_NewWait : (∀ v ∈ ([1, 2] : List WaitIx), (ranked.wait v).isSome = true) ∧
    ranked.wait 1 = some { newWait with client := 2, priority := 2 } ∧
    ranked.wait 2 = some { newWait with client := 3, priority := 1 } ∧ ranked.wait 0 = some newWait ∧
    newWait.purpose = .new := by decide +kernel
theorem witness_NewWait_order : ([1, 2] : List WaitIx).Pairwise ranked.mayPrecede := by
  have e1 := witness_NewWait.2.1
  have e2 := witness_NewWait.2.2.1
  simp only [List.pairwise_cons, List.mem_singleton, forall_eq, List.not_mem_nil, false_imp_iff, implies_true,
    List.Pairwise.nil, and_true]
  intro x y hx hy
  rw [e1] at hx
  rw [e2] at hy
  cases hx
  cases hy
  decide

/-- Client 0's hold is LAPSED, in this mode. -/
def lapsed (m : Mode) : State := (held m).modifyHold 0 fun h => { h with state := .lapsed }

theorem witness_Displace : waited.record 412 = some (recordOf [0] [0]) ∧ waited.record 0 = none ∧ waited.hold 1 = none := by
  decide +kernel
theorem witness_Displaced_exclusive : (lapsed .exclusive).hold 0 = some ⟨.lapsed, 0, 412, .exclusive, 1, 1000, none⟩ ∧
    (0 : HoldIx) ∈ (recordOf [0] []).holders.filter (fun i => ((lapsed .exclusive).hold i).any fun h =>
      h.state == .lapsed && h.client != 1) := by decide +kernel
theorem witness_Displaced_atCap : (∀ i ∈ (recordOf [0] []).holders, ∀ h ∈ (lapsed .shared).hold i, h.mode = .shared) ∧
    ({ recordOf [0] [] with holderCap := 1 } : Record).holderCap ≤ ({ recordOf [0] [] with holderCap := 1 } : Record).holders.length ∧
    (recordOf [0] []).holders.length < (recordOf [0] []).holderCap := by decide +kernel

/-! ### The Lease Timer and the Purge Unit -/

theorem witness_DeadlineList : ([⟨.hold 9, 3999, false⟩, ⟨.hold 12, 4000, false⟩, ⟨.wait 3, 4000, false⟩] :
    List DeadlineEntry).Pairwise (fun a b => b.precedes 4000 a = false) := by decide
/-- R57: a deadline just passed stands before one still to come, over the wrap of the clock. -/
theorem witness_DeadlineList_keys : distance 0 0xFFFFFFFF < distance 0 1 ∧ distance 0 0x7FFFFFFF ≠ -2147483648 ∧
    distance 0 0x80000001 ≠ -2147483648 := by decide
theorem witness_Due_next : (marked waited).deadlines = [] ++ ⟨.wait 0, 500, true⟩ :: [⟨.hold 0, 1000, true⟩] := by decide +kernel
theorem witness_Due_lease : (marked (held .shared)).nextMarked = some ⟨.hold 0, 1000, true⟩ ∧
    (marked (held .shared)).hold 0 = some sharedHold ∧ sharedHold.state = .active ∧
    (marked (held .shared)).record 412 = some (recordOf [0] []) ∧ (marked (held .shared)).device.graceTerm = 0 := by decide +kernel
theorem witness_Due_grace :
    let s := marked ((held .shared).setDevice { DeviceSettings.reset with graceTerm := 255 })
    s.nextMarked = some ⟨.hold 0, 1000, true⟩ ∧ s.hold 0 = some sharedHold ∧ s.record 412 = some (recordOf [0] []) ∧
      s.device.graceTerm ≠ 0 ∧ s.effectiveQueue (recordOf [0] []) = [] ∧ sharedHold.conversion = none ∧
      (s.session 0).state ≠ .purging := by decide +kernel
theorem witness_Due_lapsed : (marked (lapsed .shared)).nextMarked = some ⟨.hold 0, 1000, true⟩ ∧
    (marked (lapsed .shared)).hold 0 = some ⟨.lapsed, 0, 412, .shared, 1, 1000, none⟩ ∧
    (marked (lapsed .shared)).record 412 = some (recordOf [0] []) := by decide +kernel
theorem witness_Due_wait : (marked waited).nextMarked = some ⟨.wait 0, 500, true⟩ ∧ (marked waited).wait 0 = some newWait := by
  decide +kernel
theorem witness_Due_record : ({ base with deadlines := [⟨.record 412, 9, true⟩] } : State).nextMarked =
    some ⟨.record 412, 9, true⟩ := by decide +kernel

theorem witness_Purge_wait : (purging (.wait 127) waited).purge = ⟨[0], .wait 127⟩ := by decide +kernel
theorem witness_Purge_hold : (purging (.hold 255) waited).purge = ⟨[0], .hold 255⟩ := by decide +kernel
theorem witness_PurgeEnd : (purging (.hold 255) waited).purge.queue = 0 :: [] ∧
    ((purging (.hold 255) waited).session 0).afterPurge = some .detached := by decide +kernel

/-! ### Links and the port -/

theorem witness_Receiver_idle : (base.link 2).receiver = .idle := by decide +kernel
theorem witness_Receiver_hunt : ((base.setReceiver 2 .hunt).link 2).receiver = .hunt := by decide +kernel
theorem witness_Receiver_stopped : (dropping.link 0).receiver = .stopped := by decide +kernel
theorem witness_Receiver_second : ((hearing [2]).link 2).receiver = .inMessage [2] ⟨8, 25, 1, 0⟩ ∧ ([2] : List Byte).length = 1 ∧
    (1 : Byte).toNat < 2 ∧ 20 < (21 : Byte).toNat ∧ 2 ≤ (2 : Byte).toNat ∧ (20 : Byte).toNat ≤ 20 := by decide +kernel
theorem witness_Receiver_inner : ((hearing [2, 2]).link 2).receiver = .inMessage [2, 2] ⟨8, 25, 1, 0⟩ ∧
    2 ≤ ([2, 2] : List Byte).length ∧ ([2, 2] : List Byte).length + 1 ≠ 4 + (([2, 2] : List Byte).getD 1 0).toNat := by
  decide +kernel
theorem witness_Receiver_last : ((hearing [2, 2, 5, 7, 0x88]).link 2).receiver = .inMessage [2, 2, 5, 7, 0x88] ⟨8, 25, 1, 0⟩ ∧
    ([2, 2, 5, 7, 0x88] : List Byte).length + 1 = 4 + (([2, 2, 5, 7, 0x88] : List Byte).getD 1 0).toNat ∧
    checksumGood [2, 2, 5, 7, 0x88, 0xDA] = true ∧ checksumGood [2, 2, 5, 7, 0x88, 0xDB] = false ∧
    ((hearing [2, 2, 5, 7, 0x88]).link 2).rxQueue.length < 4 := by decide +kernel
theorem witness_Checksum : ([2, 2, 5, 7] : List Byte).length = 2 + (([2, 2, 5, 7] : List Byte).getD 1 0).toNat ∧
    crc16 [2, 2, 5, 7] = (0x88 : Byte) ++ (0xDA : Byte) := by decide +kernel
theorem witness_Receiver_full : 4 ≤ (((hearing [2, 2, 5, 7, 0x88]).modifyLink 2 fun k =>
    { k with rxQueue := List.replicate 4 (msg .detach 1 7 []) }).link 2).rxQueue.length := by decide +kernel
/-- Link 0 was disabled while a response of slot 1 was in flight. -/
def finishing : State := run (.linkDisable 0) (base.modifyLink 0 fun k =>
  { k with slots := k.slots.set 1 .sending, responseQueue := [1], inFlight := some (.response 1 answer) })

theorem witness_Link_enabledInFlight : (finishing.link 0).enabled = false ∧
    (finishing.link 0).inFlight = some (.response 1 answer) ∧ (finishing.link 0).responseQueue = [1] ∧
    ((run (.linkEnable 0) finishing).link 0).responseQueue = [1] := by decide +kernel
theorem witness_LinkIsDisabledAndEnabled : (base.link 0).enabled = true ∧ (dropping.link 0).enabled = false := by decide +kernel
/-- Link 0 was disabled while its receiver was inside a character. -/
def interrupted : State := run (.linkDisable 0) (base.modifyWire 0 fun w => { w with rx := .inside 25 [false], sampleClocks := 7 })

theorem witness_Link_enabledInside : (interrupted.link 0).enabled = false ∧
    interrupted.wires.links[(0 : Client)].rx = .inside 25 [false] := by decide +kernel
theorem witness_ReceiveLine_samples : (List.replicate 169 true)[16 * 10 + 8]? = some true ∧
    (List.replicate 8 false ++ [true]).length = 9 ∧ (List.replicate 168 false ++ [true]).length = 169 ∧
    sampledBit (List.replicate 169 false) 0 = false := by decide +kernel
theorem witness_ReceiveLine_clock : (base.link 2).receiver ≠ .stopped ∧ (dropping.link 0).receiver = .stopped ∧
    (24 : Nat) < (25 : Byte).toNat ∧ (25 : Byte).toNat ≤ 25 := by decide +kernel
theorem witness_ReceiveLine_stopBits : 1 ≤ (1 : BitVec 2).toNat ∧ (2 : BitVec 2).toNat ≤ 2 := by decide

/-- Link 2 is IN_MESSAGE, with a gap of this many clocks. -/
def pausing (n : Nat) : Link := { Link.reset with receiver := .inMessage [2] ⟨8, 25, 1, n⟩ }

theorem witness_Clock_gap : (pausing 36607).receiver = .inMessage [2] ⟨8, 25, 1, 36607⟩ ∧
    (LinkWire.reset.receive (pausing 36607) true).1.rx = .watching none ∧
    (LinkWire.reset.receive (pausing 36607) true).2 = none ∧
    8 * ((10 + (1 : BitVec 2).toNat) * (16 * ((25 : Byte).toNat + 1))) ≤ 36607 + 1 ∧
    36606 + 1 < 8 * ((10 + (1 : BitVec 2).toNat) * (16 * ((25 : Byte).toNat + 1))) := by decide
/-- The wire on which the last sample of a character is due, all of whose levels but the stop bit's are 0. -/
def atStopBit (stop : Bool) : LinkWire :=
  ⟨.inside 25 (List.replicate 160 false ++ List.replicate 8 stop), 25⟩
theorem witness_Clock_received : ((atStopBit true).receive Link.reset true).2 = some (.received ⟨0, false⟩) ∧
    ((atStopBit false).receive Link.reset false).2 = some .broken := by decide +kernel
theorem witness_Clock_falseStart :
    ((⟨.inside 25 (false :: List.replicate 7 true), 25⟩ : LinkWire).receive Link.reset true).2 = some .noCharacter := by
  decide +kernel

theorem witness_Spi_partial : (List.replicate 31 true).length < 32 ∧ (List.replicate 23 true).length < 24 ∧
    ({ Pins.atRest with chipSelect := false } : Pins).chipSelect = false := by decide
theorem witness_Spi_falls : (let x : SpiLine := ⟨true, true, msbFirst (3 : Byte) ++ msbFirst (0x0415 : Half) ++ [], []⟩;
    x.selected = true ∧ x.clockLevel = true ∧ ([] : List Bool).length % 32 = 0 ∧ x.bits.length = 24) := by decide +kernel
theorem witness_Window_purge : (purging (.wait 5) waited).purge.walk = .wait 5 ∧ (purging (.hold 255) waited).purge.walk = .hold 255 ∧
    waited.purge.walk = .idle ∧ waited.purge.queue.length ≤ 8 := by decide +kernel
theorem witness_Window_busy : (ordered .clearAll (params 0 0) base).admin.busy = .pending .clearAll (params 0 0) ∧
    base.admin.busy = .idle := by decide +kernel
theorem witness_Window_gaps : ∀ a : Half, a = 0x0006 ∨ a = 0x0104 ∨ a = 0x01FF ∨ a = 0x0202 ∨ a = 0x027F ∨ a = 0x0280 ∨ a = 0x04FF ∨
    a = 0x0502 ∨ a = 0x060E ∨ a = 0x070F ∨ a = 0x0790 ∨ a = 0x0890 ∨ a = 0xFFFF → windowWord a = none := by
  rintro a (rfl | rfl | rfl | rfl | rfl | rfl | rfl | rfl | rfl | rfl | rfl | rfl | rfl) <;> decide
theorem witness_Window_edges : windowWord 0x0005 ≠ none ∧ windowWord 0x0173 ≠ none ∧ windowWord 0x0271 ≠ none ∧
    windowWord 0x041B ≠ none ∧ windowWord 0x060D ≠ none ∧ windowWord 0x078F ≠ none ∧ windowWord 0x088F ≠ none := by decide
theorem witness_Setting_ignored : windowWord 0x0600 = some (.param 0) ∧ windowWord 0x0104 = none ∧ windowWord 0x0605 ≠ none ∧
    windowWord 0x0400 ≠ none ∧ windowWord 0x04FF = none := by decide
theorem witness_Command_accepted : base.admin.busy = .idle ∧ (0xFFFFFF0E : Word).extractLsb' 0 8 = AdminCommand.setHashSeed.code := by
  decide +kernel
theorem witness_Command_none : (0xFFFFFF00 : Word).extractLsb' 0 8 = 0 ∧ 0x0E < ((0x0F : Word).extractLsb' 0 8).toNat := by
  decide
theorem witness_Command_busy : (ordered .clearAll (params 0 0) base).admin.busy ≠ .idle := by decide +kernel

/-! ### Administrative commands -/

theorem witness_Awaits (c : AdminCommand) (p : Vector Word 4) (s : State) : Awaits (ordered c p s) c p := rfl

theorem witness_Install_cap : ((0x00000100 : Word).extractLsb' 8 4).toNat = 1 ∧ ((0x00000800 : Word).extractLsb' 8 4).toNat = 8 ∧
    ((0x00000000 : Word).extractLsb' 8 4).toNat = 0 ∧ 8 < ((0x00000900 : Word).extractLsb' 8 4).toNat := by decide
theorem witness_Install_placed : (ordered .installRecord (params 0x30012A7C 0x100) base).lookup 0x30012A7C = none ∧
    (ordered .installRecord (params 0x30012A7C 0x100) base).placeFor 0x30012A7C = some 412 := by decide +kernel
theorem witness_Install_full : (fullBucket none none none).lookup 0x30012A7C = none ∧
    (fullBucket none none none).placeFor 0x30012A7C = none := by decide +kernel
theorem witness_Install_present : waited.lookup 0x30012A7C = some 412 ∧ waited.record 412 = some (recordOf [0] [0]) ∧
    (0 : HoldIx) ∈ (recordOf [0] [0]).holders ∧ waited.hold 0 = some sharedHold ∧ sharedHold.mode = .shared := by decide +kernel
theorem witness_Install_agrees : (held .exclusive).record 412 = some (recordOf [0] []) ∧ (recordOf [0] []).holders.length ≤ 1 ∧
    ∀ i ∈ (recordOf [0] []).holders, ∀ h ∈ (held .exclusive).hold i, h.mode ≠ .shared := by decide +kernel
theorem witness_Unpin : (recordOf [0] []).kind = .dynamic ∧ ({ recordOf [0] [] with kind := .pinned } : Record).kind = .pinned ∧
    ((held .shared).setRecord 412 (some { recordOf [0] [] with kind := .pinned })).lookup 0x30012A7C = some 412 := by decide +kernel
theorem witness_Remove : waited.lookup 0x30012A7C = some 412 ∧ base.lookup 0x30012A7C = none := by decide +kernel
theorem witness_RemoveDomain : 15 < (16 : Word).toNat ∧ (15 : Word).toNat ≤ 15 := by decide
theorem witness_RemoveDomain_first : (base.setRecord 0 (some (recordOf [] []))).record 0 = some (recordOf [] []) ∧
    domainOf (recordOf [] []).key = (3 : Word).extractLsb' 0 4 ∧ base.record 0 = none := by decide +kernel

/-- The walk of domain 3 is at this slot. -/
def walking (r : Slot) (s : State) : State := s.setAdmin { s.admin with busy := .walking ⟨3, r, 0, 0, 0⟩ }

theorem witness_Walk_step : (walking 412 waited).admin.busy = .walking ⟨3, 412, 0, 0, 0⟩ ∧
    (walking 412 waited).record 412 = some (recordOf [0] [0]) ∧ domainOf (recordOf [0] [0]).key = 3 := by decide +kernel
theorem witness_Walk_ends : (walking 1023 waited).admin.busy = .walking ⟨3, 1023, 0, 0, 0⟩ ∧
    (walking 1023 waited).record 1023 = none := by decide +kernel
theorem witness_Revoke : ((0x0001 : Word).extractLsb' 8 8).toNat = (0 : HoldIx).val ∧ waited.hold 0 = some sharedHold ∧
    (waited.holdSlot 0).generation = (0x0001 : Word).extractLsb' 0 8 ∧
    (waited.holdSlot 255).occupant = none := by decide +kernel
theorem witness_CancelWait : ((0x0001 : Word).extractLsb' 8 8).toNat = (0 : WaitIx).val ∧ waited.wait 0 = some newWait ∧
    (waited.waitSlot 0).generation = (0x0001 : Word).extractLsb' 0 8 := by decide +kernel
theorem witness_CancelWait_beyond (w : WaitIx) : ((0x8001 : Word).extractLsb' 8 8).toNat ≠ w.val := by
  have := w.isLt
  have e : ((0x8001 : Word).extractLsb' 8 8).toNat = 128 := by decide
  omega
theorem witness_Read : 1023 < (1024 : Word).toNat ∧ 1 < (2 : Word).toNat ∧ (412 : Word).toNat = (412 : Slot).val ∧
    255 < (256 : Word).toNat ∧ (255 : Word).toNat = (255 : HoldIx).val ∧ 127 < (128 : Word).toNat ∧
    (127 : Word).toNat = (127 : WaitIx).val ∧ waited.hold 255 = none ∧ waited.wait 127 = none ∧
    waited.record 1023 = none := by decide +kernel
theorem witness_SetClientState : 7 < (8 : Word).toNat ∧ 5 < (6 : Word).toNat ∧ (7 : Word).toNat = (7 : Client).val ∧
    (base.session 7).state = .detached ∧ (base.session 0).state = .active := by decide +kernel
theorem witness_Snapshot : 1 < (2 : Word).toNat ∧ 255 < (256 : Word).toNat ∧ (255 : Word).toNat ≤ 255 := by decide
theorem witness_Seed_inUse : ∃ r x, waited.record r = some x := ⟨412, recordOf [0] [0], by decide +kernel⟩
theorem witness_Seed_free (r : Slot) : base.record r = none := by
  simp [base, State.record, State.setSessions, State.reset]
theorem witness_ClearAll : ∃ u, u = waited.clearPart := ⟨_, rfl⟩

end Sys2Proof.Tests
end

