-- ==== Sys2Proof/Tests/Lawful.lean ====
section
/-! SUPPORT. A state that obeys every law and is not empty: the state `waited`, in which client 0 holds a record SHARED and client 1
waits for it. It meets the hypotheses of the statements over lawful states. -/

namespace Sys2Proof.Tests

open Sys2Proof Sys2Proof.Machine

set_option Elab.async false

theorem waited_record (r : Slot) : waited.record r = if r = 412 then some (recordOf [0] [0]) else none := by
  have : waited.record r = (State.reset.records.set (412 : Slot) (some (recordOf [0] [0])))[r] := rfl
  rw [this, getElem_set_fin]
  simp [State.reset, eq_comm]

theorem waited_hold (i : HoldIx) : waited.hold i = if i = 0 then some sharedHold else none := by
  have : waited.hold i = ((State.reset.holds.set (0 : HoldIx) ⟨1, some sharedHold⟩)[i]).occupant := rfl
  rw [this, getElem_set_fin]
  by_cases h : i = 0
  · subst h; rfl
  · have h' : ¬(0 : HoldIx) = i := fun e => h e.symm
    rw [if_neg h, if_neg h']
    simp [State.reset]

theorem waited_wait (w : WaitIx) : waited.wait w = if w = 0 then some newWait else none := by
  have : waited.wait w = ((State.reset.waits.set (0 : WaitIx) ⟨1, some newWait⟩)[w]).occupant := rfl
  rw [this, getElem_set_fin]
  by_cases h : w = 0
  · subst h; rfl
  · have h' : ¬(0 : WaitIx) = w := fun e => h e.symm
    rw [if_neg h, if_neg h']
    simp [State.reset]

theorem waited_link (l : Client) : waited.link l = Link.reset := by
  have : waited.link l = State.reset.links[l] := rfl
  rw [this]
  simp [State.reset]

theorem waited_session (c : Client) :
    waited.session c = if c = 0 then opened 1 0 else if c = 1 then opened 1 1 else Session.reset := by
  revert c
  decide +kernel

theorem waited_tableLaw : TableLaw waited := by
  constructor <;> simp only [waited_record]
  · intro r x h
    split at h
    · rename_i e; cases h; subst e; decide +kernel
    · cases h
  · intro r q x y h h' _
    split at h <;> split at h' <;> simp_all
  · intro r x h
    split at h
    · cases h; decide
    · cases h
  · intro r x h _
    split at h
    · cases h; decide
    · cases h
  · intro r x h
    split at h
    · cases h; decide
    · cases h

theorem witness_LookupFindsTheKey : TableLaw waited ∧ waited.record 412 = some (recordOf [0] [0]) ∧
    ∀ r x, waited.record r = some x → x.key ≠ 0 := by
  refine ⟨waited_tableLaw, by rw [waited_record, if_pos rfl], fun r x h => ?_⟩
  rw [waited_record] at h
  split at h
  · cases h; decide
  · cases h

theorem waited_referenceLaw : ReferenceLaw waited := by
  constructor <;> simp only [waited_record, waited_hold, waited_wait]
  · intro r x i h hi
    split at h
    · rename_i e; cases h; subst e
      have : i = 0 := by simpa [recordOf] using hi
      subst this
      exact ⟨sharedHold, rfl, rfl⟩
    · cases h
  · intro i h hh
    split at hh
    · rename_i e; cases hh; subst e; exact ⟨recordOf [0] [0], rfl, by decide⟩
    · cases hh
  · intro r x h
    split at h
    · cases h; decide
    · cases h
  · intro r x w h hw
    split at h
    · rename_i e; cases h; subst e
      have : w = 0 := by simpa [recordOf] using hw
      subst this
      exact ⟨newWait, rfl, rfl⟩
    · cases h
  · intro w y hy
    split at hy
    · rename_i e; cases hy; subst e; exact ⟨recordOf [0] [0], rfl, by decide⟩
    · cases hy
  · intro r x h
    split at h
    · cases h; decide
    · cases h
  · intro i h v hh hv
    split at hh
    · cases hh; cases hv
    · cases hh
  · intro w y v hy hv
    split at hy
    · cases hy; cases hv
    · cases hy

theorem waited_poolLaw : PoolLaw waited := by
  have e1 : waited.holdsInUse = 1 := by
    unfold State.holdsInUse
    simp only [waited_hold]
    decide +kernel
  have e2 : waited.newWaits = 1 := by
    unfold State.newWaits
    simp only [waited_wait]
    decide +kernel
  exact ⟨rfl, e1.symm, e2.symm⟩

theorem witness_GrantPassGrantsFromTheHead : ReferenceLaw waited ∧ PoolLaw waited := ⟨waited_referenceLaw, waited_poolLaw⟩

/-! ### A head that a grant pass can grant -/

/-- Client 0's hold has ended, and the pass that follows has not run: client 1's wait is compatible. -/
def headed : State := waited.freeHold 0 sharedHold

theorem headed_record (r : Slot) : headed.record r = if r = 412 then some (recordOf [] [0]) else none := by
  have : headed.record r = ((State.reset.records.set (412 : Slot) (some (recordOf [0] [0]))).set (412 : Slot)
    (some (recordOf [] [0])))[r] := rfl
  rw [this, getElem_set_fin, getElem_set_fin]
  by_cases h : r = 412
  · subst h; rfl
  · have h' : ¬(412 : Slot) = r := fun e => h e.symm
    rw [if_neg h, if_neg h', if_neg h']
    simp [State.reset]

theorem headed_hold (i : HoldIx) : headed.hold i = none := by
  have : headed.hold i = (((State.reset.holds.set (0 : HoldIx) ⟨1, some sharedHold⟩).set (0 : HoldIx) ⟨1, none⟩)[i]).occupant := rfl
  rw [this, getElem_set_fin, getElem_set_fin]
  by_cases h : (0 : HoldIx) = i
  · rw [if_pos h]
  · rw [if_neg h, if_neg h]
    simp [State.reset]

theorem headed_wait (w : WaitIx) : headed.wait w = if w = 0 then some newWait else none := by
  rw [← waited_wait]
  simp [headed, State.freeHold, State.freeConversion, sharedHold]

theorem headed_referenceLaw : ReferenceLaw headed := by
  constructor <;> simp only [headed_record, headed_hold, headed_wait]
  · intro r x i h hi
    split at h
    · cases h; cases hi
    · cases h
  · intro i h hh; cases hh
  · intro r x h
    split at h
    · cases h; decide
    · cases h
  · intro r x w h hw
    split at h
    · rename_i e; cases h; subst e
      have : w = 0 := by simpa [recordOf] using hw
      subst this
      exact ⟨newWait, rfl, rfl⟩
    · cases h
  · intro w y hy
    split at hy
    · rename_i e; cases hy; subst e; exact ⟨recordOf [] [0], rfl, by decide⟩
    · cases hy
  · intro r x h
    split at h
    · cases h; decide
    · cases h
  · intro i h v hh; cases hh
  · intro w y v hy hv
    split at hy
    · cases hy; cases hv
    · cases hy

theorem headed_poolLaw : PoolLaw headed := by
  have e1 : headed.holdsInUse = 0 := by
    unfold State.holdsInUse
    simp only [headed_hold]
    decide +kernel
  have e2 : headed.newWaits = 1 := by
    unfold State.newWaits
    simp only [headed_wait]
    decide +kernel
  exact ⟨rfl, e1.symm, e2.symm⟩

theorem witness_GrantPass_compatible : ReferenceLaw headed ∧ PoolLaw headed ∧ headed.record 412 = some (recordOf [] [0]) ∧
    headed.effectiveQueue (recordOf [] [0]) = 0 :: [] ∧ headed.wait 0 = some newWait ∧
    headed.waitCompatible (recordOf [] [0]) newWait = true ∧ headed.fence.exhausted = false :=
  ⟨headed_referenceLaw, headed_poolLaw, by decide +kernel, by decide +kernel, by decide +kernel, by decide +kernel,
    by decide +kernel⟩

/-- No fence is left. -/
def fenceless : State := headed.setFence ⟨Config.lastFence, true⟩

theorem witness_GrantPass_exhausted : ReferenceLaw fenceless ∧ PoolLaw fenceless ∧
    fenceless.record 412 = some (recordOf [] [0]) ∧ fenceless.effectiveQueue (recordOf [] [0]) = 0 :: [] ∧
    fenceless.waitCompatible (recordOf [] [0]) newWait = true ∧ fenceless.fence.exhausted = true :=
  ⟨{ headed_referenceLaw with }, { headed_poolLaw with }, by decide +kernel, by decide +kernel, by decide +kernel, rfl⟩

theorem witness_GrantPass_incompatible : waited.record 412 = some (recordOf [0] [0]) ∧
    waited.effectiveQueue (recordOf [0] [0]) = 0 :: [] ∧ waited.waitCompatible (recordOf [0] [0]) newWait = false ∧
    waited.record 0 = none := by decide +kernel

theorem linkLaw_reset : LinkLaw Link.reset := by
  constructor <;> simp [Link.reset]

theorem waited_linksLaw : LinksLaw waited := fun l => by rw [waited_link]; exact linkLaw_reset

theorem waited_sessionsLaw : SessionsLaw waited := by
  refine ⟨fun c => ?_, by decide +kernel, by decide +kernel⟩
  have hq : waited.purge.queue = [] := rfl
  have hp : (waited.link c).inProgress = none := by rw [waited_link]; rfl
  have hs := waited_session c
  constructor <;> simp only [hq, hp, hs] <;> (split <;> [skip; split]) <;> simp [opened, Session.reset]

theorem waited_fenceLaw : FenceLaw waited := by
  constructor <;> try simp only [waited_record, waited_hold]
  · decide +kernel
  · intro h
    exact absurd h (by decide +kernel)
  · intro i h hh
    split at hh
    · cases hh; decide +kernel
    · cases hh
  · intro i j h k hh hk _
    split at hh <;> split at hk <;> simp_all
  · intro r x h
    split at h
    · cases h; decide +kernel
    · cases h

theorem waited_holderLaw : HolderLaw waited := by
  constructor <;> simp only [waited_record, waited_hold, waited_wait]
  · intro r x h
    split at h
    · cases h; decide
    · cases h
  · intro r x i h hr hi hh hm
    split at hh
    · cases hh; cases hm
    · cases hh
  · intro r x i h hr hs
    split at hr
    · cases hr; cases hs
    · cases hr
  · intro r x i h hr hs
    split at hr
    · cases hr; cases hs
    · cases hr
  · intro i j h k hh hk _ _
    split at hh <;> split at hk <;> simp_all
  · intro i j h k hh hk _ _
    split at hh <;> split at hk <;> simp_all
  · intro i h w y hh hy _ hc
    split at hh
    · split at hy
      · cases hh; cases hy; exact absurd hc (by decide)
      · cases hy
    · cases hh

theorem witness_View_laws : ReferenceLaw waited ∧ HolderLaw waited ∧ waited.record 412 = some (recordOf [0] [0]) :=
  ⟨waited_referenceLaw, waited_holderLaw, by decide +kernel⟩

theorem waited_queueLaw : QueueLaw waited := by
  intro r x h
  rw [waited_record] at h
  split at h
  · cases h; simp [recordOf]
  · cases h

theorem waited_grantLaw : GrantLaw waited := by
  intro _ r x w y hr hw hy
  rw [waited_record] at hr
  split at hr
  · cases hr
    rw [waited_wait] at hy
    split at hy
    · cases hy; rfl
    · cases hy
  · cases hr

theorem waited_countLaw : CountLaw waited := by
  constructor <;> simp only [waited_hold, waited_wait, waited_session] <;> decide +kernel

theorem waited_deadlineLaw : DeadlineLaw waited := by
  have e : waited.deadlines = [⟨.wait 0, 500, false⟩, ⟨.hold 0, 1000, false⟩] := rfl
  constructor
  · rw [e]; decide
  · intro ref d
    rw [e]
    cases ref with
    | hold i =>
      simp only [State.deadlineOf, waited_hold]
      by_cases h : i = 0 <;> simp [h, sharedHold, eq_comm]
    | wait w =>
      simp only [State.deadlineOf, waited_wait]
      by_cases h : w = 0 <;> simp [h, newWait, eq_comm]
    | record r =>
      simp only [State.deadlineOf, waited_record]
      by_cases h : r = 412 <;> simp [h, recordOf]

theorem waited_ownerLaw : OwnerLaw waited := by
  have hq : waited.purge.queue.head? = none := rfl
  constructor <;> try simp only [waited_hold, waited_wait, hq]
  · intro i h hh
    split at hh
    · cases hh; rw [waited_session]; decide
    · cases hh
  · intro w y hy
    split at hy
    · cases hy; rw [waited_session]; decide
    · cases hy
  · intro c _; rw [waited_link]; rfl
  all_goals simp

theorem waited_markLaw : MarkLaw waited := by
  intro d
  have h1 : waited.isClosing d = false := by revert d; decide +kernel
  have h2 : waited.admin.busy = .idle := rfl
  simp [h1, h2]

theorem waited_lawful : Lawful waited :=
  ⟨waited_linksLaw, waited_sessionsLaw, waited_fenceLaw, waited_tableLaw, waited_referenceLaw, waited_holderLaw,
    waited_queueLaw, waited_grantLaw, waited_poolLaw, waited_countLaw, waited_deadlineLaw, waited_ownerLaw, waited_markLaw⟩

/-- No law speaks of the queue of commands. -/
theorem lawful_setPending {s : State} (h : Lawful s) (q : List Instr) : Lawful (s.setPending q) where
  links := h.links
  sessions := ⟨fun c => { h.sessions.each c with }, h.sessions.once, h.sessions.walk⟩
  fences := { h.fences with }
  table := { h.table with }
  references := { h.references with }
  holders := { h.holders with }
  queues := h.queues
  grants := h.grants
  pool := { h.pool with }
  counts := { h.counts with }
  deadlines := { h.deadlines with }
  owners := { h.owners with }
  marks := h.marks

/-- A tick in a lawful state with a holder and a waiter. -/
theorem witness_EveryStepKeepsTheLaws : Lawful (waited.setPending [.tick]) ∧ ∃ t, step (waited.setPending [.tick]) = .next t :=
  ⟨lawful_setPending waited_lawful _, _, rfl⟩

theorem witness_SessionsKeepTheirLaws : SessionsLaw waited := waited_sessionsLaw
theorem witness_FencesKeepTheirLaw : FenceLaw waited ∧ Instr.tick ≠ .powerOnReset ∧ (∃ t, exec .tick waited = .next t) ∧
    ({ waited with fence := ⟨Config.lastFence, true⟩ } : State).fence.exhausted = true :=
  ⟨waited_fenceLaw, by decide, ⟨_, rfl⟩, rfl⟩

theorem witness_SettingsAndLinksKeepTheirLaws : SettingsLaw waited ∧ LinksLaw waited := by
  refine ⟨?_, waited_linksLaw⟩
  constructor <;> try simp only [waited_session, waited_link]
  · decide +kernel
  · decide +kernel
  · decide +kernel
  · decide +kernel
  all_goals decide +kernel

theorem witness_RequestedTermIsClamped : SettingsLaw waited := witness_SettingsAndLinksKeepTheirLaws.1

theorem witness_OnlyItsCommandsChangeASetting : (∃ t, exec .tick waited = .next t) ∧ Instr.tick ≠ .powerOnReset :=
  ⟨⟨_, rfl⟩, by decide⟩

end Sys2Proof.Tests
end

