-- ==== Sys2Proof/Proofs/Reset.lean ====
section
/-! PROOFS. Reading the state right after power-on reset: its values (O2) and its laws (O55). -/

namespace Sys2Proof.Machine

open Sys2Proof

/-! ### One element of the reset state -/

@[simp] theorem record_reset (r : Slot) : State.reset.record r = none := by simp [State.record, State.reset]
@[simp] theorem holdSlot_reset (i : HoldIx) : State.reset.holdSlot i = ⟨0, none⟩ := by
  simp [State.holdSlot, State.reset]
@[simp] theorem hold_reset (i : HoldIx) : State.reset.hold i = none := by simp [State.hold]
@[simp] theorem waitSlot_reset (w : WaitIx) : State.reset.waitSlot w = ⟨0, none⟩ := by
  simp [State.waitSlot, State.reset]
@[simp] theorem wait_reset (w : WaitIx) : State.reset.wait w = none := by simp [State.wait]
@[simp] theorem session_reset (c : Client) : State.reset.session c = Session.reset := by
  simp [State.session, State.reset]
@[simp] theorem link_reset (l : Client) : State.reset.link l = Link.reset := by simp [State.link, State.reset]
@[simp] theorem isClosing_reset (d : BitVec 4) : State.reset.isClosing d = false := by
  simp [State.isClosing, State.reset]

/-- Settles O2, field by field. -/
theorem powerOnResetValues : Obligations.PowerOnResetValues := by
  refine ⟨fun s => rfl, record_reset, rfl, isClosing_reset, holdSlot_reset, rfl, waitSlot_reset, rfl, rfl, rfl, rfl, rfl,
    rfl, rfl, rfl, rfl, rfl, rfl, session_reset, link_reset, rfl, rfl, rfl, rfl, rfl, fun l => ?_, fun c => ?_, rfl, rfl,
    rfl, rfl, fun l => ⟨?_, ?_⟩⟩
  · simp [State.reset, CounterBank.zero, LinkCounters.zero]
  · simp [State.reset, CounterBank.zero, ClientCounters.zero]
  · simp [State.reset, Wires.reset, LinkWire.reset]
  · simp [State.transmitLevel, Link.reset]

/-! ### The laws of the reset state -/

theorem settingsLaw_reset : SettingsLaw State.reset := by
  constructor <;> (try simp only [session_reset, link_reset, forall_const]) <;> decide

theorem linkLaw_linkReset : LinkLaw Link.reset := by
  constructor <;> simp [Link.reset]

theorem sessionsLaw_reset : SessionsLaw State.reset := by
  have hq : State.reset.purge = ⟨[], .idle⟩ := rfl
  refine ⟨fun c => ?_, by simp [hq], by simp [hq]⟩
  constructor <;> simp [hq, Session.reset, Link.reset]

theorem fenceLaw_reset : FenceLaw State.reset := by
  have hf : State.reset.fence = ⟨1, false⟩ := rfl
  constructor <;> simp [hf]

theorem poolLaw_reset : PoolLaw State.reset := by
  have hc : State.reset.holdCounts = ⟨256, 0, 0⟩ := rfl
  constructor <;> simp [hc, State.holdsInUse, State.newWaits]

theorem deadlineLaw_reset : DeadlineLaw State.reset := by
  have hd : State.reset.deadlines = [] := rfl
  refine ⟨by simp [hd], fun ref d => ?_⟩
  cases ref <;> simp [hd, State.deadlineOf]

theorem markLaw_reset : MarkLaw State.reset := by
  have hb : State.reset.admin.busy = .idle := rfl
  intro d
  simp [hb]

theorem lawful_reset : Lawful State.reset where
  links l := by rw [link_reset]; exact linkLaw_linkReset
  sessions := sessionsLaw_reset
  fences := fenceLaw_reset
  table := by constructor <;> simp
  references := by constructor <;> simp
  holders := by constructor <;> simp
  queues := by intro r x h; simp at h
  grants := by intro _ r x w y h; simp at h
  pool := poolLaw_reset
  counts := by constructor <;> simp [Session.reset]
  deadlines := deadlineLaw_reset
  owners := by
    have hq : State.reset.purge = ⟨[], .idle⟩ := rfl
    constructor <;> simp [hq, Link.reset]
  marks := markLaw_reset

/-- Settles O55, law by law. -/
theorem resetObeysTheLaws : Obligations.ResetObeysTheLaws := ⟨settingsLaw_reset, lawful_reset⟩

end Sys2Proof.Machine
end

