-- ==== Sys2Proof/Proofs/Table.lean ====
section
/-! PROOFS. Keys, buckets, lookup and placement (O3, O4, O5). -/

namespace Sys2Proof.Machine

open Sys2Proof

/-! ### The ways of a bucket -/

theorem mem_slotsOf (b : BitVec 8) (r : Slot) : r ∈ slotsOf b ↔ ∃ way : Fin 4, r.val = 4 * b.toNat + way.val := by
  simp [slotsOf, slotOf, Fin.ext_iff, eq_comm]

theorem slotsOf_sorted (b : BitVec 8) : (slotsOf b).Pairwise (· < ·) :=
  List.Pairwise.map _ (fun _ _ h => Fin.mk_lt_mk.2 (Nat.add_lt_add_left h _))
    (List.sortedLT_iff_pairwise.1 (List.sortedLT_finRange 4))

/-- Settles O3: the bytes are cut out of the key again, and the ways are the slots of the bucket. -/
theorem bucketIsTheXorOfBytesAndSeed : Obligations.BucketIsTheXorOfBytesAndSeed := by
  refine ⟨fun a b c d seed => ?_, fun s key r => mem_slotsOf _ r⟩
  have bytes : (a ++ b ++ c ++ d).extractLsb' 24 8 = a ∧ (a ++ b ++ c ++ d).extractLsb' 16 8 = b ∧
      (a ++ b ++ c ++ d).extractLsb' 8 8 = c ∧ (a ++ b ++ c ++ d).extractLsb' 0 8 = d := by
    refine ⟨?_, ?_, ?_, ?_⟩ <;> ext i hi <;> simp <;> grind
  obtain ⟨ha, hb, hc, hd⟩ := bytes
  unfold bucketOf
  rw [ha, hb, hc, hd]

/-! ### Lookup (R5) -/

theorem slotHasKey_iff (s : State) (key : Word) (r : Slot) :
    s.slotHasKey key r = true ↔ ∃ x, s.record r = some x ∧ x.key = key := by
  unfold State.slotHasKey
  cases s.record r <;> simp

theorem lookup_some {s : State} {key : Word} {r : Slot} (h : s.lookup key = some r) :
    r ∈ s.waysOf key ∧ ∃ x, s.record r = some x ∧ x.key = key :=
  ⟨List.mem_of_find?_eq_some h, (slotHasKey_iff ..).1 (List.find?_some h)⟩

theorem lookup_none_iff (s : State) (key : Word) :
    s.lookup key = none ↔ ∀ r ∈ s.waysOf key, ∀ x, s.record r = some x → x.key ≠ key := by
  unfold State.lookup
  simp only [List.find?_eq_none, slotHasKey_iff]
  exact ⟨fun h r hr x hx he => h r hr ⟨x, hx, he⟩, fun h r hr ⟨x, hx, he⟩ => h r hr x hx he⟩

/-- Settles O4: the record lies in a way of its key, and no other way has the key. -/
theorem lookupFindsTheKey : Obligations.LookupFindsTheKey := by
  refine fun s key law => ⟨fun r x hx hk => ?_, fun h => (lookup_none_iff s key).2 fun r _ => h r⟩
  subst hk
  cases hl : s.lookup x.key with
  | none => exact absurd rfl ((lookup_none_iff s x.key).1 hl r (law.place r x hx) x hx)
  | some q =>
    obtain ⟨_, y, hy, hk⟩ := lookup_some hl
    rw [law.key q r y x hy hx hk]

/-! ### Placement (R16, R17) -/

theorem distance_eq (now d : Word) : distance now d =
    if (d - now).toNat < 2147483648 then ((d - now).toNat : Int) else ((d - now).toNat : Int) - 4294967296 := by
  unfold distance
  rw [BitVec.toInt_eq_toNat_cond]
  split <;> split <;> omega

theorem place_eq (s : State) (r : Slot) (x : Record) : s.place r x = { s with
    records := s.records.set r (some x), deadlines := s.deadlines.filter fun e => e.ref != .record r } := by
  simp [State.place, State.retire, State.setRecord, State.setRecords, State.removeEntry, State.setDeadlines]

@[simp] theorem record_place (s : State) (r q : Slot) (x : Record) :
    (s.place r x).record q = if r = q then some x else s.record q := by
  rw [place_eq]
  exact getElem_set_fin s.records r q (some x)

theorem idleDistance_eq_some {s : State} {r : Slot} {z : Int} : s.idleDistance r = some z ↔
    ∃ x d, s.record r = some x ∧ x.idleDeadline = some d ∧ distance s.now d = z := by
  unfold State.idleDistance
  cases s.record r <;> simp

/-- Way r of these is an idle one whose deadline is the earliest, and the lowest of those with the same distance. -/
def State.EarliestIdle (s : State) (ways : List Slot) (r : Slot) : Prop :=
  r ∈ ways ∧ ∃ d, s.idleDistance r = some d ∧
    ∀ q ∈ ways, ∀ e, s.idleDistance q = some e → d < e ∨ d = e ∧ r ≤ q

/-- One step of the search for the earliest idle way: either way q is not idle and the candidate stays, or the new candidate is the
earlier one of the two. -/
theorem earlierIdle_cases (s : State) (best : Option Slot) (q : Slot) :
    s.idleDistance q = none ∧ s.earlierIdle best q = best ∨
    ∃ d, s.idleDistance q = some d ∧
      ((∀ b ∈ best, ∀ e, s.idleDistance b = some e → d < e) ∧ s.earlierIdle best q = some q ∨
        ∃ b e, best = some b ∧ s.idleDistance b = some e ∧ e ≤ d ∧ s.earlierIdle best q = some b) := by
  unfold State.earlierIdle
  cases hq : s.idleDistance q with
  | none => simp
  | some d =>
    cases best with
    | none => simp
    | some b =>
      cases hb : s.idleDistance b with
      | none => simp [hb]
      | some e => by_cases h : d < e <;> simp_all

/-- The search over ascending ways, none of them below the candidate it starts with. -/
theorem foldl_earlierIdle (s : State) (ways : List Slot) (best : Option Slot)
    (sorted : (best.toList ++ ways).Pairwise (· < ·)) (idle : ∀ b ∈ best, s.idleDistance b ≠ none) :
    (ways.foldl s.earlierIdle best = none → best = none ∧ ∀ q ∈ ways, s.idleDistance q = none) ∧
      ∀ r, ways.foldl s.earlierIdle best = some r → s.EarliestIdle (best.toList ++ ways) r := by
  induction ways generalizing best with
  | nil =>
    refine ⟨fun h => ⟨h, by simp⟩, fun r h => ?_⟩
    obtain rfl : best = some r := h
    obtain ⟨d, hd⟩ := Option.ne_none_iff_exists'.1 (idle r rfl)
    refine ⟨by simp, d, hd, fun q hq e he => ?_⟩
    obtain rfl : q = r := by simpa using hq
    simp_all
  | cons q ways ih =>
    rw [List.foldl_cons]
    rcases earlierIdle_cases s best q with ⟨hq, hb⟩ | ⟨d, hd, ⟨hlt, hb⟩ | ⟨b, e, rfl, he, hle, hb⟩⟩ <;> rw [hb]
    · -- way q is not idle: the candidate stays
      obtain ⟨hnone, hsome⟩ := ih best (sorted.sublist (by simp)) idle
      refine ⟨fun h => ⟨(hnone h).1, by simpa [hq] using (hnone h).2⟩, fun r h => ?_⟩
      obtain ⟨hm, z, hz, hmin⟩ := hsome r h
      refine ⟨by simp at hm ⊢; tauto, z, hz, fun p hp e he => ?_⟩
      by_cases hpq : p = q
      · subst hpq; simp [hq] at he
      · exact hmin p (by simp at hp ⊢; tauto) e he
    · -- way q is the new candidate
      obtain ⟨hnone, hsome⟩ := ih (some q) (sorted.sublist (by simp)) (by simp [hd])
      refine ⟨fun h => by simpa using (hnone h).1, fun r h => ?_⟩
      obtain ⟨hm, z, hz, hmin⟩ := hsome r h
      refine ⟨by simp at hm ⊢; tauto, z, hz, fun p hp e he => ?_⟩
      rcases List.mem_append.1 hp with hp | hp
      · have h1 := hlt p (by simpa using hp) e he
        have h2 := hmin q (by simp) d hd
        omega
      · exact hmin p (by simpa using hp) e he
    · -- the old candidate stays, as it is not later
      obtain ⟨hnone, hsome⟩ := ih (some b) (sorted.sublist (by simp)) (by simp [he])
      refine ⟨fun h => by simpa using (hnone h).1, fun r h => ?_⟩
      obtain ⟨hm, z, hz, hmin⟩ := hsome r h
      refine ⟨by simp at hm ⊢; tauto, z, hz, fun p hp f hf => ?_⟩
      by_cases hpq : p = q
      · subst hpq
        have hbp : b < p := by simpa using List.rel_of_pairwise_cons sorted (by simp : p ∈ p :: ways)
        have h2 := hmin b (by simp) e he
        obtain rfl : d = f := by simpa [hd] using hf
        rcases h2 with h2 | ⟨h2, hrb⟩
        · exact .inl (by omega)
        · rcases hle.lt_or_eq with hle | hle
          · exact .inl (by omega)
          · exact .inr ⟨by omega, hrb.trans hbp.le⟩
      · exact hmin p (by simp at hp ⊢; tauto) f hf

theorem idleDistance_none {s : State} {r : Slot} {x : Record} (hx : s.record r = some x) :
    s.idleDistance r = none ↔ x.idleDeadline = none := by
  simp [State.idleDistance, hx]

/-- R16: the way a placement gives: a free one, or, when none is free, the earliest idle one. -/
theorem placeFor_some {s : State} {key : Word} {r : Slot} (h : s.placeFor key = some r) :
    r ∈ s.waysOf key ∧ s.record r = none ∧ (∀ q ∈ s.waysOf key, s.record q = none → r ≤ q) ∨
      (∀ q ∈ s.waysOf key, s.record q ≠ none) ∧ s.EarliestIdle (s.waysOf key) r := by
  unfold State.placeFor at h
  split at h
  · rename_i q hq
    obtain rfl : q = r := by simpa using h
    obtain ⟨hfree, front, back, hways, hfront⟩ := List.find?_eq_some_iff_append.1 hq
    refine .inl ⟨List.mem_of_find?_eq_some hq, by simpa using hfree, fun p hp hn => ?_⟩
    have sorted := slotsOf_sorted (bucketOf s.hashSeed key)
    rw [show slotsOf (bucketOf s.hashSeed key) = _ from hways] at sorted
    rw [hways] at hp
    rcases List.mem_append.1 hp with hp | hp
    · simpa [hn] using hfront p hp
    · rcases List.mem_cons.1 hp with rfl | hp
      · exact le_refl _
      · exact (List.rel_of_pairwise_cons (List.pairwise_append.1 sorted).2.1 hp).le
  · rename_i hn
    refine .inr ⟨fun q hq => ?_, ?_⟩
    · simpa [Option.isSome_iff_ne_none] using List.find?_eq_none.1 hn q hq
    · exact (foldl_earlierIdle s _ none (slotsOf_sorted _) (by simp)).2 r h

/-- R17: no way can be had exactly when every one holds a record that is not idle. -/
theorem placeFor_none_iff (s : State) (key : Word) : s.placeFor key = none ↔
    ∀ q ∈ s.waysOf key, ∃ x, s.record q = some x ∧ x.idleDeadline = none := by
  constructor
  · intro h q hq
    unfold State.placeFor at h
    split at h
    · cases h
    · rename_i hn
      have hq' : s.record q ≠ none := by
        simpa [Option.isSome_iff_ne_none] using List.find?_eq_none.1 hn q hq
      obtain ⟨x, hx⟩ := Option.ne_none_iff_exists'.1 hq'
      exact ⟨x, hx, (idleDistance_none hx).1 (((foldl_earlierIdle s _ none (slotsOf_sorted _) (by simp)).1 h).2 q hq)⟩
  · intro h
    by_contra hne
    obtain ⟨r, hr⟩ := Option.ne_none_iff_exists'.1 hne
    rcases placeFor_some hr with ⟨hm, hfree, -⟩ | ⟨-, hm, d, hd, -⟩ <;> obtain ⟨x, hx, hidle⟩ := h r hm
    · simp [hx] at hfree
    · simp [(idleDistance_none hx).2 hidle] at hd

/-- Settles O5, from what a placement can give. -/
theorem placementTakesTheFirstFreeOrEarliestIdleWay : Obligations.PlacementTakesTheFirstFreeOrEarliestIdleWay := by
  refine ⟨distance_eq, place_eq, fun s key => ⟨fun r hr => ?_, placeFor_none_iff s key⟩⟩
  rcases placeFor_some hr with ⟨hm, hfree, hlow⟩ | ⟨hfull, hm, z, hz, hmin⟩
  · exact ⟨hm, .inl ⟨hfree, hlow⟩⟩
  · obtain ⟨x, d, hx, hd, rfl⟩ := idleDistance_eq_some.1 hz
    exact ⟨hm, .inr ⟨hfull, x, d, hx, hd, fun q hq y e hy he =>
      hmin q hq _ (idleDistance_eq_some.2 ⟨y, e, hy, he, rfl⟩)⟩⟩

end Sys2Proof.Machine
end

