-- ==== Sys2Proof/Proofs/Views.lean ====
section
/-! PROOFS. The views of records, queues and pools that the other statements speak of, each tied to the rule that defines it
(O6). -/

namespace Sys2Proof.Machine

open Sys2Proof

/-! ### The pools (R27, R28) -/

theorem lowestFreeHold_eq_some (s : State) (i : HoldIx) :
    s.lowestFreeHold = some i ↔ s.hold i = none ∧ ∀ j, j < i → s.hold j ≠ none := by
  unfold State.lowestFreeHold
  rw [← Fin.find?_eq_find?_finRange, Fin.find?_eq_some_iff]
  simp [Option.isSome_iff_ne_none]

theorem lowestFreeWait_eq_some (s : State) (w : WaitIx) :
    s.lowestFreeWait = some w ↔ s.wait w = none ∧ ∀ v, v < w → s.wait v ≠ none := by
  unfold State.lowestFreeWait
  rw [← Fin.find?_eq_find?_finRange, Fin.find?_eq_some_iff]
  simp [Option.isSome_iff_ne_none]

theorem availableHold_eq_some (s : State) (i : HoldIx) :
    s.availableHold = some i ↔ s.holdCounts.free ≠ 0 ∧ s.hold i = none ∧ ∀ j, j < i → s.hold j ≠ none := by
  unfold State.availableHold
  split <;> simp_all [lowestFreeHold_eq_some]

/-! ### The mode of a record (R7) -/

/-- R7: a record with an EXCLUSIVE hold has it alone. -/
theorem recordMode_exclusive_iff {s : State} {r : Slot} {x : Record} (refs : ReferenceLaw s) (law : HolderLaw s)
    (hx : s.record r = some x) :
    s.recordMode x = .exclusive ↔ ∃ i h, x.holders = [i] ∧ s.hold i = some h ∧ h.mode = .exclusive := by
  unfold State.recordMode
  cases hl : x.holders with
  | nil => simp
  | cons i rest =>
    obtain ⟨h, hh, -⟩ := refs.holder r x i hx (by simp [hl])
    have alone := law.exclusive r x i h hx (by simp [hl]) hh
    cases hm : h.mode <;> simp_all

theorem recordMode_free_iff {s : State} {r : Slot} {x : Record} (refs : ReferenceLaw s) (hx : s.record r = some x) :
    s.recordMode x = .free ↔ x.holders = [] := by
  unfold State.recordMode
  cases hl : x.holders with
  | nil => simp
  | cons i rest =>
    obtain ⟨h, hh, -⟩ := refs.holder r x i hx (by simp [hl])
    simp only [hh, reduceCtorEq, iff_false]
    split <;> simp

/-- R7: the holders of a record with a SHARED one are all SHARED, since an EXCLUSIVE one would stand alone. -/
theorem recordMode_shared_iff {s : State} {r : Slot} {x : Record} (refs : ReferenceLaw s) (law : HolderLaw s)
    (hx : s.record r = some x) :
    s.recordMode x = .shared ↔ x.holders ≠ [] ∧ ∀ i ∈ x.holders, ∃ h, s.hold i = some h ∧ h.mode = .shared := by
  have hfree := recordMode_free_iff refs hx
  have hex := recordMode_exclusive_iff refs law hx
  constructor
  · intro hm
    rw [hm] at hfree hex
    simp only [reduceCtorEq, false_iff] at hfree hex
    refine ⟨hfree, fun i hi => ?_⟩
    obtain ⟨h, hh, -⟩ := refs.holder r x i hx hi
    cases hmode : h.mode with
    | shared => exact ⟨h, hh, hmode⟩
    | exclusive => exact absurd ⟨i, h, law.exclusive r x i h hx hi hh hmode, hh, hmode⟩ hex
  · rintro ⟨hne, hall⟩
    cases hm : s.recordMode x with
    | free => exact absurd (hfree.1 hm) hne
    | shared => rfl
    | exclusive =>
      obtain ⟨i, h, hl, hh, hmode⟩ := hex.1 hm
      obtain ⟨k, hk, hks⟩ := hall i (by simp [hl])
      simp_all

/-! ### Priorities, compatibility and the effective queue (R31, R32, R34, R35, R36) -/

theorem effectivePriority_toNat (s : State) (c : Client) (u : Fin 8) :
    (s.effectivePriority c (BitVec.ofNat 3 u.val)).toNat =
      min (s.device.urgencyMap[u]).toNat (s.session c).ceiling.toNat := by
  have hu : ((BitVec.ofNat 3 u.val).toFin : Fin 8) = u := by
    ext; simp
  have hm : s.device.urgencyMap[((BitVec.ofNat 3 u.val).toFin : Fin 8)] = s.device.urgencyMap[u] :=
    congrArg (fun i : Fin 8 => s.device.urgencyMap[i]) hu
  unfold State.effectivePriority
  dsimp only
  rw [hm]
  split <;> rename_i h <;> rw [BitVec.lt_def] at h <;> omega

theorem isEffective_iff (s : State) (w : WaitIx) :
    s.isEffective w = true ↔ ∃ y, s.wait w = some y ∧ (s.session y.client).state ≠ .purging := by
  unfold State.isEffective
  cases s.wait w <;> simp

theorem isEffective_eq_any (s : State) (w : WaitIx) :
    s.isEffective w = (s.wait w).any fun y => (s.session y.client).state != .purging := by
  unfold State.isEffective
  cases s.wait w <;> rfl

theorem mem_effectiveQueue (s : State) (x : Record) (w : WaitIx) : w ∈ s.effectiveQueue x ↔
    w ∈ x.waitQueue ∧ ∃ y, s.wait w = some y ∧ (s.session y.client).state ≠ .purging := by
  rw [State.effectiveQueue, List.mem_filter, isEffective_iff]

theorem isShared_iff (s : State) (i : HoldIx) : s.isShared i = true ↔ ∃ h, s.hold i = some h ∧ h.mode = .shared := by
  unfold State.isShared
  cases s.hold i <;> simp

theorem compatible_exclusive_none (s : State) (x : Record) :
    s.compatible x .exclusive none = true ↔ x.holders = [] := by
  simp [State.compatible, List.eq_nil_iff_forall_not_mem]

theorem compatible_exclusive_some (s : State) (x : Record) (i : HoldIx) :
    s.compatible x .exclusive (some i) = true ↔ ∀ j ∈ x.holders, j = i := by
  simp only [State.compatible, List.all_eq_true, beq_iff_eq, Option.some.injEq]
  exact forall₂_congr fun j _ => eq_comm

theorem compatible_shared (s : State) (x : Record) (e : Option HoldIx) : s.compatible x .shared e = true ↔
    x.shareable = true ∧ x.holders.length < x.holderCap ∧ ∀ i ∈ x.holders, ∃ h, s.hold i = some h ∧ h.mode = .shared := by
  simp only [State.compatible, Bool.and_eq_true, List.all_eq_true, isShared_iff, decide_eq_true_eq]
  tauto

theorem isConversion_iff (s : State) (w : WaitIx) :
    s.isConversion w = true ↔ ∃ y, s.wait w = some y ∧ y.purpose ≠ .new := by
  unfold State.isConversion
  cases s.wait w <;> simp

theorem wouldLead_iff (s : State) (x : Record) (p : BitVec 2) : s.wouldLead x p = true ↔
    ∀ w ∈ s.effectiveQueue x, ∃ y, s.wait w = some y ∧ y.purpose = .new ∧ y.priority < p := by
  unfold State.wouldLead
  rw [List.all_eq_true]
  refine forall₂_congr fun w _ => ?_
  cases s.wait w <;> simp

/-! ### A client's own claims (R29) -/

theorem holdOf_none_iff (s : State) (c : Client) (x : Record) :
    s.holdOf c x = none ↔ ∀ i ∈ x.holders, ∀ h, s.hold i = some h → h.client ≠ c := by
  unfold State.holdOf
  rw [List.find?_eq_none]
  refine forall₂_congr fun i _ => ?_
  cases s.hold i <;> simp

theorem holdOf_some {s : State} {c : Client} {x : Record} {i : HoldIx} (h : s.holdOf c x = some i) :
    i ∈ x.holders ∧ ∃ h, s.hold i = some h ∧ h.client = c := by
  refine ⟨List.mem_of_find?_eq_some h, ?_⟩
  have := List.find?_some h
  cases hh : s.hold i <;> simp_all

theorem waitOf_none_iff (s : State) (c : Client) (x : Record) :
    s.waitOf c x = none ↔ ∀ w ∈ x.waitQueue, ∀ y, s.wait w = some y → y.client ≠ c := by
  unfold State.waitOf
  rw [List.find?_eq_none]
  refine forall₂_congr fun w _ => ?_
  cases s.wait w <;> simp

theorem waitOf_some {s : State} {c : Client} {x : Record} {w : WaitIx} (h : s.waitOf c x = some w) :
    w ∈ x.waitQueue ∧ ∃ y, s.wait w = some y ∧ y.client = c := by
  refine ⟨List.mem_of_find?_eq_some h, ?_⟩
  have := List.find?_some h
  cases hh : s.wait w <;> simp_all

/-- R98: a wait of the effective queue has as its position one more than the waits before it. -/
theorem position_eq {s : State} {r : Slot} {x : Record} {w : WaitIx} (hx : s.record r = some x)
    (hw : w ∈ s.effectiveQueue x) :
    ∃ front back, s.effectiveQueue x = front ++ w :: back ∧ w ∉ front ∧ s.position r w = front.length + 1 := by
  obtain ⟨front, back, he, hn⟩ := List.eq_append_cons_of_mem hw
  exact ⟨front, back, he, hn, by simp [State.position, hx, he, List.idxOf_append_of_notMem hn]⟩

/-- Settles O6, view by view. -/
theorem viewsOfRecordsAndQueues : Obligations.ViewsOfRecordsAndQueues := by
  refine ⟨fun s r x refs law hx => ⟨recordMode_free_iff refs hx, recordMode_exclusive_iff refs law hx,
      recordMode_shared_iff refs law hx⟩, effectivePriority_toNat, fun s x => ⟨?_, compatible_exclusive_none s x,
      compatible_exclusive_some s x, compatible_shared s x, fun y => ?_, isConversion_iff s, wouldLead_iff s x,
      fun c => holdOf_none_iff s c x, fun c i => holdOf_some, fun c => waitOf_none_iff s c x, fun c w => waitOf_some⟩,
    fun s r x w => position_eq, fun s => ⟨availableHold_eq_some s, lowestFreeHold_eq_some s, lowestFreeWait_eq_some s,
      fun _ => rfl, fun _ => rfl⟩⟩
  · exact List.filter_congr fun w _ => isEffective_eq_any s w
  · unfold State.waitCompatible
    cases y.purpose <;> rfl

end Sys2Proof.Machine
end

