-- ==== Sys2Proof/Proofs/Claims.lean ====
section
/-! PROOFS. The end of a hold and of a wait, every field, and the settling of a record after it (O31). -/

namespace Sys2Proof.Machine

open Sys2Proof

/-- R39, steps 1 to 4, without a pending conversion. -/
theorem freeHold_eq {s : State} {i : HoldIx} {h : Hold} {x : Record} (hx : s.record h.slot = some x)
    (hc : h.conversion = none) : s.freeHold i h =
    { s with
      records := s.records.set h.slot (some { x with holders := x.holders.filter (· != i) })
      deadlines := s.deadlines.filter fun e => e.ref != .hold i
      holds := s.holds.set i ⟨(s.holdSlot i).generation, none⟩
      holdCounts := ⟨s.holdCounts.free + 1, s.holdCounts.reserved, s.holdCounts.inUse - 1⟩
      sessions := s.sessions.set h.client { s.session h.client with holdCount := (s.session h.client).holdCount - 1 } } := by
  unfold State.freeHold State.freeConversion
  rw [modifyRecord_eq _ _ _ _ hx, hc]
  rfl

/-- R39, steps 1 to 4, with a pending conversion, whose wait leaves with the hold. -/
theorem freeHold_conversion_eq {s : State} {i : HoldIx} {h : Hold} {x : Record} {v : WaitHandle} {y : Wait}
    (hx : s.record h.slot = some x) (hc : h.conversion = some v) (hy : s.wait v.index = some y) (hslot : y.slot = h.slot)
    (hclient : y.client = h.client) : s.freeHold i h =
    { s with
      records := s.records.set h.slot (some { x with
        holders := x.holders.filter (· != i), waitQueue := x.waitQueue.filter (· != v.index) })
      deadlines := (s.deadlines.filter fun e => e.ref != .hold i).filter fun e => e.ref != .wait v.index
      holds := s.holds.set i ⟨(s.holdSlot i).generation, none⟩
      waits := s.waits.set v.index ⟨(s.waitSlot v.index).generation, none⟩
      holdCounts := ⟨s.holdCounts.free + 1, s.holdCounts.reserved, s.holdCounts.inUse - 1⟩
      sessions := s.sessions.set h.client { s.session h.client with
        holdCount := (s.session h.client).holdCount - 1, waitCount := (s.session h.client).waitCount - 1 } } := by
  unfold State.freeHold
  rw [modifyRecord_eq _ _ _ _ hx]
  have hy' : State.wait (State.removeEntry { s with
      records := s.records.set h.slot (some { x with holders := x.holders.filter (· != i) }) } (.hold i)) v.index =
      some y := hy
  simp only [State.freeConversion, hc, hy']
  rw [dropWait_eq _ _ _ { x with holders := x.holders.filter (· != i) } (by simp [State.record, hslot, State.removeEntry, State.setDeadlines])]
  simp [State.removeEntry, State.setDeadlines, State.setHold, State.setHoldSlot, State.setHolds, State.setHoldCounts,
    State.modifySession, State.setSessions, State.session, State.holdSlot, State.waitSlot, hslot, hclient]

/-- R40, steps 1 to 5, of a NEW wait, whose reservation is given back. -/
theorem freeWait_new_eq {s : State} {w : WaitIx} {y : Wait} {x : Record} (hx : s.record y.slot = some x)
    (hp : y.purpose = .new) : s.freeWait w y =
    { s with
      records := s.records.set y.slot (some { x with waitQueue := x.waitQueue.filter (· != w) })
      deadlines := s.deadlines.filter fun e => e.ref != .wait w
      waits := s.waits.set w ⟨(s.waitSlot w).generation, none⟩
      holdCounts := ⟨s.holdCounts.free + 1, s.holdCounts.reserved - 1, s.holdCounts.inUse⟩
      sessions := s.sessions.set y.client { s.session y.client with
        holdCount := (s.session y.client).holdCount - 1, waitCount := (s.session y.client).waitCount - 1 } } := by
  unfold State.freeWait
  rw [hp, dropWait_eq _ _ _ _ hx]
  simp [State.setHoldCounts, State.modifySession, State.setSessions, State.session]

/-- R40, steps 1 to 5, of a CONVERSION wait, whose hold loses its conversion. -/
theorem freeWait_conversion_eq {s : State} {w : WaitIx} {y : Wait} {x : Record} {v : HoldHandle} {h : Hold}
    (hx : s.record y.slot = some x) (hp : y.purpose = .conversion v) (hh : s.hold v.index = some h) : s.freeWait w y =
    { s with
      records := s.records.set y.slot (some { x with waitQueue := x.waitQueue.filter (· != w) })
      deadlines := s.deadlines.filter fun e => e.ref != .wait w
      waits := s.waits.set w ⟨(s.waitSlot w).generation, none⟩
      holds := s.holds.set v.index ⟨(s.holdSlot v.index).generation, some { h with conversion := none }⟩
      sessions := s.sessions.set y.client { s.session y.client with
        waitCount := (s.session y.client).waitCount - 1 } } := by
  unfold State.freeWait
  rw [hp, dropWait_eq _ _ _ _ hx]
  exact modifyHold_eq _ _ h _ hh

/-- R18: a DYNAMIC record that is left idle gets an idle deadline, with its entry. -/
theorem settleIdle_eq {t : State} {r : Slot} {x : Record} (hx : t.record r = some x) (hk : x.kind = .dynamic)
    (hh : x.holders = []) (hw : x.waitQueue = []) (hi : x.idleDeadline = none) : t.settleIdle r =
    { t with
      records := t.records.set r (some { x with idleDeadline := some (t.after t.device.idleAge) })
      deadlines := insertEntry t.timer.clock ⟨.record r, t.after t.device.idleAge, false⟩ t.deadlines } := by
  simp only [State.settleIdle, hx, hk, hh, hw, hi]
  rfl

/-- R18: a record that is PINNED, not idle, or has an idle deadline already gets none. -/
theorem settleIdle_of_not_idle {t : State} {r : Slot}
    (h : ∀ x, t.record r = some x → x.kind = .pinned ∨ x.holders ≠ [] ∨ x.waitQueue ≠ [] ∨ x.idleDeadline ≠ none) :
    t.settleIdle r = t := by
  unfold State.settleIdle
  split
  · rename_i x hx
    refine if_neg fun ⟨hk, hh, hw, hi⟩ => ?_
    rcases h x hx with h | h | h | h
    · simp [hk] at h
    · exact h hh
    · exact h hw
    · exact h hi
  · rfl

/-- Settles O31, from the closed form of each end and of the settling. -/
theorem endedClaimIsFreedAndItsRecordSettled : Obligations.EndedClaimIsFreedAndItsRecordSettled := by
  refine ⟨fun s i h x _ hx => ⟨freeHold_eq hx, fun v y hc hy => freeHold_conversion_eq hx hc hy⟩,
    fun s w y x _ hx => ⟨freeWait_new_eq hx, fun v h => freeWait_conversion_eq hx⟩, ?_⟩
  rintro s t r d rfl rfl
  exact ⟨fun x hx hk hh hw hi => settleIdle_eq hx hk hh hw hi, settleIdle_of_not_idle⟩

end Sys2Proof.Machine
end

