-- ==== Sys2Proof/Proofs/Acquire.lean ====
section
/-! PROOFS. ACQUIRE on an absent key and its refusals before displacement (O15, O16). -/

namespace Sys2Proof.Machine

open Sys2Proof

section
variable {s : State} {l : Client} {m : RxMessage} {i : Fin 4} {b : AcquireBody}

/-- The row of an admitted ACQUIRE runs the steps of R95. -/
theorem exec_acquire (h : AdmitsAcquire s l m i b) :
    exec (.acquire l) s = .next ((s.admitted l .acquire i).decideAcquire l m.requestTag b) := by
  have row := exec_admits h.1
  simpa only [RequestKind.row, RequestKind.decision, h.2] using row

/-- R95, steps 1 to 4, on an absent key: creation, if it is allowed. -/
theorem exec_acquire_absent (h : AdmitsAcquire s l m i b) (may : MayName s l b) (hl : s.lookup b.key = none) :
    exec (.acquire l) s = .next
      (if b.create = false ∨ (s.session l).mayCreate = false then (s.admitted l .acquire i).refuse l m.requestTag .noRecord
       else (s.admitted l .acquire i).acquireCreate l m.requestTag b) := by
  rw [exec_acquire h]
  simp [State.decideAcquire, may.1, may.2, hl]

/-- R95, from step 5 on, on a present key. -/
theorem exec_acquire_present {r : Slot} {x : Record} (h : AdmitsAcquire s l m i b) (may : MayName s l b)
    (hl : s.lookup b.key = some r) (hx : s.record r = some x) :
    exec (.acquire l) s = .next ((s.admitted l .acquire i).acquirePresent l m.requestTag b r x) := by
  rw [exec_acquire h]
  simp [State.decideAcquire, may.1, may.2, hl, hx]

/-- R15, R95 step 4: the first check of a creation that fails refuses it. -/
theorem exec_acquire_create (h : AdmitsAcquire s l m i b) (may : MayName s l b) (hl : s.lookup b.key = none)
    (hb : b.create = true) (hc : (s.session l).mayCreate = true) :
    exec (.acquire l) s = .next ((s.admitted l .acquire i).acquireCreate l m.requestTag b) := by
  rw [exec_acquire_absent h may hl, if_neg (by simp [hb, hc])]

end

/-- Settles O15: the steps of R95 in their order. -/
theorem acquireIsRefusedBeforeDisplacement : Obligations.AcquireIsRefusedBeforeDisplacement := by
  refine ⟨fun s l m i b h => ⟨fun hd => ?_, fun hd hc => ?_, fun may hl hn => ?_, fun may hl hb hc => ?_⟩,
    fun s l m i b r x h may hl hx => ⟨fun hs hm => ?_, fun hm => ⟨fun j hj => ?_, fun w hj hw => ?_, fun hj hw hq => ?_⟩⟩⟩
  · rw [exec_acquire h]
    simp [State.decideAcquire, hd]
  · rw [exec_acquire h]
    simp [State.decideAcquire, hd, hc]
  · rw [exec_acquire_absent h may hl, if_pos hn]
  · rw [exec_acquire_create h may hl hb hc]
    unfold State.acquireCreate
    simp only [admitted_placeFor, admitted_atHoldQuota, admitted_availableHold, admitted_fence]
    refine ⟨fun hp => ?_, fun hp hq => ?_, fun hp hq ha => ?_, fun hp hq ha hf => ?_⟩
    · simp [hp]
    all_goals obtain ⟨r, hr⟩ := Option.ne_none_iff_exists'.1 hp
    · simp [hr, hq]
    · simp [hr, hq, ha]
    · obtain ⟨j, hj⟩ := Option.ne_none_iff_exists'.1 ha
      simp [hr, hq, hj, hf, State.refuseFence]
  all_goals rw [exec_acquire_present h may hl hx]
  · simp [State.acquirePresent, hs, hm]
  all_goals
    have hmode : ¬(x.shareable = false ∧ b.mode = .shared) := by
      rcases hm with hm | hm <;> simp [hm]
  · simp [State.acquirePresent, hmode, hj]
  · simp [State.acquirePresent, hmode, hj, hw]
  · simp [State.acquirePresent, hmode, hj, hw, hq]

/-! ### Creation (R15, R97) -/

/-- R36, R97: what the GRANTED report of an immediate grant says. -/
theorem grantedReply_grantAtOnce {s : State} {j : HoldIx} {c : Client} {r : Slot} {m : Mode} {term : Half} {x : Record}
    (hx : s.record r = some x) :
    (s.grantAtOnce j c r m term).grantedReply j =
      .granted ⟨j, (s.holdSlot j).generation + 1⟩ m s.fence.next (s.timer.clock + term.setWidth 32) := by
  simp [State.grantAtOnce, openHold_eq s j c r m term x hx, State.grantedReply, State.countImmediate, State.countGrant,
    testHoldMark_eq, State.hold, State.holdSlot, State.holdHandle, State.countClient, State.setLive, State.modifySession,
    State.setSessions, State.setHoldCounts]

/-- Settles O16: every check of R15 passes, and the grant is made on the record just placed. -/
theorem acquireCreatesAndIsGranted : Obligations.AcquireCreatesAndIsGranted := by
  intro s l m i b r j h may hl hb hc hp hq ha hf
  rw [exec_acquire_create h may hl hb hc]
  have hq' : ¬(s.session l).holdQuota.toNat * 4 ≤ (s.session l).holdCount := by omega
  simp only [State.acquireCreate, admitted_placeFor, hp, admitted_atHoldQuota, hq', decide_false, admitted_availableHold,
    ha, admitted_fence, hf, admitted_clampTerm, freshRecord, Bool.false_eq_true, if_false]
  rw [grantedReply_grantAtOnce (x := freshRecord b.key) (by simp [freshRecord])]
  rfl

end Sys2Proof.Machine
end

