-- ==== Sys2Proof/Proofs/Admin.lean ====
section
/-! PROOFS. The commands of the Admin Engine on the table and on the whole part (O49, O52, O54). -/

namespace Sys2Proof.Machine

open Sys2Proof

/-- R154: the owner of the PENDING command takes it. -/
theorem takeCommand_of_awaits {s : State} {c : AdminCommand} {p : Vector Word 4} (act : Vector Word 4 → State → State)
    (h : Awaits s c p) : s.takeCommand c act = act p s := by
  simp [State.takeCommand, show s.admin.busy = _ from h]

@[simp] theorem natAt_zero (n : Nat) : natAt 0 n = BitVec.ofNat 32 n := by simp [natAt]

@[simp] theorem bitsAt_zero {w : Nat} (v : BitVec w) : bitsAt 0 v = v.setWidth 32 := by simp [bitsAt]

/-! ### INSTALL RECORD and UNPIN RECORD (R13, R14, R155) -/

/-- R13: what a change of the attributes conflicts with. -/
theorem installConflict_iff (s : State) (x : Record) (shareable : Bool) (cap : Nat) :
    s.installConflict x shareable cap = true ↔ x.holders.length > cap ∨ shareable = false ∧
      ((∃ i ∈ x.holders, ∃ h, s.hold i = some h ∧ h.mode = .shared) ∨
        ∃ w ∈ x.waitQueue, ∃ y, s.wait w = some y ∧ y.mode = .shared) := by
  simp only [State.installConflict, Bool.or_eq_true, Bool.and_eq_true, Bool.not_eq_true', List.any_eq_true, isShared_iff,
    decide_eq_true_eq]
  rw [or_comm]
  refine or_congr Iff.rfl (and_congr Iff.rfl (or_congr Iff.rfl (exists_congr fun w => and_congr Iff.rfl ?_)))
  cases s.wait w <;> simp

theorem loosens_iff (x : Record) (shareable : Bool) (cap : Nat) :
    loosens x shareable cap = true ↔ x.shareable = false ∧ shareable = true ∨ x.holderCap < cap := by
  simp [loosens]

/-- R13: the record takes its new attributes, is PINNED and not idle, and a loosening runs a grant pass. -/
theorem installOn_eq {s : State} {r : Slot} {x : Record} (hx : s.record r = some x) (shareable : Bool) (cap : Nat)
    (maxTerm : Half) (t : State)
    (ht : t = { s with
      records := s.records.set r (some { x with
        kind := .pinned, shareable := shareable, holderCap := cap, maxTerm := maxTerm, idleDeadline := none })
      deadlines := s.deadlines.filter fun e => e.ref != .record r }) :
    s.installOn r x shareable cap maxTerm =
      if x.shareable = false ∧ shareable = true ∨ x.holderCap < cap then t.grantPass r else t := by
  have hchange : (s.modifyRecord r fun x =>
      { x with kind := .pinned, shareable := shareable, holderCap := cap, maxTerm := maxTerm }).clearIdle r = t := by
    rw [ht, modifyRecord_eq _ _ _ _ hx, State.clearIdle,
      modifyRecord_eq _ _ { x with kind := .pinned, shareable := shareable, holderCap := cap, maxTerm := maxTerm } _
        (by simp [State.record])]
    simp [State.removeEntry, State.setDeadlines]
  unfold State.installOn
  dsimp only
  rw [hchange]
  exact if_congr (loosens_iff ..) rfl rfl

/-- Settles O49: the outcomes of R155 in their order. -/
theorem installAndUnpinRecord : Obligations.InstallAndUnpinRecord := by
  refine ⟨fun s p cap shareable maxTerm h hcap hsh hmax => ?_, fun s p h => ?_⟩
  · have row : exec .installRecord s = .next (s.install p) := by
      simp only [exec, execInstallRecord, takeCommand_of_awaits _ h]
    rw [row]
    unfold State.install field
    rw [← hcap, ← hsh, ← hmax]
    refine ⟨fun hbad => by simp [hbad], fun hgood => ?_⟩
    have hok : ¬(cap = 0 ∨ 8 < cap) := by omega
    simp only [if_neg hok]
    refine ⟨fun hl hp => by simp [hl, hp], fun r hl hp => by simp [hl, hp, pinnedRecord], fun r x hl hx => ?_⟩
    simp only [hl, hx, ← installConflict_iff]
    refine ⟨fun hc => by simp [hc], fun t hc ht => ?_⟩
    simp [hc, installOn_eq hx shareable cap maxTerm t ht]
  · have row : exec .unpinRecord s = .next (s.unpin p) := by
      simp only [exec, execUnpinRecord, takeCommand_of_awaits _ h]
    rw [row]
    unfold State.unpin
    refine ⟨fun hl => by simp [hl], fun r x hl hx => ⟨fun hk => ?_, fun hk => ?_⟩⟩
    · simp [hl, hx, State.unpinOn, hk]
    · simp [hl, hx, State.unpinOn, hk, modifyRecord_some _ hx]

/-! ### The reading commands (R162, R163) -/

theorem Kind.code_word (k : Kind) : bitsAt 0 k.code = if k = .dynamic then 1 else 2 := by cases k <;> decide

theorem HoldState.code_word (a : HoldState) : bitsAt 0 a.code = if a = .active then 1 else 2 := by cases a <;> decide

theorem Mode.code_word_hold (m : Mode) : bitsAt 20 m.code = if m = .shared then 0x100000 else 0x200000 := by
  cases m <;> decide

theorem Mode.code_word_wait (m : Mode) : bitsAt 22 m.code = if m = .shared then 0x400000 else 0x800000 := by
  cases m <;> decide

theorem Purpose.code_word (a : Purpose) : bitsAt 20 a.code = if a = .new then 0 else 0x100000 := by
  cases a with
  | new => decide
  | conversion v =>
    rw [if_neg (by simp), Purpose.code]
    decide

theorem RecordMode.code_word (m : RecordMode) :
    bitsAt 8 m.code = match m with | .free => 0 | .shared => 0x100 | .exclusive => 0x200 := by cases m <;> decide

/-- R162, part 0, word by word. -/
theorem recordPart0_eq (s : State) (x : Record) : s.recordPart0 x =
    [x.key,
      (if x.kind = .dynamic then (1 : Word) else 2) ||| (if x.shareable then (4 : Word) else 0) |||
        BitVec.ofNat 32 x.holderCap <<< 4 |||
        (match s.recordMode x with | .free => (0 : Word) | .shared => 0x100 | .exclusive => 0x200) |||
        BitVec.ofNat 32 x.holders.length <<< 16 ||| BitVec.ofNat 32 x.waitQueue.length <<< 24,
      x.maxTerm.setWidth 32 ||| (if x.idleDeadline = none then (0 : Word) else 0x10000),
      x.idleDeadline.getD (s.unstated 0x0609 0xFFFFFFFF), (x.lastFence.extractLsb' 32 16).setWidth 32,
      x.lastFence.extractLsb' 0 32] := by
  unfold State.recordPart0
  rw [Kind.code_word, RecordMode.code_word, bitsAt_zero]
  cases x.idleDeadline <;> rfl

/-- R163: READ HOLD of a hold in use, word by word. -/
theorem HoldSlot.words_some (unstated : Half) (k : HoldSlot) (h : Hold) (hk : k.occupant = some h) :
    k.words unstated =
    [(if h.state = .active then (1 : Word) else 2) ||| k.generation.setWidth 32 <<< 8 |||
        BitVec.ofNat 32 h.client.val <<< 16 ||| (if h.mode = .shared then (0x100000 : Word) else 0x200000),
      BitVec.ofNat 32 h.slot.val, (h.fence.extractLsb' 32 16).setWidth 32, h.fence.extractLsb' 0 32, h.deadline,
      match h.conversion with
      | none => unstated.setWidth 32
      | some v => (BitVec.ofNat 8 v.index.val ++ v.generation).setWidth 32 ||| 0x10000] := by
  unfold HoldSlot.words
  simp only [hk, HoldState.code_word, Mode.code_word_hold]
  simp only [natAt_zero, bitsAt_zero]
  cases h.conversion <;> rfl

/-- R163: READ WAIT of a wait in use, word by word. -/
theorem WaitSlot.words_some (k : WaitSlot) (y : Wait) (hk : k.occupant = some y) :
    k.words =
    [(1 : Word) ||| k.generation.setWidth 32 <<< 8 ||| BitVec.ofNat 32 y.client.val <<< 16 |||
        (if y.purpose = .new then (0 : Word) else 0x100000) ||| (if y.mode = .shared then (0x400000 : Word) else 0x800000) |||
        y.priority.setWidth 32 <<< 24,
      BitVec.ofNat 32 y.slot.val, y.arrival, y.deadline, y.term.setWidth 32 ||| y.requestTag.setWidth 32 <<< 16,
      match y.purpose with
      | .new => 0
      | .conversion v => (BitVec.ofNat 8 v.index.val ++ v.generation).setWidth 32] := by
  unfold WaitSlot.words
  simp only [hk, Purpose.code_word, Mode.code_word_wait, natAt_zero, bitsAt_zero]
  cases y.purpose <;> rfl

/-- Settles O52: each reading command completes with the words of what it names. -/
theorem readingCommandsReport : Obligations.ReadingCommandsReport := by
  refine ⟨fun s p h => ?_, fun s p h => ?_, fun s p h => ?_, ⟨rfl, fun _ => rfl, fun _ _ _ => rfl⟩, fun s p h => ?_⟩
  · -- FIND RECORD
    simp only [exec, execFindRecord, takeCommand_of_awaits _ h]
    refine ⟨fun hl => by simp [hl], fun r x hl hx => by simp only [hl, hx, Kind.code_word, natAt_zero]⟩
  · -- READ RECORD
    simp only [exec, execReadRecord, takeCommand_of_awaits _ h, State.readRecordCommand]
    refine ⟨fun hbad => ?_, fun r hr hp => ?_⟩
    · split
      · rw [if_pos (by omega)]
      · rfl
    · have hlt : p[0].toNat < 1024 := by omega
      have hslot : (⟨p[0].toNat, hlt⟩ : Slot) = r := Fin.ext hr
      rw [dif_pos hlt, if_neg (by omega), hslot]
      refine ⟨fun hn => by simp [hn], fun x hx => ⟨fun h0 => ?_, fun h1 => ?_⟩⟩
      · refine ⟨x.idleDeadline.getD (s.unstated 0x0609 0xFFFFFFFF), fun d hd => by simp [hd], ?_⟩
        simp only [hx, h0, if_true, recordPart0_eq] <;> rfl
      · simp only [hx, h1]
        rw [if_neg (by decide)]
        simp [State.recordPart1, natAt, HoldHandle.half, WaitHandle.half, State.holdHandle, State.waitHandle]
  · -- READ HOLD
    simp only [exec, execReadHold, takeCommand_of_awaits _ h]
    refine ⟨fun hbad => by rw [dif_neg (by omega)], fun i hi => ?_⟩
    have hlt : p[0].toNat < 256 := by omega
    have hslot : (⟨p[0].toNat, hlt⟩ : HoldIx) = i := Fin.ext hi
    rw [dif_pos hlt, hslot]
    refine ⟨fun hn => ?_, fun k hk => ⟨_, by rw [HoldSlot.words_some _ _ k hk] <;> rfl⟩⟩
    simp [HoldSlot.words, show (s.holdSlot i).occupant = none from hn, bitsAt]
  · -- READ WAIT
    simp only [exec, execReadWait, takeCommand_of_awaits _ h]
    refine ⟨fun hbad => by rw [dif_neg (by omega)], fun w hw => ?_⟩
    have hlt : p[0].toNat < 128 := by omega
    have hslot : (⟨p[0].toNat, hlt⟩ : WaitIx) = w := Fin.ext hw
    rw [dif_pos hlt, hslot]
    refine ⟨fun hn => ?_, fun y hy => by rw [WaitSlot.words_some _ y hy] <;> rfl⟩
    simp [WaitSlot.words, show (s.waitSlot w).occupant = none from hn, bitsAt]

/-! ### Counters, the seed and the whole part (R165 to R167) -/

theorem anyRecord_iff (s : State) :
    ((List.finRange 1024).any fun r => (s.record r).isSome) = true ↔ ∃ r x, s.record r = some x := by
  simp [Option.isSome_iff_exists]

/-- Settles O54, command by command. -/
theorem snapshotSeedAndClearAll : Obligations.SnapshotSeedAndClearAll := by
  refine ⟨fun s p h => ?_, fun s p h => ?_, fun s u p h hu => ?_⟩
  · simp only [exec, execSnapshotCounters, takeCommand_of_awaits _ h, State.takeSnapshot]
    refine ⟨fun hbad => by rw [if_pos hbad], fun h0 => ?_, fun h1 => ?_⟩
    · simp only [h0]; rfl
    · simp only [h1]; rfl
  · simp only [exec, execSetHashSeed, takeCommand_of_awaits _ h, bitsAt_zero]
    refine ⟨fun hbad => by rw [if_pos hbad], fun hp hr => ?_, fun hp hr => ?_⟩
    · rw [if_neg (by omega), if_pos ((anyRecord_iff s).2 hr)]
    · have hnone : ¬∃ r x, s.record r = some x := by simp [hr]
      rw [if_neg (by omega), if_neg (mt (anyRecord_iff s).1 hnone)]
      have hseed : (field p[0] 0 8).setWidth 32 = p[0] := by
        apply BitVec.eq_of_toNat_eq
        simp [field]
        omega
      rw [hseed]
      rfl
  · simp only [exec, execClearAll, takeCommand_of_awaits _ h, State.clearAll, State.freedWords, natAt_zero]
    have hpart : s.clearPart = u := by
      rw [hu, State.clearPart]
      congr 1
    rw [hpart]
    rfl

end Sys2Proof.Machine
end

