-- ==== Sys2Proof/Proofs/Links.lean ====
section
/-! PROOFS. The law of one link (R114 to R120, R137, R142 to R148) under every operation on a link. A happening that makes a message
ready is followed by the transmitter's choice, so the law is split in two: the form of the link, which such a happening keeps, and
that an idle transmitter has nothing to choose, which the choice restores. -/

namespace Sys2Proof.Machine

open Sys2Proof

/-- The law of a link but for R119: an idle transmitter may still have something to choose. -/
structure LinkForm (k : Link) : Prop where
  rxBound : k.rxQueue.length ≤ 4
  rxMessages : ∀ m ∈ k.rxQueue, goodLength m.length ∧ m.chars.length = m.length.toNat
  noticeBound : k.noticeQueue.length ≤ 32
  loss : k.lossMark = true ↔ k.lossCount ≠ 0
  stopped : k.receiver = .stopped ↔ k.enabled = false
  assembling : ∀ chars g, k.receiver = .inMessage chars g →
    chars ≠ [] ∧ (2 ≤ chars.length → goodLength (announcedLength chars) ∧
      chars.length < 4 + (announcedLength chars).toNat)
  disabled : k.enabled = false → k.rxQueue = [] ∧ k.noticeQueue = [] ∧ k.lossCount = 0 ∧ k.discardCount = 0 ∧
    (∀ i : Fin 4, k.inProgress ≠ some (.reserved i)) ∧ ∀ (i : Fin 4) (r : Response), k.slots[i] ≠ .ready r
  responseOnce : k.responseQueue.Nodup
  responseListed : ∀ i : Fin 4, i ∈ k.responseQueue ↔ k.slots[i] ≠ .free
  reserved : ∀ i : Fin 4, k.slots[i] = .reserved ↔ k.inProgress = some (.reserved i)
  newest : ∀ i : Fin 4, k.inProgress = some (.reserved i) → k.responseQueue.getLast? = some i
  sending : ∀ i : Fin 4, k.slots[i] = .sending ↔ ∃ r, k.inFlight = some (.response i r)
  oldest : ∀ (i : Fin 4) (r : Response), k.inFlight = some (.response i r) → k.responseQueue.head? = some i
  atRest : k.inFlight = none → k.tx = .rest

theorem LinkLaw.form {k : Link} (h : LinkLaw k) : LinkForm k := { h with }

/-- While a message is in flight, nothing is to be chosen. -/
theorem LinkForm.law_of_sending {k : Link} (h : LinkForm k) (hf : k.inFlight ≠ none) : LinkLaw k :=
  { h with idle := fun _ hn => absurd hn hf }

/-- On a disabled link nothing is to be chosen. -/
theorem LinkForm.law_of_disabled {k : Link} (h : LinkForm k) (he : k.enabled = false) : LinkLaw k :=
  { h with idle := fun ht => by simp [he] at ht }

/-! ### The transmitter's choice (R119) -/

/-- Writing one slot of a link. -/
theorem slots_set (k : Link) (i j : Fin 4) (x : ResponseSlot) : (k.slots.set i x)[j] = if i = j then x else k.slots[j] :=
  getElem_set_fin _ _ _ _

/-- A message begins that is no response. -/
theorem LinkForm.begin_other {k : Link} {m : InFlight} (h : LinkForm k) (hn : k.inFlight = none)
    (hm : ∀ i r, m ≠ .response i r) : LinkLaw (k.begin m) :=
  LinkForm.law_of_sending
    { h with
      sending := fun i => ⟨fun hs => by obtain ⟨r, hr⟩ := (h.sending i).1 hs; simp [hn] at hr,
        fun ⟨r, hr⟩ => absurd (Option.some.inj hr) (hm i r)⟩
      oldest := fun i r hr => absurd (Option.some.inj hr) (hm i r)
      atRest := fun hf => nomatch hf }
    (by simp [Link.begin])

/-- The response that the oldest entry has ready begins. -/
theorem LinkForm.begin_response {k : Link} {i : Fin 4} {rest : List (Fin 4)} {r : Response} (h : LinkForm k)
    (he : k.enabled = true) (hn : k.inFlight = none) (hq : k.responseQueue = i :: rest) (hi : k.slots[i] = .ready r) :
    LinkLaw ({ k with slots := k.slots.set i .sending }.begin (.response i r)) := by
  have hslot : ∀ j : Fin 4, (k.slots.set i .sending)[j] = if i = j then .sending else k.slots[j] := fun j => slots_set ..
  refine LinkForm.law_of_sending { h with
    disabled := fun hd => absurd (he.symm.trans hd) (by simp)
    responseListed := fun j => (h.responseListed j).trans ?_
    reserved := fun j => Iff.trans ?_ (h.reserved j)
    sending := fun j => ?_
    oldest := fun j r' hr => ?_
    atRest := fun hf => nomatch hf } (by simp [Link.begin])
  · show _ ↔ (k.slots.set i .sending)[j] ≠ .free
    rw [hslot]
    split
    · rename_i hij; subst hij; simp [hi]
    · rfl
  · show (k.slots.set i .sending)[j] = .reserved ↔ _
    rw [hslot]
    split
    · rename_i hij; subst hij; simp [hi]
    · rfl
  · show (k.slots.set i .sending)[j] = .sending ↔ ∃ r', some (InFlight.response i r) = some (.response j r')
    rw [hslot]
    split
    · rename_i hij; subst hij; simp
    · rename_i hij
      have := h.sending j
      simp [hn] at this
      simp [hij, this]
  · cases hr
    show k.responseQueue.head? = some i
    simp [hq]

/-- The other sources of R119, when no response can be chosen. -/
theorem LinkForm.chooseOther {k : Link} (h : LinkForm k) (tag : Byte) (he : k.enabled = true) (hn : k.inFlight = none)
    (hr : ∀ (i : Fin 4) (r : Response), k.slots[i] ≠ .ready r) : LinkLaw (k.chooseOther tag) := by
  have nodis : ∀ {p : Prop}, k.enabled = false → p := fun hd => by simp [he] at hd
  unfold Link.chooseOther
  split
  · exact LinkForm.begin_other { h with disabled := fun hd => nodis hd } hn (by simp)
  · rename_i hd
    split
    · rename_i n rest hq
      have hlen := h.noticeBound
      rw [hq, List.length_cons] at hlen
      exact LinkForm.begin_other { h with noticeBound := Nat.le_of_succ_le hlen, disabled := fun hd => nodis hd } hn
        (by simp)
    · rename_i hq
      split
      · exact LinkForm.begin_other { h with loss := by simp, disabled := fun hd => nodis hd } hn (by simp)
      · rename_i hl
        exact { h with idle := fun _ _ => ⟨not_not.1 hd, hq, not_not.1 hl, hr⟩ }

/-- Without a message in flight, a RESERVED response slot at the head of the queue is the only slot in use: the request in progress
has the newest one. -/
theorem LinkForm.no_ready {k : Link} (h : LinkForm k) (hn : k.inFlight = none)
    (hhead : ∀ (i : Fin 4) (r : Response), k.responseQueue.head? = some i → k.slots[i] ≠ .ready r) (j : Fin 4)
    (r : Response) : k.slots[j] ≠ .ready r := by
  intro hj
  have hmem : j ∈ k.responseQueue := (h.responseListed j).2 (by simp [hj])
  cases hq : k.responseQueue with
  | nil => simp [hq] at hmem
  | cons i rest =>
    have hi : k.slots[i] ≠ .free := (h.responseListed i).1 (by simp [hq])
    cases hs : k.slots[i] with
    | free => exact hi hs
    | ready r' => exact hhead i r' (by simp [hq]) hs
    | sending =>
      obtain ⟨r', hr'⟩ := (h.sending i).1 hs
      simp [hn] at hr'
    | reserved =>
      have hlast := h.newest i ((h.reserved i).1 hs)
      have honce := h.responseOnce
      rw [hq] at hlast honce
      cases rest with
      | nil =>
        obtain rfl : j = i := by simpa [hq] using hmem
        simp [hs] at hj
      | cons a rest =>
        have hin : i ∈ a :: rest := by
          rw [List.getLast?_cons_cons] at hlast
          exact List.mem_of_getLast? hlast
        exact (List.nodup_cons.1 honce).1 hin

/-- R119: after its choice a transmitter that is still idle has nothing to choose. -/
theorem LinkForm.choose {k : Link} (h : LinkForm k) (tag : Byte) : LinkLaw (k.choose tag) := by
  unfold Link.choose
  split
  · rename_i hidle
    obtain ⟨he, hn⟩ := hidle
    unfold Link.chooseNext
    have other : (∀ (i : Fin 4) (r : Response), k.responseQueue.head? = some i → k.slots[i] ≠ .ready r) →
        LinkLaw (k.chooseOther tag) := fun hh => h.chooseOther tag he hn (h.no_ready hn hh)
    split
    · rename_i i rest hq
      have head : ∀ x, k.slots[i] = x → (∀ r, x ≠ .ready r) → LinkLaw (k.chooseOther tag) := fun x hx hne =>
        other fun j r hj => by
          obtain rfl : i = j := by simpa [hq] using hj
          exact hx ▸ hne r
      split
      · rename_i r hr
        exact h.begin_response he hn hq hr
      · exact head _ ‹_› (by simp)
      · exact head _ ‹_› (by simp)
      · exact head _ ‹_› (by simp)
    · rename_i hq
      exact other (by simp [hq])
  · rename_i hidle
    by_cases he : k.enabled = true
    · exact h.law_of_sending fun hn => hidle ⟨he, hn⟩
    · exact h.law_of_disabled (by simpa using he)

/-! ### The sources of messages (R89, R113 to R118, R123) -/

/-- R118, R146: the response of the request in progress is placed. -/
theorem LinkLaw.placeResponse {k : Link} (h : LinkLaw k) (r : Response) : LinkForm (k.placeResponse r) := by
  unfold Link.placeResponse
  split
  · rename_i i hp
    have hslot : ∀ j : Fin 4, (k.slots.set i (.ready r))[j] = if i = j then .ready r else k.slots[j] := fun j => slots_set ..
    have hi := (h.reserved i).2 hp
    exact { h.form with
      disabled := fun hd => absurd hp ((h.disabled hd).2.2.2.2.1 i)
      responseListed := fun j => by
        refine (h.responseListed j).trans ?_
        show _ ↔ (k.slots.set i (.ready r))[j] ≠ .free
        rw [hslot]
        split
        · rename_i hij; subst hij; simp [hi]
        · rfl
      reserved := fun j => by
        show (k.slots.set i (.ready r))[j] = .reserved ↔ none = some _
        rw [hslot]
        split
        · simp
        · rename_i hij
          refine ⟨fun hj => ?_, nofun⟩
          have := (h.reserved j).1 hj
          rw [hp] at this
          simp_all
      newest := fun j hj => nomatch hj
      sending := fun j => by
        refine Iff.trans ?_ (h.sending j)
        show (k.slots.set i (.ready r))[j] = .sending ↔ _
        rw [hslot]
        split
        · rename_i hij; subst hij; simp [hi]
        · rfl }
  · rename_i hp
    exact { h.form with
      disabled := fun hd => by
        obtain ⟨h1, h2, h3, h4, -, h6⟩ := h.disabled hd
        exact ⟨h1, h2, h3, h4, nofun, h6⟩
      reserved := fun j => (h.reserved j).trans (by simp [hp])
      newest := fun j hj => nomatch hj }
  · exact h.form

/-- R113, test 5: a notice joins the queue. -/
theorem LinkLaw.addNotice {k : Link} (h : LinkLaw k) (n : Notice) (he : k.enabled = true)
    (hlen : k.noticeQueue.length < 32) : LinkForm { k with noticeQueue := k.noticeQueue ++ [n] } :=
  { h.form with
    noticeBound := by simpa using hlen
    disabled := fun hd => by simp [he] at hd }

/-- R115: a loss episode begins. -/
theorem LinkLaw.beginLoss {k : Link} (h : LinkLaw k) (he : k.enabled = true) : LinkForm k.beginLoss :=
  { h.form with
    loss := by simp [Link.beginLoss]
    disabled := fun hd => by simp [Link.beginLoss, he] at hd }

theorem countUp_ne_zero {n : Half} (h : n ≠ 0) : countUp n ≠ 0 := by
  unfold countUp
  split
  · exact h
  · rename_i hne
    intro h0
    apply hne
    show n = 65535#16
    bv_omega

/-- R115: a notice is counted in the loss episode. A transmitter that was idle had no loss to tell. -/
theorem LinkLaw.countLoss {k : Link} (h : LinkLaw k) (he : k.enabled = true) (hm : k.lossMark = true) :
    LinkLaw { k with lossCount := countUp k.lossCount } := by
  have hl := h.loss.1 hm
  exact { h with
    loss := by simpa [hm] using countUp_ne_zero hl
    disabled := fun hd => by simp [he] at hd
    idle := fun _ hn => absurd (h.idle he hn).2.2.1 hl }

/-- R123, R148: the notices are dropped. -/
theorem LinkLaw.dropNotices {k : Link} (h : LinkLaw k) : LinkLaw k.dropNotices :=
  { h with
    noticeBound := by simp [Link.dropNotices]
    loss := by simp [Link.dropNotices]
    disabled := fun hd => by
      obtain ⟨h1, -, -, h4, h5, h6⟩ := h.disabled hd
      exact ⟨h1, rfl, rfl, h4, h5, h6⟩
    idle := fun he hn => by
      obtain ⟨h1, -, -, h4⟩ := h.idle he hn
      exact ⟨h1, rfl, rfl, h4⟩ }

/-- R148: a link at CLEAR ALL. -/
theorem LinkLaw.clear {k : Link} (h : LinkLaw k) : LinkLaw k.clear :=
  { h.dropNotices with
    disabled := fun hd => by
      obtain ⟨h1, h2, h3, -, h5, h6⟩ := h.dropNotices.disabled hd
      exact ⟨h1, h2, h3, rfl, h5, h6⟩
    idle := fun he hn => by
      obtain ⟨-, h2, h3, h4⟩ := h.dropNotices.idle he hn
      exact ⟨rfl, h2, h3, h4⟩ }

/-! ### The take and the end of a message (R120, R143) -/

/-- R143: the take reserves a FREE slot. -/
theorem LinkLaw.taken {k : Link} {i : Fin 4} (h : LinkLaw k) (he : k.enabled = true) (hp : k.inProgress = none)
    (hi : k.slots[i] = .free) :
    LinkLaw { k with
      rxQueue := k.rxQueue.tail
      slots := k.slots.set i .reserved
      responseQueue := k.responseQueue ++ [i]
      inProgress := some (.reserved i) } := by
  have hslot : ∀ j : Fin 4, (k.slots.set i .reserved)[j] = if i = j then .reserved else k.slots[j] := fun j => slots_set ..
  have hout : i ∉ k.responseQueue := fun hm => (h.responseListed i).1 hm hi
  have hnone : ∀ j : Fin 4, k.slots[j] ≠ .reserved := fun j hj => by simpa [hp] using (h.reserved j).1 hj
  exact { h with
    rxBound := by
      have := h.rxBound
      simp only [List.length_tail]
      omega
    rxMessages := fun m hm => h.rxMessages m (List.mem_of_mem_tail hm)
    disabled := fun hd => by simp [he] at hd
    idle := fun _ hn => by
      obtain ⟨h1, h2, h3, h4⟩ := h.idle he hn
      refine ⟨h1, h2, h3, fun j r => ?_⟩
      show (k.slots.set i .reserved)[j] ≠ .ready r
      rw [hslot]
      split
      · simp
      · exact h4 j r
    responseOnce := by
      refine List.nodup_append.2 ⟨h.responseOnce, by simp, fun a ha b hb => ?_⟩
      rintro rfl
      obtain rfl : a = i := by simpa using hb
      exact hout ha
    responseListed := fun j => by
      show j ∈ k.responseQueue ++ [i] ↔ (k.slots.set i .reserved)[j] ≠ .free
      rw [hslot, List.mem_append, h.responseListed j]
      split
      · rename_i hij; simp [hij]
      · rename_i hij; simp [Ne.symm hij]
    reserved := fun j => by
      show (k.slots.set i .reserved)[j] = .reserved ↔ some (InProgress.reserved i) = some (.reserved j)
      rw [hslot]
      split
      · rename_i hij; simp [hij]
      · rename_i hij; exact iff_of_false (hnone j) (by simp [hij])
    newest := fun j hj => by cases hj; simp
    sending := fun j => by
      refine Iff.trans ?_ (h.sending j)
      show (k.slots.set i .reserved)[j] = .sending ↔ _
      rw [hslot]
      split
      · rename_i hij; subst hij; simp [hi]
      · rfl
    oldest := fun j r hr => by
      show (k.responseQueue ++ [i]).head? = some j
      rw [List.head?_append, h.oldest j r hr]
      rfl }

/-- R120: the message in flight has been sent. -/
theorem LinkLaw.finishSending {k : Link} (h : LinkLaw k) : LinkForm k.finishSending := by
  have other : ∀ m, k.inFlight = some m → (∀ i r, m ≠ .response i r) →
      LinkForm { k with inFlight := none, tx := .rest } := fun m hm hne =>
    { h.form with
      sending := fun i => (h.sending i).trans (by simpa [hm] using hne i)
      oldest := fun i r hr => nomatch hr
      atRest := fun _ => rfl }
  unfold Link.finishSending
  split
  · rename_i i r hf
    have hslot : ∀ j : Fin 4, (k.slots.set i .free)[j] = if i = j then .free else k.slots[j] := fun j => slots_set ..
    have hi := (h.sending i).2 ⟨r, hf⟩
    exact { h.form with
      disabled := fun hd => by
        obtain ⟨h1, h2, h3, h4, h5, h6⟩ := h.disabled hd
        refine ⟨h1, h2, h3, h4, h5, fun j r => ?_⟩
        show (k.slots.set i .free)[j] ≠ .ready r
        rw [hslot]
        split
        · simp
        · exact h6 j r
      responseOnce := h.responseOnce.erase i
      responseListed := fun j => by
        show j ∈ k.responseQueue.erase i ↔ (k.slots.set i .free)[j] ≠ .free
        rw [hslot, h.responseOnce.mem_erase_iff, h.responseListed j]
        split
        · rename_i hij; simp [hij]
        · rename_i hij; simp [Ne.symm hij]
      reserved := fun j => by
        refine Iff.trans ?_ (h.reserved j)
        show (k.slots.set i .free)[j] = .reserved ↔ _
        rw [hslot]
        split
        · rename_i hij; subst hij; simp [hi]
        · rfl
      newest := fun j hj => by
        have hlast := h.newest j hj
        have hne : i ≠ j := by
          rintro rfl
          simp [(h.reserved i).2 hj] at hi
        have hhead := h.oldest i r hf
        show (k.responseQueue.erase i).getLast? = some j
        cases hq : k.responseQueue with
        | nil => simp [hq] at hhead
        | cons a rest =>
          rw [hq] at hhead hlast
          obtain rfl : a = i := by simpa using hhead
          rw [List.erase_cons_head]
          cases rest with
          | nil => simp at hlast; exact absurd hlast hne
          | cons b rest => simpa using hlast
      sending := fun j => by
        show (k.slots.set i .free)[j] = .sending ↔ ∃ r, none = some _
        rw [hslot]
        split
        · simp
        · rename_i hij
          have := h.sending j
          simp_all
      oldest := fun j r' hr => nomatch hr
      atRest := fun _ => rfl }
  · rename_i n hf; exact other _ hf (by simp)
  · rename_i t c hf; exact other _ hf (by simp)
  · rename_i t c hf; exact other _ hf (by simp)
  · exact h.form

/-! ### The settings, the enable and the clock (R139, R145 to R147) -/

theorem LinkLaw.writeLine {k : Link} (h : LinkLaw k) (v : Word) : LinkLaw (k.writeLine v) := { h with }

/-- R146. -/
theorem LinkLaw.disable {k : Link} (h : LinkLaw k) : LinkLaw k.disable := by
  have hslot : ∀ j : Fin 4, (k.slots.map ResponseSlot.atDisable)[j] = k.slots[j].atDisable := fun j => by simp
  have hsend : ∀ j : Fin 4, k.slots[j].atDisable = .sending ↔ k.slots[j] = .sending := fun j => by
    cases k.slots[j] <;> simp [ResponseSlot.atDisable]
  have hnotFree : ∀ j : Fin 4, k.slots[j].atDisable ≠ .free ↔ k.slots[j] = .sending := fun j => by
    cases k.slots[j] <;> simp [ResponseSlot.atDisable]
  have hnotReserved : ∀ j : Fin 4, k.slots[j].atDisable ≠ .reserved := fun j => by
    cases k.slots[j] <;> simp [ResponseSlot.atDisable]
  have hnotReady : ∀ (j : Fin 4) (r : Response), k.slots[j].atDisable ≠ .ready r := fun j r => by
    cases k.slots[j] <;> simp [ResponseSlot.atDisable]
  have hprog : ∀ j : Fin 4, (k.inProgress.map fun _ => InProgress.toBeDropped) ≠ some (.reserved j) := fun j => by
    cases k.inProgress <;> simp
  refine LinkForm.law_of_disabled { h.form with
    rxBound := by simp [Link.disable]
    rxMessages := by simp [Link.disable]
    noticeBound := by simp [Link.disable]
    loss := by simp [Link.disable]
    stopped := by simp [Link.disable]
    assembling := fun chars g hr => nomatch hr
    disabled := fun _ => ⟨rfl, rfl, rfl, rfl, hprog, fun j r => (hslot j).symm ▸ hnotReady j r⟩
    responseOnce := h.responseOnce.filter _
    responseListed := fun j => ?_
    reserved := fun j => ⟨fun hj => absurd ((hslot j).symm.trans hj) (hnotReserved j), fun hj => absurd hj (hprog j)⟩
    newest := fun j hj => absurd hj (hprog j)
    sending := fun j => by
      show (k.slots.map ResponseSlot.atDisable)[j] = .sending ↔ _
      rw [hslot, hsend]
      exact h.sending j
    oldest := fun j r hr => ?_ } rfl
  · show j ∈ k.responseQueue.filter (fun i => k.slots[i] == .sending) ↔ (k.slots.map ResponseSlot.atDisable)[j] ≠ .free
    rw [hslot, hnotFree, List.mem_filter, h.responseListed j, beq_iff_eq]
    exact ⟨And.right, fun hj => ⟨by simp [hj], hj⟩⟩
  · have hhead := h.oldest j r hr
    have hj := (h.sending j).2 ⟨r, hr⟩
    show (k.responseQueue.filter fun i => k.slots[i] == .sending).head? = some j
    cases hq : k.responseQueue with
    | nil => simp [hq] at hhead
    | cons a rest =>
      rw [hq] at hhead
      obtain rfl : a = j := by simpa using hhead
      rw [List.filter_cons_of_pos (by simpa using hj)]
      rfl

/-- R147. -/
theorem LinkLaw.enable {k : Link} (h : LinkLaw k) : LinkForm k.enable :=
  { h.form with
    stopped := by simp [Link.enable]
    assembling := fun chars g hr => nomatch hr
    disabled := fun hd => nomatch hd }

/-- R133, R139: a clock moves the running gap and the transmit line on. -/
theorem LinkLaw.clock {k : Link} (h : LinkLaw k) :
    LinkLaw { k with receiver := k.receiver.gapPasses, tx := (k.tx.clock k).1 } :=
  { h with
    stopped := by simpa using h.stopped
    assembling := fun chars g hr => by
      obtain ⟨n, hn, -⟩ := gapPasses_inMessage hr
      exact h.assembling chars _ hn
    atRest := fun hn => by simp [TxLine.clock, show k.inFlight = none from hn] }

/-! ### The receiver (R137 to R141) -/

/-- A receiver that is not stopped takes another state that is not stopped. -/
theorem LinkLaw.setReceiver {k : Link} {x : Receiver} (h : LinkLaw k) (hk : k.receiver ≠ .stopped) (hx : x ≠ .stopped)
    (hmsg : ∀ chars g, x = .inMessage chars g → chars ≠ [] ∧ (2 ≤ chars.length → goodLength (announcedLength chars) ∧
      chars.length < 4 + (announcedLength chars).toNat)) : LinkLaw { k with receiver := x } :=
  { h with
    stopped := ⟨fun e => absurd e hx, fun hd => absurd (h.stopped.2 hd) hk⟩
    assembling := hmsg }

/-- R117, R141: a message is discarded. -/
theorem LinkLaw.discard {k : Link} {x : Receiver} (h : LinkLaw k) (hk : k.receiver ≠ .stopped) (hx : x ≠ .stopped)
    (hmsg : ∀ chars g, x = .inMessage chars g → chars ≠ [] ∧ (2 ≤ chars.length → goodLength (announcedLength chars) ∧
      chars.length < 4 + (announcedLength chars).toNat)) :
    LinkForm { k with receiver := x, discardCount := countUp k.discardCount } :=
  { (h.setReceiver hk hx hmsg).form with
    disabled := fun hd => absurd (h.stopped.2 hd) hk }

/-- R140: a good message joins the receive queue. -/
theorem LinkLaw.accept {k : Link} {m : RxMessage} (h : LinkLaw k) (hk : k.receiver ≠ .stopped)
    (hroom : k.rxQueue.length < 4) (hm : goodLength m.length ∧ m.chars.length = m.length.toNat) :
    LinkLaw { k with receiver := .idle, rxQueue := k.rxQueue ++ [m] } :=
  { h.setReceiver (x := .idle) hk (by simp) (by simp) with
    rxBound := by simpa using hroom
    rxMessages := fun n hn => by
      rcases List.mem_append.1 hn with hn | hn
      · exact h.rxMessages n hn
      · obtain rfl : n = m := by simpa using hn
        exact hm
    disabled := fun hd => absurd (h.stopped.2 hd) hk }

end Sys2Proof.Machine
end

