-- ==== Sys2Proof/Proofs/Frame.lean ====
section
/-! PROOFS. What the operations of the Grant Engine, notices and answers leave as it was: one relation, `EngineOnly`, that each of them
keeps and that chains. -/

namespace Sys2Proof.Machine

open Sys2Proof

/-! ### The transmitter's choice -/

theorem chooseOther_cases (k : Link) (tag : Byte) : k.chooseOther tag = k ∨ ∃ d q lm lc m,
    k.chooseOther tag = { k with discardCount := d, noticeQueue := q, lossMark := lm, lossCount := lc }.begin m ∧
      (k.noticeQueue = [] → q = []) := by
  unfold Link.chooseOther
  split
  · exact .inr ⟨_, k.noticeQueue, k.lossMark, k.lossCount, _, rfl, id⟩
  · split
    · rename_i n rest hq
      exact .inr ⟨k.discardCount, rest, k.lossMark, k.lossCount, _, rfl, fun h => by simp [hq] at h⟩
    · split
      · exact .inr ⟨k.discardCount, k.noticeQueue, _, _, _, rfl, id⟩
      · exact .inl rfl

/-- R119: a choice either leaves the link as it was or begins a message on an idle transmitter, which takes the message out of its
source. -/
theorem choose_cases (k : Link) (tag : Byte) : k.choose tag = k ∨ k.inFlight = none ∧ ∃ v d q lm lc m,
    k.choose tag = { k with slots := v, discardCount := d, noticeQueue := q, lossMark := lm, lossCount := lc }.begin m ∧
      (k.noticeQueue = [] → q = []) := by
  unfold Link.choose
  split
  · rename_i hidle
    have other : k.chooseOther tag = k ∨ k.inFlight = none ∧ ∃ v d q lm lc m, k.chooseOther tag =
        { k with slots := v, discardCount := d, noticeQueue := q, lossMark := lm, lossCount := lc }.begin m ∧
          (k.noticeQueue = [] → q = []) := by
      rcases chooseOther_cases k tag with h | ⟨d, q, lm, lc, m, h, hq⟩
      · exact .inl h
      · exact .inr ⟨hidle.2, k.slots, d, q, lm, lc, m, h, hq⟩
    unfold Link.chooseNext
    split
    · split
      · exact .inr ⟨hidle.2, _, k.discardCount, k.noticeQueue, k.lossMark, k.lossCount, _, rfl, id⟩
      all_goals exact other
    · exact other
  · exact .inl rfl

@[simp] theorem finishSending_enabled (k : Link) : k.finishSending.enabled = k.enabled := by
  unfold Link.finishSending
  split <;> rfl

@[simp] theorem finishSending_divider (k : Link) : k.finishSending.divider = k.divider := by
  unfold Link.finishSending
  split <;> rfl

@[simp] theorem finishSending_stopBits (k : Link) : k.finishSending.stopBits = k.stopBits := by
  unfold Link.finishSending
  split <;> rfl

@[simp] theorem finishSending_gapLimit (k : Link) : k.finishSending.gapLimit = k.gapLimit := by
  unfold Link.finishSending
  split <;> rfl

@[simp] theorem choose_enabled (k : Link) (tag : Byte) : (k.choose tag).enabled = k.enabled := by
  rcases choose_cases k tag with h | ⟨_, v, d, q, lm, lc, m, h, _⟩
  · rw [h]
  · rw [h]
    rfl

@[simp] theorem choose_divider (k : Link) (tag : Byte) : (k.choose tag).divider = k.divider := by
  rcases choose_cases k tag with h | ⟨_, v, d, q, lm, lc, m, h, _⟩
  · rw [h]
  · rw [h]
    rfl

@[simp] theorem choose_stopBits (k : Link) (tag : Byte) : (k.choose tag).stopBits = k.stopBits := by
  rcases choose_cases k tag with h | ⟨_, v, d, q, lm, lc, m, h, _⟩
  · rw [h]
  · rw [h]
    rfl

@[simp] theorem choose_gapLimit (k : Link) (tag : Byte) : (k.choose tag).gapLimit = k.gapLimit := by
  rcases choose_cases k tag with h | ⟨_, v, d, q, lm, lc, m, h, _⟩
  · rw [h]
  · rw [h]
    rfl

@[simp] theorem choose_inProgress (k : Link) (tag : Byte) : (k.choose tag).inProgress = k.inProgress := by
  rcases choose_cases k tag with h | ⟨_, v, d, q, lm, lc, m, h, _⟩
  · rw [h]
  · rw [h]
    rfl

theorem choose_noticeQueue {k : Link} (tag : Byte) (hk : k.noticeQueue = []) : (k.choose tag).noticeQueue = [] := by
  rcases choose_cases k tag with h | ⟨_, v, d, q, lm, lc, m, h, hq⟩ <;> rw [h]
  · exact hk
  · exact hq hk

/-! ### One link -/

/-- A link keeps its enable, its settings and a message in flight. -/
structure LinkSame (a b : Link) : Prop where
  enabled : b.enabled = a.enabled
  divider : b.divider = a.divider
  stopBits : b.stopBits = a.stopBits
  gapLimit : b.gapLimit = a.gapLimit
  sent : a.inFlight ≠ none → b.inFlight = a.inFlight ∧ b.tx = a.tx

theorem LinkSame.refl (a : Link) : LinkSame a a := ⟨rfl, rfl, rfl, rfl, fun _ => ⟨rfl, rfl⟩⟩

theorem LinkSame.trans {a b c : Link} (h : LinkSame a b) (k : LinkSame b c) : LinkSame a c where
  enabled := k.enabled.trans h.enabled
  divider := k.divider.trans h.divider
  stopBits := k.stopBits.trans h.stopBits
  gapLimit := k.gapLimit.trans h.gapLimit
  sent hf := by
    obtain ⟨h1, h2⟩ := h.sent hf
    obtain ⟨k1, k2⟩ := k.sent (by rwa [h1])
    exact ⟨k1.trans h1, k2.trans h2⟩

/-- Such a link keeps its law, too. -/
structure LinkKept (a b : Link) : Prop where
  same : LinkSame a b
  law : LinkLaw a → LinkLaw b

theorem LinkKept.refl (a : Link) : LinkKept a a := ⟨.refl a, id⟩

theorem LinkKept.trans {a b c : Link} (h : LinkKept a b) (k : LinkKept b c) : LinkKept a c :=
  ⟨h.same.trans k.same, k.law ∘ h.law⟩

/-- The choice of the transmitter leaves a link the same. -/
theorem LinkSame.choose {a b : Link} (tag : Byte) (h : LinkSame a b) (flight : b.inFlight = a.inFlight) :
    LinkSame a (b.choose tag) := by
  rcases choose_cases b tag with e | ⟨hn, v, d, q, lm, lc, m, e, -⟩ <;> rw [e]
  · exact h
  · exact { h with sent := fun hf => absurd (flight ▸ hn) hf }

/-- A change of the sources of messages, with the choice that follows it. -/
theorem LinkKept.choose {a b : Link} (tag : Byte) (enabled : b.enabled = a.enabled) (divider : b.divider = a.divider)
    (stopBits : b.stopBits = a.stopBits) (gapLimit : b.gapLimit = a.gapLimit) (flight : b.inFlight = a.inFlight)
    (tx : b.tx = a.tx) (form : LinkLaw a → LinkForm b) : LinkKept a (b.choose tag) :=
  ⟨.choose tag ⟨enabled, divider, stopBits, gapLimit, fun _ => ⟨flight, tx⟩⟩ flight, fun h => (form h).choose tag⟩

/-! ### The relation -/

/-- From s to t nothing changes outside the Grant Engine but the two counts of sessions, sources of messages, live counters and flags;
a link keeps its request in progress unless it is the one that is answered; and no notice comes to a client whose notices are
discarded (R113). -/
structure EngineOnly (answered : Option Client) (s t : State) : Prop where
  outside : SameOutsideEngine s t
  session : ∀ c : Client, ∃ a b, t.session c = { s.session c with holdCount := a, waitCount := b }
  link : ∀ l : Client, LinkKept (s.link l) (t.link l)
  progress : ∀ l : Client, answered ≠ some l → (t.link l).inProgress = (s.link l).inProgress
  notices : ∀ l : Client, (s.session l).state.discardsNotices = true → (s.link l).noticeQueue = [] →
    (t.link l).noticeQueue = []

namespace EngineOnly

variable {o : Option Client} {s t u : State}

theorem sameSession {c : Client} (h : EngineOnly o s t) : (t.session c).state = (s.session c).state ∧
    (t.session c).tag = (s.session c).tag ∧ (t.session c).afterPurge = (s.session c).afterPurge ∧
    (t.session c).pendingTag = (s.session c).pendingTag ∧ (t.session c).deferred = (s.session c).deferred := by
  obtain ⟨a, b, e⟩ := h.session c
  rw [e]
  exact ⟨rfl, rfl, rfl, rfl, rfl⟩

theorem state (h : EngineOnly o s t) (c : Client) : (t.session c).state = (s.session c).state := h.sameSession.1

/-- Nothing but engine state, live counters and flags. -/
theorem of_same (outside : SameOutsideEngine s t) (sessions : t.sessions = s.sessions) (links : t.links = s.links) :
    EngineOnly o s t := by
  have hl : ∀ l, t.link l = s.link l := fun l => congrArg (fun v : Vector Link 8 => v[l]) links
  exact {
    outside := outside
    session := fun c => ⟨_, _, congrArg (fun v : Vector Session 8 => v[c]) sessions⟩
    link := fun l => hl l ▸ LinkKept.refl _
    progress := fun l _ => by rw [hl]
    notices := fun l _ hq => by rw [hl]; exact hq }

theorem refl (o : Option Client) (s : State) : EngineOnly o s s :=
  of_same ⟨rfl, rfl, rfl, rfl, rfl, rfl, rfl, rfl, rfl, rfl, rfl, rfl⟩ rfl rfl

theorem trans (h : EngineOnly o s t) (k : EngineOnly o t u) : EngineOnly o s u where
  outside := {
    hashSeed := k.outside.hashSeed.trans h.outside.hashSeed
    closing := k.outside.closing.trans h.outside.closing
    timer := k.outside.timer.trans h.outside.timer
    device := k.outside.device.trans h.outside.device
    purge := k.outside.purge.trans h.outside.purge
    admin := k.outside.admin.trans h.outside.admin
    enables := k.outside.enables.trans h.outside.enables
    snapshot := k.outside.snapshot.trans h.outside.snapshot
    port := k.outside.port.trans h.outside.port
    wires := k.outside.wires.trans h.outside.wires
    pins := k.outside.pins.trans h.outside.pins
    pending := k.outside.pending.trans h.outside.pending }
  session c := by
    obtain ⟨a, b, e⟩ := h.session c
    obtain ⟨a', b', e'⟩ := k.session c
    exact ⟨a', b', by rw [e', e]⟩
  link l := (h.link l).trans (k.link l)
  progress l hl := (k.progress l hl).trans (h.progress l hl)
  notices l hd hq := k.notices l (by rwa [h.state]) (h.notices l hd hq)

/-- What keeps every request in progress keeps all but one, too. -/
theorem weaken (h : EngineOnly none s t) : EngineOnly o s t := { h with progress := fun l _ => h.progress l (by simp) }

/-! ### Updates of the engine's own state -/

theorem setRecord (r : Slot) (x : Option Record) : EngineOnly o s (s.setRecord r x) :=
  of_same (by constructor <;> simp) (by simp) (by simp)

theorem modifyRecord (r : Slot) (f : Record → Record) : EngineOnly o s (s.modifyRecord r f) :=
  of_same (by constructor <;> simp) (by simp) (by simp)

theorem setHoldSlot (i : HoldIx) (x : HoldSlot) : EngineOnly o s (s.setHoldSlot i x) :=
  of_same (by constructor <;> simp) (by simp) (by simp)

theorem setHold (i : HoldIx) (x : Option Hold) : EngineOnly o s (s.setHold i x) :=
  of_same (by constructor <;> simp) (by simp) (by simp)

theorem modifyHold (i : HoldIx) (f : Hold → Hold) : EngineOnly o s (s.modifyHold i f) :=
  of_same (by constructor <;> simp) (by simp) (by simp)

theorem setWaitSlot (w : WaitIx) (x : WaitSlot) : EngineOnly o s (s.setWaitSlot w x) :=
  of_same (by constructor <;> simp) (by simp) (by simp)

theorem setWait (w : WaitIx) (x : Option Wait) : EngineOnly o s (s.setWait w x) :=
  of_same (by constructor <;> simp) (by simp) (by simp)

theorem setHoldCounts (x : HoldCounts) : EngineOnly o s (s.setHoldCounts x) :=
  of_same (by constructor <;> simp) (by simp) (by simp)

theorem setArrival (x : Word) : EngineOnly o s (s.setArrival x) :=
  of_same (by constructor <;> simp) (by simp) (by simp)

theorem setFence (x : FenceCounter) : EngineOnly o s (s.setFence x) :=
  of_same (by constructor <;> simp) (by simp) (by simp)

theorem removeEntry (ref : DeadlineRef) : EngineOnly o s (s.removeEntry ref) :=
  of_same (by constructor <;> simp) (by simp) (by simp)

theorem addEntry (ref : DeadlineRef) (d : Word) : EngineOnly o s (s.addEntry ref d) :=
  of_same (by constructor <;> simp) (by simp) (by simp)

theorem moveEntry (ref : DeadlineRef) (d : Word) : EngineOnly o s (s.moveEntry ref d) :=
  of_same (by constructor <;> simp) (by simp) (by simp)

theorem raise (f : EventFlag) : EngineOnly o s (s.raise f) :=
  of_same (by constructor <;> rfl) rfl rfl

theorem countClient (c : Client) (f : ClientCounters → ClientCounters) : EngineOnly o s (s.countClient c f) :=
  of_same (by constructor <;> simp) (by simp) (by simp)

/-- The counts of a session change. -/
theorem modifySession (c : Client) (f : Session → Session)
    (hf : ∀ k, ∃ a b, f k = { k with holdCount := a, waitCount := b }) : EngineOnly o s (s.modifySession c f) where
  outside := by constructor <;> simp
  session d := by
    rw [session_modifySession]
    split
    · rename_i h; subst h; exact hf _
    · exact ⟨_, _, rfl⟩
  link l := by rw [show (s.modifySession c f).link l = s.link l from rfl]; exact .refl _
  progress l _ := rfl
  notices l _ hq := hq

/-- A link changes. -/
theorem modifyLink (l : Client) (f : Link → Link) (kept : LinkKept (s.link l) (f (s.link l)))
    (progress : o ≠ some l → (f (s.link l)).inProgress = (s.link l).inProgress)
    (notices : (s.session l).state.discardsNotices = true → (s.link l).noticeQueue = [] → (f (s.link l)).noticeQueue = []) :
    EngineOnly o s (s.modifyLink l f) where
  outside := by constructor <;> simp
  session d := ⟨_, _, rfl⟩
  link k := by
    rw [link_modifyLink]
    split
    · rename_i h; subst h; exact kept
    · exact .refl _
  progress k hk := by
    rw [link_modifyLink]
    split
    · rename_i h; subst h; exact progress hk
    · rfl
  notices k hd hq := by
    rw [link_modifyLink]
    split
    · rename_i h; subst h; exact notices hd hq
    · exact hq

end EngineOnly

/-! ### Answers and notices -/

theorem modifyLink_modifyLink (s : State) (l : Client) (f g : Link → Link) :
    (s.modifyLink l f).modifyLink l g = s.modifyLink l fun k => g (f k) := by
  simp [State.modifyLink, State.setLinks, State.link]

/-- A change of a link with the choice that follows it is one change of the link. -/
theorem modifyLink_choose (s : State) (l : Client) (f : Link → Link) :
    (s.modifyLink l f).choose l = s.modifyLink l fun k => (f k).choose (s.session l).tag :=
  modifyLink_modifyLink s l f _

namespace EngineOnly

variable {o : Option Client} {s t : State}

/-- R89: the answer to the request in progress. -/
theorem respond (l : Client) (tag : Byte) (reply : Reply) : EngineOnly (some l) s (s.respond l tag reply) := by
  unfold State.respond
  rw [modifyLink_choose]
  refine modifyLink l _ ?_ (by simp) fun _ hq => choose_noticeQueue _ ?_
  · refine LinkKept.choose _ ?_ ?_ ?_ ?_ ?_ ?_ fun h => h.placeResponse _ <;> unfold Link.placeResponse <;> split <;> rfl
  · unfold Link.placeResponse
    split <;> exact hq

theorem respond_inProgress (s : State) (l : Client) (tag : Byte) (reply : Reply) :
    ((s.respond l tag reply).link l).inProgress = none := by
  unfold State.respond
  rw [modifyLink_choose, link_modifyLink, if_pos rfl, choose_inProgress]
  unfold Link.placeResponse
  split
  · rfl
  · rfl
  · assumption

theorem refuse (l : Client) (tag : Byte) (reply : Reply) : EngineOnly (some l) s (s.refuse l tag reply) :=
  (countClient l _).trans (respond l tag reply)

theorem refuse_inProgress (s : State) (l : Client) (tag : Byte) (reply : Reply) :
    ((s.refuse l tag reply).link l).inProgress = none := respond_inProgress _ l tag reply

/-- R113: the posting of a notice. -/
theorem postNotice (c : Client) (tag : Byte) (body : NoticeBody) : EngineOnly o s (s.postNotice c tag body) := by
  unfold State.postNotice
  split
  · exact refl _ _
  rename_i he
  have he : (s.link c).enabled = true := by simpa using he
  split
  · exact refl _ _
  rename_i hd
  split
  · rename_i hm
    exact modifyLink c _ ⟨⟨rfl, rfl, rfl, rfl, fun _ => ⟨rfl, rfl⟩⟩, fun h => h.countLoss he hm⟩ (fun _ => rfl)
      fun h => absurd h hd
  · split
    · have swap : ((s.modifyLink c Link.beginLoss).raise .noticeLoss).choose c =
        ((s.modifyLink c Link.beginLoss).choose c).raise .noticeLoss := rfl
      rw [swap, modifyLink_choose]
      refine trans (modifyLink c _ ?_ (fun _ => choose_inProgress (s.link c).beginLoss _) fun h => absurd h hd) (raise _)
      exact LinkKept.choose _ rfl rfl rfl rfl rfl rfl fun h => h.beginLoss he
    · rename_i hlen
      rw [modifyLink_choose]
      refine modifyLink c _ ?_ (fun _ => choose_inProgress _ _) fun h => absurd h hd
      exact LinkKept.choose _ rfl rfl rfl rfl rfl rfl fun h => h.addNotice _ he (not_le.1 hlen)

/-! ### The Grant Engine's operations -/

theorem clearIdle (r : Slot) : EngineOnly o s (s.clearIdle r) := (modifyRecord r _).trans (removeEntry _)

theorem settleIdle (r : Slot) : EngineOnly o s (s.settleIdle r) := by
  unfold State.settleIdle
  split
  · split
    · exact (setRecord r _).trans (addEntry _ _)
    · exact refl _ _
  · exact refl _ _

theorem retire (r : Slot) : EngineOnly o s (s.retire r) := (setRecord r _).trans (removeEntry _)

theorem place (r : Slot) (x : Record) : EngineOnly o s (s.place r x) := (retire r).trans (setRecord r _)

theorem setHoldDeadline (i : HoldIx) (d : Word) : EngineOnly o s (s.setHoldDeadline i d) :=
  (modifyHold i _).trans (moveEntry _ _)

theorem advanceFence : EngineOnly o s s.advanceFence := by
  unfold State.advanceFence
  split
  · exact (setFence _).trans (raise _)
  · exact setFence _

theorem testHoldMark (n : Nat) : EngineOnly o s (s.testHoldMark n) := by
  unfold State.testHoldMark
  split
  · exact raise _
  · exact refl _ _

theorem testWaitMark (n : Nat) : EngineOnly o s (s.testWaitMark n) := by
  unfold State.testWaitMark
  split
  · exact raise _
  · exact refl _ _

theorem countGrant (c : Client) : EngineOnly o s (s.countGrant c) := countClient c _

theorem openHold (i : HoldIx) (c : Client) (r : Slot) (m : Mode) (term : Half) : EngineOnly o s (s.openHold i c r m term) :=
  ((((setHoldSlot i _).trans (modifyRecord r _)).trans advanceFence).trans (addEntry _ _)).trans (clearIdle r)

theorem countImmediate (c : Client) : EngineOnly o s (s.countImmediate c) :=
  (((setHoldCounts _).trans (testHoldMark _)).trans (modifySession c _ fun k => ⟨_, k.waitCount, rfl⟩)).trans (countGrant c)

theorem grantAtOnce (i : HoldIx) (c : Client) (r : Slot) (m : Mode) (term : Half) :
    EngineOnly o s (s.grantAtOnce i c r m term) := (openHold i c r m term).trans (countImmediate c)

theorem postGranted (c : Client) (tag : Byte) (i : HoldIx) : EngineOnly o s (s.postGranted c tag i) := by
  unfold State.postGranted
  split
  · exact postNotice _ _ _
  · exact refl _ _

theorem dropWait (w : WaitIx) (y : Wait) : EngineOnly o s (s.dropWait w y) :=
  (((modifyRecord _ _).trans (removeEntry _)).trans (setWait w _)).trans
    (modifySession _ _ fun k => ⟨k.holdCount, _, rfl⟩)

theorem grantNew (r : Slot) (x : Record) (w : WaitIx) (y : Wait) : EngineOnly o s (s.grantNew r x w y) := by
  unfold State.grantNew
  split
  · exact refl _ _
  · exact ((((dropWait w y).trans (openHold _ _ _ _ _)).trans (setHoldCounts _)).trans (countGrant _)).trans
      (postGranted _ _ _)

theorem upgrade (i : HoldIx) (r : Slot) (term : Half) : EngineOnly o s (s.upgrade i r term) :=
  (((modifyHold i _).trans (setHoldDeadline i _)).trans (modifyRecord r _)).trans advanceFence

theorem grantConversion (r : Slot) (x : Record) (w : WaitIx) (y : Wait) (h : HoldHandle) :
    EngineOnly o s (s.grantConversion r x w y h) :=
  (((dropWait w y).trans (upgrade _ _ _)).trans (countGrant _)).trans (postGranted _ _ _)

theorem grantHead (r : Slot) (x : Record) (w : WaitIx) (y : Wait) : EngineOnly o s (s.grantHead r x w y) := by
  unfold State.grantHead
  split
  · exact grantNew r x w y
  · exact grantConversion r x w y _

theorem grantPassLoop (r : Slot) (n : Nat) (s : State) : EngineOnly o s (grantPassLoop r n s) := by
  induction n generalizing s with
  | zero => exact refl _ _
  | succ n ih =>
    unfold Machine.grantPassLoop
    split
    · exact refl _ _
    · split
      · exact refl _ _
      · split
        · exact refl _ _
        · split
          · exact refl _ _
          · split
            · exact raise _
            · exact (grantHead _ _ _ _).trans (ih _)

theorem grantPass (r : Slot) : EngineOnly o s (s.grantPass r) := grantPassLoop r _ s

theorem settleRecord (r : Slot) : EngineOnly o s (s.settleRecord r) := (grantPass r).trans (settleIdle r)

theorem freeConversion (h : Hold) : EngineOnly o s (s.freeConversion h) := by
  unfold State.freeConversion
  split
  · exact refl _ _
  · split
    · exact dropWait _ _
    · exact refl _ _

theorem freeHold (i : HoldIx) (h : Hold) : EngineOnly o s (s.freeHold i h) :=
  (((((modifyRecord _ _).trans (removeEntry _)).trans (freeConversion h)).trans (setHold i _)).trans
    (setHoldCounts _)).trans (modifySession _ _ fun k => ⟨_, k.waitCount, rfl⟩)

theorem postLost (handle : HoldHandle) (h : Hold) (cause : LostCause) : EngineOnly o s (s.postLost handle h cause) :=
  postNotice _ _ _

theorem endHold (i : HoldIx) (h : Hold) (cause : LostCause) : EngineOnly o s (s.endHold i h cause) :=
  ((freeHold i h).trans (postLost _ _ _)).trans (settleRecord _)

theorem freeWait (w : WaitIx) (y : Wait) : EngineOnly o s (s.freeWait w y) := by
  unfold State.freeWait
  split
  · exact ((dropWait w y).trans (setHoldCounts _)).trans (modifySession _ _ fun k => ⟨_, k.waitCount, rfl⟩)
  · exact (dropWait w y).trans (modifyHold _ _)

theorem postWaitEnded (handle : WaitHandle) (y : Wait) (cause : WaitEndCause) :
    EngineOnly o s (s.postWaitEnded handle y cause) := postNotice _ _ _

theorem endWait (w : WaitIx) (y : Wait) (cause : WaitEndCause) : EngineOnly o s (s.endWait w y cause) :=
  ((freeWait w y).trans (postWaitEnded _ _ _)).trans (settleRecord _)

theorem openWait (w : WaitIx) (y : Wait) (place : List WaitIx → List WaitIx) : EngineOnly o s (s.openWait w y place) :=
  ((((((setWaitSlot w _).trans (setArrival _)).trans (modifyRecord _ _)).trans (addEntry _ _)).trans (clearIdle _)).trans
    (modifySession _ _ fun k => ⟨k.holdCount, _, rfl⟩)).trans (testWaitMark _)

theorem reserveHold (c : Client) : EngineOnly o s (s.reserveHold c) :=
  ((setHoldCounts _).trans (testHoldMark _)).trans (modifySession _ _ fun k => ⟨_, k.waitCount, rfl⟩)

theorem countWaitBegun (c : Client) : EngineOnly o s (s.countWaitBegun c) := countClient c _

theorem queueNew (w : WaitIx) (y : Wait) : EngineOnly o s (s.queueNew w y) := by
  unfold State.queueNew
  exact ((openWait w y _).trans (reserveHold _)).trans (countWaitBegun _)

theorem queueUpgrade (i : HoldIx) (w : WaitIx) (y : Wait) : EngineOnly o s (s.queueUpgrade i w y) := by
  unfold State.queueUpgrade
  exact ((openWait w y _).trans (modifyHold i _)).trans (countWaitBegun _)

theorem displaceOne (i : HoldIx) : EngineOnly o s (s.displaceOne i) := by
  unfold State.displaceOne
  split
  · exact endHold _ _ _
  · exact refl _ _

/-- What each step of a fold keeps, the fold keeps. -/
theorem foldl {α : Type} (f : State → α → State) (hf : ∀ s a, EngineOnly o s (f s a)) (as : List α) (s : State) :
    EngineOnly o s (as.foldl f s) := by
  induction as generalizing s with
  | nil => exact refl _ _
  | cons a as ih => exact (hf s a).trans (ih _)

theorem displace (c : Client) (r : Slot) (m : Mode) : EngineOnly o s (s.displace c r m) := by
  unfold State.displace
  split
  · exact foldl _ (fun _ i => displaceOne i) _ _
  · exact refl _ _

/-! ### Claims that a lease, the manager or a purge ends -/

theorem lapse (i : HoldIx) (h : Hold) : EngineOnly o s (s.lapse i h) :=
  ((modifyHold i _).trans (setHoldDeadline i _)).trans (postNotice _ _ _)

theorem expireHold (i : HoldIx) (h : Hold) : EngineOnly o s (s.expireHold i h) := (countClient _ _).trans (endHold _ _ _)

theorem timeOutWait (w : WaitIx) (y : Wait) : EngineOnly o s (s.timeOutWait w y) := (countClient _ _).trans (endWait _ _ _)

theorem takeLease (i : HoldIx) (h : Hold) : EngineOnly o s (s.takeLease i h) := by
  unfold State.takeLease
  split
  · split
    · exact lapse i h
    · exact expireHold i h
  · exact expireHold i h

theorem purgeWait (c : Client) (w : WaitIx) : EngineOnly o s (s.purgeWait c w) := by
  unfold State.purgeWait
  split
  · split
    · exact (freeWait _ _).trans (settleRecord _)
    · exact refl _ _
  · exact refl _ _

theorem purgeHold (c : Client) (i : HoldIx) : EngineOnly o s (s.purgeHold c i) := by
  unfold State.purgeHold
  split
  · split
    · exact (freeHold _ _).trans (settleRecord _)
    · exact refl _ _
  · exact refl _ _

theorem removeWait (w : WaitIx) : EngineOnly o s (s.removeWait w) := by
  unfold State.removeWait
  split
  · exact (freeWait _ _).trans (postWaitEnded _ _ _)
  · exact refl _ _

theorem removeHold (i : HoldIx) : EngineOnly o s (s.removeHold i) := by
  unfold State.removeHold
  split
  · exact (freeHold _ _).trans (postLost _ _ _)
  · exact refl _ _

theorem removeClaims (r : Slot) (x : Record) : EngineOnly o s (s.removeClaims r x) :=
  ((foldl _ (fun _ w => removeWait w) _ _).trans (foldl _ (fun _ i => removeHold i) _ _)).trans (retire r)

theorem installOn (r : Slot) (x : Record) (shareable : Bool) (cap : Nat) (maxTerm : Half) :
    EngineOnly o s (s.installOn r x shareable cap maxTerm) := by
  unfold State.installOn
  dsimp only
  split
  · exact ((modifyRecord _ _).trans (clearIdle r)).trans (grantPass r)
  · exact (modifyRecord _ _).trans (clearIdle r)

theorem unpinOn (r : Slot) (x : Record) : EngineOnly o s (s.unpinOn r x) := by
  unfold State.unpinOn
  split
  · exact refl _ _
  · exact (modifyRecord _ _).trans (settleRecord r)

theorem passForWait (w : WaitIx) : EngineOnly o s (s.passForWait w) := by
  unfold State.passForWait
  split
  · exact grantPass _
  · exact refl _ _

end EngineOnly

end Sys2Proof.Machine
end

