-- ==== Sys2Proof/Proofs/Answers.lean ====
section
/-! PROOFS. The decision of a request other than ATTACH and DETACH: engine operations and exactly one answer, which ends the request
in progress. -/

namespace Sys2Proof.Machine

open Sys2Proof

/-- From s to t the request in progress on link l was answered, by engine operations. -/
structure Answered (l : Client) (s t : State) : Prop where
  only : EngineOnly (some l) s t
  ended : (t.link l).inProgress = none

namespace Answered

variable {l : Client} {s t u : State}

theorem respond (tag : Byte) (reply : Reply) : Answered l s (s.respond l tag reply) :=
  ⟨.respond l tag reply, EngineOnly.respond_inProgress ..⟩

theorem refuse (tag : Byte) (reply : Reply) : Answered l s (s.refuse l tag reply) :=
  ⟨.refuse l tag reply, EngineOnly.refuse_inProgress ..⟩

/-- Engine operations before the answer. -/
theorem after (h : EngineOnly none s t) (k : Answered l t u) : Answered l s u := ⟨h.weaken.trans k.only, k.ended⟩

/-- Engine operations after the answer. -/
theorem andThen (h : Answered l s t) (k : EngineOnly none t u) : Answered l s u :=
  ⟨h.only.trans k.weaken, (k.progress l (by simp)).trans h.ended⟩

theorem refuseFence (tag : Byte) : Answered l s (s.refuseFence l tag) := after (.raise _) (refuse tag _)

/-! ### ACQUIRE -/

theorem acquireCreate (tag : Byte) (b : AcquireBody) : Answered l s (s.acquireCreate l tag b) := by
  unfold State.acquireCreate
  split
  · exact after (.raise _) (refuse tag _)
  · split
    · exact refuse tag _
    · split
      · exact refuse tag _
      · split
        · exact refuseFence tag
        · exact after ((EngineOnly.place _ _).trans (.grantAtOnce _ _ _ _ _)) (respond tag _)

theorem acquireNow (tag : Byte) (b : AcquireBody) (r : Slot) (x : Record) : Answered l s (s.acquireNow l tag b r x) := by
  unfold State.acquireNow
  split
  · exact refuse tag _
  · split
    · exact refuseFence tag
    · exact after (.grantAtOnce _ _ _ _ _) (respond tag _)

theorem acquireQueue (tag : Byte) (b : AcquireBody) (r : Slot) (x : Record) (priority : BitVec 2) :
    Answered l s (s.acquireQueue l tag b r x priority) := by
  unfold State.acquireQueue
  split
  · exact refuse tag _
  · split
    · exact refuse tag _
    · split
      · exact andThen (after (.queueNew _ _) (respond tag _)) (.grantPass r)
      · exact refuse tag _

theorem acquireDecide (tag : Byte) (b : AcquireBody) (r : Slot) : Answered l s (s.acquireDecide l tag b r) := by
  unfold State.acquireDecide
  split
  · dsimp only
    split
    · exact acquireNow tag b r _
    · exact acquireQueue tag b r _ _
  · exact refuse tag _

theorem acquirePresent (tag : Byte) (b : AcquireBody) (r : Slot) (x : Record) :
    Answered l s (s.acquirePresent l tag b r x) := by
  unfold State.acquirePresent
  split
  · exact refuse tag _
  · split
    · exact refuse tag _
    · split
      · exact refuse tag _
      · split
        · exact refuse tag _
        · exact after (.displace _ _ _) (acquireDecide tag b r)

theorem decideAcquire (tag : Byte) (b : AcquireBody) : Answered l s (s.decideAcquire l tag b) := by
  unfold State.decideAcquire
  split
  · exact refuse tag _
  · split
    · exact refuse tag _
    · split
      · split
        · exact refuse tag _
        · exact acquireCreate tag b
      · split
        · exact acquirePresent tag b _ _
        · exact refuse tag _

/-! ### CONVERT -/

theorem recover (i : HoldIx) (h : Hold) (d : Word) : EngineOnly none s (s.recover i h d) := by
  unfold State.recover
  split
  · exact (EngineOnly.modifyHold i _).trans (.setHoldDeadline i d)
  · exact .refl _ _

theorem downgrade (tag : Byte) (i : HoldIx) (r : Slot) : Answered l s (s.downgrade l tag i r) :=
  andThen (after (.modifyHold i _) (respond tag _)) (.settleRecord r)

theorem upgradeNow (tag : Byte) (b : ConvertBody) (i : HoldIx) (r : Slot) (x : Record) :
    Answered l s (s.upgradeNow l tag b i r x) := by
  unfold State.upgradeNow
  split
  · exact refuseFence tag
  · exact andThen (after ((EngineOnly.upgrade _ _ _).trans (.countGrant l)) (respond tag _)) (.settleRecord r)

theorem convertQueue (tag : Byte) (b : ConvertBody) (i : HoldIx) (r : Slot) (x : Record) :
    Answered l s (s.convertQueue l tag b i r x) := by
  unfold State.convertQueue
  split
  · exact refuse tag _
  · split
    · exact refuse tag _
    · split
      · exact refuse tag _
      · exact andThen (after (.queueUpgrade _ _ _) (respond tag _)) (.grantPass r)

theorem upgradeDecide (tag : Byte) (b : ConvertBody) (i : HoldIx) (r : Slot) :
    Answered l s (s.upgradeDecide l tag b i r) := by
  unfold State.upgradeDecide
  split
  · split
    · exact upgradeNow tag b i r _
    · exact convertQueue tag b i r _
  · exact refuse tag _

theorem convertActive (tag : Byte) (b : ConvertBody) (i : HoldIx) (r : Slot) (x : Record) :
    Answered l s (s.convertActive l tag b i r x) := by
  unfold State.convertActive
  split
  · split
    · exact refuse tag _
    · exact downgrade tag i r
  · split
    · exact refuse tag _
    · exact after (.displace _ _ _) (upgradeDecide tag b i r)

theorem decideConvert (tag : Byte) (b : ConvertBody) : Answered l s (s.decideConvert l tag b) := by
  unfold State.decideConvert
  split
  · exact refuse tag _
  · split
    · exact refuse tag _
    · split
      · exact refuse tag _
      · split
        · exact refuse tag _
        · exact after (recover _ _ _) (convertActive tag b _ _ _)

/-! ### RENEW, RELEASE, CANCEL, QUERY, VALIDATE -/

theorem renewHold (tag : Byte) (i : HoldIx) (x : Record) (term : Half) : Answered l s (s.renewHold l tag i x term) :=
  after ((EngineOnly.modifyHold i _).trans (.setHoldDeadline i _)) (respond tag _)

theorem releaseHold (tag : Byte) (i : HoldIx) (h : Hold) : Answered l s (s.releaseHold l tag i h) :=
  andThen (after (.freeHold i h) (respond tag _)) (.settleRecord _)

theorem cancelNamed (tag : Byte) (w : WaitIx) (y : Wait) : Answered l s (s.cancelNamed l tag w y) :=
  andThen (after (.freeWait w y) (respond tag _)) (.settleRecord _)

theorem decideValidate (tag : Byte) (key : Word) (fence : Fence) : Answered l s (s.decideValidate l tag key fence) := by
  unfold State.decideValidate
  split
  · exact refuse tag _
  · split
    · exact refuse tag _
    · split
      · exact respond tag _
      · split <;> exact respond tag _

/-- Every decision but those of ATTACH and DETACH. -/
theorem decision (k : RequestKind) (m : RxMessage) (ha : k ≠ .attach) (hd : k ≠ .detach) (hg : m.fieldsGood k = true) :
    Answered l s (k.decision l m s) := by
  cases k with
  | attach => exact absurd rfl ha
  | detach => exact absurd rfl hd
  | ping => exact respond _ _
  | acquire =>
    rw [fieldsGood_acquire] at hg
    obtain ⟨b, hb⟩ := Option.isSome_iff_exists.1 hg
    simp only [RequestKind.decision, hb]
    exact decideAcquire _ b
  | convert =>
    rw [fieldsGood_convert] at hg
    obtain ⟨b, hb⟩ := Option.isSome_iff_exists.1 hg
    simp only [RequestKind.decision, hb]
    exact decideConvert _ b
  | renew =>
    simp only [RequestKind.decision]
    split
    · exact refuse _ _
    · split
      · exact renewHold _ _ _ _
      · exact refuse _ _
  | release =>
    simp only [RequestKind.decision]
    split
    · exact refuse _ _
    · exact releaseHold _ _ _
  | cancel =>
    simp only [RequestKind.decision]
    split
    · exact refuse _ _
    · exact cancelNamed _ _ _
  | query =>
    simp only [RequestKind.decision]
    split
    · exact refuse _ _
    · exact respond _ _
  | validate => exact decideValidate _ _ _

end Answered

/-! ### The rows of the requests -/

/-- The row of a request that its link does not take changes nothing. -/
theorem exec_row_of_not {s : State} {l : Client} {k : RequestKind}
    (h : ∀ m i, Takes s l m i → m.requestKind ≠ some k) : exec (k.row l) s = .next s := by
  cases k <;>
    simp only [RequestKind.row, exec, execAttach, execDetach, execPing, execAcquire, execConvert, execRenew, execRelease,
      execCancel, execQuery, execValidate] <;>
    rw [take_of_not _ h]

/-- What a request row does: nothing, or the gate and the decision of the message that its link takes. -/
theorem exec_row_cases (s : State) (l : Client) (k : RequestKind) : exec (k.row l) s = .next s ∨
    ∃ m i, Takes s l m i ∧ m.requestKind = some k ∧ exec (k.row l) s = .next
      (if m.fieldsGood k then (s.taken l i).gated l k (m.asksNewClaim k) m (k.decision l m)
       else (s.taken l i).refuse l m.requestTag .malformed) := by
  by_cases h : ∃ m i, Takes s l m i ∧ m.requestKind = some k
  · obtain ⟨m, i, ht, hk⟩ := h
    exact .inr ⟨m, i, ht, hk, exec_row s l k m i ht hk⟩
  · exact .inl (exec_row_of_not fun m i ht hk => h ⟨m, i, ht, hk⟩)

end Sys2Proof.Machine
end

