-- ==== Sys2Proof/Proofs/Settings.lean ====
section
/-! PROOFS. Which commands change the clock, the settings, the seed, the marks, the port, the wires and a message in flight (O60). Most
commands change none of these: `Keeps`. -/

namespace Sys2Proof.Machine

open Sys2Proof

/-- The settings of a session record, and the refill in force, are the same. -/
structure SessionKept (a b : Session) : Prop where
  settings : SameSessionSettings a b
  refill : b.refillInForce = a.refillInForce

theorem SessionKept.refl (a : Session) : SessionKept a a := ⟨⟨rfl, rfl, rfl, rfl, rfl, rfl, rfl, rfl, rfl⟩, rfl⟩

theorem SessionKept.trans {a b c : Session} (h : SessionKept a b) (k : SessionKept b c) : SessionKept a c where
  settings := {
    domainMask := k.settings.domainMask.trans h.settings.domainMask
    holdQuota := k.settings.holdQuota.trans h.settings.holdQuota
    waitQuota := k.settings.waitQuota.trans h.settings.waitQuota
    ceiling := k.settings.ceiling.trans h.settings.ceiling
    defaultTerm := k.settings.defaultTerm.trans h.settings.defaultTerm
    mayCreate := k.settings.mayCreate.trans h.settings.mayCreate
    guardCapability := k.settings.guardCapability.trans h.settings.guardCapability
    creditBurst := k.settings.creditBurst.trans h.settings.creditBurst
    creditRefill := k.settings.creditRefill.trans h.settings.creditRefill }
  refill := k.refill.trans h.refill

/-- The clock, the settings, the seed, the marks, the snapshot bank, the port, the wires and the messages in flight are the same. -/
structure Keeps (s t : State) : Prop where
  timer : t.timer = s.timer
  device : t.device = s.device
  pins : t.pins = s.pins
  wires : t.wires = s.wires
  hashSeed : t.hashSeed = s.hashSeed
  closing : t.closing = s.closing
  snapshot : t.snapshot = s.snapshot
  port : t.port = s.port
  params : t.admin.params = s.admin.params
  enables : t.enables = s.enables
  session : ∀ c : Client, SessionKept (s.session c) (t.session c)
  link : ∀ l : Client, LinkSame (s.link l) (t.link l)

namespace Keeps

variable {s t u : State}

theorem refl (s : State) : Keeps s s :=
  ⟨rfl, rfl, rfl, rfl, rfl, rfl, rfl, rfl, rfl, rfl, fun _ => .refl _, fun _ => .refl _⟩

theorem trans (h : Keeps s t) (k : Keeps t u) : Keeps s u where
  timer := k.timer.trans h.timer
  device := k.device.trans h.device
  pins := k.pins.trans h.pins
  wires := k.wires.trans h.wires
  hashSeed := k.hashSeed.trans h.hashSeed
  closing := k.closing.trans h.closing
  snapshot := k.snapshot.trans h.snapshot
  port := k.port.trans h.port
  params := k.params.trans h.params
  enables := k.enables.trans h.enables
  session c := (h.session c).trans (k.session c)
  link l := (h.link l).trans (k.link l)

theorem of_engineOnly {o : Option Client} (h : EngineOnly o s t) : Keeps s t where
  timer := h.outside.timer
  device := h.outside.device
  pins := h.outside.pins
  wires := h.outside.wires
  hashSeed := h.outside.hashSeed
  closing := h.outside.closing
  snapshot := h.outside.snapshot
  port := h.outside.port
  params := congrArg AdminEngine.params h.outside.admin
  enables := h.outside.enables
  session c := by
    obtain ⟨a, b, e⟩ := h.session c
    rw [e]
    exact ⟨⟨rfl, rfl, rfl, rfl, rfl, rfl, rfl, rfl, rfl⟩, rfl⟩
  link l := (h.link l).same

theorem of_answered {l : Client} (h : Answered l s t) : Keeps s t := of_engineOnly h.only

theorem modifySession (c : Client) (f : Session → Session) (hf : SessionKept (s.session c) (f (s.session c))) :
    Keeps s (s.modifySession c f) :=
  { refl s with
    session := fun d => by
      rw [session_modifySession]
      split
      · rename_i h; subst h; exact hf
      · exact .refl _ }

theorem modifyLink (l : Client) (f : Link → Link) (hf : LinkSame (s.link l) (f (s.link l))) :
    Keeps s (s.modifyLink l f) :=
  { refl s with
    link := fun k => by
      rw [link_modifyLink]
      split
      · rename_i h; subst h; exact hf
      · exact .refl _ }

theorem setPurge (x : PurgeUnit) : Keeps s (s.setPurge x) := { refl s with }

theorem raise (f : EventFlag) : Keeps s (s.raise f) := { refl s with }

theorem setAdmin (x : AdminEngine) (h : x.params = s.admin.params) : Keeps s (s.setAdmin x) := { refl s with params := h }

theorem complete (code : ResultCode) (ws : List Word) : Keeps s (s.complete code ws) := 
  (setAdmin { s.admin with busy := .idle, resultCode := code.word, results := resultWords ws } rfl).trans (raise _)

theorem countLink (l : Client) (f : LinkCounters → LinkCounters) : Keeps s (s.countLink l f) := { refl s with }

/-! ### Purges and sessions -/

theorem purgeStart (c : Client) : Keeps s (s.purgeStart c) :=
  (modifyLink c _ ⟨rfl, rfl, rfl, rfl, fun _ => ⟨rfl, rfl⟩⟩).trans (setPurge _)

theorem joinPurgeQueue (c : Client) : Keeps s (s.joinPurgeQueue c) := by
  unfold State.joinPurgeQueue
  dsimp only
  split
  · exact (setPurge _).trans (purgeStart c)
  · exact setPurge _

theorem enterPurging (c : Client) (after : AfterPurge) (tag : Option Byte) (d : Option Deferred) :
    Keeps s (s.enterPurging c after tag d) :=
  ((modifySession c _ ⟨⟨rfl, rfl, rfl, rfl, rfl, rfl, rfl, rfl, rfl⟩, rfl⟩).trans (joinPurgeQueue c)).trans
    (of_engineOnly (EngineOnly.foldl (o := none) _ (fun _ w => .passForWait w) _ _))

theorem answerDeferred (c : Client) (d : Option Deferred) : Keeps s (s.answerDeferred c d) := by
  unfold State.answerDeferred
  split
  · exact of_engineOnly (.respond _ _ _)
  · exact refl s

theorem nextPurge : Keeps s s.nextPurge := by
  unfold State.nextPurge
  split
  · exact purgeStart _
  · exact setPurge _

theorem purgeEnd (c : Client) : Keeps s (s.purgeEnd c) :=
  ((((modifySession c _ ⟨⟨rfl, rfl, rfl, rfl, rfl, rfl, rfl, rfl, rfl⟩, rfl⟩).trans (answerDeferred c _)).trans
    (setPurge _)).trans (raise _)).trans nextPurge

theorem setWalk (p : WalkPosition) : Keeps s (s.setWalk p) := setPurge _

theorem applyAction (c : Client) (a : ClientAction) (h : s.applyAction c a = some t) : Keeps s t := by
  have settings : ∀ f : Session → Session, SessionKept (s.session c) (f (s.session c)) → Keeps s (s.modifySession c f) :=
    fun f hf => modifySession c f hf
  unfold State.applyAction at h
  split at h <;> cases h
  case h_1 | h_3 | h_7 | h_8 | h_9 => exact settings _ ⟨⟨rfl, rfl, rfl, rfl, rfl, rfl, rfl, rfl, rfl⟩, rfl⟩
  case h_2 | h_4 => exact refl _
  all_goals exact enterPurging _ _ _ _

/-! ### Requests -/

theorem taken (l : Client) (i : Fin 4) : Keeps s (s.taken l i) :=
  modifyLink l _ ⟨rfl, rfl, rfl, rfl, fun _ => ⟨rfl, rfl⟩⟩

theorem spend (l : Client) (k : RequestKind) : Keeps s (s.modifySession l fun x => x.spend k) :=
  modifySession l _ (by
    unfold Session.spend
    split <;> exact ⟨⟨rfl, rfl, rfl, rfl, rfl, rfl, rfl, rfl, rfl⟩, rfl⟩)

theorem decideAttach (l : Client) (tag new : Byte) : Keeps s (s.decideAttach l tag new) := by
  unfold State.decideAttach
  split
  · exact (modifySession l _ ⟨⟨rfl, rfl, rfl, rfl, rfl, rfl, rfl, rfl, rfl⟩, rfl⟩).trans (of_engineOnly (.respond _ _ _))
  · split
    · exact of_engineOnly (.respond _ _ _)
    · exact enterPurging _ _ _ _

theorem decision (k : RequestKind) (l : Client) (m : RxMessage) (hg : m.fieldsGood k = true) :
    Keeps s (k.decision l m s) := by
  by_cases ha : k = .attach
  · subst ha; exact decideAttach l _ _
  · by_cases hd : k = .detach
    · subst hd; exact enterPurging _ _ _ _
    · exact of_answered (.decision k m ha hd hg)

theorem gated (l : Client) (k : RequestKind) (newClaim : Bool) (m : RxMessage) (act : State → State)
    (h : ∀ u, Keeps u (act u)) : Keeps s (s.gated l k newClaim m act) := by
  unfold State.gated
  split
  · exact of_engineOnly (.refuse _ _ _)
  · exact (spend l k).trans (h _)

end Keeps

theorem keeps_row {s t : State} (l : Client) (k : RequestKind) (h : exec (k.row l) s = .next t) : Keeps s t := by
  rcases exec_row_cases s l k with e | ⟨m, i, -, -, e⟩ <;> rw [e] at h <;> cases h
  · exact .refl s
  · refine (Keeps.taken l i).trans ?_
    split
    · exact .gated _ _ _ _ _ fun u => .decision k l m ‹_›
    · exact .of_engineOnly (.refuse _ _ _)

/-! ### The other commands -/

/-- R141: a discard is a change of the link with the choice that follows it, a count and a flag. -/
theorem discard_eq (s : State) (l : Client) (cause : DiscardCause) (after : Receiver) : s.discard l cause after =
    ((s.modifyLink l fun k => { k with receiver := after, discardCount := countUp k.discardCount }.choose
      (s.session l).tag).countLink l cause.count).raise .linkDiscard := by
  rw [← modifyLink_choose]
  rfl

namespace Keeps

variable {s t : State}

theorem discard (l : Client) (cause : DiscardCause) (after : Receiver) : Keeps s (s.discard l cause after) := by
  rw [discard_eq]
  refine ((modifyLink l _ ?_).trans (countLink l _)).trans (raise _)
  exact LinkSame.choose _ ⟨rfl, rfl, rfl, rfl, fun _ => ⟨rfl, rfl⟩⟩ rfl

theorem setReceiver (l : Client) (r : Receiver) : Keeps s (s.setReceiver l r) :=
  modifyLink l _ ⟨rfl, rfl, rfl, rfl, fun _ => ⟨rfl, rfl⟩⟩

theorem completeMessage (l : Client) (chars : List Byte) : Keeps s (s.completeMessage l chars) := by
  unfold State.completeMessage
  split
  · exact discard _ _ _
  · split
    · exact discard _ _ _
    · exact (modifyLink l _ ⟨rfl, rfl, rfl, rfl, fun _ => ⟨rfl, rfl⟩⟩).trans (countLink l _)

theorem receive (l : Client) (b : Byte) (mark : Bool) : Keeps s (s.receive l b mark) := by
  unfold State.receive
  split
  · exact setReceiver _ _
  · exact countLink _ _
  · exact setReceiver _ _
  · exact refl s
  · exact discard _ _ _
  · unfold State.extendMessage
    split
    · exact discard _ _ _
    · split
      · exact completeMessage _ _
      · exact setReceiver _ _
  · exact refl s

theorem receiveBroken (l : Client) : Keeps s (s.receiveBroken l) := by
  unfold State.receiveBroken
  split
  · exact discard _ _ _
  · exact setReceiver _ _
  · exact refl s
  · exact refl s

theorem takeCommand (c : AdminCommand) (act : Vector Word 4 → State → State) (h : ∀ p u, Keeps u (act p u)) :
    Keeps s (s.takeCommand c act) := by
  unfold State.takeCommand
  split
  · split
    · exact h _ _
    · exact refl s
  · exact refl s
  · exact refl s

theorem install (p : Vector Word 4) : Keeps s (s.install p) := by
  unfold State.install
  dsimp only
  split
  · exact complete _ _
  · split
    · split
      · split
        · exact complete _ _
        · exact (of_engineOnly (.installOn (o := none) _ _ _ _ _)).trans (complete _ _)
      · exact complete _ _
    · split
      · exact (raise _).trans (complete _ _)
      · exact (of_engineOnly (.place (o := none) _ _)).trans (complete _ _)

theorem unpin (p : Vector Word 4) : Keeps s (s.unpin p) := by
  unfold State.unpin
  split
  · split
    · exact (of_engineOnly (.unpinOn (o := none) _ _)).trans (complete _ _)
    · exact complete _ _
  · exact complete _ _

theorem remove (p : Vector Word 4) : Keeps s (s.remove p) := by
  unfold State.remove
  split
  · split
    · exact (of_engineOnly (.removeClaims (o := none) _ _)).trans (complete _ _)
    · exact complete _ _
  · exact complete _ _

theorem revoke (p : Vector Word 4) : Keeps s (s.revoke p) := by
  unfold State.revoke
  split
  · exact complete _ _
  · exact (of_engineOnly (.endHold (o := none) _ _ _)).trans (complete _ _)

theorem cancelByManager (p : Vector Word 4) : Keeps s (s.cancelByManager p) := by
  unfold State.cancelByManager
  split
  · exact complete _ _
  · exact (of_engineOnly (.endWait (o := none) _ _ _)).trans (complete _ _)

theorem setClient (p : Vector Word 4) : Keeps s (s.setClient p) := by
  unfold State.setClient
  split
  · split
    · exact complete _ _
    · split
      · exact (applyAction _ _ ‹_›).trans (complete _ _)
      · exact complete _ _
  · exact complete _ _

theorem readRecordCommand (p : Vector Word 4) : Keeps s (s.readRecordCommand p) := by
  unfold State.readRecordCommand
  split
  · split
    · exact complete _ _
    · split <;> exact complete _ _
  · exact complete _ _

/-- A step of the domain walk keeps everything but the marks. -/
theorem walkStep (k : DomainWalk) : Keeps (s.setClosing (s.walkStep k).closing) (s.walkStep k) := by
  have advance : ∀ (u : State) (k : DomainWalk), Keeps s u → Keeps (s.setClosing (u.advanceWalk k).closing) (u.advanceWalk k) :=
    fun u k h => by
      unfold State.advanceWalk
      split
      · exact (show Keeps (s.setClosing u.closing) u from { h with closing := rfl }).trans (setAdmin _ rfl)
      · exact (show Keeps (s.setClosing (u.setMark k.domain false).closing) (u.setMark k.domain false) from
          { h with closing := rfl }).trans (complete _ _)
  unfold State.walkStep
  split
  · split
    · exact advance _ _ (of_engineOnly (.removeClaims (o := none) _ _))
    · exact advance _ _ (refl s)
  · exact advance _ _ (refl s)

/-- CLEAR ALL keeps everything but the marks. -/
theorem clearAll : Keeps (s.setClosing s.clearAll.closing) s.clearAll := by
  have cleared : Keeps (s.setClosing s.clearPart.closing) s.clearPart :=
    { refl s with
      closing := rfl
      session := fun c => by
        have e : s.clearPart.session c = (s.session c).clear := by simp [State.session, State.clearPart]
        rw [e]
        unfold Session.clear
        dsimp only
        split <;> exact ⟨⟨rfl, rfl, rfl, rfl, rfl, rfl, rfl, rfl, rfl⟩, rfl⟩
      link := fun l => by
        have e : s.clearPart.link l = (s.link l).clear := by simp [State.link, State.clearPart]
        rw [e]
        exact ⟨rfl, rfl, rfl, rfl, fun _ => ⟨rfl, rfl⟩⟩ }
  have answered : Keeps s.clearPart ((List.finRange 8).foldl (State.answerCleared s) s.clearPart) := by
    generalize List.finRange 8 = clients
    generalize s.clearPart = u
    induction clients generalizing u with
    | nil => exact refl u
    | cons c clients ih =>
      refine Keeps.trans ?_ (ih _)
      unfold State.answerCleared
      split
      · exact of_engineOnly (.respond _ _ _)
      · exact refl u
  have closing : s.clearAll.closing = s.clearPart.closing := answered.closing
  rw [closing]
  exact (cleared.trans answered).trans (complete _ _)

end Keeps

/-- R147: the enabling of a link, as one change of the link and of its receive line. -/
theorem enableLink_eq (s : State) (l : Client) : s.enableLink l = if (s.link l).enabled then s else
    (s.modifyWire l LinkWire.watch).modifyLink l fun k => k.enable.choose (s.session l).tag := by
  unfold State.enableLink
  rw [modifyLink_choose]
  rfl

theorem singleWord_ne_linkEnable (a : Nat) (l : Client) : singleWord a ≠ some (.linkEnable l) := by
  unfold singleWord
  split <;> simp

theorem counterBlock_ne_linkEnable (a : Nat) (l : Client) : counterBlock a ≠ some (.linkEnable l) := by
  unfold counterBlock
  repeat' split
  all_goals simp

theorem blockOf_eq {base a n : Nat} {l : Client} (h : blockOf base a = some (l, n)) : a = base + 16 * l.val + n := by
  unfold blockOf at h
  split at h
  · cases h
    dsimp only
    omega
  · cases h

theorem settingBlock_linkEnable {a : Nat} {l : Client} (h : settingBlock a = some (.linkEnable l)) :
    a = 0x0200 + 16 * l.val := by
  unfold settingBlock at h
  split at h <;> try cases h
  split at h <;> cases h
  exact blockOf_eq ‹_›

/-- R150: only a link's own enable word names its enable. -/
theorem windowWord_linkEnable {a : Half} {l : Client} (h : windowWord a = some (.linkEnable l)) :
    a = BitVec.ofNat 16 (0x0200 + 16 * l.val) := by
  have ha : a.toNat = 0x0200 + 16 * l.val := by
    unfold windowWord at h
    dsimp only at h
    split at h
    · rename_i w hw
      exact absurd (hw.trans h) (singleWord_ne_linkEnable _ _)
    · split_ifs at h <;> try cases h
      split at h
      · rename_i w hw
        exact settingBlock_linkEnable (hw.trans h)
      · exact absurd h (counterBlock_ne_linkEnable _ _)
  apply BitVec.eq_of_toNat_eq
  rw [ha, BitVec.toNat_ofNat]
  omega

/-! ### What a command changes -/

/-- What command c may not change from s to t, for each thing under the premise that c is not one of its own commands. -/
structure OnlyItsOwn (c : Instr) (s t : State) : Prop where
  clock : c ≠ .tick → t.timer.clock = s.timer.clock ∧ t.timer.period = s.timer.period ∧
    ∀ k : Client, (t.session k).refillInForce = (s.session k).refillInForce
  pins : t.pins = s.pins
  prescaler : t.wires.prescaler = s.wires.prescaler
  spi : t.wires.spi = s.wires.spi
  receivers : ∀ l : Client, c ≠ .linkEnable l → (∀ v, c ≠ .settingWrite (BitVec.ofNat 16 (0x0200 + 16 * l.val)) v) →
    t.wires.links[l] = s.wires.links[l]
  flight : ∀ l : Client, c ≠ .messageSent l → (s.link l).inFlight ≠ none →
    (t.link l).inFlight = (s.link l).inFlight ∧ (t.link l).tx = (s.link l).tx
  hashSeed : c ≠ .setHashSeed → t.hashSeed = s.hashSeed
  closing : c ≠ .removeDomain → c ≠ .domainWalkStep → c ≠ .clearAll → t.closing = s.closing
  snapshot : c ≠ .snapshotCounters → t.snapshot = s.snapshot
  port : (∀ e, c ≠ .fenceCounterLatch e) → t.port = s.port
  settings : (∀ a v, c ≠ .settingWrite a v) →
    SameSettings s t ∧ t.admin.params = s.admin.params ∧ ((∀ v, c ≠ .enablesWrite v) → t.enables = s.enables) ∧
    ∀ l, c ≠ .linkEnable l → c ≠ .linkDisable l → (t.link l).enabled = (s.link l).enabled

section
variable {c : Instr} {s t u : State}

theorem Keeps.sameSettings (h : Keeps s t) : SameSettings s t where
  device := h.device
  period := congrArg LeaseTimer.pendingPeriod h.timer
  sessions k := (h.session k).settings
  divider l := (h.link l).divider
  stopBits l := (h.link l).stopBits
  gapLimit l := (h.link l).gapLimit

/-- A command that keeps all of it. -/
theorem Keeps.own (h : Keeps s t) (c : Instr) : OnlyItsOwn c s t where
  clock _ := ⟨congrArg LeaseTimer.clock h.timer, congrArg LeaseTimer.period h.timer, fun k => (h.session k).refill⟩
  pins := h.pins
  prescaler := congrArg Wires.prescaler h.wires
  spi := congrArg Wires.spi h.wires
  receivers l _ _ := congrArg (fun w : Wires => w.links[l]) h.wires
  flight l _ hf := (h.link l).sent hf
  hashSeed _ := h.hashSeed
  closing _ _ _ := h.closing
  snapshot _ := h.snapshot
  port _ := h.port
  settings _ := ⟨h.sameSettings, h.params, fun _ => h.enables, fun l _ _ => (h.link l).enabled⟩

/-- R147: the enabling of link l, by either of its commands. -/
theorem enableLink_own {l : Client}
    (hc : c = .linkEnable l ∨ ∃ v, c = .settingWrite (BitVec.ofNat 16 (0x0200 + 16 * l.val)) v) :
    OnlyItsOwn c s (s.enableLink l) := by
  rw [enableLink_eq]
  split
  · exact (Keeps.refl s).own c
  have link : ∀ k, ((s.modifyWire l LinkWire.watch).modifyLink l fun k => k.enable.choose (s.session l).tag).link k =
      if l = k then (s.link l).enable.choose (s.session l).tag else s.link k := fun k => link_modifyLink _ _ _ _
  exact { (Keeps.refl s).own c with
    receivers := fun k h1 h2 => by
      have hne : l ≠ k := by
        rintro rfl
        rcases hc with rfl | ⟨v, rfl⟩
        · exact h1 rfl
        · exact h2 v rfl
      exact (links_modifyWire s l k _).trans (if_neg hne)
    flight := fun k _ hf => by
      rw [link]
      split
      · rename_i h
        subst h
        rcases choose_cases (s.link l).enable (s.session l).tag with e | ⟨hn, -⟩
        · rw [e]; exact ⟨rfl, rfl⟩
        · exact absurd hn hf
      · exact ⟨rfl, rfl⟩
    settings := fun hw => by
      have hc : c = .linkEnable l := hc.resolve_right fun ⟨v, e⟩ => hw _ v e
      refine ⟨{ (Keeps.refl s).sameSettings with divider := fun k => ?_, stopBits := fun k => ?_, gapLimit := fun k => ?_ },
        rfl, fun _ => rfl, fun k h1 _ => by rw [link, if_neg (show ¬l = k from fun e => h1 (e ▸ hc))]⟩
      all_goals
        rw [link]
        split
        · rename_i h; subst h; rw [Link.enable]; simp
        · rfl }

/-- R146: the disabling of link l, by either of its commands. -/
theorem disableLink_own {l : Client} (hc : c = .linkDisable l ∨ ∃ a v, c = .settingWrite a v) :
    OnlyItsOwn c s (s.disableLink l) := by
  unfold State.disableLink
  split
  · have link : ∀ k, (s.modifyLink l Link.disable).link k = if l = k then (s.link l).disable else s.link k :=
      fun k => link_modifyLink _ _ _ _
    exact { (Keeps.refl s).own c with
      flight := fun k _ _ => by
        rw [link]
        split
        · rename_i h; subst h; exact ⟨rfl, rfl⟩
        · exact ⟨rfl, rfl⟩
      settings := fun hw => by
        have hc : c = .linkDisable l := hc.resolve_right fun ⟨a, v, e⟩ => hw a v e
        refine ⟨{ (Keeps.refl s).sameSettings with
          divider := fun k => ?_, stopBits := fun k => ?_, gapLimit := fun k => ?_ },
          rfl, fun _ => rfl, fun k _ h1 => by rw [link, if_neg (show ¬l = k from fun e => h1 (e ▸ hc))]⟩
        all_goals
          rw [link]
          split
          · rename_i h; subst h; rfl
          · rfl }
  · exact (Keeps.refl s).own c

/-- R120: the end of a message changes only its own link. -/
theorem messageSent_own (l : Client) : OnlyItsOwn (.messageSent l) s (s.messageSent l) := by
  unfold State.messageSent
  split
  · rename_i m hm
    have swap : ((s.modifyLink l Link.finishSending).countLink l m.countSent).choose l =
        ((s.modifyLink l Link.finishSending).choose l).countLink l m.countSent := rfl
    rw [swap, modifyLink_choose]
    have link : ∀ k, ((s.modifyLink l fun k => k.finishSending.choose (s.session l).tag).countLink l m.countSent).link k =
        if l = k then (s.link l).finishSending.choose (s.session l).tag else s.link k := fun k =>
      link_modifyLink s l k fun k => k.finishSending.choose (s.session l).tag
    exact { (Keeps.refl s).own (.messageSent l) with
      flight := fun k hk _ => by
        have hne : l ≠ k := fun h => hk (h ▸ rfl)
        rw [link, if_neg hne]
        exact ⟨rfl, rfl⟩
      settings := fun _ => by
        refine ⟨{ (Keeps.refl s).sameSettings with
          divider := fun k => ?_, stopBits := fun k => ?_, gapLimit := fun k => ?_ },
          rfl, fun _ => rfl, fun k _ _ => ?_⟩
        all_goals
          rw [link]
          split
          · rename_i h; subst h; simp
          · rfl }
  · exact (Keeps.refl s).own _

/-- R150, R151: a write of a word of the window. -/
theorem writeWindow_own (a : Half) (v : Word) (w : WindowWord) (hw : windowWord a = some w) :
    OnlyItsOwn (.settingWrite a v) s (s.writeWindow v w) := by
  have same : OnlyItsOwn (.settingWrite a v) s s := (Keeps.refl s).own _
  have vacuous : ∀ {p : Prop}, (∀ b u, Instr.settingWrite a v ≠ .settingWrite b u) → p := fun h => absurd rfl (h a v)
  have session : ∀ (k : Client) (f : Session → Session), (f (s.session k)).refillInForce = (s.session k).refillInForce →
      OnlyItsOwn (.settingWrite a v) s (s.modifySession k f) := fun k f hf =>
    { same with
      clock := fun _ => ⟨rfl, rfl, fun d => by
        rw [session_modifySession]
        split
        · rename_i h; subst h; exact hf
        · rfl⟩
      settings := fun h => vacuous h }
  cases w with
  | linkEnable l =>
    unfold State.writeWindow State.writeLinkEnable
    dsimp only
    split
    · exact enableLink_own (.inr ⟨v, by rw [windowWord_linkEnable hw]⟩)
    · exact disableLink_own (.inr ⟨a, v, rfl⟩)
  | linkLine l =>
    exact { same with
      flight := fun k _ _ => by
        rw [State.writeWindow, link_modifyLink]
        split
        · rename_i h; subst h; exact ⟨rfl, rfl⟩
        · exact ⟨rfl, rfl⟩
      settings := fun h => vacuous h }
  | clientDomains k => exact session k (fun x => { x with domainMask := field v 0 16 }) rfl
  | clientLimits k => exact session k (fun x => x.writeLimits v) rfl
  | clientTerm k => exact session k (fun x => { x with defaultTerm := accept notZero x.defaultTerm (field v 0 16) }) rfl
  | clientCredits k => exact session k (fun x => x.writeCredits v) rfl
  | command =>
    refine Keeps.own ?_ _
    unfold State.writeWindow State.writeCommand
    dsimp only
    split
    · split
      · exact { Keeps.refl s with }
      · exact Keeps.trans (t := s.setAdmin { s.admin with command := field v 0 8 }) { Keeps.refl s with } (.complete _ _)
    · exact .raise _
    · exact .raise _
  | tickPeriod => exact { same with settings := fun h => vacuous h }
  | terms => exact { same with settings := fun h => vacuous h }
  | idleAndGrace => exact { same with settings := fun h => vacuous h }
  | urgencyMap => exact { same with settings := fun h => vacuous h }
  | lowMarks => exact { same with settings := fun h => vacuous h }
  | flags => exact { same with settings := fun h => vacuous h }
  | enables => exact { same with settings := fun h => vacuous h }
  | param i => exact { same with settings := fun h => vacuous h }
  | _ => exact same

/-- A command that may change the marks and keeps all else. -/
theorem marks_own {z : Vector Bool 16} (hc : c = .removeDomain ∨ c = .domainWalkStep ∨ c = .clearAll)
    (h : Keeps (s.setClosing z) t) : OnlyItsOwn c s t :=
  { h.own c with
    closing := fun h1 h2 h3 => (hc.elim h1 (·.elim h2 h3)).elim
    settings := fun hw => by
      obtain ⟨hs, rest⟩ := (h.own c).settings hw
      exact ⟨{ hs with }, rest⟩ }

/-- A command that may change the snapshot bank and keeps all else. -/
theorem snapshot_own {x : Snapshot} (h : Keeps (s.setSnapshot x) t) : OnlyItsOwn .snapshotCounters s t :=
  { h.own .snapshotCounters with
    snapshot := fun hn => absurd rfl hn
    settings := fun hw => by
      obtain ⟨hs, rest⟩ := (h.own .snapshotCounters).settings hw
      exact ⟨{ hs with }, rest⟩ }

/-- A command that may change the seed and keeps all else. -/
theorem seed_own {x : Byte} (h : Keeps (s.setSeed x) t) : OnlyItsOwn .setHashSeed s t :=
  { h.own .setHashSeed with
    hashSeed := fun hn => absurd rfl hn
    settings := fun hw => by
      obtain ⟨hs, rest⟩ := (h.own .setHashSeed).settings hw
      exact ⟨{ hs with }, rest⟩ }

/-- What a command of the Admin Engine may change, its taking may change. -/
theorem takeCommand_own {d : AdminCommand} {act : Vector Word 4 → State → State} (h : ∀ p, OnlyItsOwn c s (act p s)) :
    OnlyItsOwn c s (s.takeCommand d act) := by
  unfold State.takeCommand
  split
  · split
    · exact h _
    · exact (Keeps.refl s).own _
  · exact (Keeps.refl s).own _
  · exact (Keeps.refl s).own _

/-- Every command but the reset. -/
theorem exec_own (c : Instr) (h : exec c s = .next t) (hc : c ≠ .powerOnReset) : OnlyItsOwn c s t := by
  cases c with
  | powerOnReset => exact absurd rfl hc
  | attach l => exact (keeps_row l .attach h).own _
  | detach l => exact (keeps_row l .detach h).own _
  | ping l => exact (keeps_row l .ping h).own _
  | acquire l => exact (keeps_row l .acquire h).own _
  | convert l => exact (keeps_row l .convert h).own _
  | renew l => exact (keeps_row l .renew h).own _
  | release l => exact (keeps_row l .release h).own _
  | cancel l => exact (keeps_row l .cancel h).own _
  | query l => exact (keeps_row l .query h).own _
  | validate l => exact (keeps_row l .validate h).own _
  | malformedRequest l =>
    cases h
    refine Keeps.own ?_ _
    unfold State.take
    split
    · split
      · exact (Keeps.taken l _).trans (.of_engineOnly (.refuse _ _ _))
      · exact .refl s
    · exact .refl s
  | tick =>
    cases h
    have session : ∀ k, (((s.setTimer s.timer.tick).setDeadlines (markDue (s.now + 1) s.deadlines)).setSessions
        (s.sessions.map Session.refill)).session k = (s.session k).refill := fun k => by simp [State.session]
    exact { (Keeps.refl s).own .tick with
      clock := fun h => absurd rfl h
      settings := fun _ => ⟨{ (Keeps.refl s).sameSettings with
        sessions := fun k => session k ▸ ⟨rfl, rfl, rfl, rfl, rfl, rfl, rfl, rfl, rfl⟩ }, rfl, fun _ => rfl, fun _ _ _ => rfl⟩ }
  | dueLeaseEntry =>
    cases h
    refine Keeps.own ?_ _
    split
    · split
      · split
        · exact .of_engineOnly (.takeLease (o := none) _ _)
        · exact .refl s
      · exact .refl s
    · exact .refl s
  | dueGraceEntry =>
    cases h
    refine Keeps.own ?_ _
    split
    · split
      · split
        · exact .of_engineOnly (.expireHold (o := none) _ _)
        · exact .refl s
      · exact .refl s
    · exact .refl s
  | dueWaitEntry =>
    cases h
    refine Keeps.own ?_ _
    split
    · split
      · exact .of_engineOnly (.timeOutWait (o := none) _ _)
      · exact .refl s
    · exact .refl s
  | dueIdleRecordEntry =>
    cases h
    refine Keeps.own ?_ _
    split
    · exact .of_engineOnly (.retire (o := none) _)
    · exact .refl s
  | purgeWaitStep =>
    cases h
    refine Keeps.own ?_ _
    split
    · exact (Keeps.of_engineOnly (.purgeWait (o := none) _ _)).trans (.setWalk _)
    · exact .refl s
  | purgeHoldStep =>
    cases h
    refine Keeps.own ?_ _
    split
    · split
      · exact (Keeps.of_engineOnly (.purgeHold (o := none) _ _)).trans (.setWalk _)
      · exact (Keeps.of_engineOnly (.purgeHold (o := none) _ _)).trans (.purgeEnd _)
    · exact .refl s
  | messageComplete l b =>
    cases h
    refine Keeps.own ?_ _
    split
    · split
      · exact .completeMessage _ _
      · exact .refl s
    · exact .refl s
  | framing l f =>
    cases h
    refine Keeps.own ?_ _
    split
    · exact .receiveBroken _
    · split
      · split
        · exact .discard _ _ _
        · exact .refl s
      · exact .refl s
  | truncated l b =>
    cases h
    refine Keeps.own ?_ _
    split
    · exact .discard _ _ _
    · exact .refl s
  | gapLimit l =>
    cases h
    refine Keeps.own ?_ _
    split
    · exact .discard _ _ _
    · exact .refl s
  | stray l b =>
    cases h
    refine Keeps.own ?_ _
    split
    · exact .countLink _ _
    · exact .refl s
  | messageSent l => cases h; exact messageSent_own l
  | linkDisable l => cases h; exact disableLink_own (.inl rfl)
  | linkEnable l => cases h; exact enableLink_own (.inl rfl)
  | settingWrite a v =>
    cases h
    unfold State.writeWord
    split
    · exact writeWindow_own a v _ ‹_›
    · exact (Keeps.refl s).own _
  | flagsWrite v => cases h; exact Keeps.own (t := s.clearFlags v) { Keeps.refl s with } _
  | enablesWrite v =>
    cases h
    exact { (Keeps.refl s).own (.enablesWrite v) with
      settings := fun _ => ⟨{ (Keeps.refl s).sameSettings with }, rfl, fun h => absurd rfl (h v), fun _ _ _ => rfl⟩ }
  | fenceCounterLatch e =>
    cases h
    cases e <;>
      exact { (Keeps.refl s).own (.fenceCounterLatch _) with
        port := fun h => absurd rfl (h _)
        settings := fun _ => ⟨{ (Keeps.refl s).sameSettings with }, rfl, fun _ => rfl, fun _ _ _ => rfl⟩ }
  | installRecord => cases h; exact (Keeps.takeCommand _ _ fun p _ => .install p).own _
  | unpinRecord => cases h; exact (Keeps.takeCommand _ _ fun p _ => .unpin p).own _
  | removeRecord => cases h; exact (Keeps.takeCommand _ _ fun p _ => .remove p).own _
  | removeDomain =>
    cases h
    refine takeCommand_own fun p => ?_
    split
    · exact (Keeps.complete _ _).own _
    · exact marks_own (.inl rfl) (Keeps.walkStep (s := s.setMark _ true) _)
  | domainWalkStep =>
    cases h
    split
    · exact marks_own (.inr (.inl rfl)) (Keeps.walkStep _)
    · exact (Keeps.refl s).own _
    · exact (Keeps.refl s).own _
  | revokeHold => cases h; exact (Keeps.takeCommand _ _ fun p _ => .revoke p).own _
  | cancelWait => cases h; exact (Keeps.takeCommand _ _ fun p _ => .cancelByManager p).own _
  | findRecord =>
    cases h
    refine (Keeps.takeCommand _ _ fun p u => ?_).own _
    split
    · split <;> exact .complete _ _
    · exact .complete _ _
  | readRecord => cases h; exact (Keeps.takeCommand _ _ fun p _ => .readRecordCommand p).own _
  | readHold =>
    cases h
    refine (Keeps.takeCommand _ _ fun p u => ?_).own _
    split <;> exact .complete _ _
  | readWait =>
    cases h
    refine (Keeps.takeCommand _ _ fun p u => ?_).own _
    split <;> exact .complete _ _
  | setClientState => cases h; exact (Keeps.takeCommand _ _ fun p _ => .setClient p).own _
  | snapshotCounters =>
    cases h
    refine takeCommand_own fun p => ?_
    split
    · exact (Keeps.complete _ _).own _
    · refine snapshot_own (x := ⟨s.now, s.live⟩) (Keeps.trans ?_ (.complete _ _))
      unfold State.takeSnapshot
      dsimp only
      split
      · exact { Keeps.refl (s.setSnapshot ⟨s.now, s.live⟩) with }
      · exact .refl _
  | clearAll => cases h; exact takeCommand_own fun _ => marks_own (.inr (.inr rfl)) Keeps.clearAll
  | setHashSeed =>
    cases h
    refine takeCommand_own fun p => ?_
    split
    · exact (Keeps.complete _ _).own _
    · split
      · exact (Keeps.complete _ _).own _
      · exact seed_own (Keeps.complete _ _)
  | characterReceived l b mark => cases h; exact (Keeps.receive l b mark).own _

end

/-- Settles O60: what each command may not change. -/
theorem onlyItsCommandsChangeASetting : Obligations.OnlyItsCommandsChangeASetting := by
  intro c s t h hc
  have own := exec_own c h hc
  exact ⟨own.clock, own.pins, own.prescaler, own.spi, own.receivers, own.flight, own.hashSeed, own.closing, own.snapshot,
    own.port, own.settings⟩

end Sys2Proof.Machine
end

