-- ==== Sys2Proof/Proofs/EngineLaw.lean ====
section
/-! PROOFS. The laws of the Grant Engine in the form in which its operations keep them. An operation works on one record, so the laws of
records, holds and waits are gathered record by record (`RecordLaw`); and in the middle of a happening a record may have a head that can
be granted or lack its idle deadline, so those two laws stand apart (`GrantAt`, `SettledAt`). -/

namespace Sys2Proof.Machine

open Sys2Proof

/-! ### The law of one record -/

/-- R6, R7, R11, R13, R18, R24, R26, R29, R32: the law of the record x in slot r, with its holds and waits. -/
structure RecordLaw (s : State) (r : Slot) (x : Record) : Prop where
  holder : ∀ i ∈ x.holders, ∃ h, s.hold i = some h ∧ h.slot = r
  holderOnce : x.holders.Nodup
  waiter : ∀ w ∈ x.waitQueue, ∃ y, s.wait w = some y ∧ y.slot = r
  waiterOnce : x.waitQueue.Nodup
  cap : 1 ≤ x.holderCap ∧ x.holderCap ≤ 8
  dynamic : x.kind = .dynamic → x.shareable = true ∧ x.holderCap = 8 ∧ x.maxTerm = 0
  idle : x.idleDeadline ≠ none → x.kind = .dynamic ∧ x.holders = [] ∧ x.waitQueue = []
  bound : x.holders.length ≤ x.holderCap
  exclusive : ∀ i ∈ x.holders, ∀ h, s.hold i = some h → h.mode = .exclusive → x.holders = [i]
  sharedHold : x.shareable = false → ∀ i ∈ x.holders, ∀ h, s.hold i = some h → h.mode = .exclusive
  sharedWait : x.shareable = false → ∀ w ∈ x.waitQueue, ∀ y, s.wait w = some y → y.mode = .exclusive
  conversion : ∀ i ∈ x.holders, ∀ h v, s.hold i = some h → h.conversion = some v →
    h.state = .active ∧ h.mode = .shared ∧ v.index ∈ x.waitQueue ∧ v = s.waitHandle v.index ∧
      ∃ y, s.wait v.index = some y ∧ y.purpose = .conversion (s.holdHandle i)
  converting : ∀ w ∈ x.waitQueue, ∀ y v, s.wait w = some y → y.purpose = .conversion v →
    y.mode = .exclusive ∧ v.index ∈ x.holders ∧ v = s.holdHandle v.index ∧
      ∃ h, s.hold v.index = some h ∧ h.conversion = some (s.waitHandle w) ∧ h.client = y.client
  oneHold : ∀ i ∈ x.holders, ∀ j ∈ x.holders, ∀ h k, s.hold i = some h → s.hold j = some k → h.client = k.client → i = j
  oneWait : ∀ v ∈ x.waitQueue, ∀ w ∈ x.waitQueue, ∀ y z, s.wait v = some y → s.wait w = some z → y.client = z.client → v = w
  both : ∀ i ∈ x.holders, ∀ w ∈ x.waitQueue, ∀ h y, s.hold i = some h → s.wait w = some y → h.client = y.client →
    y.purpose = .conversion (s.holdHandle i)
  queue : x.waitQueue.Pairwise s.mayPrecede

/-- The law of a record goes only by the record, its holds and its waits. -/
theorem RecordLaw.congr {s t : State} {r : Slot} {x : Record} (L : RecordLaw s r x)
    (hH : ∀ i ∈ x.holders, t.holdSlot i = s.holdSlot i) (hW : ∀ w ∈ x.waitQueue, t.waitSlot w = s.waitSlot w) :
    RecordLaw t r x := by
  have eH : ∀ i ∈ x.holders, t.hold i = s.hold i := fun i hi => congrArg HoldSlot.occupant (hH i hi)
  have eW : ∀ w ∈ x.waitQueue, t.wait w = s.wait w := fun w hw => congrArg WaitSlot.occupant (hW w hw)
  have gH : ∀ i ∈ x.holders, t.holdHandle i = s.holdHandle i := fun i hi => by rw [State.holdHandle, hH i hi]; rfl
  have gW : ∀ w ∈ x.waitQueue, t.waitHandle w = s.waitHandle w := fun w hw => by rw [State.waitHandle, hW w hw]; rfl
  exact { L with
    holder := fun i hi => eH i hi ▸ L.holder i hi
    waiter := fun w hw => eW w hw ▸ L.waiter w hw
    exclusive := fun i hi h hh => L.exclusive i hi h (eH i hi ▸ hh)
    sharedHold := fun hs i hi h hh => L.sharedHold hs i hi h (eH i hi ▸ hh)
    sharedWait := fun hs w hw y hy => L.sharedWait hs w hw y (eW w hw ▸ hy)
    conversion := fun i hi h v hh hc => by
      obtain ⟨ha, hm, hv, hg, hy⟩ := L.conversion i hi h v (eH i hi ▸ hh) hc
      exact ⟨ha, hm, hv, by rw [gW _ hv]; exact hg, by rw [eW _ hv, gH i hi]; exact hy⟩
    converting := fun w hw y v hy hp => by
      obtain ⟨hm, hv, hg, hh⟩ := L.converting w hw y v (eW w hw ▸ hy) hp
      exact ⟨hm, hv, by rw [gH _ hv]; exact hg, by rw [eH _ hv, gW w hw]; exact hh⟩
    oneHold := fun i hi j hj h k hh hk => L.oneHold i hi j hj h k (eH i hi ▸ hh) (eH j hj ▸ hk)
    oneWait := fun v hv w hw y z hy hz => L.oneWait v hv w hw y z (eW v hv ▸ hy) (eW w hw ▸ hz)
    both := fun i hi w hw h y hh hy hc => by
      rw [gH i hi]
      exact L.both i hi w hw h y (eH i hi ▸ hh) (eW w hw ▸ hy) hc
    queue := L.queue.imp_of_mem fun {a b} ha hb hab y z hy hz => hab y z (eW a ha ▸ hy) (eW b hb ▸ hz) }

/-! ### The laws of the engine -/

/-- The client is ACTIVE or QUERY_ONLY. -/
def ClientState.served (c : ClientState) : Prop := c = .active ∨ c = .queryOnly

/-- R74, R124: who may own holds and waits, and what the walk has left behind. -/
structure Owners (s : State) : Prop where
  hold : ∀ i h, s.hold i = some h →
    (s.session h.client).state ≠ .detached ∧ (s.session h.client).state ≠ .barred
  wait : ∀ w y, s.wait w = some y →
    (s.session y.client).state ≠ .detached ∧ (s.session y.client).state ≠ .barred
  purging : ∀ c, s.purge.queue.head? = some c → (s.session c).state = .purging
  passedWait : ∀ c w y v, s.purge.queue.head? = some c → s.wait w = some y → y.client = c → s.purge.walk = .wait v → v ≤ w
  noWait : ∀ c w y j, s.purge.queue.head? = some c → s.wait w = some y → s.purge.walk = .hold j → y.client ≠ c
  passedHold : ∀ c i h j, s.purge.queue.head? = some c → s.hold i = some h → h.client = c → s.purge.walk = .hold j → j ≤ i

/-- The laws that every single operation of the engine keeps. -/
structure EngineLaw (s : State) : Prop where
  record : ∀ r x, s.record r = some x → RecordLaw s r x
  homeHold : ∀ i h, s.hold i = some h → ∃ x, s.record h.slot = some x ∧ i ∈ x.holders
  homeWait : ∀ w y, s.wait w = some y → ∃ x, s.record y.slot = some x ∧ w ∈ x.waitQueue
  place : ∀ r x, s.record r = some x → r ∈ s.waysOf x.key
  key : ∀ r r' x x', s.record r = some x → s.record r' = some x' → x.key = x'.key → r = r'
  fences : FenceLaw s
  pool : PoolLaw s
  counts : CountLaw s
  deadlines : DeadlineLaw s
  owners : Owners s

/-- R41: the head of the effective queue of record r cannot be granted, unless the fence counter is exhausted. -/
def GrantAt (s : State) (r : Slot) : Prop :=
  s.fence.exhausted = false → ∀ x w y, s.record r = some x → (s.effectiveQueue x).head? = some w → s.wait w = some y →
    s.waitCompatible x y = false

/-- R18: record r has an idle deadline if it is idle. -/
def SettledAt (s : State) (r : Slot) : Prop :=
  ∀ x, s.record r = some x → x.kind = .dynamic → x.holders = [] → x.waitQueue = [] → x.idleDeadline ≠ none

/-- The laws of the engine at the end of a happening. -/
structure EngineGood (s : State) : Prop where
  law : EngineLaw s
  grant : ∀ r, GrantAt s r
  settled : ∀ r, SettledAt s r

/-! ### What the laws of the engine go by -/

/-- From s to t nothing changes that the laws of the engine speak of. -/
structure SameEngine (s t : State) : Prop where
  records : t.records = s.records
  hashSeed : t.hashSeed = s.hashSeed
  holds : t.holds = s.holds
  holdCounts : t.holdCounts = s.holdCounts
  waits : t.waits = s.waits
  fence : t.fence = s.fence
  deadlines : t.deadlines = s.deadlines
  purge : t.purge = s.purge
  session : ∀ c : Client, (t.session c).state = (s.session c).state ∧
    (t.session c).holdCount = (s.session c).holdCount ∧ (t.session c).waitCount = (s.session c).waitCount

namespace SameEngine

variable {s t u : State}

theorem refl (s : State) : SameEngine s s := ⟨rfl, rfl, rfl, rfl, rfl, rfl, rfl, rfl, fun _ => ⟨rfl, rfl, rfl⟩⟩

theorem trans (h : SameEngine s t) (k : SameEngine t u) : SameEngine s u where
  records := k.records.trans h.records
  hashSeed := k.hashSeed.trans h.hashSeed
  holds := k.holds.trans h.holds
  holdCounts := k.holdCounts.trans h.holdCounts
  waits := k.waits.trans h.waits
  fence := k.fence.trans h.fence
  deadlines := k.deadlines.trans h.deadlines
  purge := k.purge.trans h.purge
  session c := by
    obtain ⟨h1, h2, h3⟩ := h.session c
    obtain ⟨k1, k2, k3⟩ := k.session c
    exact ⟨k1.trans h1, k2.trans h2, k3.trans h3⟩

theorem record (h : SameEngine s t) (r : Slot) : t.record r = s.record r := by
  unfold State.record
  rw [h.records]

theorem holdSlot (h : SameEngine s t) (i : HoldIx) : t.holdSlot i = s.holdSlot i := by
  unfold State.holdSlot
  rw [h.holds]

theorem hold (h : SameEngine s t) (i : HoldIx) : t.hold i = s.hold i := congrArg HoldSlot.occupant (h.holdSlot i)

theorem waitSlot (h : SameEngine s t) (w : WaitIx) : t.waitSlot w = s.waitSlot w := by
  unfold State.waitSlot
  rw [h.waits]

theorem wait (h : SameEngine s t) (w : WaitIx) : t.wait w = s.wait w := congrArg WaitSlot.occupant (h.waitSlot w)

theorem state (h : SameEngine s t) (c : Client) : (t.session c).state = (s.session c).state := (h.session c).1

theorem effectiveQueue (h : SameEngine s t) (x : Record) : t.effectiveQueue x = s.effectiveQueue x := by
  unfold State.effectiveQueue
  congr 1
  funext w
  rw [isEffective_eq_any, isEffective_eq_any, h.wait]
  cases s.wait w <;> simp [h.state]

theorem waitCompatible (h : SameEngine s t) (x : Record) (y : Wait) : t.waitCompatible x y = s.waitCompatible x y := by
  have shared : t.isShared = s.isShared := by
    funext i
    unfold State.isShared
    rw [h.hold]
  unfold State.waitCompatible State.compatible
  rw [shared]

theorem fenceLaw (h : SameEngine s t) (L : FenceLaw s) : FenceLaw t := by
  constructor <;> simp only [h.record, h.hold, h.fence]
  · exact L.next
  · exact L.last
  · exact L.issued
  · exact L.distinct
  · exact L.recorded

theorem poolLaw (h : SameEngine s t) (L : PoolLaw s) : PoolLaw t := by
  constructor <;> simp only [h.holdCounts, State.holdsInUse, State.newWaits, h.hold, h.wait]
  · exact L.sum
  · exact L.inUse
  · exact L.reserved

theorem countLaw (h : SameEngine s t) (L : CountLaw s) : CountLaw t := by
  constructor <;> simp only [h.session, h.hold, h.wait]
  · exact L.holds
  · exact L.waits

theorem deadlineOf (h : SameEngine s t) (ref : DeadlineRef) : t.deadlineOf ref = s.deadlineOf ref := by
  cases ref <;> simp only [State.deadlineOf, h.hold, h.wait, h.record]

theorem deadlineLaw (h : SameEngine s t) (L : DeadlineLaw s) : DeadlineLaw t := by
  constructor <;> simp only [h.deadlines, h.deadlineOf]
  · exact L.once
  · exact L.entry

theorem owners (h : SameEngine s t) (L : Owners s) : Owners t := by
  constructor <;> simp only [h.hold, h.wait, h.state, h.purge]
  · exact L.hold
  · exact L.wait
  · exact L.purging
  · exact L.passedWait
  · exact L.noWait
  · exact L.passedHold

theorem engineLaw (h : SameEngine s t) (L : EngineLaw s) : EngineLaw t where
  record r x hx := (L.record r x (h.record r ▸ hx)).congr (fun i _ => h.holdSlot i) fun w _ => h.waitSlot w
  homeHold i k hk := by simpa only [h.record] using L.homeHold i k (h.hold i ▸ hk)
  homeWait w y hy := by simpa only [h.record] using L.homeWait w y (h.wait w ▸ hy)
  place r x hx := by
    unfold State.waysOf
    rw [h.hashSeed]
    exact L.place r x (h.record r ▸ hx)
  key r r' x x' hx hx' := L.key r r' x x' (h.record r ▸ hx) (h.record r' ▸ hx')
  fences := h.fenceLaw L.fences
  pool := h.poolLaw L.pool
  counts := h.countLaw L.counts
  deadlines := h.deadlineLaw L.deadlines
  owners := h.owners L.owners

theorem grantAt (h : SameEngine s t) {r : Slot} (g : GrantAt s r) : GrantAt t r := by
  unfold GrantAt
  simp only [h.fence, h.record, h.effectiveQueue, h.wait, h.waitCompatible]
  exact g

theorem settledAt (h : SameEngine s t) {r : Slot} (g : SettledAt s r) : SettledAt t r := by
  unfold SettledAt
  simp only [h.record]
  exact g

theorem engineGood (h : SameEngine s t) (g : EngineGood s) : EngineGood t :=
  ⟨h.engineLaw g.law, fun r => h.grantAt (g.grant r), fun r => h.settledAt (g.settled r)⟩

/-! ### Operations that the laws of the engine do not see -/

theorem raise (f : EventFlag) : SameEngine s (s.raise f) := { refl s with }

theorem countClient (c : Client) (f : ClientCounters → ClientCounters) : SameEngine s (s.countClient c f) := { refl s with }

theorem countLink (l : Client) (f : LinkCounters → LinkCounters) : SameEngine s (s.countLink l f) := { refl s with }

theorem modifyLink (l : Client) (f : Link → Link) : SameEngine s (s.modifyLink l f) := { refl s with }

theorem choose (l : Client) : SameEngine s (s.choose l) := modifyLink l _

theorem respond (l : Client) (tag : Byte) (reply : Reply) : SameEngine s (s.respond l tag reply) :=
  (modifyLink l _).trans (choose l)

theorem refuse (l : Client) (tag : Byte) (reply : Reply) : SameEngine s (s.refuse l tag reply) :=
  (countClient l _).trans (respond l tag reply)

theorem refuseFence (l : Client) (tag : Byte) : SameEngine s (s.refuseFence l tag) := (raise _).trans (refuse l tag _)

theorem postNotice (c : Client) (tag : Byte) (body : NoticeBody) : SameEngine s (s.postNotice c tag body) := by
  unfold State.postNotice
  repeat' split
  · exact refl s
  · exact refl s
  · exact modifyLink c _
  · exact ((modifyLink c _).trans (raise _)).trans (choose c)
  · exact (modifyLink c _).trans (choose c)

theorem setAdmin (x : AdminEngine) : SameEngine s (s.setAdmin x) := { refl s with }

theorem complete (code : ResultCode) (ws : List Word) : SameEngine s (s.complete code ws) := (setAdmin _).trans (raise _)

end SameEngine

end Sys2Proof.Machine
end

