-- ==== Sys2Proof/Proofs/Bookkeeping.lean ====
section
/-! PROOFS. The laws of the engine that count and list: fences (R48), the pools and the counts of sessions (R27, R83), the Deadline List
(R56) and the owners of claims (R74, R124), under the change of one hold, one wait or one entry. -/

namespace Sys2Proof.Machine

open Sys2Proof

/-! ### Counting (R27, R83) -/

/-- When a yes-or-no changes for one index, the number of yeses changes by that one. -/
theorem countP_finRange_change {n : Nat} {p q : Fin n → Bool} (i : Fin n) (h : ∀ j, j ≠ i → q j = p j) :
    (List.finRange n).countP q + (p i).toNat = (List.finRange n).countP p + (q i).toNat := by
  have hp := List.perm_cons_erase (List.mem_finRange i)
  rw [hp.countP_eq, hp.countP_eq, List.countP_cons, List.countP_cons]
  have rest : ((List.finRange n).erase i).countP q = ((List.finRange n).erase i).countP p := by
    refine List.countP_congr fun j hj => ?_
    rw [h j ((List.nodup_finRange n).mem_erase_iff.1 hj).1]
  rw [rest]
  cases p i <;> cases q i <;> simp

/-- R83: how many holds a client has. -/
def State.holdsBy (s : State) (c : Client) : Nat := (List.finRange 256).countP fun i => (s.hold i).any fun h => h.client == c

/-- R83: how many NEW waits a client has. -/
def State.newWaitsBy (s : State) (c : Client) : Nat :=
  (List.finRange 128).countP fun w => (s.wait w).any fun y => y.client == c && y.purpose == .new

/-- R83: how many waits a client has. -/
def State.waitsBy (s : State) (c : Client) : Nat := (List.finRange 128).countP fun w => (s.wait w).any fun y => y.client == c

/-- R83: the law of counts, by the numbers of holds and waits. -/
theorem countLaw_iff (s : State) : CountLaw s ↔ ∀ c : Client,
    (s.session c).holdCount = s.holdsBy c + s.newWaitsBy c ∧ (s.session c).waitCount = s.waitsBy c :=
  ⟨fun L c => ⟨L.holds c, L.waits c⟩, fun h => ⟨fun c => (h c).1, fun c => (h c).2⟩⟩

section
variable {s t : State}

theorem holdsInUse_change {i : HoldIx} {a : Option Hold} (h : ∀ j, t.hold j = if i = j then a else s.hold j) :
    t.holdsInUse + (s.hold i).isSome.toNat = s.holdsInUse + a.isSome.toNat := by
  have := countP_finRange_change (p := fun j => (s.hold j).isSome) (q := fun j => (t.hold j).isSome) i
    fun j hj => by simp [h, Ne.symm hj]
  simpa [State.holdsInUse, h] using this

theorem holdsBy_change {i : HoldIx} {a : Option Hold} (h : ∀ j, t.hold j = if i = j then a else s.hold j) (c : Client) :
    t.holdsBy c + ((s.hold i).any fun k => k.client == c).toNat = s.holdsBy c + (a.any fun k => k.client == c).toNat := by
  have := countP_finRange_change (p := fun j => (s.hold j).any fun k => k.client == c)
    (q := fun j => (t.hold j).any fun k => k.client == c) i fun j hj => by simp [h, Ne.symm hj]
  simpa [State.holdsBy, h] using this

theorem newWaits_change {w : WaitIx} {b : Option Wait} (h : ∀ v, t.wait v = if w = v then b else s.wait v) :
    t.newWaits + ((s.wait w).any fun y => y.purpose == .new).toNat =
      s.newWaits + (b.any fun y => y.purpose == .new).toNat := by
  have := countP_finRange_change (p := fun v => (s.wait v).any fun y => y.purpose == .new)
    (q := fun v => (t.wait v).any fun y => y.purpose == .new) w fun v hv => by simp [h, Ne.symm hv]
  simpa [State.newWaits, h] using this

theorem newWaitsBy_change {w : WaitIx} {b : Option Wait} (h : ∀ v, t.wait v = if w = v then b else s.wait v) (c : Client) :
    t.newWaitsBy c + ((s.wait w).any fun y => y.client == c && y.purpose == .new).toNat =
      s.newWaitsBy c + (b.any fun y => y.client == c && y.purpose == .new).toNat := by
  have := countP_finRange_change (p := fun v => (s.wait v).any fun y => y.client == c && y.purpose == .new)
    (q := fun v => (t.wait v).any fun y => y.client == c && y.purpose == .new) w fun v hv => by simp [h, Ne.symm hv]
  simpa [State.newWaitsBy, h] using this

theorem waitsBy_change {w : WaitIx} {b : Option Wait} (h : ∀ v, t.wait v = if w = v then b else s.wait v) (c : Client) :
    t.waitsBy c + ((s.wait w).any fun y => y.client == c).toNat = s.waitsBy c + (b.any fun y => y.client == c).toNat := by
  have := countP_finRange_change (p := fun v => (s.wait v).any fun y => y.client == c)
    (q := fun v => (t.wait v).any fun y => y.client == c) w fun v hv => by simp [h, Ne.symm hv]
  simpa [State.waitsBy, h] using this

/-- The numbers of holds go by who holds which slot. -/
theorem holds_same (h : ∀ j, (t.hold j).map (·.client) = (s.hold j).map (·.client)) :
    t.holdsInUse = s.holdsInUse ∧ ∀ c, t.holdsBy c = s.holdsBy c := by
  have isSome : ∀ j, (t.hold j).isSome = (s.hold j).isSome := fun j => by
    have := congrArg Option.isSome (h j)
    simpa using this
  have any : ∀ j c, ((t.hold j).any fun k => k.client == c) = ((s.hold j).any fun k => k.client == c) := fun j c => by
    have := congrArg (fun o : Option Client => o.any (· == c)) (h j)
    simpa [Option.any_map, Function.comp_def] using this
  exact ⟨by simp only [State.holdsInUse, isSome], fun c => by simp only [State.holdsBy, any]⟩

/-- The numbers of waits go by the waits. -/
theorem waits_same (h : ∀ v, t.wait v = s.wait v) :
    t.newWaits = s.newWaits ∧ (∀ c, t.newWaitsBy c = s.newWaitsBy c) ∧ ∀ c, t.waitsBy c = s.waitsBy c :=
  ⟨by simp only [State.newWaits, h], fun c => by simp only [State.newWaitsBy, h], fun c => by simp only [State.waitsBy, h]⟩

end

/-! ### The Deadline List (R56 to R58) -/

/-- R56: the list has exactly one entry for each thing to which D gives a deadline. -/
structure DeadlinesOf (L : List DeadlineEntry) (D : DeadlineRef → Option Word) : Prop where
  once : (L.map (·.ref)).Nodup
  entry : ∀ ref d, D ref = some d ↔ ∃ b, (⟨ref, d, b⟩ : DeadlineEntry) ∈ L

theorem deadlineLaw_iff (s : State) : DeadlineLaw s ↔ DeadlinesOf s.deadlines s.deadlineOf :=
  ⟨fun L => ⟨L.once, L.entry⟩, fun L => ⟨L.once, L.entry⟩⟩

theorem insertEntry_perm (now : Word) (e : DeadlineEntry) (L : List DeadlineEntry) : (insertEntry now e L).Perm (e :: L) := by
  induction L with
  | nil => exact .refl _
  | cons x L ih =>
    unfold insertEntry
    split
    · exact .refl _
    · exact (ih.cons x).trans (.swap e x L)

namespace DeadlinesOf

variable {L : List DeadlineEntry} {D E : DeadlineRef → Option Word}

theorem congr (h : DeadlinesOf L D) (e : ∀ ref, E ref = D ref) : DeadlinesOf L E :=
  ⟨h.once, fun ref d => by rw [e]; exact h.entry ref d⟩

/-- R56: an entry leaves with its deadline. -/
theorem remove (h : DeadlinesOf L D) (ref : DeadlineRef) :
    DeadlinesOf (L.filter fun e => e.ref != ref) (fun q => if q = ref then none else D q) := by
  refine ⟨h.once.sublist (List.filter_sublist.map _), fun q d => ?_⟩
  by_cases hq : q = ref
  · simp [hq]
  · simp [hq, h.entry q d]

/-- R56: an entry joins with its deadline. -/
theorem insert (h : DeadlinesOf L D) {ref : DeadlineRef} (hr : D ref = none) (now d : Word) :
    DeadlinesOf (insertEntry now ⟨ref, d, false⟩ L) (fun q => if q = ref then some d else D q) := by
  have perm := insertEntry_perm now ⟨ref, d, false⟩ L
  have out : ∀ (d' : Word) (b : Bool), (⟨ref, d', b⟩ : DeadlineEntry) ∉ L := fun d' b hm => by
    have := (h.entry ref d').2 ⟨b, hm⟩
    simp [hr] at this
  refine ⟨(perm.map _).nodup_iff.2 (List.nodup_cons.2 ⟨fun hm => ?_, h.once⟩), fun q d' => ?_⟩
  · obtain ⟨⟨_, d', b⟩, he, rfl⟩ := List.mem_map.1 hm
    exact out d' b he
  · simp only [perm.mem_iff, List.mem_cons, DeadlineEntry.mk.injEq]
    by_cases hq : q = ref
    · subst hq
      simp [out, eq_comm]
    · simp [hq, h.entry q d']

/-- R58: marking changes no deadline. -/
theorem mark (h : DeadlinesOf L D) (now : Word) : DeadlinesOf (markDue now L) D := by
  have same : ∀ e : DeadlineEntry, (if isDue now e.deadline then { e with marked := true } else e).ref = e.ref ∧
      (if isDue now e.deadline then { e with marked := true } else e).deadline = e.deadline := fun e => by split <;> simp
  refine ⟨?_, fun ref d => ?_⟩
  · have : (markDue now L).map (·.ref) = L.map (·.ref) := by
      rw [markDue, List.map_map]
      exact List.map_congr_left fun e _ => (same e).1
    rw [this]
    exact h.once
  · rw [h.entry]
    constructor
    · rintro ⟨b, hb⟩
      exact ⟨if isDue now d then true else b, List.mem_map.2 ⟨_, hb, by dsimp only; split <;> rfl⟩⟩
    · rintro ⟨b, hb⟩
      obtain ⟨⟨ref', d', b'⟩, he, heq⟩ := List.mem_map.1 hb
      obtain ⟨h1, h2⟩ := same ⟨ref', d', b'⟩
      rw [heq] at h1 h2
      obtain rfl : ref = ref' := h1
      obtain rfl : d = d' := h2
      exact ⟨b', he⟩

end DeadlinesOf

/-! ### Fences (R48) -/

/-- R48: the counter after it has issued a fence. -/
def FenceCounter.advance (f : FenceCounter) : FenceCounter :=
  if f.next = BitVec.allOnes 48 then ⟨f.next, true⟩ else ⟨f.next + 1, f.exhausted⟩

section
variable {s t : State}

/-- No fence is issued: every hold and record of t has a fence that was there before, or a record has none yet. -/
theorem FenceLaw.of_sub (L : FenceLaw s) (hf : t.fence = s.fence)
    (hH : ∀ i h, t.hold i = some h → ∃ k, s.hold i = some k ∧ k.fence = h.fence)
    (hR : ∀ r x, t.record r = some x → x.lastFence = 0 ∨ ∃ q y, s.record q = some y ∧ y.lastFence = x.lastFence) :
    FenceLaw t where
  next := hf ▸ L.next
  last := hf ▸ L.last
  issued i h hh := by
    obtain ⟨k, hk, e⟩ := hH i h hh
    rw [hf, ← e]
    exact L.issued i k hk
  distinct i j h k hh hk e := by
    obtain ⟨h', hh', eh⟩ := hH i h hh
    obtain ⟨k', hk', ek⟩ := hH j k hk
    exact L.distinct i j h' k' hh' hk' (by rw [eh, ek, e])
  recorded r x hx := by
    rw [hf]
    rcases hR r x hx with h0 | ⟨q, y, hy, e⟩
    · have := L.next
      exact .inl (by rw [h0]; bv_omega)
    · rw [← e]
      exact L.recorded q y hy

/-- A fence is issued to the hold in slot i, and no other hold has it. -/
theorem FenceLaw.issue (L : FenceLaw s) {i : HoldIx} (hx : s.fence.exhausted = false) (hf : t.fence = s.fence.advance)
    (hi : ∀ h, t.hold i = some h → h.fence = s.fence.next)
    (hH : ∀ j h, j ≠ i → t.hold j = some h → ∃ k, s.hold j = some k ∧ k.fence = h.fence)
    (hR : ∀ r x, t.record r = some x → x.lastFence = s.fence.next ∨ ∃ y, s.record r = some y ∧ y.lastFence = x.lastFence) :
    FenceLaw t := by
  have below : ∀ j k, s.hold j = some k → k.fence ≠ 0 ∧ k.fence < s.fence.next := fun j k hk => by
    have := L.issued j k hk
    simpa [hx] using this
  have next := L.next
  -- every fence issued up to now is below the counter, or the counter has stopped at it
  have bound : ∀ f : Fence, f = s.fence.next ∨ f < s.fence.next →
      f < t.fence.next ∨ t.fence.exhausted = true ∧ f = t.fence.next := fun f h => by
    rw [hf, FenceCounter.advance]
    split
    · rcases h with h | h
      · exact .inr ⟨rfl, h⟩
      · exact .inl h
    · rename_i hne
      have hne : s.fence.next ≠ 281474976710655#48 := hne
      refine .inl ?_
      show f < s.fence.next + 1
      bv_omega
  have issued : ∀ j h, t.hold j = some h → h.fence ≠ 0 ∧ (h.fence = s.fence.next ∨ h.fence < s.fence.next) := fun j h hh => by
    by_cases hj : j = i
    · subst hj
      rw [hi h hh]
      exact ⟨next, .inl rfl⟩
    · obtain ⟨k, hk, e⟩ := hH j h hj hh
      rw [← e]
      exact ⟨(below j k hk).1, .inr (below j k hk).2⟩
  constructor
  · rw [hf, FenceCounter.advance]
    split
    · exact next
    · rename_i hne
      have hne : s.fence.next ≠ 281474976710655#48 := hne
      show s.fence.next + 1 ≠ 0
      bv_omega
  · rw [hf, FenceCounter.advance]
    split
    · exact fun _ => ‹_›
    · exact fun h => absurd (hx.symm.trans h) (by simp)
  · exact fun j h hh => ⟨(issued j h hh).1, bound _ (issued j h hh).2⟩
  · intro j k h g hh hg e
    by_cases hj : j = i <;> by_cases hk : k = i
    · rw [hj, hk]
    · obtain ⟨g', hg', eg⟩ := hH k g hk hg
      subst hj
      have h1 := (below k g' hg').2
      rw [eg, ← e, hi h hh] at h1
      exact absurd h1 (BitVec.lt_irrefl _)
    · obtain ⟨h', hh', eh⟩ := hH j h hj hh
      subst hk
      have h1 := (below j h' hh').2
      rw [eh, e, hi g hg] at h1
      exact absurd h1 (BitVec.lt_irrefl _)
    · obtain ⟨h', hh', eh⟩ := hH j h hj hh
      obtain ⟨g', hg', eg⟩ := hH k g hk hg
      exact L.distinct j k h' g' hh' hg' (by rw [eh, eg, e])
  · intro r x hr
    rcases hR r x hr with h0 | ⟨y, hy, e⟩
    · exact bound _ (.inl h0)
    · have := L.recorded r y hy
      simp only [hx, Bool.false_eq_true, false_and, or_false, e] at this
      exact bound _ (.inr this)

/-! ### Owners (R74, R124) -/

/-- Every hold and wait of t belongs to the client that had its slot before, or to one that is being served. -/
theorem Owners.of_sub (L : Owners s) (hs : ∀ c, (t.session c).state = (s.session c).state) (hp : t.purge = s.purge)
    (hH : ∀ i h, t.hold i = some h → (∃ k, s.hold i = some k ∧ k.client = h.client) ∨ (s.session h.client).state.served)
    (hW : ∀ w y, t.wait w = some y → (∃ z, s.wait w = some z ∧ z.client = y.client) ∨ (s.session y.client).state.served) :
    Owners t := by
  have notServed : ∀ c, s.purge.queue.head? = some c → ¬(s.session c).state.served := fun c hc => by
    simp [L.purging c hc, ClientState.served]
  constructor <;> simp only [hs, hp]
  · intro i h hh
    rcases hH i h hh with ⟨k, hk, e⟩ | hc
    · exact e ▸ L.hold i k hk
    · rcases hc with hc | hc <;> simp [hc]
  · intro w y hy
    rcases hW w y hy with ⟨z, hz, e⟩ | hc
    · exact e ▸ L.wait w z hz
    · rcases hc with hc | hc <;> simp [hc]
  · exact L.purging
  · rintro c w y v hq hy rfl hv
    rcases hW w y hy with ⟨z, hz, e⟩ | hc
    · exact L.passedWait _ w z v hq hz e hv
    · exact absurd hc (notServed _ hq)
  · rintro c w y j hq hy hj rfl
    rcases hW w y hy with ⟨z, hz, e⟩ | hc
    · exact L.noWait _ w z j hq hz hj e
    · exact absurd hc (notServed _ hq)
  · rintro c i h j hq hh rfl hj
    rcases hH i h hh with ⟨k, hk, e⟩ | hc
    · exact L.passedHold _ i k j hq hk e hj
    · exact absurd hc (notServed _ hq)

end

end Sys2Proof.Machine
end

