-- ==== Sys2Proof/Proofs/RecordLaw.lean ====
section
/-! PROOFS. The law of one record under the changes that operations make: claims leave, a hold joins, a wait joins, a hold changes. -/

namespace Sys2Proof.Machine

open Sys2Proof

variable {s t : State} {r : Slot} {x : Record}

/-- A slot that is the same has the same hold under the same handle. -/
theorem hold_of_holdSlot {i : HoldIx} (h : t.holdSlot i = s.holdSlot i) : t.hold i = s.hold i :=
  congrArg HoldSlot.occupant h

theorem holdHandle_of_generation {i : HoldIx} (h : (t.holdSlot i).generation = (s.holdSlot i).generation) :
    t.holdHandle i = s.holdHandle i := by rw [State.holdHandle, h]; rfl

theorem wait_of_waitSlot {w : WaitIx} (h : t.waitSlot w = s.waitSlot w) : t.wait w = s.wait w :=
  congrArg WaitSlot.occupant h

theorem waitHandle_of_waitSlot {w : WaitIx} (h : t.waitSlot w = s.waitSlot w) : t.waitHandle w = s.waitHandle w := by
  rw [State.waitHandle, h]; rfl

/-! ### Claims leave (R39, R40) -/

/-- Hold j of s is still there in t, or has only lost its conversion. -/
def HoldStays (s t : State) (ws : List WaitIx) (j : HoldIx) : Prop :=
  (t.holdSlot j = s.holdSlot j ∧ ∀ h v, s.hold j = some h → h.conversion = some v → v.index ∈ ws) ∨
    ∃ h, s.hold j = some h ∧ t.holdSlot j = ⟨(s.holdSlot j).generation, some { h with conversion := none }⟩ ∧
      ∀ w ∈ ws, ∀ y, s.wait w = some y → y.purpose ≠ .conversion (s.holdHandle j)

theorem HoldStays.handle {ws : List WaitIx} {j : HoldIx} (h : HoldStays s t ws j) : t.holdHandle j = s.holdHandle j := by
  rcases h with ⟨e, -⟩ | ⟨h, -, e, -⟩ <;> exact holdHandle_of_generation (by rw [e])

theorem HoldStays.before {ws : List WaitIx} {j : HoldIx} (st : HoldStays s t ws j) {h : Hold} (hh : t.hold j = some h) :
    ∃ k, s.hold j = some k ∧ h.slot = k.slot ∧ h.client = k.client ∧ h.mode = k.mode ∧ h.state = k.state ∧
      ∀ v, h.conversion = some v → k.conversion = some v ∧ v.index ∈ ws := by
  rcases st with ⟨e, hv⟩ | ⟨k, hk, e, -⟩
  · have hh := hold_of_holdSlot e ▸ hh
    exact ⟨h, hh, rfl, rfl, rfl, rfl, fun v hc => ⟨hc, hv h v hh hc⟩⟩
  · have : t.hold j = some { k with conversion := none } := congrArg HoldSlot.occupant e
    obtain rfl := Option.some.inj (hh.symm.trans this)
    exact ⟨k, hk, rfl, rfl, rfl, rfl, fun v hv => nomatch hv⟩

theorem HoldStays.after {ws : List WaitIx} {j : HoldIx} (st : HoldStays s t ws j) {k : Hold} (hk : s.hold j = some k) :
    ∃ h, t.hold j = some h ∧ h.slot = k.slot ∧ h.client = k.client ∧ ∀ w ∈ ws, ∀ y, s.wait w = some y →
      y.purpose = .conversion (s.holdHandle j) → h.conversion = k.conversion := by
  rcases st with ⟨e, -⟩ | ⟨k', hk', e, hn⟩
  · exact ⟨k, (hold_of_holdSlot e).trans hk, rfl, rfl, fun _ _ _ _ _ => rfl⟩
  · obtain rfl := Option.some.inj (hk.symm.trans hk')
    exact ⟨_, congrArg HoldSlot.occupant e, rfl, rfl, fun w hw y hy hp => absurd hp (hn w hw y hy)⟩

/-- Holds and waits leave the record, a conversion together with its hold's mention of it. -/
theorem RecordLaw.remove (L : RecordLaw s r x) {hs : List HoldIx} {ws : List WaitIx} (subH : hs.Sublist x.holders)
    (subW : ws.Sublist x.waitQueue) (hH : ∀ j ∈ hs, HoldStays s t ws j)
    (hW : ∀ w ∈ ws, t.waitSlot w = s.waitSlot w ∧ ∀ y v, s.wait w = some y → y.purpose = .conversion v → v.index ∈ hs)
    (hi : x.idleDeadline = none) : RecordLaw t r { x with holders := hs, waitQueue := ws } := by
  have eW : ∀ w ∈ ws, t.wait w = s.wait w := fun w hw => wait_of_waitSlot (hW w hw).1
  constructor
  case holder =>
    intro j hj
    obtain ⟨k, hk, hr⟩ := L.holder j (subH.subset hj)
    obtain ⟨h, hh, e, -⟩ := (hH j hj).after hk
    exact ⟨h, hh, e.trans hr⟩
  case holderOnce => exact L.holderOnce.sublist subH
  case waiter => exact fun w hw => eW w hw ▸ L.waiter w (subW.subset hw)
  case waiterOnce => exact L.waiterOnce.sublist subW
  case cap => exact L.cap
  case dynamic => exact L.dynamic
  case idle => exact fun h => absurd hi h
  case bound => exact subH.length_le.trans L.bound
  case exclusive =>
    intro j hj h hh hm
    obtain ⟨k, hk, -, -, em, -⟩ := (hH j hj).before hh
    have alone := L.exclusive j (subH.subset hj) k hk (em ▸ hm)
    rw [alone] at subH
    rcases List.sublist_cons_iff.1 subH with h | ⟨l, e, h⟩
    · rw [List.sublist_nil.1 h] at hj
      cases hj
    · rw [List.sublist_nil.1 h] at e
      exact e
  case sharedHold =>
    intro hx j hj h hh
    obtain ⟨k, hk, -, -, em, -⟩ := (hH j hj).before hh
    exact em ▸ L.sharedHold hx j (subH.subset hj) k hk
  case sharedWait => exact fun hx w hw y hy => L.sharedWait hx w (subW.subset hw) y (eW w hw ▸ hy)
  case conversion =>
    intro j hj h v hh hc
    obtain ⟨k, hk, -, -, em, es, hv⟩ := (hH j hj).before hh
    obtain ⟨hkv, hvw⟩ := hv v hc
    obtain ⟨ha, hm, -, hg, hy⟩ := L.conversion j (subH.subset hj) k v hk hkv
    refine ⟨es ▸ ha, em ▸ hm, hvw, ?_, ?_⟩
    · rw [waitHandle_of_waitSlot (hW _ hvw).1]; exact hg
    · rw [eW _ hvw, (hH j hj).handle]; exact hy
  case converting =>
    intro w hw y v hy hp
    rw [eW w hw] at hy
    obtain ⟨hm, -, hg, k, hk, hc, hcl⟩ := L.converting w (subW.subset hw) y v hy hp
    have hv := (hW w hw).2 y v hy hp
    obtain ⟨h, hh, -, ecl, econv⟩ := (hH _ hv).after hk
    refine ⟨hm, hv, by rw [(hH _ hv).handle]; exact hg, h, hh, ?_, ecl.trans hcl⟩
    rw [waitHandle_of_waitSlot (hW w hw).1, econv w hw y hy (hp.trans (congrArg _ hg))]
    exact hc
  case oneHold =>
    intro i hi j hj h k hh hk e
    obtain ⟨h', hh', -, eh, -⟩ := (hH i hi).before hh
    obtain ⟨k', hk', -, ek, -⟩ := (hH j hj).before hk
    exact L.oneHold i (subH.subset hi) j (subH.subset hj) h' k' hh' hk' (eh ▸ ek ▸ e)
  case oneWait =>
    exact fun v hv w hw y z hy hz => L.oneWait v (subW.subset hv) w (subW.subset hw) y z (eW v hv ▸ hy) (eW w hw ▸ hz)
  case both =>
    intro j hj w hw h y hh hy e
    obtain ⟨k, hk, -, ek, -⟩ := (hH j hj).before hh
    rw [(hH j hj).handle]
    exact L.both j (subH.subset hj) w (subW.subset hw) k y hk (eW w hw ▸ hy) (ek ▸ e)
  case queue =>
    refine (L.queue.sublist subW).imp_of_mem fun {a b} ha hb hab y z hy hz => ?_
    exact hab y z (eW a ha ▸ hy) (eW b hb ▸ hz)

/-! ### A hold joins (R36, R44) -/

/-- Client c has no claim on the record. -/
structure NoClaim (s : State) (x : Record) (c : Client) : Prop where
  hold : ∀ i ∈ x.holders, ∀ h, s.hold i = some h → h.client ≠ c
  wait : ∀ w ∈ x.waitQueue, ∀ y, s.wait w = some y → y.client ≠ c

/-- R35: a compatible mode keeps the holders within the cap and EXCLUSIVE alone. -/
theorem compatible_none_iff (s : State) (x : Record) (m : Mode) : s.compatible x m none = true ↔
    (m = .exclusive ∧ x.holders = []) ∨ (m = .shared ∧ x.shareable = true ∧ x.holders.length < x.holderCap ∧
      ∀ i ∈ x.holders, ∃ h, s.hold i = some h ∧ h.mode = .shared) := by
  cases m with
  | exclusive => simp [compatible_exclusive_none]
  | shared => simp [compatible_shared]

theorem RecordLaw.addHold (L : RecordLaw s r x) {i : HoldIx} {k : Hold} {f : Fence} (hfree : s.hold i = none)
    (hi : t.hold i = some k) (hslot : k.slot = r) (hconv : k.conversion = none)
    (hH : ∀ j, j ≠ i → t.holdSlot j = s.holdSlot j) (hW : ∀ w, t.waitSlot w = s.waitSlot w)
    (compat : s.compatible x k.mode none = true) (claims : NoClaim s x k.client) :
    RecordLaw t r { x with holders := x.holders ++ [i], lastFence := f, idleDeadline := none } := by
  have out : i ∉ x.holders := fun hm => by
    obtain ⟨h, hh, -⟩ := L.holder i hm
    simp [hfree] at hh
  have ne : ∀ j ∈ x.holders, j ≠ i := fun j hj e => out (e ▸ hj)
  have eW : ∀ w, t.wait w = s.wait w := fun w => wait_of_waitSlot (hW w)
  have eH : ∀ j ∈ x.holders, t.hold j = s.hold j := fun j hj => hold_of_holdSlot (hH j (ne j hj))
  have gH : ∀ j ∈ x.holders, t.holdHandle j = s.holdHandle j :=
    fun j hj => holdHandle_of_generation (by rw [hH j (ne j hj)])
  have gW : ∀ w, t.waitHandle w = s.waitHandle w := fun w => waitHandle_of_waitSlot (hW w)
  have mem : ∀ j, j ∈ x.holders ++ [i] ↔ j ∈ x.holders ∨ j = i := by simp
  have compat := (compatible_none_iff ..).1 compat
  constructor
  case holder =>
    intro j hj
    rcases (mem j).1 hj with hj | rfl
    · exact eH j hj ▸ L.holder j hj
    · exact ⟨k, hi, hslot⟩
  case holderOnce =>
    exact List.nodup_append.2 ⟨L.holderOnce, by simp, fun a ha b hb => by simp at hb; exact hb ▸ ne a ha⟩
  case waiter => exact fun w hw => eW w ▸ L.waiter w hw
  case waiterOnce => exact L.waiterOnce
  case cap => exact L.cap
  case dynamic => exact L.dynamic
  case idle => exact fun h => absurd rfl h
  case bound =>
    have hcap := L.cap
    rcases compat with ⟨-, hnil⟩ | ⟨-, -, hlt, -⟩
    · simp only [hnil]; exact hcap.1
    · simp only [List.length_append, List.length_singleton]; exact hlt
  case exclusive =>
    intro j hj h hh hm
    rcases (mem j).1 hj with hj | rfl
    · rcases compat with ⟨-, hnil⟩ | ⟨-, -, -, hall⟩
      · simp [hnil] at hj
      · obtain ⟨h', hh', hm'⟩ := hall j hj
        rw [eH j hj, hh'] at hh
        cases hh
        simp [hm'] at hm
    · rcases compat with ⟨-, hnil⟩ | ⟨hs, -⟩
      · simp [hnil]
      · rw [hi] at hh
        cases hh
        simp [hs] at hm
  case sharedHold =>
    intro hx j hj h hh
    rcases (mem j).1 hj with hj | rfl
    · exact L.sharedHold hx j hj h (eH j hj ▸ hh)
    · rw [hi] at hh
      cases hh
      rcases compat with ⟨he, -⟩ | ⟨-, hs, -⟩
      · exact he
      · exact absurd (hx.symm.trans hs) (by simp)
  case sharedWait => exact fun hx w hw y hy => L.sharedWait hx w hw y (eW w ▸ hy)
  case conversion =>
    intro j hj h v hh hc
    rcases (mem j).1 hj with hj | rfl
    · rw [eW, gW, gH j hj]
      exact L.conversion j hj h v (eH j hj ▸ hh) hc
    · rw [hi] at hh
      cases hh
      simp [hconv] at hc
  case converting =>
    intro w hw y v hy hp
    obtain ⟨hm, hv, hg, hk⟩ := L.converting w hw y v (eW w ▸ hy) hp
    exact ⟨hm, (mem _).2 (.inl hv), by rw [gH _ hv]; exact hg, by rw [eH _ hv, gW]; exact hk⟩
  case oneHold =>
    intro a ha b hb h h' hh hh' e
    rcases (mem a).1 ha with ha' | rfl <;> rcases (mem b).1 hb with hb' | rfl
    · exact L.oneHold a ha' b hb' h h' (eH a ha' ▸ hh) (eH b hb' ▸ hh') e
    · rw [hi] at hh'
      cases hh'
      exact absurd e (claims.hold a ha' h (eH a ha' ▸ hh))
    · rw [hi] at hh
      cases hh
      exact absurd e.symm (claims.hold b hb' h' (eH b hb' ▸ hh'))
    · rfl
  case oneWait => exact fun v hv w hw y z hy hz => L.oneWait v hv w hw y z (eW v ▸ hy) (eW w ▸ hz)
  case both =>
    intro j hj w hw h y hh hy e
    rcases (mem j).1 hj with hj | rfl
    · rw [gH j hj]
      exact L.both j hj w hw h y (eH j hj ▸ hh) (eW w ▸ hy) e
    · rw [hi] at hh
      cases hh
      exact absurd e.symm (claims.wait w hw y (eW w ▸ hy))
  case queue => exact L.queue.imp fun {a b} hab y z hy hz => hab y z (eW a ▸ hy) (eW b ▸ hz)

/-! ### A wait joins (R32, R37, R42) -/

/-- What a wait brings to the record that it joins: as a NEW one the only claim of its client, as a CONVERSION the upgrade of its
client's ACTIVE SHARED hold, which then mentions it. -/
structure WaitJoins (s t : State) (r : Slot) (x : Record) (w : WaitIx) (y : Wait) : Prop where
  free : s.wait w = none
  there : t.wait w = some y
  slot : y.slot = r
  shared : x.shareable = false → y.mode = .exclusive
  alone : ∀ v ∈ x.waitQueue, ∀ z, s.wait v = some z → z.client ≠ y.client
  purpose : (y.purpose = .new ∧ (∀ i ∈ x.holders, ∀ h, s.hold i = some h → h.client ≠ y.client) ∧
      ∀ i, t.holdSlot i = s.holdSlot i) ∨
    ∃ i h, y.purpose = .conversion (s.holdHandle i) ∧ y.mode = .exclusive ∧ i ∈ x.holders ∧ s.hold i = some h ∧
      h.client = y.client ∧ h.state = .active ∧ h.mode = .shared ∧ h.conversion = none ∧
      t.holdSlot i = ⟨(s.holdSlot i).generation, some { h with conversion := some (t.waitHandle w) }⟩ ∧
      ∀ j, j ≠ i → t.holdSlot j = s.holdSlot j

/-- The holds of a record that a wait joins are as before, but for the conversion of the hold that it upgrades. -/
theorem WaitJoins.holdSlot {w : WaitIx} {y : Wait} (J : WaitJoins s t r x w y) (j : HoldIx) :
    t.holdSlot j = s.holdSlot j ∨ ∃ h, y.purpose = .conversion (s.holdHandle j) ∧ s.hold j = some h ∧
      h.client = y.client ∧ h.state = .active ∧ h.mode = .shared ∧ h.conversion = none ∧
      t.holdSlot j = ⟨(s.holdSlot j).generation, some { h with conversion := some (t.waitHandle w) }⟩ := by
  rcases J.purpose with ⟨-, -, hall⟩ | ⟨i, h, hp, -, -, hh, hc, ha, hm, hn, hi, hj⟩
  · exact .inl (hall j)
  · by_cases e : j = i
    · subst e
      exact .inr ⟨h, hp, hh, hc, ha, hm, hn, hi⟩
    · exact .inl (hj j e)

theorem WaitJoins.handle {w : WaitIx} {y : Wait} (J : WaitJoins s t r x w y) (j : HoldIx) :
    t.holdHandle j = s.holdHandle j := by
  rcases J.holdSlot j with e | ⟨h, -, -, -, -, -, -, e⟩ <;> exact holdHandle_of_generation (by rw [e])

theorem WaitJoins.before {w : WaitIx} {y : Wait} (J : WaitJoins s t r x w y) {j : HoldIx} {h : Hold}
    (hh : t.hold j = some h) : ∃ k, s.hold j = some k ∧ h.slot = k.slot ∧ h.client = k.client ∧ h.mode = k.mode ∧
      h.state = k.state ∧ (h.conversion = k.conversion ∨ y.purpose = .conversion (s.holdHandle j) ∧ h.state = .active ∧
        h.mode = .shared ∧ h.conversion = some (t.waitHandle w)) := by
  rcases J.holdSlot j with e | ⟨k, hp, hk, -, ha, hm, -, e⟩
  · exact ⟨h, hold_of_holdSlot e ▸ hh, rfl, rfl, rfl, rfl, .inl rfl⟩
  · have : t.hold j = some { k with conversion := some (t.waitHandle w) } := congrArg HoldSlot.occupant e
    obtain rfl := Option.some.inj (hh.symm.trans this)
    exact ⟨k, hk, rfl, rfl, rfl, rfl, .inr ⟨hp, ha, hm, rfl⟩⟩

theorem WaitJoins.after {w : WaitIx} {y : Wait} (J : WaitJoins s t r x w y) {j : HoldIx} {k : Hold}
    (hk : s.hold j = some k) : ∃ h, t.hold j = some h ∧ h.slot = k.slot ∧ h.client = k.client ∧
      (k.conversion ≠ none → h.conversion = k.conversion) ∧
      (y.purpose = .conversion (s.holdHandle j) → h.conversion = some (t.waitHandle w) ∧ h.client = y.client) := by
  rcases J.purpose with ⟨hn, -, hall⟩ | ⟨i, h, hp, -, -, hh, hcl, -, -, hc, hi, hj⟩
  · exact ⟨k, (hold_of_holdSlot (hall j)).trans hk, rfl, rfl, fun _ => rfl, fun e => by simp [hn] at e⟩
  · by_cases e : j = i
    · subst e
      obtain rfl := Option.some.inj (hk.symm.trans hh)
      exact ⟨_, congrArg HoldSlot.occupant hi, rfl, rfl, fun h => absurd hc h, fun _ => ⟨rfl, hcl⟩⟩
    · refine ⟨k, (hold_of_holdSlot (hj j e)).trans hk, rfl, rfl, fun _ => rfl, fun e' => ?_⟩
      have := Purpose.conversion.inj (e'.symm.trans hp)
      exact absurd (congrArg HoldHandle.index this) e

theorem RecordLaw.addWait (L : RecordLaw s r x) {w : WaitIx} {y : Wait} {q : List WaitIx} (J : WaitJoins s t r x w y)
    (hq : q.Perm (w :: x.waitQueue)) (hW : ∀ v, v ≠ w → t.waitSlot v = s.waitSlot v)
    (order : q.Pairwise t.mayPrecede) : RecordLaw t r { x with waitQueue := q, idleDeadline := none } := by
  have out : w ∉ x.waitQueue := fun hm => by
    obtain ⟨z, hz, -⟩ := L.waiter w hm
    simp [J.free] at hz
  have ne : ∀ v ∈ x.waitQueue, v ≠ w := fun v hv e => out (e ▸ hv)
  have mem : ∀ v, v ∈ q ↔ v = w ∨ v ∈ x.waitQueue := fun v => hq.mem_iff.trans List.mem_cons
  have eW : ∀ v ∈ x.waitQueue, t.wait v = s.wait v := fun v hv => wait_of_waitSlot (hW v (ne v hv))
  have gW : ∀ v ∈ x.waitQueue, t.waitHandle v = s.waitHandle v := fun v hv => waitHandle_of_waitSlot (hW v (ne v hv))
  constructor
  case holder =>
    intro j hj
    obtain ⟨k, hk, hr⟩ := L.holder j hj
    obtain ⟨h, hh, e, -⟩ := J.after hk
    exact ⟨h, hh, e.trans hr⟩
  case holderOnce => exact L.holderOnce
  case waiter =>
    intro v hv
    rcases (mem v).1 hv with rfl | hv
    · exact ⟨y, J.there, J.slot⟩
    · exact eW v hv ▸ L.waiter v hv
  case waiterOnce => exact hq.nodup_iff.2 (List.nodup_cons.2 ⟨out, L.waiterOnce⟩)
  case cap => exact L.cap
  case dynamic => exact L.dynamic
  case idle => exact fun h => absurd rfl h
  case bound => exact L.bound
  case exclusive =>
    intro j hj h hh hm
    obtain ⟨k, hk, -, -, em, -⟩ := J.before hh
    exact L.exclusive j hj k hk (em ▸ hm)
  case sharedHold =>
    intro hx j hj h hh
    obtain ⟨k, hk, -, -, em, -⟩ := J.before hh
    exact em ▸ L.sharedHold hx j hj k hk
  case sharedWait =>
    intro hx v hv z hz
    rcases (mem v).1 hv with rfl | hv
    · obtain rfl := Option.some.inj (J.there.symm.trans hz)
      exact J.shared hx
    · exact L.sharedWait hx v hv z (eW v hv ▸ hz)
  case conversion =>
    intro j hj h v hh hc
    rw [J.handle]
    obtain ⟨k, hk, -, -, em, es, hconv | ⟨hp, ha, hm, hv⟩⟩ := J.before hh
    · obtain ⟨ha, hm, hv, hg, hy⟩ := L.conversion j hj k v hk (hconv ▸ hc)
      exact ⟨es ▸ ha, em ▸ hm, (mem _).2 (.inr hv), by rw [gW _ hv]; exact hg, by rw [eW _ hv]; exact hy⟩
    · obtain rfl := Option.some.inj (hc.symm.trans hv)
      exact ⟨ha, hm, (mem _).2 (.inl rfl), rfl, y, J.there, hp⟩
  case converting =>
    intro v hv z u hz hp
    rw [J.handle]
    rcases (mem v).1 hv with rfl | hv
    · obtain rfl := Option.some.inj (J.there.symm.trans hz)
      rcases J.purpose with ⟨hn, -⟩ | ⟨i, k, hpi, hm, hi, hk, -⟩
      · simp [hn] at hp
      · obtain rfl := Purpose.conversion.inj (hp.symm.trans hpi)
        obtain ⟨h, hh, -, -, -, hcv⟩ := J.after hk
        obtain ⟨hc, hcl⟩ := hcv hpi
        exact ⟨hm, hi, rfl, h, hh, hc, hcl⟩
    · obtain ⟨hm, hu, hg, k, hk, hc, hcl⟩ := L.converting v hv z u (eW v hv ▸ hz) hp
      obtain ⟨h, hh, -, ecl, hconv, -⟩ := J.after hk
      refine ⟨hm, hu, hg, h, hh, ?_, ecl.trans hcl⟩
      rw [gW v hv, hconv (by simp [hc])]
      exact hc
  case oneHold =>
    intro a ha b hb h h' hh hh' e
    obtain ⟨k, hk, -, ek, -⟩ := J.before hh
    obtain ⟨k', hk', -, ek', -⟩ := J.before hh'
    exact L.oneHold a ha b hb k k' hk hk' (ek ▸ ek' ▸ e)
  case oneWait =>
    intro a ha b hb z z' hz hz' e
    rcases (mem a).1 ha with rfl | ha <;> rcases (mem b).1 hb with rfl | hb
    · rfl
    · obtain rfl := Option.some.inj (J.there.symm.trans hz)
      exact absurd e.symm (J.alone b hb z' (eW b hb ▸ hz'))
    · obtain rfl := Option.some.inj (J.there.symm.trans hz')
      exact absurd e (J.alone a ha z (eW a ha ▸ hz))
    · exact L.oneWait a ha b hb z z' (eW a ha ▸ hz) (eW b hb ▸ hz') e
  case both =>
    intro j hj v hv h z hh hz e
    rw [J.handle]
    obtain ⟨k, hk, -, ek, -⟩ := J.before hh
    rcases (mem v).1 hv with rfl | hv
    · obtain rfl := Option.some.inj (J.there.symm.trans hz)
      rcases J.purpose with ⟨-, hno, -⟩ | ⟨i, k', hp, -, hi, hk', hcl, -⟩
      · exact absurd (ek ▸ e) (hno j hj k hk)
      · obtain rfl := L.oneHold j hj i hi k k' hk hk' ((ek ▸ e).trans hcl.symm)
        exact hp
    · exact L.both j hj v hv k z hk (eW v hv ▸ hz) (ek ▸ e)
  case queue => exact order

/-! ### A hold changes (R42, R45 to R47, R60, R66) -/

/-- Hold i, which client and record keep, changes. -/
theorem RecordLaw.changeHold (L : RecordLaw s r x) {i : HoldIx} {h k : Hold} {f : Fence} (hh : s.hold i = some h)
    (hi : t.holdSlot i = ⟨(s.holdSlot i).generation, some k⟩) (hslot : k.slot = h.slot) (hclient : k.client = h.client)
    (hconv : k.conversion = h.conversion) (hH : ∀ j, j ≠ i → t.holdSlot j = s.holdSlot j)
    (hW : ∀ w, t.waitSlot w = s.waitSlot w) (active : k.conversion ≠ none → k.state = .active ∧ k.mode = .shared)
    (alone : k.mode = .exclusive → x.holders = [i]) (shared : k.mode = .shared → x.shareable = true ∨ h.mode = .shared)
    (mem : i ∈ x.holders) : RecordLaw t r { x with lastFence := f } := by
  have eW : ∀ w, t.wait w = s.wait w := fun w => wait_of_waitSlot (hW w)
  have gW : ∀ w, t.waitHandle w = s.waitHandle w := fun w => waitHandle_of_waitSlot (hW w)
  have hi' : t.hold i = some k := congrArg HoldSlot.occupant hi
  have gH : ∀ j, t.holdHandle j = s.holdHandle j := fun j => by
    by_cases e : j = i
    · subst e; exact holdHandle_of_generation (by rw [hi])
    · exact holdHandle_of_generation (by rw [hH j e])
  have eH : ∀ j, j ≠ i → t.hold j = s.hold j := fun j e => hold_of_holdSlot (hH j e)
  -- a hold of t is k in slot i, or the hold of s in another slot
  have before : ∀ j g, t.hold j = some g → ∃ g', s.hold j = some g' ∧ g.client = g'.client ∧
      g.conversion = g'.conversion ∧ (j = i ∧ g = k ∨ j ≠ i ∧ g = g') := fun j g hg => by
    by_cases e : j = i
    · subst e
      obtain rfl := Option.some.inj (hg.symm.trans hi')
      exact ⟨h, hh, hclient, hconv, .inl ⟨rfl, rfl⟩⟩
    · exact ⟨g, eH j e ▸ hg, rfl, rfl, .inr ⟨e, rfl⟩⟩
  have after : ∀ j g', s.hold j = some g' → ∃ g, t.hold j = some g ∧ g.slot = g'.slot ∧ g.client = g'.client ∧
      g.conversion = g'.conversion := fun j g' hg => by
    by_cases e : j = i
    · subst e
      obtain rfl := Option.some.inj (hg.symm.trans hh)
      exact ⟨k, hi', hslot, hclient, hconv⟩
    · exact ⟨g', (eH j e).trans hg, rfl, rfl, rfl⟩
  constructor
  case holder =>
    intro j hj
    obtain ⟨g', hg', hr⟩ := L.holder j hj
    obtain ⟨g, hg, e, -⟩ := after j g' hg'
    exact ⟨g, hg, e.trans hr⟩
  case holderOnce => exact L.holderOnce
  case waiter => exact fun w hw => eW w ▸ L.waiter w hw
  case waiterOnce => exact L.waiterOnce
  case cap => exact L.cap
  case dynamic => exact L.dynamic
  case idle => exact L.idle
  case bound => exact L.bound
  case exclusive =>
    intro j hj g hg hm
    obtain ⟨g', hg', -, -, ⟨rfl, rfl⟩ | ⟨-, rfl⟩⟩ := before j g hg
    · exact alone hm
    · exact L.exclusive j hj g hg' hm
  case sharedHold =>
    intro hx j hj g hg
    obtain ⟨g', hg', -, -, ⟨rfl, rfl⟩ | ⟨-, rfl⟩⟩ := before j g hg
    · cases hm : g.mode with
      | exclusive => rfl
      | shared =>
        have hs := L.sharedHold hx j hj h hh
        rcases shared hm with h1 | h1
        · exact absurd (hx.symm.trans h1) (by simp)
        · exact absurd (h1.symm.trans hs) (by simp)
    · exact L.sharedHold hx j hj g hg'
  case sharedWait => exact fun hx w hw y hy => L.sharedWait hx w hw y (eW w ▸ hy)
  case conversion =>
    intro j hj g v hg hc
    rw [eW, gW, gH]
    obtain ⟨g', hg', -, econv, hcase⟩ := before j g hg
    obtain ⟨ha, hm, rest⟩ := L.conversion j hj g' v hg' (econv ▸ hc)
    rcases hcase with ⟨rfl, rfl⟩ | ⟨-, rfl⟩
    · obtain ⟨ha, hm⟩ := active (by simp [hc])
      exact ⟨ha, hm, rest⟩
    · exact ⟨ha, hm, rest⟩
  case converting =>
    intro w hw y v hy hp
    rw [gH, gW]
    obtain ⟨hm, hv, hg, g', hg', hc, hcl⟩ := L.converting w hw y v (eW w ▸ hy) hp
    obtain ⟨g, hg'', -, ecl, econv⟩ := after _ g' hg'
    exact ⟨hm, hv, hg, g, hg'', econv.trans hc, ecl.trans hcl⟩
  case oneHold =>
    intro a ha b hb g g' hg hg' e
    obtain ⟨m, hm, em, -⟩ := before a g hg
    obtain ⟨m', hm', em', -⟩ := before b g' hg'
    exact L.oneHold a ha b hb m m' hm hm' (em ▸ em' ▸ e)
  case oneWait => exact fun v hv w hw y z hy hz => L.oneWait v hv w hw y z (eW v ▸ hy) (eW w ▸ hz)
  case both =>
    intro j hj w hw g y hg hy e
    rw [gH]
    obtain ⟨g', hg', eg, -⟩ := before j g hg
    exact L.both j hj w hw g' y hg' (eW w ▸ hy) (eg ▸ e)
  case queue => exact L.queue.imp fun {a b} hab y z hy hz => hab y z (eW a ▸ hy) (eW b ▸ hz)

end Sys2Proof.Machine
end

