-- ==== Sys2Proof/Proofs/AtRecord.lean ====
section
/-! PROOFS. What an operation on one record leaves of the others: `AtRecord`; and the laws of the engine after such an operation, from
the law of that one record. -/

namespace Sys2Proof.Machine

open Sys2Proof

variable {s t u : State} {r q : Slot}

/-- From s to t only the record in slot r changes, with the holds and waits on it; the fence counter does not come back from
exhaustion. -/
structure AtRecord (r : Slot) (s t : State) : Prop where
  hashSeed : t.hashSeed = s.hashSeed
  purge : t.purge = s.purge
  state : ∀ c : Client, (t.session c).state = (s.session c).state
  exhausted : s.fence.exhausted = true → t.fence.exhausted = true
  record : ∀ q, q ≠ r → t.record q = s.record q
  hold : ∀ i h, s.hold i = some h → h.slot ≠ r → t.holdSlot i = s.holdSlot i
  holdBack : ∀ i h, t.hold i = some h → h.slot ≠ r → t.holdSlot i = s.holdSlot i
  wait : ∀ w y, s.wait w = some y → y.slot ≠ r → t.waitSlot w = s.waitSlot w
  waitBack : ∀ w y, t.wait w = some y → y.slot ≠ r → t.waitSlot w = s.waitSlot w

namespace AtRecord

theorem trans (h : AtRecord r s t) (k : AtRecord r t u) : AtRecord r s u where
  hashSeed := k.hashSeed.trans h.hashSeed
  purge := k.purge.trans h.purge
  state c := (k.state c).trans (h.state c)
  exhausted he := k.exhausted (h.exhausted he)
  record q hq := (k.record q hq).trans (h.record q hq)
  hold i g hg hr := by
    have e := h.hold i g hg hr
    exact (k.hold i g ((hold_of_holdSlot e).trans hg) hr).trans e
  holdBack i g hg hr := by
    have e := k.holdBack i g hg hr
    exact e.trans (h.holdBack i g ((hold_of_holdSlot e).symm.trans hg) hr)
  wait w y hy hr := by
    have e := h.wait w y hy hr
    exact (k.wait w y ((wait_of_waitSlot e).trans hy) hr).trans e
  waitBack w y hy hr := by
    have e := k.waitBack w y hy hr
    exact e.trans (h.waitBack w y ((wait_of_waitSlot e).symm.trans hy) hr)

theorem refl (r : Slot) (s : State) : AtRecord r s s :=
  ⟨rfl, rfl, fun _ => rfl, id, fun _ _ => rfl, fun _ _ _ _ => rfl, fun _ _ _ _ => rfl, fun _ _ _ _ => rfl,
    fun _ _ _ _ => rfl⟩

end AtRecord

theorem SameEngine.atRecord (h : SameEngine s t) (r : Slot) : AtRecord r s t where
  hashSeed := h.hashSeed
  purge := h.purge
  state := h.state
  exhausted he := by rw [h.fence]; exact he
  record q _ := h.record q
  hold i _ _ _ := h.holdSlot i
  holdBack i _ _ _ := h.holdSlot i
  wait w _ _ _ := h.waitSlot w
  waitBack w _ _ _ := h.waitSlot w

/-! ### The other records -/

theorem RecordLaw.atOther {x : Record} (L : RecordLaw s q x) (A : AtRecord r s t) (hq : q ≠ r) : RecordLaw t q x := by
  refine L.congr (fun i hi => ?_) fun w hw => ?_
  · obtain ⟨h, hh, rfl⟩ := L.holder i hi
    exact A.hold i h hh hq
  · obtain ⟨y, hy, rfl⟩ := L.waiter w hw
    exact A.wait w y hy hq

theorem isEffective_congr {w : WaitIx} (hw : t.wait w = s.wait w)
    (hs : ∀ c : Client, (t.session c).state = (s.session c).state) : t.isEffective w = s.isEffective w := by
  simp only [isEffective_eq_any, hw, hs]

/-- Whether a wait is compatible goes by the holders of the record, and by the two attributes. -/
theorem waitCompatible_mono {x x' : Record} {y : Wait} (hc : t.waitCompatible x' y = true)
    (holders : ∀ i ∈ x.holders, i ∈ x'.holders ∧ (t.isShared i = true → s.isShared i = true))
    (length : x.holders.length ≤ x'.holders.length) (shareable : x'.shareable = true → x.shareable = true)
    (cap : x'.holderCap ≤ x.holderCap) : s.waitCompatible x y = true := by
  unfold State.waitCompatible at hc ⊢
  cases hm : y.mode with
  | exclusive =>
    rw [hm] at hc
    simp only [State.compatible, List.all_eq_true] at hc ⊢
    exact fun i hi => hc i (holders i hi).1
  | shared =>
    rw [hm] at hc
    simp only [State.compatible, Bool.and_eq_true, List.all_eq_true, decide_eq_true_eq] at hc ⊢
    obtain ⟨⟨h1, h2⟩, h3⟩ := hc
    exact ⟨⟨shareable h1, fun i hi => (holders i hi).2 (h2 i (holders i hi).1)⟩, by omega⟩

/-- R41: a head that cannot be granted stays so when the queue is the same and the holders and attributes allow no more. -/
theorem GrantAt.mono (g : GrantAt s r) (exhausted : s.fence.exhausted = true → t.fence.exhausted = true)
    (state : ∀ c : Client, (t.session c).state = (s.session c).state)
    (record : ∀ x', t.record r = some x' → ∃ x, s.record r = some x ∧ x'.waitQueue = x.waitQueue ∧
      (∀ w ∈ x.waitQueue, t.wait w = s.wait w) ∧
      ∀ y, t.waitCompatible x' y = true → s.waitCompatible x y = true) : GrantAt t r := by
  intro he x' w y hx' hw hy
  obtain ⟨x, hx, hq, hwait, hcompat⟩ := record x' hx'
  have eq : t.effectiveQueue x' = s.effectiveQueue x := by
    unfold State.effectiveQueue
    rw [hq]
    exact List.filter_congr fun v hv => isEffective_congr (hwait v hv) state
  rw [eq] at hw
  have hmem : w ∈ x.waitQueue := List.mem_of_mem_filter (List.mem_of_mem_head? hw)
  have he : s.fence.exhausted = false := by
    cases hs : s.fence.exhausted with
    | false => rfl
    | true => exact (he.symm.trans (exhausted hs)).symm
  have := g he x w y hx hw (hwait w hmem ▸ hy)
  cases hc : t.waitCompatible x' y with
  | false => rfl
  | true => exact (this.symm.trans (hcompat y hc)).symm

theorem isShared_congr {i : HoldIx} (h : t.hold i = s.hold i) : t.isShared i = s.isShared i := by
  unfold State.isShared
  rw [h]

theorem GrantAt.atOther (L : EngineLaw s) (g : GrantAt s q) (A : AtRecord r s t) (hq : q ≠ r) : GrantAt t q := by
  refine g.mono A.exhausted A.state fun x hx => ?_
  rw [A.record q hq] at hx
  have R := L.record q x hx
  refine ⟨x, hx, rfl, fun w hw => ?_, fun y hc => waitCompatible_mono hc (fun i hi => ⟨hi, ?_⟩) le_rfl id le_rfl⟩
  · obtain ⟨y, hy, rfl⟩ := R.waiter w hw
    exact wait_of_waitSlot (A.wait w y hy hq)
  · obtain ⟨h, hh, rfl⟩ := R.holder i hi
    rw [isShared_congr (hold_of_holdSlot (A.hold i h hh hq))]
    exact id

theorem SettledAt.atOther (g : SettledAt s q) (A : AtRecord r s t) (hq : q ≠ r) : SettledAt t q := by
  unfold SettledAt
  rw [A.record q hq]
  exact g

/-! ### The laws of the engine after an operation on one record -/

/-- The engine's laws hold, and only the record in slot r changed. -/
structure Works (r : Slot) (s t : State) : Prop where
  law : EngineLaw t
  only : AtRecord r s t

theorem Works.trans (h : Works r s t) (k : Works r t u) : Works r s u := ⟨k.law, h.only.trans k.only⟩

theorem Works.refl (L : EngineLaw s) : Works r s s := ⟨L, .refl r s⟩

theorem SameEngine.works (h : SameEngine s t) (L : EngineLaw s) : Works r s t := ⟨h.engineLaw L, h.atRecord r⟩

/-- Between happenings the other records have no head to grant and are settled. -/
theorem Works.good (h : Works r s t) (G : EngineGood s) (grant : GrantAt t r) (settled : SettledAt t r) : EngineGood t where
  law := h.law
  grant q := by
    by_cases hq : q = r
    · exact hq ▸ grant
    · exact (G.grant q).atOther G.law h.only hq
  settled q := by
    by_cases hq : q = r
    · exact hq ▸ settled
    · exact (G.settled q).atOther h.only hq

theorem EngineLaw.atRecord (L : EngineLaw s) (A : AtRecord r s t)
    (record : ∀ x, t.record r = some x → RecordLaw t r x ∧ r ∈ s.waysOf x.key ∧
      ∀ q y, q ≠ r → s.record q = some y → y.key ≠ x.key)
    (homeHold : ∀ i h, t.hold i = some h → h.slot = r → ∃ x, t.record r = some x ∧ i ∈ x.holders)
    (homeWait : ∀ w y, t.wait w = some y → y.slot = r → ∃ x, t.record r = some x ∧ w ∈ x.waitQueue)
    (fences : FenceLaw t) (pool : PoolLaw t) (counts : CountLaw t) (deadlines : DeadlineLaw t) (owners : Owners t) :
    EngineLaw t where
  record q x hx := by
    by_cases hq : q = r
    · exact hq ▸ (record x (hq ▸ hx)).1
    · exact (L.record q x (A.record q hq ▸ hx)).atOther A hq
  homeHold i h hh := by
    by_cases hr : h.slot = r
    · exact hr ▸ homeHold i h hh hr
    · rw [A.record _ hr]
      exact L.homeHold i h ((hold_of_holdSlot (A.holdBack i h hh hr)).symm.trans hh)
  homeWait w y hy := by
    by_cases hr : y.slot = r
    · exact hr ▸ homeWait w y hy hr
    · rw [A.record _ hr]
      exact L.homeWait w y ((wait_of_waitSlot (A.waitBack w y hy hr)).symm.trans hy)
  place q x hx := by
    have ways : t.waysOf x.key = s.waysOf x.key := by unfold State.waysOf; rw [A.hashSeed]
    rw [ways]
    by_cases hq : q = r
    · exact hq ▸ (record x (hq ▸ hx)).2.1
    · exact L.place q x (A.record q hq ▸ hx)
  key q q' x x' hx hx' e := by
    by_cases hq : q = r <;> by_cases hq' : q' = r
    · rw [hq, hq']
    · exact absurd e.symm ((record x (hq ▸ hx)).2.2 q' x' hq' (A.record q' hq' ▸ hx'))
    · exact absurd e ((record x' (hq' ▸ hx')).2.2 q x hq (A.record q hq ▸ hx))
    · exact L.key q q' x x' (A.record q hq ▸ hx) (A.record q' hq' ▸ hx') e
  fences := fences
  pool := pool
  counts := counts
  deadlines := deadlines
  owners := owners

/-! ### One hold slot, one wait slot -/

/-- Writing to one place what is there changes nothing. -/
theorem eq_ite_at {α β : Type} [DecidableEq α] (f : α → β) (a b : α) : f b = if a = b then f a else f b := by
  split
  · subst_vars; rfl
  · rfl

/-- The holds of t are those of s, but for holds on record r, and x' lists those. -/
structure HoldsAt (r : Slot) (x' : Record) (s t : State) : Prop where
  hold : ∀ i h, s.hold i = some h → h.slot ≠ r → t.holdSlot i = s.holdSlot i
  back : ∀ i h, t.hold i = some h → h.slot ≠ r → t.holdSlot i = s.holdSlot i
  home : ∀ i h, t.hold i = some h → h.slot = r → i ∈ x'.holders

/-- The waits of t are those of s, but for waits on record r, and x' lists those. -/
structure WaitsAt (r : Slot) (x' : Record) (s t : State) : Prop where
  wait : ∀ w y, s.wait w = some y → y.slot ≠ r → t.waitSlot w = s.waitSlot w
  back : ∀ w y, t.wait w = some y → y.slot ≠ r → t.waitSlot w = s.waitSlot w
  home : ∀ w y, t.wait w = some y → y.slot = r → w ∈ x'.waitQueue

section
variable {x x' : Record} (L : EngineLaw s) (hx : s.record r = some x)
include L hx

theorem EngineLaw.mem_holders {i : HoldIx} {h : Hold} (hh : s.hold i = some h) (hr : h.slot = r) : i ∈ x.holders := by
  obtain ⟨z, hz, hi⟩ := L.homeHold i h hh
  rw [hr, hx] at hz
  exact Option.some.inj hz ▸ hi

theorem EngineLaw.mem_waitQueue {w : WaitIx} {y : Wait} (hy : s.wait w = some y) (hr : y.slot = r) : w ∈ x.waitQueue := by
  obtain ⟨z, hz, hw⟩ := L.homeWait w y hy
  rw [hr, hx] at hz
  exact Option.some.inj hz ▸ hw

theorem HoldsAt.same (h : ∀ i, t.holdSlot i = s.holdSlot i) (hh : x'.holders = x.holders) : HoldsAt r x' s t where
  hold i _ _ _ := h i
  back i _ _ _ := h i
  home i _ hg hr := hh ▸ L.mem_holders hx (hold_of_holdSlot (h i) ▸ hg) hr

theorem HoldsAt.one {i : HoldIx} {a : HoldSlot} (h : ∀ j, t.holdSlot j = if i = j then a else s.holdSlot j)
    (old : ∀ h, s.hold i = some h → h.slot = r) (new : ∀ h, a.occupant = some h → h.slot = r ∧ i ∈ x'.holders)
    (rest : ∀ j ∈ x.holders, j ≠ i → j ∈ x'.holders) : HoldsAt r x' s t := by
  have at_i : t.hold i = a.occupant := by simp [State.hold, h]
  have other : ∀ j, j ≠ i → t.holdSlot j = s.holdSlot j := fun j hj => by rw [h, if_neg (Ne.symm hj)]
  constructor
  · intro j g hg hr
    exact other j fun e => hr (old g (e ▸ hg))
  · intro j g hg hr
    refine other j fun e => hr (new g ?_).1
    rw [← at_i, ← e]
    exact hg
  · intro j g hg hr
    by_cases e : j = i
    · subst e
      exact (new g (at_i ▸ hg)).2
    · exact rest j (L.mem_holders hx (hold_of_holdSlot (other j e) ▸ hg) hr) e

theorem WaitsAt.same (h : ∀ w, t.waitSlot w = s.waitSlot w) (hh : x'.waitQueue = x.waitQueue) : WaitsAt r x' s t where
  wait w _ _ _ := h w
  back w _ _ _ := h w
  home w _ hy hr := hh ▸ L.mem_waitQueue hx (wait_of_waitSlot (h w) ▸ hy) hr

theorem WaitsAt.one {w : WaitIx} {b : WaitSlot} (h : ∀ v, t.waitSlot v = if w = v then b else s.waitSlot v)
    (old : ∀ y, s.wait w = some y → y.slot = r) (new : ∀ y, b.occupant = some y → y.slot = r ∧ w ∈ x'.waitQueue)
    (rest : ∀ v ∈ x.waitQueue, v ≠ w → v ∈ x'.waitQueue) : WaitsAt r x' s t := by
  have at_w : t.wait w = b.occupant := by simp [State.wait, h]
  have other : ∀ v, v ≠ w → t.waitSlot v = s.waitSlot v := fun v hv => by rw [h, if_neg (Ne.symm hv)]
  constructor
  · intro v y hy hr
    exact other v fun e => hr (old y (e ▸ hy))
  · intro v y hy hr
    refine other v fun e => hr (new y ?_).1
    rw [← at_w, ← e]
    exact hy
  · intro v y hy hr
    by_cases e : v = w
    · subst e
      exact (new y (at_w ▸ hy)).2
    · exact rest v (L.mem_waitQueue hx (wait_of_waitSlot (other v e) ▸ hy) hr) e

end

/-- From s to t the record x in slot r becomes x', hold slot i becomes a, wait slot w becomes b, and the two counts of client c become
m and n. -/
structure Change (s t : State) (r : Slot) (x x' : Record) (i : HoldIx) (a : HoldSlot) (w : WaitIx) (b : WaitSlot) (c : Client)
    (m n : Nat) : Prop where
  before : s.record r = some x
  record : ∀ q, t.record q = if r = q then some x' else s.record q
  key : x'.key = x.key
  holdSlot : ∀ j, t.holdSlot j = if i = j then a else s.holdSlot j
  waitSlot : ∀ v, t.waitSlot v = if w = v then b else s.waitSlot v
  session : ∀ k : Client, t.session k = if c = k then { s.session c with holdCount := m, waitCount := n } else s.session k
  hashSeed : t.hashSeed = s.hashSeed
  purge : t.purge = s.purge

namespace Change

variable {x x' : Record} {i : HoldIx} {a : HoldSlot} {w : WaitIx} {b : WaitSlot} {c : Client} {m n : Nat}
  (C : Change s t r x x' i a w b c m n)
include C

theorem hold (j : HoldIx) : t.hold j = if i = j then a.occupant else s.hold j := by
  simp only [State.hold, C.holdSlot]
  split <;> rfl

theorem wait (v : WaitIx) : t.wait v = if w = v then b.occupant else s.wait v := by
  simp only [State.wait, C.waitSlot]
  split <;> rfl

theorem state (k : Client) : (t.session k).state = (s.session k).state := by
  rw [C.session]
  split
  · rename_i h; rw [h]
  · rfl

theorem atHold : t.holdSlot i = a := (C.holdSlot i).trans (if_pos rfl)

theorem otherHold {j : HoldIx} (hj : j ≠ i) : t.holdSlot j = s.holdSlot j := (C.holdSlot j).trans (if_neg (Ne.symm hj))

theorem atWait : t.waitSlot w = b := (C.waitSlot w).trans (if_pos rfl)

theorem otherWait {v : WaitIx} (hv : v ≠ w) : t.waitSlot v = s.waitSlot v := (C.waitSlot v).trans (if_neg (Ne.symm hv))

theorem here : t.record r = some x' := by simp [C.record]

/-- The laws of the engine after a change of one record. -/
theorem works (L : EngineLaw s) (exhausted : s.fence.exhausted = true → t.fence.exhausted = true)
    (H : HoldsAt r x' s t) (W : WaitsAt r x' s t) (record : RecordLaw t r x') (fences : FenceLaw t)
    (numbers : PoolLaw t ∧ CountLaw t) (deadlines : DeadlineLaw t) (owners : Owners t) : Works r s t := by
  have A : AtRecord r s t := ⟨C.hashSeed, C.purge, C.state, exhausted, fun q hq => by rw [C.record, if_neg (Ne.symm hq)],
    H.hold, H.back, W.wait, W.back⟩
  refine ⟨L.atRecord A (fun z hz => ?_) (fun i h hh hr => ⟨x', C.here, H.home i h hh hr⟩)
    (fun w y hy hr => ⟨x', C.here, W.home w y hy hr⟩) fences numbers.1 numbers.2 deadlines owners, A⟩
  obtain rfl := Option.some.inj (C.here.symm.trans hz)
  exact ⟨record, C.key ▸ L.place r x C.before, fun q y hq hy e => hq (L.key q r y x hy C.before (e.trans C.key))⟩

/-- R48: no fence is issued. -/
theorem fences (L : FenceLaw s) (hf : t.fence = s.fence) (last : x'.lastFence = x.lastFence ∨ x'.lastFence = 0)
    (hold : ∀ h, a.occupant = some h → ∃ k, s.hold i = some k ∧ k.fence = h.fence) : FenceLaw t := by
  refine L.of_sub hf (fun j h hh => ?_) fun q z hz => ?_
  · rw [C.hold] at hh
    split at hh
    · subst_vars; exact hold h hh
    · exact ⟨h, hh, rfl⟩
  · rw [C.record] at hz
    split at hz
    · cases hz
      exact last.elim (fun e => .inr ⟨r, x, C.before, e.symm⟩) .inl
    · exact .inr ⟨q, z, hz, rfl⟩

/-- R48: a fence is issued to hold i. -/
theorem issues (L : FenceLaw s) (hx : s.fence.exhausted = false) (hf : t.fence = s.fence.advance)
    (last : x'.lastFence = s.fence.next) (hold : ∀ h, a.occupant = some h → h.fence = s.fence.next) : FenceLaw t := by
  refine L.issue (i := i) hx hf (fun h hh => ?_) (fun j h hj hh => ?_) fun q z hz => ?_
  · rw [C.hold, if_pos rfl] at hh
    exact hold h hh
  · rw [C.hold, if_neg (Ne.symm hj)] at hh
    exact ⟨h, hh, rfl⟩
  · rw [C.record] at hz
    split at hz
    · cases hz; exact .inl last
    · exact .inr ⟨z, hz, rfl⟩

/-- R74, R124: the hold and the wait belong to the client that had the slot, or to one that is served. -/
theorem owners (L : Owners s)
    (hold : ∀ h, a.occupant = some h → (∃ k, s.hold i = some k ∧ k.client = h.client) ∨ (s.session h.client).state.served)
    (wait : ∀ y, b.occupant = some y → (∃ z, s.wait w = some z ∧ z.client = y.client) ∨ (s.session y.client).state.served) :
    Owners t := by
  refine L.of_sub C.state C.purge (fun j h hh => ?_) fun v y hy => ?_
  · rw [C.hold] at hh
    split at hh
    · subst_vars; exact hold h hh
    · exact .inl ⟨h, hh, rfl⟩
  · rw [C.wait] at hy
    split at hy
    · subst_vars; exact wait y hy
    · exact .inl ⟨y, hy, rfl⟩

/-- R56: the list has the deadlines of the changed things and those of the rest. -/
theorem deadlines {D : DeadlineRef → Option Word} (h : DeadlinesOf t.deadlines D)
    (hold : D (.hold i) = a.occupant.map (·.deadline)) (wait : D (.wait w) = b.occupant.map (·.deadline))
    (record : D (.record r) = x'.idleDeadline)
    (rest : ∀ ref, ref ≠ .hold i → ref ≠ .wait w → ref ≠ .record r → D ref = s.deadlineOf ref) : DeadlineLaw t := by
  refine (deadlineLaw_iff t).2 (h.congr fun ref => ?_)
  cases ref with
  | hold j =>
    simp only [State.deadlineOf, C.hold]
    split
    · subst_vars; exact hold.symm
    · rename_i hne
      rw [rest (.hold j) (by simpa [eq_comm] using hne) (by simp) (by simp)]
      rfl
  | wait v =>
    simp only [State.deadlineOf, C.wait]
    split
    · subst_vars; exact wait.symm
    · rename_i hne
      rw [rest (.wait v) (by simp) (by simpa [eq_comm] using hne) (by simp)]
      rfl
  | record q =>
    simp only [State.deadlineOf, C.record]
    split
    · subst_vars; exact record.symm
    · rename_i hne
      rw [rest (.record q) (by simp) (by simp) (by simpa [eq_comm] using hne)]
      rfl

end Change

/-! ### The numbers of the pools and of a client (R27, R83) -/

/-- From s to t the holds in use go from p to q, all of client c. -/
structure HoldsCount (s t : State) (c : Client) (p q : Nat) : Prop where
  inUse : t.holdsInUse + p = s.holdsInUse + q
  mine : t.holdsBy c + p = s.holdsBy c + q
  others : ∀ k, k ≠ c → t.holdsBy k = s.holdsBy k

/-- From s to t the NEW waits go from p to q and the waits from p' to q', all of client c. -/
structure WaitsCount (s t : State) (c : Client) (p q p' q' : Nat) : Prop where
  reserved : t.newWaits + p = s.newWaits + q
  mineNew : t.newWaitsBy c + p = s.newWaitsBy c + q
  mine : t.waitsBy c + p' = s.waitsBy c + q'
  othersNew : ∀ k, k ≠ c → t.newWaitsBy k = s.newWaitsBy k
  others : ∀ k, k ≠ c → t.waitsBy k = s.waitsBy k

section
variable {i : HoldIx} {w : WaitIx} {h : Hold} {y : Wait} {c : Client}

theorem HoldsCount.same (e : ∀ j, (t.hold j).map (·.client) = (s.hold j).map (·.client)) : HoldsCount s t c 0 0 := by
  obtain ⟨h1, h2⟩ := holds_same e
  exact ⟨by simp [h1], by simp [h2], fun k _ => h2 k⟩

theorem HoldsCount.ends (hh : s.hold i = some h) (e : ∀ j, t.hold j = if i = j then none else s.hold j) :
    HoldsCount s t h.client 1 0 where
  inUse := by simpa [hh] using holdsInUse_change e
  mine := by simpa [hh] using holdsBy_change e h.client
  others k hk := by simpa [hh, beq_eq_false_iff_ne.2 (Ne.symm hk)] using holdsBy_change e k

theorem HoldsCount.begins (hh : s.hold i = none) (e : ∀ j, t.hold j = if i = j then some h else s.hold j) :
    HoldsCount s t h.client 0 1 where
  inUse := by simpa [hh] using holdsInUse_change e
  mine := by simpa [hh] using holdsBy_change e h.client
  others k hk := by simpa [hh, beq_eq_false_iff_ne.2 (Ne.symm hk)] using holdsBy_change e k

theorem WaitsCount.same (e : ∀ v, t.wait v = s.wait v) : WaitsCount s t c 0 0 0 0 := by
  obtain ⟨h1, h2, h3⟩ := waits_same e
  exact ⟨by simp [h1], by simp [h2], by simp [h3], fun k _ => h2 k, fun k _ => h3 k⟩

theorem WaitsCount.ends (hy : s.wait w = some y) (e : ∀ v, t.wait v = if w = v then none else s.wait v) :
    WaitsCount s t y.client (y.purpose == .new).toNat 0 1 0 where
  reserved := by simpa [hy] using newWaits_change e
  mineNew := by simpa [hy] using newWaitsBy_change e y.client
  mine := by simpa [hy] using waitsBy_change e y.client
  othersNew k hk := by simpa [hy, beq_eq_false_iff_ne.2 (Ne.symm hk)] using newWaitsBy_change e k
  others k hk := by simpa [hy, beq_eq_false_iff_ne.2 (Ne.symm hk)] using waitsBy_change e k

theorem WaitsCount.begins (hy : s.wait w = none) (e : ∀ v, t.wait v = if w = v then some y else s.wait v) :
    WaitsCount s t y.client 0 (y.purpose == .new).toNat 0 1 where
  reserved := by simpa [hy] using newWaits_change e
  mineNew := by simpa [hy] using newWaitsBy_change e y.client
  mine := by simpa [hy] using waitsBy_change e y.client
  othersNew k hk := by simpa [hy, beq_eq_false_iff_ne.2 (Ne.symm hk)] using newWaitsBy_change e k
  others k hk := by simpa [hy, beq_eq_false_iff_ne.2 (Ne.symm hk)] using waitsBy_change e k

/-- R27, R83: the counts move with the holds in use and the waits; a count that falls does not stand at 0. -/
theorem Change.numbers {x x' : Record} {a : HoldSlot} {b : WaitSlot} {m n p q p' q' d d' : Nat}
    (C : Change s t r x x' i a w b c m n) (L : EngineLaw s) (H : HoldsCount s t c p q) (W : WaitsCount s t c p' q' d d')
    (room : q + q' ≤ s.holdCounts.free + (p + p'))
    (hk : t.holdCounts = ⟨s.holdCounts.free + (p + p') - (q + q'), s.holdCounts.reserved + q' - p', s.holdCounts.inUse + q - p⟩)
    (hm : m = (s.session c).holdCount + (q + q') - (p + p')) (hn : n = (s.session c).waitCount + d' - d) :
    PoolLaw t ∧ CountLaw t := by
  obtain ⟨sum, held, kept⟩ := L.pool
  have counts := (countLaw_iff s).1 L.counts
  have h1 := H.inUse
  have h2 := W.reserved
  refine ⟨⟨?_, ?_, ?_⟩, (countLaw_iff t).2 fun k => ?_⟩
  · simp only [hk]; omega
  · simp only [hk]; omega
  · simp only [hk]; omega
  · obtain ⟨c1, c2⟩ := counts k
    rw [C.session]
    split
    · subst_vars
      have h3 := H.mine
      have h4 := W.mineNew
      have h5 := W.mine
      constructor <;> simp only <;> omega
    · rename_i hne
      rw [H.others k (Ne.symm hne), W.othersNew k (Ne.symm hne), W.others k (Ne.symm hne)]
      exact ⟨c1, c2⟩

end

end Sys2Proof.Machine
end

