-- ==== Sys2Proof/Proofs/Freeing.lean ====
section
/-! PROOFS. The end of a wait and of a hold keeps the laws of the engine, up to the settling of their record (R39, R40). -/

namespace Sys2Proof.Machine

open Sys2Proof

variable {s t : State} {r : Slot} {x : Record}

theorem RecordLaw.idle_of_waiter (L : RecordLaw s r x) {w : WaitIx} (hw : w ∈ x.waitQueue) : x.idleDeadline = none := by
  by_contra h
  simp [(L.idle h).2.2] at hw

theorem RecordLaw.idle_of_holder (L : RecordLaw s r x) {i : HoldIx} (hi : i ∈ x.holders) : x.idleDeadline = none := by
  by_contra h
  simp [(L.idle h).2.1] at hi

/-- A wait of the queue with another slot than w. -/
theorem mem_filter_ne {α : Type} [DecidableEq α] {l : List α} {a b : α} : a ∈ l.filter (· != b) ↔ a ∈ l ∧ a ≠ b := by
  simp [List.mem_filter]

@[simp] theorem conversion_beq_new (v : HoldHandle) : (Purpose.conversion v == Purpose.new) = false := rfl

/-! ### R40 -/

/-- The end of a NEW wait, as a change of its record. -/
theorem change_freeNew {w : WaitIx} {y : Wait} (hx : s.record y.slot = some x) (hp : y.purpose = .new) :
    Change s (s.freeWait w y) y.slot x { x with waitQueue := x.waitQueue.filter (· != w) } 0 (s.holdSlot 0) w
      ⟨(s.waitSlot w).generation, none⟩ y.client ((s.session y.client).holdCount - 1)
      ((s.session y.client).waitCount - 1) := by
  rw [freeWait_new_eq hx hp]
  exact ⟨hx, fun q => getElem_set_fin _ _ _ _, rfl, eq_ite_at s.holdSlot 0, fun v => getElem_set_fin _ _ _ _,
    fun k => getElem_set_fin _ _ _ _, rfl, rfl⟩

theorem EngineLaw.freeNew (L : EngineLaw s) {w : WaitIx} {y : Wait} (hy : s.wait w = some y) (hp : y.purpose = .new) :
    Works y.slot s (s.freeWait w y) := by
  obtain ⟨x, hx, hw⟩ := L.homeWait w y hy
  have R := L.record _ x hx
  have C := change_freeNew (w := w) hx hp
  have holds : ∀ j, (s.freeWait w y).holdSlot j = s.holdSlot j := fun j => by rw [freeWait_new_eq hx hp]; rfl
  refine C.works L (by rw [freeWait_new_eq hx hp]; exact id) (.same L hx holds rfl)
    (.one L hx C.waitSlot (fun z hz => by rw [hy] at hz; cases hz; rfl) (fun z hz => nomatch hz)
      fun v hv hne => mem_filter_ne.2 ⟨hv, hne⟩) ?_ ?_ ?_ ?_ ?_
  · refine R.remove (.refl _) List.filter_sublist (fun j hj => .inl ⟨holds j, fun h v hh hv => ?_⟩) (fun v hv => ?_)
      (R.idle_of_waiter hw)
    · obtain ⟨-, -, hmem, -, z, hz, hzp⟩ := R.conversion j hj h v hh hv
      refine mem_filter_ne.2 ⟨hmem, fun e => ?_⟩
      rw [e, hy] at hz
      cases hz
      simp [hp] at hzp
    · obtain ⟨hmem, hne⟩ := mem_filter_ne.1 hv
      refine ⟨C.otherWait hne, fun z u hz hu => (R.converting v hmem z u hz hu).2.1⟩
  · exact C.fences L.fences (by rw [freeWait_new_eq hx hp]) (.inl rfl) fun h hh => ⟨h, hh, rfl⟩
  · refine C.numbers L (.same fun j => by rw [hold_of_holdSlot (holds j)]) (.ends hy C.wait) (by omega) ?_ ?_ ?_ <;>
      simp [hp, freeWait_new_eq hx hp]
  · have D := ((deadlineLaw_iff s).1 L.deadlines).remove (.wait w)
    refine C.deadlines (D := fun q => if q = .wait w then none else s.deadlineOf q)
      (by rw [freeWait_new_eq hx hp]; exact D) rfl (if_pos rfl) ?_ fun ref _ h _ => if_neg h
    simp [State.deadlineOf, hx]
  · exact C.owners L.owners (fun h hh => .inl ⟨h, hh, rfl⟩) fun z hz => nomatch hz

/-- The end of a CONVERSION wait, as a change of its record. -/
theorem change_freeConversion {w : WaitIx} {y : Wait} {v : HoldHandle} {h : Hold} (hx : s.record y.slot = some x)
    (hp : y.purpose = .conversion v) (hh : s.hold v.index = some h) :
    Change s (s.freeWait w y) y.slot x { x with waitQueue := x.waitQueue.filter (· != w) } v.index
      ⟨(s.holdSlot v.index).generation, some { h with conversion := none }⟩ w ⟨(s.waitSlot w).generation, none⟩ y.client
      (s.session y.client).holdCount ((s.session y.client).waitCount - 1) := by
  rw [freeWait_conversion_eq hx hp hh]
  exact ⟨hx, fun q => getElem_set_fin _ _ _ _, rfl, fun j => getElem_set_fin _ _ _ _, fun v => getElem_set_fin _ _ _ _,
    fun k => getElem_set_fin _ _ _ _, rfl, rfl⟩

theorem EngineLaw.freeConverting (L : EngineLaw s) {w : WaitIx} {y : Wait} {v : HoldHandle} (hy : s.wait w = some y)
    (hp : y.purpose = .conversion v) : Works y.slot s (s.freeWait w y) := by
  obtain ⟨x, hx, hw⟩ := L.homeWait w y hy
  have R := L.record _ x hx
  obtain ⟨-, hvmem, hgen, h, hh, hconv, hcl⟩ := R.converting w hw y v hy hp
  have hslot : h.slot = y.slot := by
    obtain ⟨g, hg, e⟩ := R.holder _ hvmem
    rw [hh] at hg
    cases hg
    exact e
  have C := change_freeConversion (w := w) hx hp hh
  refine C.works L (by rw [freeWait_conversion_eq hx hp hh]; exact id)
    (.one L hx C.holdSlot (fun g hg => by rw [hh] at hg; cases hg; exact hslot)
      (fun g hg => by cases hg; exact ⟨hslot, hvmem⟩) fun j hj _ => hj)
    (.one L hx C.waitSlot (fun z hz => by rw [hy] at hz; cases hz; rfl) (fun z hz => nomatch hz)
      fun u hu hne => mem_filter_ne.2 ⟨hu, hne⟩) ?_ ?_ ?_ ?_ ?_
  · refine R.remove (.refl _) List.filter_sublist (fun j hj => ?_) (fun u hu => ?_) (R.idle_of_waiter hw)
    · by_cases e : j = v.index
      · subst e
        refine .inr ⟨h, hh, C.atHold, fun u hu z hz hzp => ?_⟩
        obtain ⟨humem, hne⟩ := mem_filter_ne.1 hu
        obtain ⟨-, -, -, g, hg, hgc, -⟩ := R.converting u humem z _ hz hzp
        have hg : s.hold v.index = some g := hg
        rw [hh] at hg
        cases hg
        have := congrArg WaitHandle.index (Option.some.inj (hconv.symm.trans hgc))
        exact hne this.symm
      · refine .inl ⟨C.otherHold e, fun g u hg hu => ?_⟩
        obtain ⟨-, -, hmem, -, z, hz, hzp⟩ := R.conversion j hj g u hg hu
        refine mem_filter_ne.2 ⟨hmem, fun e' => ?_⟩
        rw [e', hy] at hz
        cases hz
        exact e (congrArg HoldHandle.index (Purpose.conversion.inj (hzp.symm.trans hp)))
    · obtain ⟨hmem, hne⟩ := mem_filter_ne.1 hu
      refine ⟨C.otherWait hne, fun z u' hz hu' => (R.converting u hmem z u' hz hu').2.1⟩
  · exact C.fences L.fences (by rw [freeWait_conversion_eq hx hp hh]) (.inl rfl) fun g hg => by
      cases hg; exact ⟨h, hh, rfl⟩
  · refine C.numbers L (.same fun j => ?_) (.ends hy C.wait) (by simp [hp]) ?_ ?_ ?_
    · rw [C.hold]
      split
      · subst_vars; simp [hh]
      · rfl
    all_goals simp [hp, freeWait_conversion_eq hx hp hh]
  · have D := ((deadlineLaw_iff s).1 L.deadlines).remove (.wait w)
    refine C.deadlines (D := fun q => if q = .wait w then none else s.deadlineOf q)
      (by rw [freeWait_conversion_eq hx hp hh]; exact D) ?_ (if_pos rfl) ?_ fun ref _ h _ => if_neg h
    · simp [State.deadlineOf, hh]
    · simp [State.deadlineOf, hx]
  · exact C.owners L.owners (fun g hg => by cases hg; exact .inl ⟨h, hh, rfl⟩) fun z hz => nomatch hz

/-- R40: the end of a wait. -/
theorem EngineLaw.freeWait (L : EngineLaw s) {w : WaitIx} {y : Wait} (hy : s.wait w = some y) :
    Works y.slot s (s.freeWait w y) := by
  cases hp : y.purpose with
  | new => exact L.freeNew hy hp
  | conversion v => exact L.freeConverting hy hp

/-! ### R39 -/

/-- The end of a hold without a conversion, as a change of its record. -/
theorem change_freeHold {i : HoldIx} {h : Hold} (hx : s.record h.slot = some x) (hc : h.conversion = none) :
    Change s (s.freeHold i h) h.slot x { x with holders := x.holders.filter (· != i) } i
      ⟨(s.holdSlot i).generation, none⟩ 0 (s.waitSlot 0) h.client ((s.session h.client).holdCount - 1)
      (s.session h.client).waitCount := by
  rw [freeHold_eq hx hc]
  exact ⟨hx, fun q => getElem_set_fin _ _ _ _, rfl, fun j => getElem_set_fin _ _ _ _, eq_ite_at s.waitSlot 0,
    fun k => getElem_set_fin _ _ _ _, rfl, rfl⟩

theorem EngineLaw.freePlain (L : EngineLaw s) {i : HoldIx} {h : Hold} (hh : s.hold i = some h) (hc : h.conversion = none) :
    Works h.slot s (s.freeHold i h) := by
  obtain ⟨x, hx, hi⟩ := L.homeHold i h hh
  have R := L.record _ x hx
  have C := change_freeHold (i := i) hx hc
  have waits : ∀ v, (s.freeHold i h).waitSlot v = s.waitSlot v := fun v => by rw [freeHold_eq hx hc]; rfl
  refine C.works L (by rw [freeHold_eq hx hc]; exact id)
    (.one L hx C.holdSlot (fun g hg => by rw [hh] at hg; cases hg; rfl) (fun g hg => nomatch hg)
      fun j hj hne => mem_filter_ne.2 ⟨hj, hne⟩) (.same L hx waits rfl) ?_ ?_ ?_ ?_ ?_
  · refine R.remove List.filter_sublist (.refl _) (fun j hj => ?_) (fun v hv => ⟨waits v, fun z u hz hu => ?_⟩)
      (R.idle_of_holder hi)
    · obtain ⟨hmem, hne⟩ := mem_filter_ne.1 hj
      exact .inl ⟨C.otherHold hne, fun g v hg hv => (R.conversion j hmem g v hg hv).2.2.1⟩
    · obtain ⟨-, hmem, -, g, hg, hgc, -⟩ := R.converting v hv z u hz hu
      refine mem_filter_ne.2 ⟨hmem, fun e => ?_⟩
      rw [e, hh] at hg
      cases hg
      simp [hc] at hgc
  · exact C.fences L.fences (by rw [freeHold_eq hx hc]) (.inl rfl) fun g hg => nomatch hg
  · refine C.numbers L (.ends hh C.hold) (.same fun v => wait_of_waitSlot (waits v)) (by omega) ?_ ?_ ?_ <;>
      simp [freeHold_eq hx hc]
  · have D := ((deadlineLaw_iff s).1 L.deadlines).remove (.hold i)
    refine C.deadlines (D := fun q => if q = .hold i then none else s.deadlineOf q)
      (by rw [freeHold_eq hx hc]; exact D) (if_pos rfl) rfl ?_ fun ref h _ _ => if_neg h
    simp [State.deadlineOf, hx]
  · exact C.owners L.owners (fun g hg => nomatch hg) fun z hz => .inl ⟨z, hz, rfl⟩

/-- The end of a hold with a conversion, as a change of its record. -/
theorem change_freeHold_conversion {i : HoldIx} {h : Hold} {v : WaitHandle} {y : Wait} (hx : s.record h.slot = some x)
    (hc : h.conversion = some v) (hy : s.wait v.index = some y) (hslot : y.slot = h.slot) (hclient : y.client = h.client) :
    Change s (s.freeHold i h) h.slot x { x with
        holders := x.holders.filter (· != i), waitQueue := x.waitQueue.filter (· != v.index) } i
      ⟨(s.holdSlot i).generation, none⟩ v.index ⟨(s.waitSlot v.index).generation, none⟩ h.client
      ((s.session h.client).holdCount - 1) ((s.session h.client).waitCount - 1) := by
  rw [freeHold_conversion_eq hx hc hy hslot hclient]
  exact ⟨hx, fun q => getElem_set_fin _ _ _ _, rfl, fun j => getElem_set_fin _ _ _ _, fun v => getElem_set_fin _ _ _ _,
    fun k => getElem_set_fin _ _ _ _, rfl, rfl⟩

theorem EngineLaw.freeConverted (L : EngineLaw s) {i : HoldIx} {h : Hold} {v : WaitHandle} (hh : s.hold i = some h)
    (hc : h.conversion = some v) : Works h.slot s (s.freeHold i h) := by
  obtain ⟨x, hx, hi⟩ := L.homeHold i h hh
  have R := L.record _ x hx
  obtain ⟨-, -, hvmem, hgen, y, hy, hp⟩ := R.conversion i hi h v hh hc
  obtain ⟨-, -, -, g, hg, -, hcl⟩ := R.converting _ hvmem y _ hy hp
  have hclient : y.client = h.client := by
    have hg : s.hold i = some g := hg
    rw [hh] at hg
    cases hg
    exact hcl.symm
  have hslot : y.slot = h.slot := by
    obtain ⟨z, hz, e⟩ := R.waiter _ hvmem
    rw [hy] at hz
    cases hz
    exact e
  have closed := freeHold_conversion_eq (i := i) hx hc hy hslot hclient
  have C := change_freeHold_conversion (i := i) hx hc hy hslot hclient
  refine C.works L (by rw [closed]; exact id)
    (.one L hx C.holdSlot (fun g hg => by rw [hh] at hg; cases hg; rfl) (fun g hg => nomatch hg)
      fun j hj hne => mem_filter_ne.2 ⟨hj, hne⟩)
    (.one L hx C.waitSlot (fun z hz => by rw [hy] at hz; cases hz; exact hslot) (fun z hz => nomatch hz)
      fun u hu hne => mem_filter_ne.2 ⟨hu, hne⟩) ?_ ?_ ?_ ?_ ?_
  · refine R.remove List.filter_sublist List.filter_sublist (fun j hj => ?_) (fun u hu => ?_) (R.idle_of_holder hi)
    · obtain ⟨hmem, hne⟩ := mem_filter_ne.1 hj
      refine .inl ⟨C.otherHold hne, fun g u hg hu => ?_⟩
      obtain ⟨-, -, humem, -, z, hz, hzp⟩ := R.conversion j hmem g u hg hu
      refine mem_filter_ne.2 ⟨humem, fun e => ?_⟩
      rw [e, hy] at hz
      cases hz
      exact hne (congrArg HoldHandle.index (Purpose.conversion.inj (hzp.symm.trans hp)))
    · obtain ⟨humem, hne⟩ := mem_filter_ne.1 hu
      refine ⟨C.otherWait hne, fun z u' hz hu' => ?_⟩
      obtain ⟨-, hmem, -, g, hg, hgc, -⟩ := R.converting u humem z u' hz hu'
      refine mem_filter_ne.2 ⟨hmem, fun e => ?_⟩
      rw [e, hh] at hg
      cases hg
      have := congrArg WaitHandle.index (Option.some.inj (hc.symm.trans hgc))
      exact hne this.symm
  · exact C.fences L.fences (by rw [closed]) (.inl rfl) fun g hg => nomatch hg
  · have W := WaitsCount.ends hy C.wait
    rw [hclient] at W
    refine C.numbers L (.ends hh C.hold) W (by simp [hp]) ?_ ?_ ?_ <;> simp [hp, closed]
  · have D := (((deadlineLaw_iff s).1 L.deadlines).remove (.hold i)).remove (.wait v.index)
    refine C.deadlines (by rw [closed]; exact D) (by simp) (if_pos rfl) ?_ fun ref h1 h2 _ => by simp [h1, h2]
    simp [State.deadlineOf, hx]
  · exact C.owners L.owners (fun g hg => nomatch hg) fun z hz => nomatch hz

/-- R39: the end of a hold. -/
theorem EngineLaw.freeHold (L : EngineLaw s) {i : HoldIx} {h : Hold} (hh : s.hold i = some h) :
    Works h.slot s (s.freeHold i h) := by
  cases hc : h.conversion with
  | none => exact L.freePlain hh hc
  | some v => exact L.freeConverted hh hc

end Sys2Proof.Machine
end

