-- ==== Sys2Proof/Proofs/Making.lean ====
section
/-! PROOFS. The making of holds and waits, the changes of a hold and of a record's attributes, and the placing and retiring of records keep
the laws of the engine, up to the grant pass and the settling of their record (R16, R18, R20, R36, R37, R42, R45 to R47). -/

namespace Sys2Proof.Machine

open Sys2Proof

variable {s t : State} {r : Slot} {x : Record}

/-! ### A hold is made (R36) -/

/-- The immediate grant, as a change of its record. -/
theorem change_grantAtOnce (i : HoldIx) (c : Client) (m : Mode) (term : Half) (hx : s.record r = some x) :
    Change s (s.grantAtOnce i c r m term) r x { x with
        holders := x.holders ++ [i], lastFence := s.fence.next, idleDeadline := none } i
      ⟨(s.holdSlot i).generation + 1, some ⟨.active, c, r, m, s.fence.next, s.timer.clock + term.setWidth 32, none⟩⟩ 0
      (s.waitSlot 0) c ((s.session c).holdCount + 1) (s.session c).waitCount := by
  unfold State.grantAtOnce State.countImmediate
  rw [openHold_eq _ _ _ _ _ _ _ hx, testHoldMark_eq]
  exact ⟨hx, fun q => getElem_set_fin _ _ _ _, rfl, fun j => getElem_set_fin _ _ _ _, eq_ite_at s.waitSlot 0,
    fun k => getElem_set_fin _ _ _ _, rfl, rfl⟩

section
variable (i : HoldIx) (c : Client) (m : Mode) (term : Half) (hx : s.record r = some x)
include hx

theorem grantAtOnce_fence : (s.grantAtOnce i c r m term).fence = s.fence.advance := by
  unfold State.grantAtOnce State.countImmediate
  rw [openHold_eq _ _ _ _ _ _ _ hx, testHoldMark_eq]
  rfl

theorem grantAtOnce_holdCounts : (s.grantAtOnce i c r m term).holdCounts =
    ⟨s.holdCounts.free - 1, s.holdCounts.reserved, s.holdCounts.inUse + 1⟩ := by
  unfold State.grantAtOnce State.countImmediate
  rw [openHold_eq _ _ _ _ _ _ _ hx, testHoldMark_eq]
  rfl

theorem grantAtOnce_deadlines : (s.grantAtOnce i c r m term).deadlines =
    (insertEntry s.timer.clock ⟨.hold i, s.timer.clock + term.setWidth 32, false⟩ s.deadlines).filter
      fun e => e.ref != .record r := by
  unfold State.grantAtOnce State.countImmediate
  rw [openHold_eq _ _ _ _ _ _ _ hx, testHoldMark_eq]
  rfl

theorem grantAtOnce_waits : (s.grantAtOnce i c r m term).waits = s.waits := by
  unfold State.grantAtOnce State.countImmediate
  rw [openHold_eq _ _ _ _ _ _ _ hx, testHoldMark_eq]
  rfl

end

/-- R36: the immediate grant of a compatible claim to a client that has none on the record. -/
theorem EngineLaw.grantAtOnce (L : EngineLaw s) {i : HoldIx} {c : Client} {m : Mode} (term : Half)
    (hx : s.record r = some x) (hi : s.hold i = none) (hfree : s.holdCounts.free ≠ 0) (hfence : s.fence.exhausted = false)
    (compat : s.compatible x m none = true) (claims : NoClaim s x c) (served : (s.session c).state.served) :
    Works r s (s.grantAtOnce i c r m term) := by
  have C := change_grantAtOnce i c m term hx
  have waits : ∀ v, (s.grantAtOnce i c r m term).waitSlot v = s.waitSlot v := fun v => by
    unfold State.waitSlot; rw [grantAtOnce_waits i c m term hx]
  refine C.works L (fun h => absurd (h.symm.trans hfence) (by simp))
    (.one L hx C.holdSlot (fun h hh => by rw [hi] at hh; cases hh)
      (fun h hh => by cases hh; exact ⟨rfl, by simp⟩) fun j hj _ => List.mem_append_left _ hj)
    (.same L hx waits rfl) ?_ ?_ ?_ ?_ ?_
  · exact (L.record r x hx).addHold hi (C.hold i ▸ if_pos rfl) rfl rfl
      (fun _ hj => C.otherHold hj) waits compat claims
  · exact C.issues L.fences hfence (grantAtOnce_fence i c m term hx) rfl fun h hh => by cases hh; rfl
  · refine C.numbers L (.begins (h := ⟨.active, c, r, m, s.fence.next, s.timer.clock + term.setWidth 32, none⟩) hi C.hold)
      (.same fun v => wait_of_waitSlot (waits v)) (by omega) ?_ rfl rfl
    rw [grantAtOnce_holdCounts i c m term hx]
    rfl
  · have D := (((deadlineLaw_iff s).1 L.deadlines).insert (ref := .hold i) (by simp [State.deadlineOf, hi])
      s.timer.clock (s.timer.clock + term.setWidth 32)).remove (.record r)
    refine C.deadlines (by rw [grantAtOnce_deadlines i c m term hx]; exact D) (by simp) rfl (by simp)
      fun ref h1 _ h3 => by simp [h1, h3]
  · exact C.owners L.owners (fun h hh => by cases hh; exact .inr served) fun y hy => .inl ⟨y, hy, rfl⟩

/-! ### A hold changes -/

/-- R42, R46: the upgrade of the only hold of a record. -/
theorem change_upgrade {i : HoldIx} {h : Hold} (term : Half) (hh : s.hold i = some h) (hx : s.record r = some x) :
    Change s (s.upgrade i r term) r x { x with lastFence := s.fence.next } i
      ⟨(s.holdSlot i).generation, some { h with
        mode := .exclusive, fence := s.fence.next, deadline := s.timer.clock + term.setWidth 32, conversion := none }⟩ 0
      (s.waitSlot 0) h.client (s.session h.client).holdCount (s.session h.client).waitCount := by
  rw [upgrade_eq _ _ _ _ _ _ hh hx]
  exact ⟨hx, fun q => getElem_set_fin _ _ _ _, rfl, fun j => getElem_set_fin _ _ _ _, eq_ite_at s.waitSlot 0,
    eq_ite_at s.session h.client, rfl, rfl⟩

theorem EngineLaw.upgrade (L : EngineLaw s) {i : HoldIx} {h : Hold} (term : Half) (hh : s.hold i = some h)
    (hx : s.record r = some x) (hr : h.slot = r) (hc : h.conversion = none) (alone : x.holders = [i])
    (hfence : s.fence.exhausted = false) : Works r s (s.upgrade i r term) := by
  have C := change_upgrade term hh hx
  have closed := upgrade_eq s i r term h x hh hx
  have waits : ∀ v, (s.upgrade i r term).waitSlot v = s.waitSlot v := fun v => by rw [closed]; rfl
  have hi : i ∈ x.holders := by simp [alone]
  refine C.works L (fun h => absurd (h.symm.trans hfence) (by simp))
    (.one L hx C.holdSlot (fun g hg => by rw [hh] at hg; cases hg; exact hr)
      (fun g hg => by cases hg; exact ⟨hr, hi⟩) fun j hj _ => hj) (.same L hx waits rfl) ?_ ?_ ?_ ?_ ?_
  · exact (L.record r x hx).changeHold hh C.atHold rfl rfl hc.symm
      (fun _ hj => C.otherHold hj) waits (fun h => absurd rfl h) (fun _ => alone)
      (fun h => nomatch h) hi
  · exact C.issues L.fences hfence (by rw [closed]; rfl) rfl fun g hg => by cases hg; rfl
  · refine C.numbers L (.same fun j => ?_) (.same fun v => wait_of_waitSlot (waits v)) (by omega) ?_ rfl rfl
    · rw [C.hold]
      split
      · subst_vars; simp [hh]
      · rfl
    · rw [closed]; rfl
  · have D := (((deadlineLaw_iff s).1 L.deadlines).remove (.hold i)).insert (ref := .hold i) (if_pos rfl) s.timer.clock
      (s.timer.clock + term.setWidth 32)
    refine C.deadlines (by rw [closed]; exact D) (by simp) rfl (by simp [State.deadlineOf, hx])
      fun ref h1 _ _ => by simp [h1]
  · exact C.owners L.owners (fun g hg => by cases hg; exact .inl ⟨h, hh, rfl⟩) fun y hy => .inl ⟨y, hy, rfl⟩

/-- R45, R60, R66: a hold gets a state and a deadline, and its entry moves. -/
theorem retime_eq {i : HoldIx} {h : Hold} (hh : s.hold i = some h) (a : HoldState) (d : Word) :
    (s.modifyHold i fun k => { k with state := a }).setHoldDeadline i d =
    { s with
      holds := s.holds.set i ⟨(s.holdSlot i).generation, some { h with state := a, deadline := d }⟩
      deadlines := insertEntry s.timer.clock ⟨.hold i, d, false⟩ (s.deadlines.filter fun e => e.ref != .hold i) } := by
  rw [modifyHold_eq _ _ h _ hh, setHoldDeadline_eq (h := { h with state := a })]
  · simp [State.holdSlot]
  · simp [State.hold, State.holdSlot]

/-- R45, R60, R66: a hold with a conversion stays ACTIVE. -/
theorem EngineLaw.retime (L : EngineLaw s) {i : HoldIx} {h : Hold} (hh : s.hold i = some h) (a : HoldState) (d : Word)
    (ha : h.conversion ≠ none → a = .active) :
    Works h.slot s ((s.modifyHold i fun k => { k with state := a }).setHoldDeadline i d) := by
  obtain ⟨x, hx, hi⟩ := L.homeHold i h hh
  have R := L.record _ x hx
  have closed := retime_eq hh a d
  obtain ⟨t, ht⟩ : ∃ t, t = (s.modifyHold i fun k => { k with state := a }).setHoldDeadline i d := ⟨_, rfl⟩
  rw [← ht] at closed ⊢
  have C : Change s t h.slot x x i ⟨(s.holdSlot i).generation, some { h with state := a, deadline := d }⟩ 0 (s.waitSlot 0)
      h.client (s.session h.client).holdCount (s.session h.client).waitCount := by
    rw [closed]
    exact ⟨hx, fun q => hx ▸ eq_ite_at s.record h.slot q, rfl, fun j => getElem_set_fin _ _ _ _, eq_ite_at s.waitSlot 0,
      eq_ite_at s.session h.client, rfl, rfl⟩
  have waits : ∀ v, t.waitSlot v = s.waitSlot v := fun v => by rw [closed]; rfl
  refine C.works L (by rw [closed]; exact id)
    (.one L hx C.holdSlot (fun g hg => by rw [hh] at hg; cases hg; rfl)
      (fun g hg => by cases hg; exact ⟨rfl, hi⟩) fun j hj _ => hj) (.same L hx waits rfl) ?_ ?_ ?_ ?_ ?_
  · refine R.changeHold (f := x.lastFence) hh C.atHold rfl rfl rfl
      (fun _ hj => C.otherHold hj) waits (fun hc => ⟨ha hc, ?_⟩) (R.exclusive i hi h hh) .inr hi
    obtain ⟨v, hv⟩ := Option.ne_none_iff_exists'.1 hc
    exact (R.conversion i hi h v hh hv).2.1
  · exact C.fences L.fences (by rw [closed]) (.inl rfl) fun g hg => by cases hg; exact ⟨h, hh, rfl⟩
  · refine C.numbers L (.same fun j => ?_) (.same fun v => wait_of_waitSlot (waits v)) (by omega) ?_ rfl rfl
    · rw [C.hold]
      split
      · subst_vars; simp [hh]
      · rfl
    · rw [closed]; rfl
  · have D := (((deadlineLaw_iff s).1 L.deadlines).remove (.hold i)).insert (ref := .hold i) (if_pos rfl) s.timer.clock d
    refine C.deadlines (by rw [closed]; exact D) (by simp) rfl (by simp [State.deadlineOf, hx])
      fun ref h1 _ _ => by simp [h1]
  · exact C.owners L.owners (fun g hg => by cases hg; exact .inl ⟨h, hh, rfl⟩) fun y hy => .inl ⟨y, hy, rfl⟩

/-- R47: a hold of a shareable record becomes SHARED. -/
theorem EngineLaw.share (L : EngineLaw s) {i : HoldIx} {h : Hold} (hh : s.hold i = some h) (hx : s.record h.slot = some x)
    (hs : x.shareable = true) : Works h.slot s (s.modifyHold i fun k => { k with mode := .shared }) := by
  have R := L.record _ x hx
  have hi := L.mem_holders hx hh rfl
  have closed := modifyHold_eq s i h (fun k => { k with mode := .shared }) hh
  obtain ⟨t, ht⟩ : ∃ t, t = s.modifyHold i fun k => { k with mode := .shared } := ⟨_, rfl⟩
  rw [← ht] at closed ⊢
  have C : Change s t h.slot x x i ⟨(s.holdSlot i).generation, some { h with mode := .shared }⟩ 0 (s.waitSlot 0)
      h.client (s.session h.client).holdCount (s.session h.client).waitCount := by
    rw [closed]
    exact ⟨hx, fun q => hx ▸ eq_ite_at s.record h.slot q, rfl, fun j => getElem_set_fin _ _ _ _, eq_ite_at s.waitSlot 0,
      eq_ite_at s.session h.client, rfl, rfl⟩
  have waits : ∀ v, t.waitSlot v = s.waitSlot v := fun v => by rw [closed]; rfl
  refine C.works L (by rw [closed]; exact id)
    (.one L hx C.holdSlot (fun g hg => by rw [hh] at hg; cases hg; rfl)
      (fun g hg => by cases hg; exact ⟨rfl, hi⟩) fun j hj _ => hj) (.same L hx waits rfl) ?_ ?_ ?_ ?_ ?_
  · refine R.changeHold (f := x.lastFence) hh C.atHold rfl rfl rfl
      (fun _ hj => C.otherHold hj) waits (fun hc => ⟨?_, rfl⟩) (fun h => nomatch h)
      (fun _ => .inl hs) hi
    obtain ⟨v, hv⟩ := Option.ne_none_iff_exists'.1 hc
    exact (R.conversion i hi h v hh hv).1
  · exact C.fences L.fences (by rw [closed]) (.inl rfl) fun g hg => by cases hg; exact ⟨h, hh, rfl⟩
  · refine C.numbers L (.same fun j => ?_) (.same fun v => wait_of_waitSlot (waits v)) (by omega) ?_ rfl rfl
    · rw [C.hold]
      split
      · subst_vars; simp [hh]
      · rfl
    · rw [closed]; rfl
  · refine C.deadlines (D := s.deadlineOf) (by rw [closed]; exact (deadlineLaw_iff s).1 L.deadlines)
      (by simp [State.deadlineOf, hh]) rfl (by simp [State.deadlineOf, hx]) fun _ _ _ _ => rfl
  · exact C.owners L.owners (fun g hg => by cases hg; exact .inl ⟨h, hh, rfl⟩) fun y hy => .inl ⟨y, hy, rfl⟩

/-! ### A wait is made (R32, R37, R42) -/

theorem insertAfterLast_perm {α : Type} (ahead : α → Bool) (a : α) (l : List α) : (insertAfterLast ahead a l).Perm (a :: l) := by
  induction l with
  | nil => exact .refl _
  | cons x l ih =>
    unfold insertAfterLast
    split
    · exact (ih.cons x).trans (.swap a x l)
    · exact .refl _

/-- An order stays when an element joins after the last one that stays ahead of it. -/
theorem pairwise_insertAfterLast {α : Type} {R : α → α → Prop} {ahead : α → Bool} {a : α} {l : List α} (hl : l.Pairwise R)
    (front : ∀ x ∈ l, ahead x = true → R x a) (middle : ∀ x ∈ l, ∀ y ∈ l, R x y → ahead y = true → R x a)
    (back : ∀ x ∈ l, ahead x = false → R a x) : (insertAfterLast ahead a l).Pairwise R := by
  induction l with
  | nil => exact List.pairwise_singleton R a
  | cons x l ih =>
    obtain ⟨hx, hl⟩ := List.pairwise_cons.1 hl
    unfold insertAfterLast
    split
    · rename_i h
      refine List.pairwise_cons.2 ⟨fun z hz => ?_, ih hl (fun z hz => front z (.tail _ hz))
        (fun z hz y hy => middle z (.tail _ hz) y (.tail _ hy)) fun z hz => back z (.tail _ hz)⟩
      rcases List.mem_cons.1 ((insertAfterLast_perm ahead a l).mem_iff.1 hz) with rfl | hz
      · rcases Bool.or_eq_true_iff.1 h with h | h
        · exact front x (.head _) h
        · obtain ⟨y, hy, hay⟩ := List.any_eq_true.1 h
          exact middle x (.head _) y (.tail _ hy) (hx y hy) hay
      · exact hx z hz
    · rename_i h
      simp only [Bool.or_eq_true, List.any_eq_true, not_or, not_exists, not_and, Bool.not_eq_true] at h
      refine List.pairwise_cons.2 ⟨fun z hz => ?_, List.pairwise_cons.2 ⟨hx, hl⟩⟩
      rcases List.mem_cons.1 hz with rfl | hz
      · exact back z (.head _) h.1
      · exact back z (.tail _ hz) (h.2 z hz)

/-- R32: the order of a queue which a NEW wait joins. -/
theorem pairwise_staysAhead {w : WaitIx} {y : Wait} {q : List WaitIx} (hq : q.Pairwise s.mayPrecede) (hw : t.wait w = some y)
    (hp : y.purpose = .new) (same : ∀ v ∈ q, t.wait v = s.wait v) :
    (insertAfterLast (s.staysAhead y.priority) w q).Pairwise t.mayPrecede := by
  have ahead : ∀ v, s.staysAhead y.priority v = true ↔ ∃ z, s.wait v = some z ∧ (z.purpose ≠ .new ∨ y.priority ≤ z.priority) :=
    fun v => by unfold State.staysAhead; cases s.wait v <;> simp
  refine pairwise_insertAfterLast (hq.imp_of_mem fun {a b} ha hb hab z z' hz hz' => ?_) (fun v hv ha z z' hz hz' => ?_)
    (fun v hv v' hv' hvv' ha z z' hz hz' => ?_) fun v hv ha z z' hz hz' => ?_
  · exact hab z z' (same a ha ▸ hz) (same b hb ▸ hz')
  · rw [hw] at hz'
    cases hz'
    obtain ⟨u, hu, h⟩ := (ahead v).1 ha
    rw [same v hv, hu] at hz
    cases hz
    exact ⟨hp, h⟩
  · rw [hw] at hz'
    cases hz'
    obtain ⟨u, hu, h⟩ := (ahead v').1 ha
    obtain ⟨hn, h'⟩ := hvv' z u hz (by rw [same v' hv']; exact hu)
    exact ⟨hp, h'.imp_right fun h' => BitVec.le_trans (h.resolve_left fun hne => hne hn) h'⟩
  · rw [hw] at hz
    cases hz
    rw [same v hv] at hz'
    unfold State.staysAhead at ha
    simp only [hz', Bool.or_eq_false_iff, bne_eq_false_iff_eq, decide_eq_false_iff_not] at ha
    exact ⟨ha.1, .inr (BitVec.le_of_lt (BitVec.not_le.1 ha.2))⟩

end Sys2Proof.Machine
end

