-- ==== Sys2Proof/Proofs/Waiting.lean ====
section
/-! PROOFS. The making of waits (R37, R42), and the attributes, the placing and the retiring of records (R13, R14, R16, R18, R20). -/

namespace Sys2Proof.Machine

open Sys2Proof

variable {s t : State} {r : Slot} {x : Record}

/-! ### A wait is made -/

/-- The queueing of a NEW wait, as a change of its record. -/
theorem change_queueNew {w : WaitIx} {y : Wait} (hw : s.wait w = none) (hx : s.record y.slot = some x) :
    Change s (s.queueNew w y) y.slot x { x with
        waitQueue := insertAfterLast (s.staysAhead y.priority) w x.waitQueue, idleDeadline := none } 0 (s.holdSlot 0) w
      ⟨(s.waitSlot w).generation + 1, some { y with arrival := s.arrival }⟩ y.client ((s.session y.client).holdCount + 1)
      ((s.session y.client).waitCount + 1) := by
  unfold State.queueNew State.reserveHold State.countWaitBegun
  rw [openWait_eq _ _ _ _ _ hw hx, testHoldMark_eq]
  refine ⟨hx, fun q => getElem_set_fin _ _ _ _, rfl, eq_ite_at s.holdSlot 0, fun v => getElem_set_fin _ _ _ _,
    fun k => ?_, rfl, rfl⟩
  simp only [State.session, State.modifySession, State.setSessions, State.countClient, State.setLive, Vector.set_set,
    Vector.getElem_set_self, Fin.getElem_fin, State.setHoldCounts]
  exact getElem_set_fin _ _ _ _

section
variable {w : WaitIx} {y : Wait} (hw : s.wait w = none) (hx : s.record y.slot = some x)
include hw hx

theorem queueNew_holdCounts : (s.queueNew w y).holdCounts =
    ⟨s.holdCounts.free - 1, s.holdCounts.reserved + 1, s.holdCounts.inUse⟩ := by
  unfold State.queueNew State.reserveHold State.countWaitBegun
  rw [openWait_eq _ _ _ _ _ hw hx, testHoldMark_eq]
  rfl

theorem queueNew_deadlines : (s.queueNew w y).deadlines =
    (insertEntry s.timer.clock ⟨.wait w, y.deadline, false⟩ s.deadlines).filter fun e => e.ref != .record y.slot := by
  unfold State.queueNew State.reserveHold State.countWaitBegun
  rw [openWait_eq _ _ _ _ _ hw hx, testHoldMark_eq]
  rfl

theorem queueNew_holds : (s.queueNew w y).holds = s.holds := by
  unfold State.queueNew State.reserveHold State.countWaitBegun
  rw [openWait_eq _ _ _ _ _ hw hx, testHoldMark_eq]
  rfl

theorem queueNew_fence : (s.queueNew w y).fence = s.fence := by
  unfold State.queueNew State.reserveHold State.countWaitBegun
  rw [openWait_eq _ _ _ _ _ hw hx, testHoldMark_eq]
  rfl

end

/-- R37: a NEW wait is queued for a client that has no claim on the record. -/
theorem EngineLaw.queueNew (L : EngineLaw s) {w : WaitIx} {y : Wait} (hx : s.record y.slot = some x)
    (hw : s.wait w = none) (hp : y.purpose = .new) (hfree : s.holdCounts.free ≠ 0)
    (shared : x.shareable = false → y.mode = .exclusive) (claims : NoClaim s x y.client)
    (served : (s.session y.client).state.served) : Works y.slot s (s.queueNew w y) := by
  have C := change_queueNew hw hx
  have R := L.record _ x hx
  have holds : ∀ j, (s.queueNew w y).holdSlot j = s.holdSlot j := fun j => by
    unfold State.holdSlot; rw [queueNew_holds hw hx]
  have there : (s.queueNew w y).wait w = some { y with arrival := s.arrival } := congrArg WaitSlot.occupant C.atWait
  have perm := insertAfterLast_perm (s.staysAhead y.priority) w x.waitQueue
  have other : ∀ v ∈ x.waitQueue, v ≠ w := fun v hv e => by
    obtain ⟨z, hz, -⟩ := R.waiter v hv
    rw [e, hw] at hz
    cases hz
  refine C.works L (by rw [queueNew_fence hw hx]; exact id) (.same L hx holds rfl)
    (.one L hx C.waitSlot (fun z hz => by rw [hw] at hz; cases hz)
      (fun z hz => by cases hz; exact ⟨rfl, perm.mem_iff.2 (.head _)⟩) fun v hv _ => perm.mem_iff.2 (.tail _ hv))
    ?_ ?_ ?_ ?_ ?_
  · refine R.addWait ⟨hw, there, rfl, shared, claims.wait, .inl ⟨hp, claims.hold, holds⟩⟩ perm
      (fun v hv => C.otherWait hv) ?_
    exact pairwise_staysAhead (y := { y with arrival := s.arrival }) R.queue there hp
      fun v hv => wait_of_waitSlot (C.otherWait (other v hv))
  · exact C.fences L.fences (queueNew_fence hw hx) (.inl rfl) fun h hh => ⟨h, hh, rfl⟩
  · refine C.numbers L (.same fun j => by rw [hold_of_holdSlot (holds j)])
      (.begins (y := { y with arrival := s.arrival }) hw C.wait) ?_ ?_ ?_ rfl
    · simp only [hp, BEq.rfl, Bool.toNat_true]; omega
    · simp [hp, queueNew_holdCounts hw hx]
    · simp [hp]
  · have D := (((deadlineLaw_iff s).1 L.deadlines).insert (ref := .wait w) (by simp [State.deadlineOf, hw])
      s.timer.clock y.deadline).remove (.record y.slot)
    refine C.deadlines (by rw [queueNew_deadlines hw hx]; exact D) rfl (by simp) (by simp)
      fun ref _ h2 h3 => by simp [h2, h3]
  · exact C.owners L.owners (fun h hh => .inl ⟨h, hh, rfl⟩) fun z hz => by cases hz; exact .inr served

/-- R42: everything that the queueing of an upgrade does. -/
theorem change_queueUpgrade {i : HoldIx} {h : Hold} {w : WaitIx} {y : Wait} (hh : s.hold i = some h) (hw : s.wait w = none)
    (hx : s.record y.slot = some x) :
    Change s (s.queueUpgrade i w y) y.slot x { x with waitQueue := w :: x.waitQueue, idleDeadline := none } i
      ⟨(s.holdSlot i).generation, some { h with conversion := some ⟨w, (s.waitSlot w).generation + 1⟩ }⟩ w
      ⟨(s.waitSlot w).generation + 1, some { y with arrival := s.arrival }⟩ y.client (s.session y.client).holdCount
      ((s.session y.client).waitCount + 1) ∧
    (s.queueUpgrade i w y).holdCounts = s.holdCounts ∧ (s.queueUpgrade i w y).fence = s.fence ∧
    (s.queueUpgrade i w y).deadlines =
      (insertEntry s.timer.clock ⟨.wait w, y.deadline, false⟩ s.deadlines).filter fun e => e.ref != .record y.slot := by
  have open_eq := openWait_eq s w y (fun q => w :: q) x hw hx
  have handle : (s.openWait w y (fun q => w :: q)).waitHandle w = ⟨w, (s.waitSlot w).generation + 1⟩ := by
    rw [open_eq]
    simp [State.waitHandle, State.waitSlot]
  have hold : (s.openWait w y (fun q => w :: q)).hold i = some h := by rw [open_eq]; exact hh
  unfold State.queueUpgrade State.countWaitBegun
  dsimp only
  rw [handle, modifyHold_eq _ _ _ _ hold, open_eq]
  exact ⟨⟨hx, fun q => getElem_set_fin _ _ _ _, rfl, fun j => getElem_set_fin _ _ _ _, fun v => getElem_set_fin _ _ _ _,
    fun k => getElem_set_fin _ _ _ _, rfl, rfl⟩, rfl, rfl, rfl⟩

/-- R42: the upgrade of an ACTIVE SHARED hold is queued on a record whose queue has no CONVERSION. -/
theorem EngineLaw.queueUpgrade (L : EngineLaw s) {i : HoldIx} {h : Hold} {w : WaitIx} {y : Wait} (hh : s.hold i = some h)
    (hslot : h.slot = y.slot) (hclient : h.client = y.client) (hstate : h.state = .active) (hmode : h.mode = .shared)
    (hconv : h.conversion = none) (hx : s.record y.slot = some x) (hw : s.wait w = none)
    (hp : y.purpose = .conversion (s.holdHandle i)) (hm : y.mode = .exclusive)
    (none : ∀ v ∈ x.waitQueue, ∀ z, s.wait v = some z → z.purpose = .new) (served : (s.session y.client).state.served) :
    Works y.slot s (s.queueUpgrade i w y) := by
  obtain ⟨C, counts, fence, deadlines⟩ := change_queueUpgrade hh hw hx
  have R := L.record _ x hx
  have hi : i ∈ x.holders := L.mem_holders hx hh hslot
  have there : (s.queueUpgrade i w y).wait w = some { y with arrival := s.arrival } := congrArg WaitSlot.occupant C.atWait
  have handle : (s.queueUpgrade i w y).waitHandle w = ⟨w, (s.waitSlot w).generation + 1⟩ := by
    rw [State.waitHandle, C.atWait]
  have other : ∀ v ∈ x.waitQueue, v ≠ w := fun v hv e => by
    obtain ⟨z, hz, -⟩ := R.waiter v hv
    rw [e, hw] at hz
    cases hz
  refine C.works L (by rw [fence]; exact id)
    (.one L hx C.holdSlot (fun g hg => by rw [hh] at hg; cases hg; exact hslot)
      (fun g hg => by cases hg; exact ⟨hslot, hi⟩) fun j hj _ => hj)
    (.one L hx C.waitSlot (fun z hz => by rw [hw] at hz; cases hz)
      (fun z hz => by cases hz; exact ⟨rfl, .head _⟩) fun v hv _ => .tail _ hv) ?_ ?_ ?_ ?_ ?_
  · refine R.addWait (y := { y with arrival := s.arrival }) ⟨hw, there, rfl, fun _ => hm, fun v hv z hz e => ?_,
      .inr ⟨i, h, hp, hm, hi, hh, hclient, hstate, hmode, hconv, by rw [C.atHold, handle], fun j hj => C.otherHold hj⟩⟩
      (.refl _) (fun v hv => C.otherWait hv) ?_
    · have := R.both i hi v hv h z hh hz (hclient.trans e.symm)
      rw [none v hv z hz] at this
      cases this
    · refine List.pairwise_cons.2 ⟨fun v hv z z' hz hz' => ?_, R.queue.imp_of_mem fun {a b} ha hb hab z z' hz hz' => ?_⟩
      · rw [there] at hz
        cases hz
        rw [wait_of_waitSlot (C.otherWait (other v hv))] at hz'
        exact ⟨none v hv z' hz', .inl (by simp [hp])⟩
      · rw [wait_of_waitSlot (C.otherWait (other a ha))] at hz
        rw [wait_of_waitSlot (C.otherWait (other b hb))] at hz'
        exact hab z z' hz hz'
  · exact C.fences L.fences fence (.inl rfl) fun g hg => by cases hg; exact ⟨h, hh, rfl⟩
  · refine C.numbers L (.same fun j => ?_) (.begins (y := { y with arrival := s.arrival }) hw C.wait) ?_ ?_ ?_ rfl
    · rw [C.hold]
      split
      · subst_vars; simp [hh]
      · rfl
    all_goals simp [hp, counts]
  · have D := (((deadlineLaw_iff s).1 L.deadlines).insert (ref := .wait w) (by simp [State.deadlineOf, hw])
      s.timer.clock y.deadline).remove (.record y.slot)
    refine C.deadlines (by rw [deadlines]; exact D) (by simp [State.deadlineOf, hh]) (by simp) (by simp)
      fun ref _ h2 h3 => by simp [h2, h3]
  · exact C.owners L.owners (fun g hg => by cases hg; exact .inl ⟨h, hh, rfl⟩) fun z hz => by cases hz; exact .inr served

/-! ### The attributes and the idle deadline of a record -/

/-- A record of the same holds and waits gets other attributes or another idle deadline. -/
theorem EngineLaw.setAttributes (L : EngineLaw s) {x' : Record} {D : List DeadlineEntry} (hx : s.record r = some x)
    (key : x'.key = x.key) (holders : x'.holders = x.holders) (waitQueue : x'.waitQueue = x.waitQueue)
    (last : x'.lastFence = x.lastFence) (law : RecordLaw s r x')
    (deadlines : DeadlinesOf D fun q => if q = .record r then x'.idleDeadline else s.deadlineOf q) :
    Works r s { s with records := s.records.set r (some x'), deadlines := D } := by
  have C : Change s { s with records := s.records.set r (some x'), deadlines := D } r x x' 0 (s.holdSlot 0) 0 (s.waitSlot 0)
      0 (s.session 0).holdCount (s.session 0).waitCount :=
    ⟨hx, fun q => getElem_set_fin _ _ _ _, key, eq_ite_at s.holdSlot 0, eq_ite_at s.waitSlot 0, eq_ite_at s.session 0,
      rfl, rfl⟩
  refine C.works L id (.same L hx (fun _ => rfl) holders) (.same L hx (fun _ => rfl) waitQueue)
    (law.congr (fun _ _ => rfl) fun _ _ => rfl) (C.fences L.fences rfl (.inl last) fun h hh => ⟨h, hh, rfl⟩)
    (C.numbers L (.same fun _ => rfl) (.same fun _ => rfl) (by omega) rfl rfl rfl) ?_
    (C.owners L.owners (fun h hh => .inl ⟨h, hh, rfl⟩) fun y hy => .inl ⟨y, hy, rfl⟩)
  exact C.deadlines deadlines rfl rfl (if_pos rfl) fun ref _ _ h => if_neg h

/-- R18: the settling of a record. -/
theorem EngineLaw.settleIdle (L : EngineLaw s) (r : Slot) : Works r s (s.settleIdle r) := by
  cases hx : s.record r with
  | none => rw [settleIdle_of_not_idle fun x h => by rw [hx] at h; cases h]; exact .refl L
  | some x =>
    by_cases hidle : x.kind = .dynamic ∧ x.holders = [] ∧ x.waitQueue = [] ∧ x.idleDeadline = none
    · obtain ⟨hk, hh, hw, hi⟩ := hidle
      rw [settleIdle_eq hx hk hh hw hi]
      have R := L.record r x hx
      refine L.setAttributes hx rfl rfl rfl rfl { R with idle := fun _ => ⟨hk, hh, hw⟩ } ?_
      exact ((deadlineLaw_iff s).1 L.deadlines).insert (by simp [State.deadlineOf, hx, hi]) _ _
    · rw [settleIdle_of_not_idle fun z h => ?_]
      · exact .refl L
      · rw [hx] at h
        cases h
        cases hk : x.kind with
        | pinned => exact .inl rfl
        | dynamic => exact .inr (by tauto)

/-- R18: after it the record has an idle deadline if it is idle. -/
theorem settledAt_settleIdle (s : State) (r : Slot) : SettledAt (s.settleIdle r) r := by
  cases hx : s.record r with
  | none =>
    rw [settleIdle_of_not_idle fun x h => by rw [hx] at h; cases h]
    intro x h
    rw [hx] at h
    cases h
  | some x =>
    by_cases hidle : x.kind = .dynamic ∧ x.holders = [] ∧ x.waitQueue = [] ∧ x.idleDeadline = none
    · obtain ⟨hk, hh, hw, hi⟩ := hidle
      rw [settleIdle_eq hx hk hh hw hi]
      intro z hz
      obtain rfl := Option.some.inj (((getElem_set_fin s.records r r _).trans (if_pos rfl)).symm.trans hz)
      simp
    · rw [settleIdle_of_not_idle fun z h => ?_]
      · intro z hz hk hh hw hi
        rw [hx] at hz
        cases hz
        exact hidle ⟨hk, hh, hw, hi⟩
      · rw [hx] at h
        cases h
        cases hk : x.kind with
        | pinned => exact .inl rfl
        | dynamic => exact .inr (by tauto)

/-- R18: settling grants nothing and hinders no grant. -/
theorem GrantAt.settleIdle (g : GrantAt s r) : GrantAt (s.settleIdle r) r := by
  by_cases hidle : ∃ x, s.record r = some x ∧ x.kind = .dynamic ∧ x.holders = [] ∧ x.waitQueue = [] ∧ x.idleDeadline = none
  · obtain ⟨x, hx, hk, hh, hw, hi⟩ := hidle
    rw [settleIdle_eq hx hk hh hw hi]
    intro _ z w y hz hm
    obtain rfl := Option.some.inj (((getElem_set_fin s.records r r _).trans (if_pos rfl)).symm.trans hz)
    simp [State.effectiveQueue, hw] at hm
  · rw [settleIdle_of_not_idle fun x hx => ?_]
    · exact g
    · have : ¬(x.kind = .dynamic ∧ x.holders = [] ∧ x.waitQueue = [] ∧ x.idleDeadline = none) := fun h => hidle ⟨x, hx, h⟩
      cases hk : x.kind with
      | pinned => exact .inl rfl
      | dynamic => exact .inr (by tauto)

/-! ### Placing and retiring (R16, R20) -/

/-- No hold and no wait is on slot r. -/
structure Unclaimed (s : State) (r : Slot) : Prop where
  hold : ∀ i h, s.hold i = some h → h.slot ≠ r
  wait : ∀ w y, s.wait w = some y → y.slot ≠ r

/-- A slot without claims gets another record, or becomes free, and its idle entry leaves. -/
theorem EngineLaw.replace (L : EngineLaw s) (U : Unclaimed s r) (o : Option Record)
    (fresh : ∀ x, o = some x → RecordLaw s r x ∧ x.lastFence = 0 ∧ x.idleDeadline = none ∧ r ∈ s.waysOf x.key ∧
      ∀ q y, q ≠ r → s.record q = some y → y.key ≠ x.key) :
    Works r s { s with
      records := s.records.set r o, deadlines := s.deadlines.filter fun e => e.ref != .record r } := by
  obtain ⟨t, ht⟩ : ∃ t : State, t = { s with
    records := s.records.set r o, deadlines := s.deadlines.filter fun e => e.ref != .record r } := ⟨_, rfl⟩
  rw [← ht]
  have record : ∀ q, t.record q = if r = q then o else s.record q := fun q => by rw [ht]; exact getElem_set_fin _ _ _ _
  have holdSlot : ∀ i, t.holdSlot i = s.holdSlot i := fun i => by rw [ht]; rfl
  have waitSlot : ∀ w, t.waitSlot w = s.waitSlot w := fun w => by rw [ht]; rfl
  have A : AtRecord r s t := ⟨by rw [ht], by rw [ht], fun c => by rw [ht]; rfl, by rw [ht]; exact id,
    fun q hq => by rw [record, if_neg (Ne.symm hq)], fun i _ _ _ => holdSlot i, fun i _ _ _ => holdSlot i,
    fun w _ _ _ => waitSlot w, fun w _ _ _ => waitSlot w⟩
  have here : t.record r = o := by rw [record, if_pos rfl]
  have numbers : PoolLaw t ∧ CountLaw t := by
    rw [ht]
    exact ⟨⟨L.pool.sum, L.pool.inUse, L.pool.reserved⟩, ⟨L.counts.holds, L.counts.waits⟩⟩
  refine ⟨L.atRecord A (fun x hx => ?_) (fun i h hh hr => ?_) (fun w y hy hr => ?_) ?_ numbers.1 numbers.2 ?_ ?_, A⟩
  · obtain ⟨R, -, -, ways, key⟩ := fresh x (here.symm.trans hx)
    exact ⟨R.congr (fun i _ => holdSlot i) (fun w _ => waitSlot w), ways, key⟩
  · exact absurd hr (U.hold i h ((hold_of_holdSlot (holdSlot i)).symm.trans hh))
  · exact absurd hr (U.wait w y ((wait_of_waitSlot (waitSlot w)).symm.trans hy))
  · refine L.fences.of_sub (by rw [ht]) (fun i h hh => ⟨h, (hold_of_holdSlot (holdSlot i)).symm.trans hh, rfl⟩)
      fun q x hx => ?_
    rw [record] at hx
    split at hx
    · exact .inl (fresh x hx).2.1
    · exact .inr ⟨q, x, hx, rfl⟩
  · have D := ((deadlineLaw_iff s).1 L.deadlines).remove (.record r)
    refine (deadlineLaw_iff t).2 (ht ▸ D.congr fun ref => ?_)
    cases ref with
    | hold i => rfl
    | wait w => rfl
    | record q =>
      simp only [State.deadlineOf]
      rw [← ht, record]
      split
      · rename_i e
        subst e
        cases ho : o with
        | none => simp
        | some x => simp [(fresh x ho).2.2.1]
      · rename_i hne
        simp [Ne.symm hne]
  · exact L.owners.of_sub A.state A.purge (fun i h hh => .inl ⟨h, (hold_of_holdSlot (holdSlot i)).symm.trans hh, rfl⟩)
      fun w y hy => .inl ⟨y, (wait_of_waitSlot (waitSlot w)).symm.trans hy, rfl⟩

/-- R20: a record without claims is retired. -/
theorem EngineLaw.retire (L : EngineLaw s) (U : Unclaimed s r) : Works r s (s.retire r) :=
  L.replace U none fun _ h => nomatch h

/-- The law of a record that has no holds and no waits yet. -/
theorem recordLaw_fresh (hh : x.holders = []) (hw : x.waitQueue = []) (cap : 1 ≤ x.holderCap ∧ x.holderCap ≤ 8)
    (dynamic : x.kind = .dynamic → x.shareable = true ∧ x.holderCap = 8 ∧ x.maxTerm = 0) (hi : x.idleDeadline = none) :
    RecordLaw s r x := by
  constructor <;> simp_all

/-- R16: the way of a placement has no claims. -/
theorem EngineLaw.unclaimed (L : EngineLaw s)
    (h : ∀ x, s.record r = some x → x.holders = [] ∧ x.waitQueue = []) : Unclaimed s r := by
  constructor
  · rintro i g hg rfl
    obtain ⟨x, hx, hi⟩ := L.homeHold i g hg
    simp [(h x hx).1] at hi
  · rintro w y hy rfl
    obtain ⟨x, hx, hw⟩ := L.homeWait w y hy
    simp [(h x hx).2] at hw

theorem EngineLaw.unclaimed_placeFor (L : EngineLaw s) {key : Word} (h : s.placeFor key = some r) : Unclaimed s r := by
  refine L.unclaimed fun x hx => ?_
  rcases placeFor_some h with ⟨-, hn, -⟩ | ⟨-, -, d, hd, -⟩
  · rw [hx] at hn
    cases hn
  · obtain ⟨z, e, hz, he, -⟩ := idleDistance_eq_some.1 hd
    rw [hx] at hz
    cases hz
    obtain ⟨-, h1, h2⟩ := (L.record r x hx).idle (by simp [he])
    exact ⟨h1, h2⟩

/-- R16: the placing of a fresh record whose key is absent. -/
theorem EngineLaw.placeRecord (L : EngineLaw s) {key : Word} (habsent : s.lookup key = none) (h : s.placeFor key = some r)
    (hk : x.key = key) (law : RecordLaw s r x) (hf : x.lastFence = 0) (hi : x.idleDeadline = none) :
    Works r s (s.place r x) := by
  rw [place_eq]
  refine L.replace (L.unclaimed_placeFor h) (some x) fun z hz => ?_
  cases hz
  have ways : r ∈ s.waysOf x.key := by
    rw [hk]
    rcases placeFor_some h with ⟨hm, -⟩ | ⟨-, hm, -⟩ <;> exact hm
  refine ⟨law, hf, hi, ways, fun q y _ hy e => ?_⟩
  exact (lookup_none_iff s key).1 habsent q (by rw [← hk, ← e]; exact L.place q y hy) y hy (e.trans hk)

end Sys2Proof.Machine
end

