-- ==== Sys2Proof/Proofs/Passes.lean ====
section
/-! PROOFS. A grant pass keeps the laws of the engine and leaves no head that can be granted (R41, R42, R44). -/

namespace Sys2Proof.Machine

open Sys2Proof

variable {s t u : State} {r : Slot} {x : Record}

/-! ### The grant of a wait as its end and a grant at once -/

theorem SameEngine.postGranted (c : Client) (tag : Byte) (i : HoldIx) : SameEngine s (s.postGranted c tag i) := by
  unfold State.postGranted
  split
  · exact postNotice _ _ _
  · exact refl s

/-- R44: a NEW wait is granted as if it ended and its claim were granted at once. -/
theorem sameEngine_grantNew {w : WaitIx} {y : Wait} {i : HoldIx} (L : EngineLaw s) (hx : s.record y.slot = some x)
    (hy : s.wait w = some y) (hp : y.purpose = .new) (hi : s.lowestFreeHold = some i) :
    SameEngine ((s.freeWait w y).grantAtOnce i y.client y.slot y.mode (s.clampTerm y.client x y.term))
      (s.grantNew y.slot x w y) := by
  have C := change_freeNew (w := w) hx hp
  have one : 1 ≤ (s.session y.client).holdCount := by
    have W := WaitsCount.ends hy C.wait
    have := W.mineNew
    have := ((countLaw_iff s).1 L.counts y.client).1
    simp only [hp, BEq.rfl, Bool.toNat_true] at *
    omega
  unfold State.grantNew State.grantAtOnce State.countImmediate
  rw [hi]
  refine SameEngine.trans ?_ (SameEngine.postGranted y.client y.requestTag i)
  rw [openHold_eq _ _ _ _ _ _ _ C.here, freeWait_new_eq hx hp, dropWait_eq _ _ _ _ hx, testHoldMark_eq]
  dsimp only
  rw [openHold_eq (x := { x with waitQueue := x.waitQueue.filter (· != w) })
    (hx := by exact (getElem_set_fin s.records y.slot y.slot _).trans (if_pos rfl))]
  refine ⟨rfl, rfl, rfl, rfl, rfl, rfl, rfl, rfl, fun c => ?_⟩
  have here : ∀ (v : Vector Session 8) (k : Session) (d : Client),
      (v.set y.client k)[d] = if y.client = d then k else v[d] := fun v k d => getElem_set_fin v y.client d k
  simp only [State.session, State.modifySession, State.setSessions, State.countGrant, State.countClient, State.setLive,
    State.setHoldCounts, here]
  split
  · simp only [if_true]
    exact ⟨trivial, (Nat.sub_add_cancel one).symm, trivial⟩
  · exact ⟨rfl, rfl, rfl⟩

/-- R42: a CONVERSION wait is granted as if it ended and its hold were upgraded at once. -/
theorem sameEngine_grantConversion {w : WaitIx} {y : Wait} {v : HoldHandle} {h : Hold} (hx : s.record y.slot = some x)
    (hp : y.purpose = .conversion v) (hh : s.hold v.index = some h) :
    SameEngine ((s.freeWait w y).upgrade v.index y.slot (s.clampTerm y.client x y.term))
      (s.grantConversion y.slot x w y v) := by
  have C := change_freeConversion (w := w) hx hp hh
  have held : (s.freeWait w y).hold v.index = some { h with conversion := none } := congrArg HoldSlot.occupant C.atHold
  unfold State.grantConversion
  refine SameEngine.trans ?_ (SameEngine.postGranted y.client y.requestTag v.index)
  rw [upgrade_eq _ _ _ _ _ _ held C.here, freeWait_conversion_eq hx hp hh, dropWait_eq _ _ _ _ hx,
    upgrade_eq (h := h) (x := { x with waitQueue := x.waitQueue.filter (· != w) }) (hh := by exact hh)
      (hx := by exact (getElem_set_fin s.records y.slot y.slot _).trans (if_pos rfl))]
  refine ⟨rfl, rfl, ?_, rfl, rfl, rfl, rfl, rfl, fun c => ⟨rfl, rfl, rfl⟩⟩
  simp [State.countGrant, State.countClient, State.setLive, State.holdSlot]

/-! ### What a grant pass does beyond its record's laws -/

/-- From s to t no wait is new, every hold goes back to a hold or a wait of its client on its record, and no record becomes shareable or
ceases to be. -/
structure Continues (s t : State) : Prop where
  wait : ∀ w y, t.wait w = some y → s.wait w = some y
  hold : ∀ i h, t.hold i = some h → (∃ k, s.hold i = some k ∧ k.client = h.client ∧ k.slot = h.slot) ∨
    ∃ w y, s.wait w = some y ∧ y.client = h.client ∧ y.slot = h.slot
  shareable : ∀ r x', t.record r = some x' → ∃ x, s.record r = some x ∧ x'.shareable = x.shareable

theorem Continues.trans (h : Continues s t) (k : Continues t u) : Continues s u where
  wait w y hy := h.wait w y (k.wait w y hy)
  hold i g hg := by
    rcases k.hold i g hg with ⟨g', hg', e1, e2⟩ | ⟨w, y, hy, e⟩
    · rcases h.hold i g' hg' with ⟨g'', hg'', e1', e2'⟩ | ⟨w, y, hy, e1', e2'⟩
      · exact .inl ⟨g'', hg'', e1'.trans e1, e2'.trans e2⟩
      · exact .inr ⟨w, y, hy, e1'.trans e1, e2'.trans e2⟩
    · exact .inr ⟨w, y, h.wait w y hy, e⟩
  shareable r x hx := by
    obtain ⟨x', hx', e⟩ := k.shareable r x hx
    obtain ⟨x'', hx'', e'⟩ := h.shareable r x' hx'
    exact ⟨x'', hx'', e.trans e'⟩

theorem SameEngine.continues (h : SameEngine s t) : Continues s t where
  wait w _ hy := h.wait w ▸ hy
  hold i g hg := .inl ⟨g, h.hold i ▸ hg, rfl, rfl⟩
  shareable r x hx := ⟨x, h.record r ▸ hx, rfl⟩

/-- A grant pass also leaves the waits of PURGING clients and every hold that has no conversion. -/
structure Passed (s t : State) : Prop where
  continues : Continues s t
  state : ∀ c : Client, (t.session c).state = (s.session c).state
  purging : ∀ w y, s.wait w = some y → (s.session y.client).state = .purging → t.wait w = some y
  stays : ∀ i h, s.hold i = some h → h.conversion = none → t.hold i = some h

theorem Passed.trans (h : Passed s t) (k : Passed t u) : Passed s u where
  continues := h.continues.trans k.continues
  state c := (k.state c).trans (h.state c)
  purging w y hy hc := k.purging w y (h.purging w y hy hc) ((h.state _).trans hc)
  stays i g hg hc := k.stays i g (h.stays i g hg hc) hc

theorem SameEngine.passed (h : SameEngine s t) : Passed s t where
  continues := h.continues
  state := h.state
  purging w _ hy _ := (h.wait w).trans hy
  stays i _ hg _ := (h.hold i).trans hg

/-! ### The grant of a head (R42, R44) -/

/-- After a grant in slot r the record has a holder, and its queue has lost w. -/
def HeadGranted (t : State) (r : Slot) (x : Record) (w : WaitIx) : Prop :=
  ∃ x', t.record r = some x' ∧ x'.holders ≠ [] ∧ x'.waitQueue = x.waitQueue.filter (· != w)

/-- R74: the client of a wait of the effective queue is ACTIVE or QUERY_ONLY. -/
theorem EngineLaw.served (L : EngineLaw s) {w : WaitIx} {y : Wait} (hy : s.wait w = some y)
    (hn : (s.session y.client).state ≠ .purging) : (s.session y.client).state.served := by
  obtain ⟨h1, h2⟩ := L.owners.wait w y hy
  unfold ClientState.served
  cases h : (s.session y.client).state <;> simp_all

/-- R27: a NEW wait has a hold slot reserved, so one is FREE. -/
theorem EngineLaw.lowestFreeHold_ne_none (L : EngineLaw s) {w : WaitIx} {y : Wait} (hy : s.wait w = some y)
    (hp : y.purpose = .new) : s.lowestFreeHold ≠ none := by
  intro h
  have full : s.holdsInUse = 256 := by
    unfold State.holdsInUse
    rw [List.countP_eq_length.2 fun i hi => ?_, List.length_finRange]
    have := List.find?_eq_none.1 h i hi
    simpa [Option.isSome_iff_ne_none] using this
  have some : 0 < s.newWaits := List.countP_pos_iff.2 ⟨w, List.mem_finRange w, by simp [hy, hp]⟩
  have h1 := L.pool.sum
  have h2 := L.pool.inUse
  have h3 := L.pool.reserved
  omega

theorem EngineLaw.grantNew (L : EngineLaw s) {w : WaitIx} {y : Wait} (hx : s.record y.slot = some x) (hy : s.wait w = some y)
    (hn : (s.session y.client).state ≠ .purging) (hp : y.purpose = .new) (compat : s.waitCompatible x y = true)
    (hfence : s.fence.exhausted = false) :
    Works y.slot s (s.grantNew y.slot x w y) ∧ Passed s (s.grantNew y.slot x w y) ∧
      HeadGranted (s.grantNew y.slot x w y) y.slot x w := by
  obtain ⟨i, hi⟩ := Option.ne_none_iff_exists'.1 (L.lowestFreeHold_ne_none hy hp)
  have free : s.hold i = none := ((lowestFreeHold_eq_some s i).1 hi).1
  have R := L.record _ x hx
  have hw : w ∈ x.waitQueue := L.mem_waitQueue hx hy rfl
  have S := sameEngine_grantNew L hx hy hp hi
  have W1 := L.freeNew hy hp
  have C1 := change_freeNew (w := w) hx hp
  have holds : ∀ j, (s.freeWait w y).hold j = s.hold j := fun j => by
    rw [C1.hold]; exact (eq_ite_at s.hold 0 j).symm
  have C2 := change_grantAtOnce i y.client y.mode (s.clampTerm y.client x y.term) C1.here
  have W2 := W1.law.grantAtOnce (m := y.mode) (c := y.client) (s.clampTerm y.client x y.term) C1.here
    ((holds i).trans free) (by rw [freeWait_new_eq hx hp]; simp) (by rw [freeWait_new_eq hx hp]; exact hfence) ?_ ⟨?_, ?_⟩
    (C1.state _ ▸ L.served hy hn)
  · have waits : ∀ v, ((s.freeWait w y).grantAtOnce i y.client y.slot y.mode (s.clampTerm y.client x y.term)).wait v =
        if w = v then none else s.wait v := fun v => by
      rw [C2.wait, ← C1.wait]; exact (eq_ite_at (s.freeWait w y).wait 0 v).symm
    refine ⟨(W1.trans W2).trans (S.works W2.law), ?_, _, (S.record _).trans C2.here, by simp, rfl⟩
    refine Passed.trans ⟨⟨fun v z hz => ?_, fun j h hh => ?_, fun q z hz => ?_⟩, fun c => ?_, fun v z hz hc => ?_,
      fun j h hh _ => ?_⟩ S.passed
    · rw [waits] at hz
      split at hz
      · cases hz
      · exact hz
    · rw [C2.hold] at hh
      split at hh
      · cases hh
        exact .inr ⟨w, y, hy, rfl, rfl⟩
      · exact .inl ⟨h, holds j ▸ hh, rfl, rfl⟩
    · rw [C2.record] at hz
      split at hz
      · subst_vars
        cases hz
        exact ⟨x, hx, rfl⟩
      · rename_i hne
        rw [C1.record, if_neg hne] at hz
        exact ⟨z, hz, rfl⟩
    · exact (C2.state c).trans (C1.state c)
    · rw [waits, if_neg, hz]
      rintro rfl
      rw [hy] at hz
      cases hz
      exact hn hc
    · rw [C2.hold, if_neg, holds, hh]
      rintro rfl
      rw [free] at hh
      cases hh
  · rw [State.waitCompatible, hp] at compat
    have shared : (s.freeWait w y).isShared = s.isShared := funext fun j => isShared_congr (holds j)
    unfold State.compatible at compat ⊢
    rw [shared]
    exact compat
  · intro j hj h hh e
    have := R.both j hj w hw h y (holds j ▸ hh) hy e
    simp [hp] at this
  · intro v hv z hz e
    obtain ⟨hmem, hne⟩ := mem_filter_ne.1 hv
    rw [C1.wait, if_neg (Ne.symm hne)] at hz
    exact hne (R.oneWait v hmem w hw z y hz hy e)

theorem EngineLaw.grantConversion (L : EngineLaw s) {w : WaitIx} {y : Wait} {v : HoldHandle} (hx : s.record y.slot = some x)
    (hy : s.wait w = some y) (hn : (s.session y.client).state ≠ .purging) (hp : y.purpose = .conversion v)
    (compat : s.waitCompatible x y = true) (hfence : s.fence.exhausted = false) :
    Works y.slot s (s.grantConversion y.slot x w y v) ∧ Passed s (s.grantConversion y.slot x w y v) ∧
      HeadGranted (s.grantConversion y.slot x w y v) y.slot x w := by
  have R := L.record _ x hx
  have hw : w ∈ x.waitQueue := L.mem_waitQueue hx hy rfl
  obtain ⟨hm, hvmem, -, h, hh, hconv, hcl⟩ := R.converting w hw y v hy hp
  have hslot : h.slot = y.slot := by
    obtain ⟨g, hg, e⟩ := R.holder _ hvmem
    rw [hh] at hg
    cases hg
    exact e
  have alone : x.holders = [v.index] := by
    rw [State.waitCompatible, hm, hp] at compat
    have all := (compatible_exclusive_some s x v.index).1 compat
    have once := R.holderOnce
    match hl : x.holders with
    | [] => simp [hl] at hvmem
    | [j] => rw [all j (by simp [hl])]
    | j :: k :: rest =>
      rw [hl] at once
      have e : j = k := (all j (by simp [hl])).trans (all k (by simp [hl])).symm
      simp [e] at once
  have S := sameEngine_grantConversion (w := w) hx hp hh
  have W1 := L.freeConverting hy hp
  have C1 := change_freeConversion (w := w) hx hp hh
  have held : (s.freeWait w y).hold v.index = some { h with conversion := none } := congrArg HoldSlot.occupant C1.atHold
  have C2 := change_upgrade (s.clampTerm y.client x y.term) held C1.here
  have W2 := W1.law.upgrade (s.clampTerm y.client x y.term) held C1.here hslot rfl alone
    (by rw [freeWait_conversion_eq hx hp hh]; exact hfence)
  have waits : ∀ u, ((s.freeWait w y).upgrade v.index y.slot (s.clampTerm y.client x y.term)).wait u =
      if w = u then none else s.wait u := fun u => by
    rw [C2.wait, ← C1.wait]; exact (eq_ite_at (s.freeWait w y).wait 0 u).symm
  refine ⟨(W1.trans W2).trans (S.works W2.law), ?_, _, (S.record _).trans C2.here, by simp [alone], rfl⟩
  refine Passed.trans ⟨⟨fun u z hz => ?_, fun j g hg => ?_, fun q z hz => ?_⟩, fun c => ?_, fun u z hz hc => ?_,
    fun j g hg hgc => ?_⟩ S.passed
  · rw [waits] at hz
    split at hz
    · cases hz
    · exact hz
  · rw [C2.hold] at hg
    split at hg
    · subst_vars
      cases hg
      exact .inl ⟨h, hh, rfl, rfl⟩
    · rename_i hne
      rw [C1.hold, if_neg hne] at hg
      exact .inl ⟨g, hg, rfl, rfl⟩
  · rw [C2.record] at hz
    split at hz
    · subst_vars
      cases hz
      exact ⟨x, hx, rfl⟩
    · rename_i hne
      rw [C1.record, if_neg hne] at hz
      exact ⟨z, hz, rfl⟩
  · exact (C2.state c).trans (C1.state c)
  · rw [waits, if_neg, hz]
    rintro rfl
    rw [hy] at hz
    cases hz
    exact hn hc
  · have hne : v.index ≠ j := by
      rintro rfl
      rw [hh] at hg
      cases hg
      simp [hconv] at hgc
    rw [C2.hold, if_neg hne, C1.hold, if_neg hne]
    exact hg

/-- R41: the grant of a head that is compatible. -/
theorem EngineLaw.grantHead (L : EngineLaw s) {w : WaitIx} {y : Wait} (hx : s.record r = some x)
    (hw : (s.effectiveQueue x).head? = some w) (hy : s.wait w = some y) (compat : s.waitCompatible x y = true)
    (hfence : s.fence.exhausted = false) :
    Works r s (s.grantHead r x w y) ∧ Passed s (s.grantHead r x w y) ∧ HeadGranted (s.grantHead r x w y) r x w := by
  obtain ⟨hmem, z, hz, hn⟩ := (mem_effectiveQueue s x w).1 (List.mem_of_mem_head? hw)
  obtain rfl := Option.some.inj (hy.symm.trans hz)
  obtain ⟨z, hz, rfl⟩ := (L.record r x hx).waiter w hmem
  obtain rfl := Option.some.inj (hy.symm.trans hz)
  unfold State.grantHead
  split
  · exact L.grantNew hx hy hn ‹_› compat hfence
  · exact L.grantConversion hx hy hn ‹_› compat hfence

/-! ### The grant pass (R41) -/

theorem queueLength_of_record (hx : s.record r = some x) : s.queueLength r = x.waitQueue.length := by
  unfold State.queueLength
  rw [hx]

theorem grantPassLoop_keeps (r : Slot) (n : Nat) (s : State) (L : EngineLaw s) (hn : s.queueLength r ≤ n) :
    Works r s (grantPassLoop r n s) ∧ Passed s (grantPassLoop r n s) ∧ GrantAt (grantPassLoop r n s) r ∧
      (SettledAt s r → SettledAt (grantPassLoop r n s) r) := by
  induction n generalizing s with
  | zero =>
    refine ⟨.refl L, (SameEngine.refl s).passed, fun _ x w y hx hw hy => ?_, id⟩
    have : x.waitQueue = [] := List.length_eq_zero_iff.1 (Nat.le_zero.1 (queueLength_of_record hx ▸ hn))
    simp [State.effectiveQueue, this] at hw
  | succ n ih =>
    have stop : (∀ x w y, s.record r = some x → (s.effectiveQueue x).head? = some w → s.wait w = some y →
        s.waitCompatible x y = false) → Works r s s ∧ Passed s s ∧ GrantAt s r ∧ (SettledAt s r → SettledAt s r) :=
      fun h => ⟨.refl L, (SameEngine.refl s).passed, fun _ => h, id⟩
    unfold grantPassLoop
    split
    · exact stop fun x w y hx => by simp_all
    · rename_i x hx
      split
      · exact stop fun z w y hz hw => by simp_all
      · rename_i w rest hq
        have hw : (s.effectiveQueue x).head? = some w := by simp [hq]
        split
        · exact stop fun z v y hz hv => by simp_all
        · rename_i y hy
          split
          · rename_i hc
            refine stop fun z v y' hz hv hy' => ?_
            obtain rfl := Option.some.inj (hx.symm.trans hz)
            obtain rfl := Option.some.inj (hw.symm.trans hv)
            obtain rfl := Option.some.inj (hy.symm.trans hy')
            exact hc
          · rename_i hc
            have hc : s.waitCompatible x y = true := by simpa using hc
            split
            · rename_i he
              have S : SameEngine s (s.raise .fenceExhausted) := .raise _
              exact ⟨S.works L, S.passed, fun h => absurd (he.symm.trans h) (by simp), S.settledAt⟩
            · rename_i he
              obtain ⟨W, P, x', hx', hholders, hqueue⟩ := L.grantHead hx hw hy hc (by simpa using he)
              have short : (s.grantHead r x w y).queueLength r ≤ n := by
                have hmem := ((mem_effectiveQueue s x w).1 (List.mem_of_mem_head? hw)).1
                have : (x.waitQueue.filter (· != w)).length < x.waitQueue.length :=
                  List.length_filter_lt_length_iff_exists.2 ⟨w, hmem, by simp⟩
                rw [queueLength_of_record hx] at hn
                rw [queueLength_of_record hx', hqueue]
                omega
              obtain ⟨W', P', G, S⟩ := ih _ W.law short
              refine ⟨W.trans W', P.trans P', G, fun _ => S fun z hz _ hh => ?_⟩
              rw [hx'] at hz
              cases hz
              exact absurd hh hholders

/-- R41: a grant pass keeps the laws of the engine and leaves no head that can be granted; a settled record stays settled. -/
theorem EngineLaw.grantPass (L : EngineLaw s) (r : Slot) : Works r s (s.grantPass r) ∧ Passed s (s.grantPass r) ∧
    GrantAt (s.grantPass r) r ∧ (SettledAt s r → SettledAt (s.grantPass r) r) :=
  grantPassLoop_keeps r _ s L le_rfl

theorem passed_settleIdle (s : State) (r : Slot) : Passed s (s.settleIdle r) := by
  by_cases hidle : ∃ x, s.record r = some x ∧ x.kind = .dynamic ∧ x.holders = [] ∧ x.waitQueue = [] ∧ x.idleDeadline = none
  · obtain ⟨x, hx, hk, hh, hw, hi⟩ := hidle
    rw [settleIdle_eq hx hk hh hw hi]
    refine ⟨⟨fun _ _ h => h, fun i g hg => .inl ⟨g, hg, rfl, rfl⟩, fun q z hz => ?_⟩, fun _ => rfl, fun _ _ h _ => h,
      fun _ _ h _ => h⟩
    have := (getElem_set_fin s.records r q _).symm.trans hz
    split at this
    · subst_vars
      cases this
      exact ⟨x, hx, rfl⟩
    · exact ⟨z, this, rfl⟩
  · rw [settleIdle_of_not_idle fun x hx => ?_]
    · exact (SameEngine.refl s).passed
    · have : ¬(x.kind = .dynamic ∧ x.holders = [] ∧ x.waitQueue = [] ∧ x.idleDeadline = none) := fun h => hidle ⟨x, hx, h⟩
      cases hk : x.kind with
      | pinned => exact .inl rfl
      | dynamic => exact .inr (by tauto)

/-- R39 steps 6 and 7, R40 steps 7 and 8. -/
theorem EngineLaw.settleRecord (L : EngineLaw s) (r : Slot) : Works r s (s.settleRecord r) ∧ Passed s (s.settleRecord r) ∧
    GrantAt (s.settleRecord r) r ∧ SettledAt (s.settleRecord r) r := by
  obtain ⟨W, P, G, -⟩ := L.grantPass r
  exact ⟨W.trans (W.law.settleIdle r), P.trans (passed_settleIdle _ r), G.settleIdle, settledAt_settleIdle _ r⟩

end Sys2Proof.Machine
end

