-- ==== Sys2Proof/Proofs/Endings.lean ====
section
/-! PROOFS. A hold or a wait that ends, and displacement, leave the laws of the engine in force (R38 to R40); what a client that displaces
others keeps (R38, R95, R101). -/

namespace Sys2Proof.Machine

open Sys2Proof

variable {s t : State} {r : Slot}

/-- A change of one record and its settling. -/
theorem EngineGood.settle (G : EngineGood s) (W : Works r s t) : EngineGood (t.settleRecord r) := by
  obtain ⟨W', -, hg, hs⟩ := W.law.settleRecord r
  exact (W.trans W').good G hg hs

/-- A change of one record that leaves it settled, and a grant pass. -/
theorem EngineGood.pass (G : EngineGood s) (W : Works r s t) (hs : SettledAt t r) : EngineGood (t.grantPass r) := by
  obtain ⟨W', -, hg, hs'⟩ := W.law.grantPass r
  exact (W.trans W').good G hg (hs' hs)

theorem SettledAt.of_holders {x : Record} (hx : t.record r = some x) (hh : x.holders ≠ []) : SettledAt t r := by
  intro z hz _ hn
  rw [hx] at hz
  cases hz
  exact absurd hn hh

theorem SettledAt.of_waitQueue {x : Record} (hx : t.record r = some x) (hw : x.waitQueue ≠ []) : SettledAt t r := by
  intro z hz _ _ hn
  rw [hx] at hz
  cases hz
  exact absurd hn hw

/-! ### The end of a hold and of a wait -/

theorem EngineGood.endHold (G : EngineGood s) {i : HoldIx} {h : Hold} (hh : s.hold i = some h) (cause : LostCause) :
    EngineGood (s.endHold i h cause) := by
  have W := G.law.freeHold hh
  have S : SameEngine (s.freeHold i h) ((s.freeHold i h).postLost (s.holdHandle i) h cause) := .postNotice _ _ _
  exact G.settle (W.trans (S.works W.law))

theorem EngineGood.endWait (G : EngineGood s) {w : WaitIx} {y : Wait} (hy : s.wait w = some y) (cause : WaitEndCause) :
    EngineGood (s.endWait w y cause) := by
  have W := G.law.freeWait hy
  have S : SameEngine (s.freeWait w y) ((s.freeWait w y).postWaitEnded (s.waitHandle w) y cause) := .postNotice _ _ _
  exact G.settle (W.trans (S.works W.law))

/-! ### What an end leaves -/

theorem Change.continues {x x' : Record} {i : HoldIx} {a : HoldSlot} {w : WaitIx} {b : WaitSlot} {c : Client} {m n : Nat}
    (C : Change s t r x x' i a w b c m n) (sh : x'.shareable = x.shareable)
    (ha : ∀ h, a.occupant = some h → ∃ k, s.hold i = some k ∧ k.client = h.client ∧ k.slot = h.slot)
    (hb : ∀ y, b.occupant = some y → s.wait w = some y) : Continues s t where
  wait v y hy := by
    rw [C.wait] at hy
    split at hy
    · subst_vars; exact hb y hy
    · exact hy
  hold j h hh := by
    rw [C.hold] at hh
    split at hh
    · subst_vars; exact .inl (ha h hh)
    · exact .inl ⟨h, hh, rfl, rfl⟩
  shareable q z hz := by
    rw [C.record] at hz
    split at hz
    · subst_vars
      cases hz
      exact ⟨x, C.before, sh⟩
    · exact ⟨z, hz, rfl⟩

/-- R39: the end of a hold frees its slot, makes no claim, and leaves the other holds. -/
theorem EngineLaw.freeHold_rest (L : EngineLaw s) {i : HoldIx} {h : Hold} (hh : s.hold i = some h) :
    Continues s (s.freeHold i h) ∧ (s.freeHold i h).hold i = none ∧ ∀ j, j ≠ i → (s.freeHold i h).hold j = s.hold j := by
  obtain ⟨x, hx, hi⟩ := L.homeHold i h hh
  have R := L.record _ x hx
  cases hc : h.conversion with
  | none =>
    have C := change_freeHold (i := i) hx hc
    exact ⟨C.continues rfl (fun _ h => nomatch h) (fun _ h => h), congrArg HoldSlot.occupant C.atHold,
      fun j hj => hold_of_holdSlot (C.otherHold hj)⟩
  | some v =>
    obtain ⟨-, -, hvmem, -, y, hy, hp⟩ := R.conversion i hi h v hh hc
    obtain ⟨-, -, -, g, hg, -, hcl⟩ := R.converting _ hvmem y _ hy hp
    obtain rfl : h = g := Option.some.inj (hh.symm.trans hg)
    obtain ⟨z, hz, hslot⟩ := R.waiter _ hvmem
    obtain rfl := Option.some.inj (hy.symm.trans hz)
    have C := change_freeHold_conversion (i := i) hx hc hy hslot hcl.symm
    exact ⟨C.continues rfl (fun _ h => nomatch h) (fun _ h => nomatch h), congrArg HoldSlot.occupant C.atHold,
      fun j hj => hold_of_holdSlot (C.otherHold hj)⟩

/-- R40: the end of a wait frees its slot, makes no claim, and leaves the holds on their records. -/
theorem EngineLaw.freeWait_rest (L : EngineLaw s) {w : WaitIx} {y : Wait} (hy : s.wait w = some y) :
    Continues s (s.freeWait w y) ∧ (s.freeWait w y).wait w = none ∧
      ∀ j g, (s.freeWait w y).hold j = some g → ∃ k, s.hold j = some k ∧ k.slot = g.slot := by
  obtain ⟨x, hx, hw⟩ := L.homeWait w y hy
  have R := L.record _ x hx
  cases hp : y.purpose with
  | new =>
    have C := change_freeNew (w := w) hx hp
    exact ⟨C.continues rfl (fun h hh => ⟨h, hh, rfl, rfl⟩) (fun _ h => nomatch h), congrArg WaitSlot.occupant C.atWait,
      fun j g hg => ⟨g, by rw [← hg, C.hold]; exact eq_ite_at s.hold 0 j, rfl⟩⟩
  | conversion v =>
    obtain ⟨-, -, -, h, hh, -⟩ := R.converting w hw y v hy hp
    have C := change_freeConversion (w := w) hx hp hh
    refine ⟨C.continues rfl (fun g hg => by cases hg; exact ⟨h, hh, rfl, rfl⟩) (fun _ h => nomatch h),
      congrArg WaitSlot.occupant C.atWait, fun j g hg => ?_⟩
    rw [C.hold] at hg
    split at hg
    · subst_vars
      cases hg
      exact ⟨h, hh, rfl⟩
    · exact ⟨g, hg, rfl⟩

/-- R38, R39: the end of a hold with its notice and the settling of its record. -/
theorem EngineLaw.endHold_rest (L : EngineLaw s) {i : HoldIx} {h : Hold} (hh : s.hold i = some h) (cause : LostCause) :
    Continues s (s.endHold i h cause) ∧
      ∀ j k, j ≠ i → s.hold j = some k → k.conversion = none → (s.endHold i h cause).hold j = some k := by
  obtain ⟨C, -, other⟩ := L.freeHold_rest hh
  have W := L.freeHold hh
  have S : SameEngine (s.freeHold i h) ((s.freeHold i h).postLost (s.holdHandle i) h cause) := .postNotice _ _ _
  obtain ⟨-, P, -⟩ := (S.engineLaw W.law).settleRecord h.slot
  exact ⟨(C.trans S.continues).trans P.continues,
    fun j k hj hk hc => P.stays j k (S.passed.stays j k ((other j hj).trans hk) hc) hc⟩

/-! ### Displacement (R38) -/

theorem EngineGood.displaceOne (G : EngineGood s) (i : HoldIx) : EngineGood (s.displaceOne i) ∧
    Continues s (s.displaceOne i) ∧
      ∀ j k, j ≠ i → s.hold j = some k → k.conversion = none → (s.displaceOne i).hold j = some k := by
  unfold State.displaceOne
  split
  · rename_i h hh
    exact ⟨G.endHold hh _, G.law.endHold_rest hh _⟩
  · exact ⟨G, (SameEngine.refl s).continues, fun _ _ _ hk _ => hk⟩

theorem EngineGood.displaceAll (G : EngineGood s) (is : List HoldIx) : EngineGood (is.foldl State.displaceOne s) ∧
    Continues s (is.foldl State.displaceOne s) ∧
      ∀ j k, j ∉ is → s.hold j = some k → k.conversion = none → (is.foldl State.displaceOne s).hold j = some k := by
  induction is generalizing s with
  | nil => exact ⟨G, (SameEngine.refl s).continues, fun _ _ _ hk _ => hk⟩
  | cons i is ih =>
    obtain ⟨G1, C1, H1⟩ := G.displaceOne i
    obtain ⟨G2, C2, H2⟩ := ih G1
    refine ⟨G2, C1.trans C2, fun j k hj hk hc => ?_⟩
    obtain ⟨hne, hj⟩ := List.ne_and_not_mem_of_not_mem_cons hj
    exact H2 j k hj (H1 j k hne hk hc) hc

theorem not_mem_displaced {c : Client} {x : Record} {m : Mode} {i : HoldIx} {h : Hold} (hh : s.hold i = some h)
    (hc : h.client = c) : i ∉ s.displaced c x m := by
  have out : i ∉ x.holders.filter (s.isLapsedOfOther c) := fun hm => by
    have := (List.mem_filter.1 hm).2
    simp [State.isLapsedOfOther, hh, hc] at this
  unfold State.displaced
  cases m with
  | exclusive => exact out
  | shared =>
    dsimp only
    split
    · exact fun hm => out (List.mem_of_mem_filter hm)
    · split
      · exact fun hm => out (List.mem_of_mem_take hm)
      · simp

/-- R38: displacement by client c keeps the laws, makes no claim, and leaves a hold of c that has no conversion. -/
theorem EngineGood.displace (G : EngineGood s) (c : Client) (r : Slot) (m : Mode) : EngineGood (s.displace c r m) ∧
    Continues s (s.displace c r m) ∧
      ∀ i h, s.hold i = some h → h.client = c → h.conversion = none → (s.displace c r m).hold i = some h := by
  unfold State.displace
  split
  · rename_i x hx
    obtain ⟨G', C, H⟩ := G.displaceAll (s.displaced c x m)
    exact ⟨G', C, fun i h hh hc => H i h (not_mem_displaced hh hc) hh⟩
  · exact ⟨G, (SameEngine.refl s).continues, fun _ _ hh _ _ => hh⟩

/-- Client c has no claim on the record in slot r, whatever record that is. -/
structure NoClaimAt (s : State) (r : Slot) (c : Client) : Prop where
  hold : ∀ i h, s.hold i = some h → h.slot = r → h.client ≠ c
  wait : ∀ w y, s.wait w = some y → y.slot = r → y.client ≠ c

theorem NoClaimAt.continues {c : Client} (N : NoClaimAt s r c) (C : Continues s t) : NoClaimAt t r c where
  hold i h hh hr hc := by
    rcases C.hold i h hh with ⟨k, hk, e1, e2⟩ | ⟨w, y, hy, e1, e2⟩
    · exact N.hold i k hk (e2.trans hr) (e1.trans hc)
    · exact N.wait w y hy (e2.trans hr) (e1.trans hc)
  wait w y hy := N.wait w y (C.wait w y hy)

theorem NoClaimAt.noClaim {c : Client} {x : Record} (N : NoClaimAt s r c) (L : RecordLaw s r x) : NoClaim s x c where
  hold i hi h hh := by
    obtain ⟨g, hg, hr⟩ := L.holder i hi
    rw [hh] at hg
    cases hg
    exact N.hold i h hh hr
  wait w hw y hy := by
    obtain ⟨z, hz, hr⟩ := L.waiter w hw
    rw [hy] at hz
    cases hz
    exact N.wait w y hy hr

/-- R29: what the lookups of an own hold and an own wait mean under the laws. -/
theorem EngineLaw.noClaimAt (L : EngineLaw s) {c : Client} {x : Record} (hx : s.record r = some x)
    (hh : s.holdOf c x = none) (hw : s.waitOf c x = none) : NoClaimAt s r c where
  hold i h hi hr := (holdOf_none_iff s c x).1 hh i (L.mem_holders hx hi hr) h hi
  wait w y hy hr := (waitOf_none_iff s c x).1 hw w (L.mem_waitQueue hx hy hr) y hy

end Sys2Proof.Machine
end

