-- ==== Sys2Proof/Proofs/Decisions.lean ====
section
/-! PROOFS. Every decision of a request leaves the laws of the engine in force (R95, R101 to R109). -/

namespace Sys2Proof.Machine

open Sys2Proof

variable {s t : State} {r : Slot} {x : Record}

/-! ### Handles (R25) -/

theorem namedHold_some {a g : Byte} {i : HoldIx} {h : Hold} (e : s.namedHold a g = some (i, h)) : s.hold i = some h := by
  unfold State.namedHold at e
  dsimp only at e
  split at e
  · split at e
    · cases e; assumption
    · cases e
  · cases e

theorem namedWait_some {a g : Byte} {w : WaitIx} {y : Wait} (e : s.namedWait a g = some (w, y)) : s.wait w = some y := by
  unfold State.namedWait at e
  split at e
  · dsimp only at e
    split at e
    · split at e
      · cases e; assumption
      · cases e
    · cases e
  · cases e

theorem ownNamedHold_some {c : Client} {a g : Byte} {i : HoldIx} {h : Hold} (e : s.ownNamedHold c a g = some (i, h)) :
    s.hold i = some h ∧ h.client = c := by
  unfold State.ownNamedHold at e
  split at e
  · rename_i j k hn
    split at e
    · cases e
      exact ⟨namedHold_some hn, ‹_›⟩
    · cases e
  · cases e

theorem ownNamedWait_some {c : Client} {a g : Byte} {w : WaitIx} {y : Wait} (e : s.ownNamedWait c a g = some (w, y)) :
    s.wait w = some y ∧ y.client = c := by
  unfold State.ownNamedWait at e
  split at e
  · rename_i j k hn
    split at e
    · cases e
      exact ⟨namedWait_some hn, ‹_›⟩
    · cases e
  · cases e

/-- Hold i of client l on record r can be upgraded: it is ACTIVE and SHARED without a conversion, and no CONVERSION is queued there. -/
structure Upgradable (s : State) (r : Slot) (l : Client) (i : HoldIx) (h : Hold) : Prop where
  hold : s.hold i = some h
  slot : h.slot = r
  client : h.client = l
  active : h.state = .active
  shared : h.mode = .shared
  conversion : h.conversion = none
  queue : ∀ w y, s.wait w = some y → y.slot = r → y.purpose = .new

namespace EngineGood

theorem refuse (G : EngineGood s) (l : Client) (tag : Byte) (reply : Reply) : EngineGood (s.refuse l tag reply) :=
  (SameEngine.refuse l tag reply).engineGood G

theorem refuseFence (G : EngineGood s) (l : Client) (tag : Byte) : EngineGood (s.refuseFence l tag) :=
  (SameEngine.refuseFence l tag).engineGood G

theorem respond (G : EngineGood s) (l : Client) (tag : Byte) (reply : Reply) : EngineGood (s.respond l tag reply) :=
  (SameEngine.respond l tag reply).engineGood G

/-! ### ACQUIRE -/

/-- R36: after the immediate grant no more can be granted than before. -/
theorem grantAtOnce (G : EngineGood s) {i : HoldIx} {c : Client} {m : Mode} (term : Half) (hx : s.record r = some x)
    (hi : s.availableHold = some i) (hfence : s.fence.exhausted = false) (compat : s.compatible x m none = true)
    (claims : NoClaim s x c) (served : (s.session c).state.served) : EngineGood (s.grantAtOnce i c r m term) := by
  obtain ⟨hfree, hnone, -⟩ := (availableHold_eq_some s i).1 hi
  have C := change_grantAtOnce i c m term hx
  refine (G.law.grantAtOnce term hx hnone hfree hfence compat claims served).good G ?_ (.of_holders C.here (by simp))
  refine (G.grant r).mono (fun h => absurd (h.symm.trans hfence) (by simp)) C.state fun z hz => ?_
  rw [C.here] at hz
  cases hz
  refine ⟨x, hx, rfl, fun w _ => by rw [C.wait]; exact (eq_ite_at s.wait 0 w).symm, fun y hc =>
    waitCompatible_mono hc (fun j hj => ⟨List.mem_append_left _ hj, ?_⟩) (by simp) id le_rfl⟩
  rw [isShared_congr (t := s.grantAtOnce i c r m term) (s := s)]
  · exact id
  · rw [C.hold, if_neg]
    rintro rfl
    obtain ⟨h, hh, -⟩ := (G.law.record r x hx).holder _ hj
    rw [hnone] at hh
    cases hh

theorem acquireCreate (G : EngineGood s) {l : Client} (served : (s.session l).state.served) (tag : Byte) (b : AcquireBody)
    (habsent : s.lookup b.key = none) : EngineGood (s.acquireCreate l tag b) := by
  unfold State.acquireCreate
  split
  · exact ((SameEngine.raise _).engineGood G).refuse _ _ _
  · rename_i r hr
    split
    · exact G.refuse _ _ _
    · split
      · exact G.refuse _ _ _
      · rename_i i hi
        split
        · exact G.refuseFence _ _
        · rename_i hf
          refine EngineGood.respond ?_ _ _ _
          obtain ⟨hfree, hnone, -⟩ := (availableHold_eq_some s i).1 hi
          have W := G.law.placeRecord (x := freshRecord b.key) habsent hr rfl
            (recordLaw_fresh rfl rfl ⟨by simp [freshRecord], by simp [freshRecord]⟩ (fun _ => ⟨rfl, rfl, rfl⟩) rfl) rfl rfl
          have here : (s.place r (freshRecord b.key)).record r = some (freshRecord b.key) := by simp
          have C := change_grantAtOnce i l b.mode (s.clampTerm l (freshRecord b.key) b.term) here
          have W' := W.law.grantAtOnce (s.clampTerm l (freshRecord b.key) b.term) (i := i) (c := l) (m := b.mode) here
            (by rw [place_eq]; exact hnone) (by rw [place_eq]; exact hfree) (by rw [place_eq]; simpa using hf) ?_
            ⟨fun _ hi => (nomatch hi), fun _ hw => (nomatch hw)⟩ (by rw [place_eq]; exact served)
          · refine (W.trans W').good G (fun _ z w y hz hw => ?_) (.of_holders C.here (by simp))
            rw [C.here] at hz
            cases hz
            cases hw
          · cases hm : b.mode <;> simp [State.compatible, freshRecord]

theorem acquireNow (G : EngineGood s) {l : Client} (served : (s.session l).state.served) (tag : Byte) (b : AcquireBody)
    (hx : s.record r = some x) (compat : s.compatible x b.mode none = true) (claims : NoClaim s x l) :
    EngineGood (s.acquireNow l tag b r x) := by
  unfold State.acquireNow
  split
  · exact G.refuse _ _ _
  · rename_i i hi
    split
    · exact G.refuseFence _ _
    · rename_i hf
      exact (G.grantAtOnce _ hx hi (by simpa using hf) compat claims served).respond _ _ _

theorem acquireQueue (G : EngineGood s) {l : Client} (served : (s.session l).state.served) (tag : Byte) (b : AcquireBody)
    (hx : s.record r = some x) (shared : x.shareable = false → b.mode = .exclusive) (claims : NoClaim s x l)
    (priority : BitVec 2) : EngineGood (s.acquireQueue l tag b r x priority) := by
  unfold State.acquireQueue
  split
  · exact G.refuse _ _ _
  · split
    · exact G.refuse _ _ _
    · split
      · rename_i i w hi hw
        obtain ⟨hfree, -⟩ := (availableHold_eq_some s i).1 hi
        have hnone := ((lowestFreeWait_eq_some s w).1 hw).1
        obtain ⟨y, hy⟩ : ∃ y : Wait, y = ⟨l, r, .new, b.mode, priority, s.arrival, s.after b.waitTicks,
          s.clampTerm l x b.term, tag⟩ := ⟨_, rfl⟩
        rw [← hy]
        obtain ⟨rfl, hp, hm, rfl⟩ : y.slot = r ∧ y.purpose = .new ∧ y.mode = b.mode ∧ y.client = l := by
          rw [hy]; exact ⟨rfl, rfl, rfl, rfl⟩
        have W := G.law.queueNew hx hnone hp hfree (by rwa [hm]) claims served
        have C := change_queueNew hnone hx
        have S : SameEngine (s.queueNew w y) ((s.queueNew w y).respond y.client tag
          (.queued ((s.queueNew w y).waitHandle w) ((s.queueNew w y).position y.slot w))) := .respond _ _ _
        refine G.pass (W.trans (S.works W.law)) (S.settledAt (.of_waitQueue C.here ?_))
        exact List.ne_nil_of_mem ((insertAfterLast_perm _ w x.waitQueue).mem_iff.2 (.head _))
      · exact G.refuse _ _ _

theorem acquireDecide (G : EngineGood s) {l : Client} (served : (s.session l).state.served) (tag : Byte) (b : AcquireBody)
    (claims : NoClaimAt s r l) (shared : ∀ x, s.record r = some x → x.shareable = false → b.mode = .exclusive) :
    EngineGood (s.acquireDecide l tag b r) := by
  unfold State.acquireDecide
  split
  · rename_i x hx
    have N := claims.noClaim (G.law.record r x hx)
    dsimp only
    split
    · exact G.acquireNow served tag b hx (And.right ‹_›) N
    · exact G.acquireQueue served tag b hx (shared x hx) N _
  · exact G.refuse _ _ _

theorem acquirePresent (G : EngineGood s) {l : Client} (served : (s.session l).state.served) (tag : Byte) (b : AcquireBody)
    (hx : s.record r = some x) : EngineGood (s.acquirePresent l tag b r x) := by
  unfold State.acquirePresent
  split
  · exact G.refuse _ _ _
  · rename_i hmode
    split
    · exact G.refuse _ _ _
    · rename_i hhold
      split
      · exact G.refuse _ _ _
      · rename_i hwait
        split
        · exact G.refuse _ _ _
        · obtain ⟨G', C, -⟩ := G.displace l r b.mode
          have state := (EngineOnly.displace (o := none) (s := s) l r b.mode).state l
          refine G'.acquireDecide (state ▸ served) tag b ((G.law.noClaimAt hx hhold hwait).continues C) fun z hz hs => ?_
          obtain ⟨x', hx', e⟩ := C.shareable r z hz
          rw [hx] at hx'
          cases hx'
          cases hm : b.mode with
          | exclusive => rfl
          | shared => exact absurd ⟨e.symm.trans hs, hm⟩ hmode

theorem decideAcquire (G : EngineGood s) {l : Client} (served : (s.session l).state.served) (tag : Byte) (b : AcquireBody) :
    EngineGood (s.decideAcquire l tag b) := by
  unfold State.decideAcquire
  split
  · exact G.refuse _ _ _
  · split
    · exact G.refuse _ _ _
    · split
      · split
        · exact G.refuse _ _ _
        · exact G.acquireCreate served tag b ‹_›
      · split
        · exact G.acquirePresent served tag b ‹_›
        · exact G.refuse _ _ _

/-! ### A hold gets a state and a deadline (R45, R60, R66) -/

theorem retime (G : EngineGood s) {i : HoldIx} {h : Hold} (hh : s.hold i = some h) (a : HoldState) (d : Word)
    (ha : h.conversion ≠ none → a = .active) :
    EngineGood ((s.modifyHold i fun k => { k with state := a }).setHoldDeadline i d) := by
  have W := G.law.retime hh a d ha
  rw [retime_eq hh] at W ⊢
  refine W.good G ((G.grant h.slot).mono id (fun _ => rfl) fun x hx => ?_) (G.settled h.slot)
  refine ⟨x, hx, rfl, fun _ _ => rfl, fun y hc => waitCompatible_mono hc (fun j hj => ⟨hj, ?_⟩) le_rfl id le_rfl⟩
  simp only [isShared_iff]
  rintro ⟨g, hg, hm⟩
  have hg := (congrArg HoldSlot.occupant (getElem_set_fin s.holds i j _)).symm.trans hg
  split at hg
  · subst_vars
    cases hg
    exact ⟨h, hh, hm⟩
  · exact ⟨g, hg, hm⟩

theorem recover (G : EngineGood s) {i : HoldIx} {h : Hold} (hh : s.hold i = some h) (d : Word) :
    EngineGood (s.recover i h d) := by
  unfold State.recover
  split
  · exact G.retime hh .active d fun _ => rfl
  · exact G

/-! ### CONVERT -/

theorem downgrade (G : EngineGood s) {i : HoldIx} {h : Hold} (hh : s.hold i = some h) (hx : s.record h.slot = some x)
    (hs : x.shareable = true) (l : Client) (tag : Byte) : EngineGood (s.downgrade l tag i h.slot) := by
  have W := G.law.share hh hx hs
  unfold State.downgrade
  exact G.settle (W.trans ((SameEngine.respond _ _ _).works W.law))

theorem upgradeNow (G : EngineGood s) {i : HoldIx} {h : Hold} (hh : s.hold i = some h) (hc : h.conversion = none)
    (hx : s.record h.slot = some x) (alone : x.holders = [i]) (l : Client) (tag : Byte) (b : ConvertBody) :
    EngineGood (s.upgradeNow l tag b i h.slot x) := by
  unfold State.upgradeNow
  split
  · exact G.refuseFence _ _
  · rename_i hf
    have W := G.law.upgrade (s.clampTerm l x b.term) hh hx rfl hc alone (by simpa using hf)
    exact G.settle (W.trans (((SameEngine.countClient _ _).trans (.respond _ _ _)).works W.law))

theorem convertQueue (G : EngineGood s) {i : HoldIx} {h : Hold} {l : Client} (U : Upgradable s r l i h)
    (served : (s.session l).state.served) (hx : s.record r = some x) (tag : Byte) (b : ConvertBody) :
    EngineGood (s.convertQueue l tag b i r x) := by
  unfold State.convertQueue
  split
  · exact G.refuse _ _ _
  · split
    · exact G.refuse _ _ _
    · split
      · exact G.refuse _ _ _
      · rename_i w hw
        have hnone := ((lowestFreeWait_eq_some s w).1 hw).1
        obtain ⟨y, hy⟩ : ∃ y : Wait, y = ⟨l, r, .conversion (s.holdHandle i), .exclusive, (s.session l).ceiling, s.arrival,
          s.after b.waitTicks, s.clampTerm l x b.term, tag⟩ := ⟨_, rfl⟩
        dsimp only
        rw [← hy]
        obtain ⟨rfl, hp, hm, rfl⟩ : y.slot = r ∧ y.purpose = .conversion (s.holdHandle i) ∧ y.mode = .exclusive ∧
            y.client = l := by rw [hy]; exact ⟨rfl, rfl, rfl, rfl⟩
        have W := G.law.queueUpgrade U.hold U.slot U.client U.active U.shared U.conversion hx hnone hp hm
          (fun v hv z hz => U.queue v z hz (by
            obtain ⟨z', hz', e⟩ := (G.law.record _ x hx).waiter v hv
            rw [hz] at hz'
            cases hz'
            exact e)) served
        obtain ⟨C, -⟩ := change_queueUpgrade U.hold hnone hx
        have S : SameEngine (s.queueUpgrade i w y) ((s.queueUpgrade i w y).respond y.client tag
          (.queued ((s.queueUpgrade i w y).waitHandle w) 1)) := .respond _ _ _
        exact G.pass (W.trans (S.works W.law)) (S.settledAt (.of_waitQueue C.here (by simp)))

theorem upgradeDecide (G : EngineGood s) {i : HoldIx} {h : Hold} {l : Client} (U : Upgradable s r l i h)
    (served : (s.session l).state.served) (tag : Byte) (b : ConvertBody) : EngineGood (s.upgradeDecide l tag b i r) := by
  unfold State.upgradeDecide
  split
  · rename_i x hx
    split
    · obtain rfl := U.slot
      exact G.upgradeNow U.hold U.conversion hx ‹_› l tag b
    · exact G.convertQueue U served hx tag b
  · exact G.refuse _ _ _

/-- R101, steps 5 to 10, on a hold that is ACTIVE now. -/
theorem convertActive (G : EngineGood s) {i : HoldIx} {h : Hold} {l : Client} (hh : s.hold i = some h)
    (hx : s.record h.slot = some x) (hclient : h.client = l) (hactive : h.state = .active)
    (served : (s.session l).state.served) (tag : Byte) (b : ConvertBody) (hmode : b.target ≠ h.mode) :
    EngineGood (s.convertActive l tag b i h.slot x) := by
  unfold State.convertActive
  split
  · split
    · exact G.refuse _ _ _
    · exact G.downgrade hh hx (by simpa using ‹¬x.shareable = false›) l tag
  · rename_i htarget
    split
    · exact G.refuse _ _ _
    · rename_i hnone
      have R := G.law.record _ x hx
      have queue : ∀ w y, s.wait w = some y → y.slot = h.slot → y.purpose = .new := fun w y hy hr => by
        by_contra hp
        exact hnone (List.any_eq_true.2 ⟨w, G.law.mem_waitQueue hx hy hr, (isConversion_iff s w).2 ⟨y, hy, hp⟩⟩)
      have hconv : h.conversion = none := by
        cases hc : h.conversion with
        | none => rfl
        | some v =>
          obtain ⟨-, -, hv, -, y, hy, hp⟩ := R.conversion i (G.law.mem_holders hx hh rfl) h v hh hc
          obtain ⟨z, hz, hr⟩ := R.waiter _ hv
          rw [hy] at hz
          cases hz
          rw [queue _ y hy hr] at hp
          cases hp
      have hshared : h.mode = .shared := by
        cases hm : h.mode with
        | shared => rfl
        | exclusive => exact absurd (htarget.trans hm.symm) hmode
      obtain ⟨G', C, stays⟩ := G.displace l h.slot .exclusive
      have state := (EngineOnly.displace (o := none) (s := s) l h.slot .exclusive).state l
      exact G'.upgradeDecide ⟨stays i h hh hclient hconv, rfl, hclient, hactive, hshared, hconv,
        fun w y hy => queue w y (C.wait w y hy)⟩ (state ▸ served) tag b

/-- R45: what recovery leaves. -/
theorem recover_eq {i : HoldIx} {h : Hold} (hh : s.hold i = some h) (d : Word) :
    ∃ k, (s.recover i h d).hold i = some k ∧ k.slot = h.slot ∧ k.client = h.client ∧ k.mode = h.mode ∧ k.state = .active ∧
      (s.recover i h d).records = s.records := by
  unfold State.recover
  split
  · rw [retime_eq hh]
    exact ⟨{ h with state := .active, deadline := d },
      (congrArg HoldSlot.occupant (getElem_set_fin s.holds i i _)).trans (by rw [if_pos rfl]), rfl, rfl, rfl, rfl, rfl⟩
  · refine ⟨h, hh, rfl, rfl, rfl, ?_, rfl⟩
    cases hs : h.state with
    | active => rfl
    | lapsed => exact absurd hs ‹_›

theorem decideConvert (G : EngineGood s) {l : Client} (served : (s.session l).state.served) (tag : Byte) (b : ConvertBody) :
    EngineGood (s.decideConvert l tag b) := by
  unfold State.decideConvert
  split
  · exact G.refuse _ _ _
  · rename_i i h hown
    obtain ⟨hh, hclient⟩ := ownNamedHold_some hown
    split
    · exact G.refuse _ _ _
    · rename_i x hx
      split
      · exact G.refuse _ _ _
      · rename_i hmode
        split
        · exact G.refuse _ _ _
        · obtain ⟨k, hk, hslot, hkc, hkm, hks, hrec⟩ := recover_eq hh (s.after (s.clampTerm l x b.term))
          have state := (Answered.recover i h (s.after (s.clampTerm l x b.term)) (s := s)).state l
          rw [← hslot] at hx ⊢
          exact (G.recover hh _).convertActive hk (by unfold State.record; rw [hrec]; exact hx) (hkc.trans hclient) hks
            (state ▸ served) tag b (hkm ▸ hmode)

/-! ### RENEW, RELEASE, CANCEL -/

theorem renewHold (G : EngineGood s) {i : HoldIx} {h : Hold} (hh : s.hold i = some h) (l : Client) (tag : Byte)
    (x : Record) (term : Half) : EngineGood (s.renewHold l tag i x term) :=
  (G.retime hh .active _ fun _ => rfl).respond _ _ _

theorem releaseHold (G : EngineGood s) {i : HoldIx} {h : Hold} (hh : s.hold i = some h) (l : Client) (tag : Byte) :
    EngineGood (s.releaseHold l tag i h) := by
  have W := G.law.freeHold hh
  exact G.settle (W.trans ((SameEngine.respond _ _ _).works W.law))

theorem cancelNamed (G : EngineGood s) {w : WaitIx} {y : Wait} (hy : s.wait w = some y) (l : Client) (tag : Byte) :
    EngineGood (s.cancelNamed l tag w y) := by
  have W := G.law.freeWait hy
  exact G.settle (W.trans ((SameEngine.respond _ _ _).works W.law))

theorem decideValidate (G : EngineGood s) (l : Client) (tag : Byte) (key : Word) (fence : Fence) :
    EngineGood (s.decideValidate l tag key fence) := by
  unfold State.decideValidate
  split
  · exact G.refuse _ _ _
  · split
    · exact G.refuse _ _ _
    · split
      · exact G.respond _ _ _
      · split <;> exact G.respond _ _ _

/-- Every decision but those of ATTACH and DETACH, for a client that the gate lets pass. -/
theorem decision (G : EngineGood s) (k : RequestKind) (l : Client) (m : RxMessage) (ha : k ≠ .attach) (hd : k ≠ .detach)
    (served : k ≠ .ping → (s.session l).state.served) (hg : m.fieldsGood k = true) : EngineGood (k.decision l m s) := by
  cases k with
  | attach => exact absurd rfl ha
  | detach => exact absurd rfl hd
  | ping => exact G.respond _ _ _
  | acquire =>
    rw [fieldsGood_acquire] at hg
    obtain ⟨b, hb⟩ := Option.isSome_iff_exists.1 hg
    simp only [RequestKind.decision, hb]
    exact G.decideAcquire (served (by simp)) _ b
  | convert =>
    rw [fieldsGood_convert] at hg
    obtain ⟨b, hb⟩ := Option.isSome_iff_exists.1 hg
    simp only [RequestKind.decision, hb]
    exact G.decideConvert (served (by simp)) _ b
  | renew =>
    simp only [RequestKind.decision]
    split
    · exact G.refuse _ _ _
    · rename_i i h hown
      split
      · exact G.renewHold (ownNamedHold_some hown).1 _ _ _ _
      · exact G.refuse _ _ _
  | release =>
    simp only [RequestKind.decision]
    split
    · exact G.refuse _ _ _
    · rename_i i h hown
      exact G.releaseHold (ownNamedHold_some hown).1 _ _
  | cancel =>
    simp only [RequestKind.decision]
    split
    · exact G.refuse _ _ _
    · rename_i w y hown
      exact G.cancelNamed (ownNamedWait_some hown).1 _ _
  | query =>
    simp only [RequestKind.decision]
    split
    · exact G.refuse _ _ _
    · exact G.respond _ _ _
  | validate => exact G.decideValidate _ _ _ _

end EngineGood

end Sys2Proof.Machine
end

