-- ==== Sys2Proof/Proofs/Happenings.lean ====
section
/-! PROOFS. The happenings other than requests leave the laws of the engine in force: due entries (R59 to R64), the commands on records and
claims (R155 to R161), the sessions' states and purges (R75 to R80, R124 to R130), CLEAR ALL and the seed (R3, R166). -/

namespace Sys2Proof.Machine

open Sys2Proof

variable {s t : State} {r : Slot} {x : Record}

namespace EngineGood

/-! ### Due entries (R59 to R64) -/

theorem lapse (G : EngineGood s) {i : HoldIx} {h : Hold} (hh : s.hold i = some h) (hc : h.conversion = none) :
    EngineGood (s.lapse i h) :=
  (SameEngine.postNotice _ _ _).engineGood (G.retime hh .lapsed _ fun hn => absurd hc hn)

theorem expireHold (G : EngineGood s) {i : HoldIx} {h : Hold} (hh : s.hold i = some h) : EngineGood (s.expireHold i h) :=
  ((SameEngine.countClient _ _).engineGood G).endHold hh _

theorem timeOutWait (G : EngineGood s) {w : WaitIx} {y : Wait} (hy : s.wait w = some y) : EngineGood (s.timeOutWait w y) :=
  ((SameEngine.countClient _ _).engineGood G).endWait hy _

theorem takeLease (G : EngineGood s) {i : HoldIx} {h : Hold} (hh : s.hold i = some h) : EngineGood (s.takeLease i h) := by
  unfold State.takeLease
  split
  · split
    · rename_i hg
      refine G.lapse hh ?_
      simp only [State.getsGrace, Bool.and_eq_true, Option.isNone_iff_eq_none] at hg
      exact hg.1.2
    · exact G.expireHold hh
  · exact G.expireHold hh

/-- R20: a record without claims is retired. -/
theorem retire (G : EngineGood s) (U : Unclaimed s r) : EngineGood (s.retire r) := by
  have none : (s.retire r).record r = none := by simp [State.retire]
  refine (G.law.retire U).good G (fun _ z w y hz => ?_) fun z hz => ?_ <;> rw [none] at hz <;> cases hz

theorem takeIdle (G : EngineGood s) {d : Word} {b : Bool} (h : s.nextMarked = some ⟨.record r, d, b⟩) :
    EngineGood (s.retire r) := by
  refine G.retire (G.law.unclaimed fun x hx => ?_)
  have hd := (G.law.deadlines.entry (.record r) d).2 ⟨b, List.mem_of_find?_eq_some h⟩
  simp only [State.deadlineOf, hx, Option.bind_some] at hd
  obtain ⟨-, h1, h2⟩ := (G.law.record r x hx).idle (by simp [hd])
  exact ⟨h1, h2⟩

/-! ### The attributes of a record (R13, R14) -/

/-- A record gets other attributes that its claims agree with, and no idle deadline unless it had it. -/
theorem recordLaw_attributes {x' : Record} (L : RecordLaw s r x) (holders : x'.holders = x.holders)
    (waitQueue : x'.waitQueue = x.waitQueue) (cap : 1 ≤ x'.holderCap ∧ x'.holderCap ≤ 8)
    (dynamic : x'.kind = .dynamic → x'.shareable = true ∧ x'.holderCap = 8 ∧ x'.maxTerm = 0) (idle : x'.idleDeadline = none)
    (bound : x.holders.length ≤ x'.holderCap)
    (hold : x'.shareable = false → ∀ i ∈ x.holders, ∀ h, s.hold i = some h → h.mode = .exclusive)
    (wait : x'.shareable = false → ∀ w ∈ x.waitQueue, ∀ y, s.wait w = some y → y.mode = .exclusive) : RecordLaw s r x' := by
  obtain ⟨key, kind, sh, cp, mt, hs, ws, lf, il⟩ := x'
  obtain rfl : hs = x.holders := holders
  obtain rfl : ws = x.waitQueue := waitQueue
  exact { L with cap := cap, dynamic := dynamic, idle := fun h => absurd idle h, bound := bound, sharedHold := hold, sharedWait := wait }

theorem installOn (G : EngineGood s) (hx : s.record r = some x) {shareable : Bool} {cap : Nat} (maxTerm : Half)
    (hcap : 1 ≤ cap ∧ cap ≤ 8) (hok : s.installConflict x shareable cap ≠ true) :
    EngineGood (s.installOn r x shareable cap maxTerm) := by
  rw [Ne, installConflict_iff] at hok
  push Not at hok
  obtain ⟨hlen, hmodes⟩ := hok
  have R := G.law.record r x hx
  have exclusive : ∀ m : Mode, m ≠ .shared → m = .exclusive := fun m hm => by cases m <;> simp_all
  have W := G.law.setAttributes (x' := { x with
      kind := .pinned, shareable := shareable, holderCap := cap, maxTerm := maxTerm, idleDeadline := none }) hx rfl rfl rfl
    rfl (recordLaw_attributes R rfl rfl hcap (fun h => nomatch h) rfl hlen
      (fun hs i hi h hh => exclusive _ ((hmodes hs).1 i hi h hh))
      (fun hs w hw y hy => exclusive _ ((hmodes hs).2 w hw y hy)))
    (((deadlineLaw_iff s).1 G.law.deadlines).remove (.record r))
  rw [installOn_eq hx shareable cap maxTerm _ rfl]
  obtain ⟨t, ht⟩ : ∃ t : State, t = { s with
    records := s.records.set r (some { x with
      kind := .pinned, shareable := shareable, holderCap := cap, maxTerm := maxTerm, idleDeadline := none })
    deadlines := s.deadlines.filter fun e => e.ref != .record r } := ⟨_, rfl⟩
  rw [← ht] at W ⊢
  have here : t.record r = some { x with
      kind := .pinned, shareable := shareable, holderCap := cap, maxTerm := maxTerm, idleDeadline := none } := by
    rw [ht]; exact (getElem_set_fin s.records r r _).trans (if_pos rfl)
  have settled : SettledAt t r := fun z hz hk => by
    rw [here] at hz
    cases hz
    cases hk
  split
  · exact G.pass W settled
  · rename_i hno
    push Not at hno
    refine W.good G ((G.grant r).mono W.only.exhausted W.only.state fun z hz => ?_) settled
    rw [here] at hz
    cases hz
    refine ⟨x, hx, rfl, fun w _ => by rw [ht]; rfl, fun y hc => waitCompatible_mono hc (fun i hi => ⟨hi, ?_⟩) le_rfl
      (fun hs => ?_) hno.2⟩
    · rw [isShared_congr (t := t) (s := s) (by rw [ht]; rfl)]
      exact id
    · cases hx' : x.shareable with
      | true => rfl
      | false => exact absurd hs (hno.1 hx')

theorem unpinOn (G : EngineGood s) (hx : s.record r = some x) : EngineGood (s.unpinOn r x) := by
  unfold State.unpinOn
  split
  · exact G
  · rename_i hk
    have R := G.law.record r x hx
    have idle : x.idleDeadline = none := by
      by_contra h
      have := (R.idle h).1
      rw [hk] at this
      cases this
    rw [modifyRecord_eq _ _ _ _ hx]
    refine G.settle (G.law.setAttributes (D := s.deadlines) hx rfl rfl rfl rfl
      (recordLaw_attributes R rfl rfl ⟨by simp, le_rfl⟩ (fun _ => ⟨rfl, rfl, rfl⟩) idle (R.bound.trans R.cap.2)
        (fun h => nomatch h) fun h => nomatch h) (((deadlineLaw_iff s).1 G.law.deadlines).congr fun ref => ?_))
    split
    · subst_vars
      simp [State.deadlineOf, hx]
    · rfl

theorem complete (G : EngineGood s) (code : ResultCode) (ws : List Word) : EngineGood (s.complete code ws) :=
  (SameEngine.complete code ws).engineGood G

theorem install (G : EngineGood s) (p : Vector Word 4) : EngineGood (s.install p) := by
  unfold State.install
  dsimp only
  split
  · exact G.complete _ _
  · rename_i hcap
    push Not at hcap
    obtain ⟨h0, h8⟩ := hcap
    have hcap : 1 ≤ (field p[1] 8 4 : BitVec 4).toNat ∧ (field p[1] 8 4 : BitVec 4).toNat ≤ 8 :=
      ⟨Nat.one_le_iff_ne_zero.2 h0, h8⟩
    split
    · split
      · split
        · exact G.complete _ _
        · exact (G.installOn ‹_› _ hcap ‹_›).complete _ _
      · exact G.complete _ _
    · rename_i habsent
      split
      · exact ((SameEngine.raise _).engineGood G).complete _ _
      · rename_i r hr
        refine EngineGood.complete ?_ _ _
        have here : ∀ y : Record, (s.place r y).record r = some y := fun y => by simp
        refine (G.law.placeRecord (x := pinnedRecord p[0] (p[1].getLsbD 0) (field p[1] 8 4 : BitVec 4).toNat (field p[1] 16 16))
          habsent hr rfl (recordLaw_fresh rfl rfl hcap (fun h => nomatch h) rfl) rfl rfl).good G
          (fun _ z w y hz hw => ?_) fun z hz hk => ?_
        · rw [here] at hz
          cases hz
          cases hw
        · rw [here] at hz
          cases hz
          cases hk

theorem unpin (G : EngineGood s) (p : Vector Word 4) : EngineGood (s.unpin p) := by
  unfold State.unpin
  split
  · split
    · exact (G.unpinOn ‹_›).complete _ _
    · exact G.complete _ _
  · exact G.complete _ _

/-! ### Removal (R156, R157, R160, R161) -/

end EngineGood

theorem EngineLaw.removeWaits (ws : List WaitIx) (s : State) (L : EngineLaw s)
    (here : ∀ w ∈ ws, ∀ y, s.wait w = some y → y.slot = r) :
    Works r s (ws.foldl State.removeWait s) ∧ Continues s (ws.foldl State.removeWait s) ∧
      (∀ w ∈ ws, (ws.foldl State.removeWait s).wait w = none) ∧
      ∀ j g, (ws.foldl State.removeWait s).hold j = some g → ∃ k, s.hold j = some k ∧ k.slot = g.slot := by
  induction ws generalizing s with
  | nil => exact ⟨.refl L, (SameEngine.refl s).continues, fun _ h => (nomatch h), fun j g hg => ⟨g, hg, rfl⟩⟩
  | cons w ws ih =>
    have one : Works r s (s.removeWait w) ∧ Continues s (s.removeWait w) ∧ (s.removeWait w).wait w = none ∧
        ∀ j g, (s.removeWait w).hold j = some g → ∃ k, s.hold j = some k ∧ k.slot = g.slot := by
      unfold State.removeWait
      split
      · rename_i y hy
        have S : SameEngine (s.freeWait w y) ((s.freeWait w y).postWaitEnded (s.waitHandle w) y .removed) := .postNotice _ _ _
        obtain ⟨C, hnone, hholds⟩ := L.freeWait_rest hy
        have W := L.freeWait hy
        rw [here w (.head _) y hy] at W
        exact ⟨W.trans (S.works W.law), C.trans S.continues, (S.wait w).trans hnone,
          fun j g hg => hholds j g (S.hold j ▸ hg)⟩
      · exact ⟨.refl L, (SameEngine.refl s).continues, ‹_›, fun j g hg => ⟨g, hg, rfl⟩⟩
    obtain ⟨W1, C1, N1, H1⟩ := one
    obtain ⟨W2, C2, N2, H2⟩ := ih _ W1.law fun v hv y hy => here v (.tail _ hv) y (C1.wait v y hy)
    refine ⟨W1.trans W2, C1.trans C2, fun v hv => ?_, fun j g hg => ?_⟩
    · rcases List.mem_cons.1 hv with rfl | hv
      · by_contra h
        obtain ⟨y, hy⟩ := Option.ne_none_iff_exists'.1 h
        have := C2.wait v y hy
        rw [N1] at this
        cases this
      · exact N2 v hv
    · obtain ⟨k, hk, e⟩ := H2 j g hg
      obtain ⟨k', hk', e'⟩ := H1 j k hk
      exact ⟨k', hk', e'.trans e⟩

theorem EngineLaw.removeHolds (is : List HoldIx) (s : State) (L : EngineLaw s)
    (here : ∀ i ∈ is, ∀ h, s.hold i = some h → h.slot = r) :
    Works r s (is.foldl State.removeHold s) ∧ Continues s (is.foldl State.removeHold s) ∧
      (∀ i ∈ is, (is.foldl State.removeHold s).hold i = none) ∧
      ∀ j g, (is.foldl State.removeHold s).hold j = some g → s.hold j = some g := by
  induction is generalizing s with
  | nil => exact ⟨.refl L, (SameEngine.refl s).continues, fun _ h => (nomatch h), fun j g hg => hg⟩
  | cons i is ih =>
    have one : Works r s (s.removeHold i) ∧ Continues s (s.removeHold i) ∧ (s.removeHold i).hold i = none ∧
        ∀ j g, (s.removeHold i).hold j = some g → s.hold j = some g := by
      unfold State.removeHold
      split
      · rename_i h hh
        have S : SameEngine (s.freeHold i h) ((s.freeHold i h).postLost (s.holdHandle i) h .removed) := .postNotice _ _ _
        obtain ⟨C, hnone, hother⟩ := L.freeHold_rest hh
        have W := L.freeHold hh
        rw [here i (.head _) h hh] at W
        refine ⟨W.trans (S.works W.law), C.trans S.continues, (S.hold i).trans hnone, fun j g hg => ?_⟩
        rw [S.hold] at hg
        by_cases hj : j = i
        · rw [hj, hnone] at hg
          cases hg
        · exact hother j hj ▸ hg
      · exact ⟨.refl L, (SameEngine.refl s).continues, ‹_›, fun j g hg => hg⟩
    obtain ⟨W1, C1, N1, H1⟩ := one
    obtain ⟨W2, C2, N2, H2⟩ := ih _ W1.law fun j hj g hg => here j (.tail _ hj) g (H1 j g hg)
    refine ⟨W1.trans W2, C1.trans C2, fun j hj => ?_, fun j g hg => H1 j g (H2 j g hg)⟩
    rcases List.mem_cons.1 hj with rfl | hj
    · by_contra h
      obtain ⟨g, hg⟩ := Option.ne_none_iff_exists'.1 h
      have := H2 j g hg
      rw [N1] at this
      cases this
    · exact N2 j hj

namespace EngineGood

theorem removeClaims (G : EngineGood s) (hx : s.record r = some x) : EngineGood (s.removeClaims r x) := by
  have R := G.law.record r x hx
  have waits : ∀ w ∈ x.waitQueue, ∀ y, s.wait w = some y → y.slot = r := fun w hw y hy => by
    obtain ⟨z, hz, e⟩ := R.waiter w hw
    rw [hy] at hz
    cases hz
    exact e
  have holds : ∀ i ∈ x.holders, ∀ h, s.hold i = some h → h.slot = r := fun i hi h hh => by
    obtain ⟨g, hg, e⟩ := R.holder i hi
    rw [hh] at hg
    cases hg
    exact e
  obtain ⟨W1, C1, N1, H1⟩ := EngineLaw.removeWaits x.waitQueue s G.law waits
  obtain ⟨W2, C2, N2, H2⟩ := EngineLaw.removeHolds x.holders _ W1.law fun i hi g hg => by
    obtain ⟨k, hk, e⟩ := H1 i g hg
    exact e ▸ holds i hi k hk
  unfold State.removeClaims
  have U : Unclaimed (x.holders.foldl State.removeHold (x.waitQueue.foldl State.removeWait s)) r := by
    constructor
    · intro i h hh hr
      obtain ⟨k, hk, e⟩ := H1 i h (H2 i h hh)
      have := N2 i (G.law.mem_holders hx hk (e.trans hr))
      rw [hh] at this
      cases this
    · intro w y hy hr
      have hy1 := C2.wait w y hy
      have := N1 w (G.law.mem_waitQueue hx (C1.wait w y hy1) hr)
      rw [hy1] at this
      cases this
  have none : ∀ u : State, (u.retire r).record r = none := fun u => by simp [State.retire]
  refine ((W1.trans W2).trans (W2.law.retire U)).good G (fun _ z w y hz => ?_) fun z hz => ?_ <;> rw [none] at hz <;> cases hz

theorem remove (G : EngineGood s) (p : Vector Word 4) : EngineGood (s.remove p) := by
  unfold State.remove
  split
  · split
    · exact (G.removeClaims ‹_›).complete _ _
    · exact G.complete _ _
  · exact G.complete _ _

theorem setMark (G : EngineGood s) (d : BitVec 4) (b : Bool) : EngineGood (s.setMark d b) :=
  SameEngine.engineGood { SameEngine.refl s with } G

theorem advanceWalk (G : EngineGood s) (k : DomainWalk) : EngineGood (s.advanceWalk k) := by
  unfold State.advanceWalk
  split
  · exact (SameEngine.setAdmin _).engineGood G
  · exact (G.setMark _ _).complete _ _

theorem revoke (G : EngineGood s) (p : Vector Word 4) : EngineGood (s.revoke p) := by
  unfold State.revoke
  split
  · exact G.complete _ _
  · exact (G.endHold (namedHold_some ‹_›) _).complete _ _

theorem cancelByManager (G : EngineGood s) (p : Vector Word 4) : EngineGood (s.cancelByManager p) := by
  unfold State.cancelByManager
  split
  · exact G.complete _ _
  · exact (G.endWait (namedWait_some ‹_›) _).complete _ _

end EngineGood

end Sys2Proof.Machine
end

