-- ==== Sys2Proof/Proofs/Purges.lean ====
section
/-! PROOFS. Purges and the states of sessions leave the laws of the engine in force (R75 to R81, R123 to R130), as do the tick, CLEAR ALL and
the seed (R3, R50, R166). -/

namespace Sys2Proof.Machine

open Sys2Proof

variable {s t : State} {r : Slot} {x : Record}

/-! ### Changes that the engine's laws see through the owners only -/

theorem SameEngine.setPurge (h : SameEngine s t) (p : PurgeUnit) : SameEngine (s.setPurge p) (t.setPurge p) :=
  { h with purge := rfl }

theorem EngineLaw.setPurge (L : EngineLaw s) (p : PurgeUnit) (O : Owners (s.setPurge p)) : EngineLaw (s.setPurge p) where
  record r x hx := (L.record r x hx).congr (fun _ _ => rfl) fun _ _ => rfl
  homeHold := L.homeHold
  homeWait := L.homeWait
  place := L.place
  key := L.key
  fences := { L.fences with }
  pool := { L.pool with }
  counts := { L.counts with }
  deadlines := { L.deadlines with }
  owners := O

theorem EngineGood.setPurge (G : EngineGood s) (p : PurgeUnit) (O : Owners (s.setPurge p)) : EngineGood (s.setPurge p) :=
  ⟨G.law.setPurge p O, G.grant, G.settled⟩

/-- The sessions change, but for their counts, and the queue of every record keeps its effective waits. -/
theorem EngineLaw.setSessions (L : EngineLaw s) (v : Vector Session 8)
    (counts : ∀ c : Client, v[c].holdCount = (s.session c).holdCount ∧ v[c].waitCount = (s.session c).waitCount)
    (O : Owners (s.setSessions v)) : EngineLaw (s.setSessions v) where
  record r x hx := (L.record r x hx).congr (fun _ _ => rfl) fun _ _ => rfl
  homeHold := L.homeHold
  homeWait := L.homeWait
  place := L.place
  key := L.key
  fences := { L.fences with }
  pool := { L.pool with }
  counts := ⟨fun c => (counts c).1.trans (L.counts.holds c), fun c => (counts c).2.trans (L.counts.waits c)⟩
  deadlines := { L.deadlines with }
  owners := O

/-- R34, R41: a change of states leaves a record's head when no wait of the record becomes or ceases to be effective. -/
theorem GrantAt.setSessions (g : GrantAt s r) (v : Vector Session 8)
    (same : ∀ w y, s.wait w = some y → y.slot = r →
      ((v[y.client]).state = .purging ↔ (s.session y.client).state = .purging))
    (L : EngineLaw s) : GrantAt (s.setSessions v) r := by
  intro he x w y hx hw hy
  have hx : s.record r = some x := hx
  have hy : s.wait w = some y := hy
  have eq : (s.setSessions v).effectiveQueue x = s.effectiveQueue x := List.filter_congr fun u hu => by
    obtain ⟨z, hz, hr⟩ := (L.record r x hx).waiter u hu
    rw [Bool.eq_iff_iff, isEffective_iff, isEffective_iff]
    have hz' : (s.setSessions v).wait u = some z := hz
    simp only [hz, hz', Option.some.injEq, exists_eq_left']
    exact not_congr (same u z hz hr)
  exact g he x w y hx (eq ▸ hw) hy

/-! ### The state of one client (R74, R124) -/

theorem Owners.modifySession (O : Owners s) (c : Client) (f : Session → Session)
    (left : (f (s.session c)).state = .detached ∨ (f (s.session c)).state = .barred →
      (∀ i h, s.hold i = some h → h.client ≠ c) ∧ ∀ w y, s.wait w = some y → y.client ≠ c)
    (head : s.purge.queue.head? = some c → (f (s.session c)).state = .purging) : Owners (s.modifySession c f) := by
  have state : ∀ d, (s.modifySession c f).session d = if c = d then f (s.session c) else s.session d :=
    fun d => session_modifySession s c d f
  refine ⟨fun i h hh => ?_, fun w y hy => ?_, fun d hd => ?_, O.passedWait, O.noWait, O.passedHold⟩
  · rw [state]
    split
    · rename_i e
      exact ⟨fun h' => (left (.inl h')).1 i h hh e.symm, fun h' => (left (.inr h')).1 i h hh e.symm⟩
    · exact O.hold i h hh
  · rw [state]
    split
    · rename_i e
      exact ⟨fun h' => (left (.inl h')).2 w y hy e.symm, fun h' => (left (.inr h')).2 w y hy e.symm⟩
    · exact O.wait w y hy
  · rw [state]
    split
    · subst_vars; exact head hd
    · exact O.purging d hd

theorem EngineLaw.modifySession (L : EngineLaw s) (c : Client) (f : Session → Session)
    (counts : (f (s.session c)).holdCount = (s.session c).holdCount ∧ (f (s.session c)).waitCount = (s.session c).waitCount)
    (O : Owners (s.modifySession c f)) : EngineLaw (s.modifySession c f) := by
  refine L.setSessions _ (fun d => ?_) O
  have e : (s.sessions.set c (f (s.session c)))[d] = if c = d then f (s.session c) else s.session d :=
    getElem_set_fin s.sessions c d _
  rw [e]
  split
  · subst_vars; exact counts
  · exact ⟨rfl, rfl⟩

/-- R34: a client without waits on the record may enter or leave PURGING, and the others keep their states. -/
theorem GrantAt.modifySession (g : GrantAt s r) (L : EngineLaw s) (c : Client) (f : Session → Session)
    (same : (∀ w y, s.wait w = some y → y.slot = r → y.client ≠ c) ∨
      ((f (s.session c)).state = .purging ↔ (s.session c).state = .purging)) : GrantAt (s.modifySession c f) r := by
  refine g.setSessions _ (fun w y hy hr => ?_) L
  have e : (s.sessions.set c (f (s.session c)))[y.client] = if c = y.client then f (s.session c) else s.session y.client :=
    getElem_set_fin s.sessions c y.client _
  rw [e]
  split
  · rename_i hc
    rcases same with h | h
    · exact absurd hc.symm (h w y hy hr)
    · rw [h, hc]
  · rfl

/-- R75, R81: a client that neither enters nor leaves PURGING changes its state. -/
theorem EngineGood.setState (G : EngineGood s) (c : Client) (f : Session → Session)
    (counts : (f (s.session c)).holdCount = (s.session c).holdCount ∧ (f (s.session c)).waitCount = (s.session c).waitCount)
    (left : (f (s.session c)).state = .detached ∨ (f (s.session c)).state = .barred →
      (s.session c).state = .detached ∨ (s.session c).state = .barred)
    (old : (s.session c).state ≠ .purging) (new : (f (s.session c)).state ≠ .purging) :
    EngineGood (s.modifySession c f) := by
  have O : Owners (s.modifySession c f) := by
    refine G.law.owners.modifySession c f (fun h => ⟨fun i g hg e => ?_, fun w y hy e => ?_⟩) fun h =>
      absurd (G.law.owners.purging c h) old
    · obtain ⟨h1, h2⟩ := G.law.owners.hold i g hg
      exact (left h).elim (e ▸ h1) (e ▸ h2)
    · obtain ⟨h1, h2⟩ := G.law.owners.wait w y hy
      exact (left h).elim (e ▸ h1) (e ▸ h2)
  exact ⟨G.law.modifySession c f counts O,
    fun r => (G.grant r).modifySession G.law c f (.inr (iff_of_false new old)), G.settled⟩

/-! ### Entering PURGING (R78) -/

/-- R78 step 3: after a pass for each wait of PURGING clients in the list, no record has a head to grant but for waits not listed. -/
theorem EngineLaw.passAll (ws : List WaitIx) (s : State) (L : EngineLaw s) (settled : ∀ r, SettledAt s r)
    (listed : ∀ w ∈ ws, ∃ y, s.wait w = some y ∧ (s.session y.client).state = .purging)
    (grant : ∀ r, GrantAt s r ∨ ∃ w ∈ ws, ∃ y, s.wait w = some y ∧ y.slot = r) :
    EngineGood (ws.foldl State.passForWait s) := by
  induction ws generalizing s with
  | nil => exact ⟨L, fun r => (grant r).resolve_right fun ⟨_, hw, _⟩ => (nomatch hw), settled⟩
  | cons w ws ih =>
    obtain ⟨y, hy, hp⟩ := listed w (.head _)
    obtain ⟨W, P, G, S⟩ := L.grantPass y.slot
    have pass : s.passForWait w = s.grantPass y.slot := by unfold State.passForWait; rw [hy]
    rw [List.foldl_cons, pass]
    have stays : ∀ v ∈ ws, ∀ z, s.wait v = some z → (s.grantPass y.slot).wait v = some z := fun v hv z hz => by
      obtain ⟨z', hz', hp'⟩ := listed v (.tail _ hv)
      rw [hz] at hz'
      cases hz'
      exact P.purging v z hz hp'
    refine ih _ W.law (fun q => ?_) (fun v hv => ?_) fun q => ?_
    · by_cases hq : q = y.slot
      · exact hq ▸ S (settled _)
      · exact (settled q).atOther W.only hq
    · obtain ⟨z, hz, hp'⟩ := listed v (.tail _ hv)
      exact ⟨z, stays v hv z hz, by rw [P.state]; exact hp'⟩
    · by_cases hq : q = y.slot
      · exact .inl (hq ▸ G)
      · rcases grant q with g | ⟨v, hv, z, hz, hr⟩
        · exact .inl (g.atOther L W.only hq)
        · rcases List.mem_cons.1 hv with rfl | hv
          · rw [hy] at hz
            cases hz
            exact absurd hr.symm hq
          · exact .inr ⟨v, hv, z, stays v hv z hz, hr⟩

theorem mem_waitsOf (s : State) (c : Client) (w : WaitIx) : w ∈ s.waitsOf c ↔ ∃ y, s.wait w = some y ∧ y.client = c := by
  unfold State.waitsOf
  rw [List.mem_filter]
  cases s.wait w <;> simp

/-- R122, R123: what joining the purge queue changes, as the engine sees it. -/
theorem sameEngine_joinPurgeQueue (s : State) (c : Client) : SameEngine (s.setPurge ⟨s.purge.queue ++ [c],
    if s.purge.queue = [] then .wait 0 else s.purge.walk⟩) (s.joinPurgeQueue c) := by
  unfold State.joinPurgeQueue
  dsimp only
  split
  · exact ((SameEngine.modifyLink (s := s.setPurge { s.purge with queue := s.purge.queue ++ [c] }) c Link.dropNotices).setPurge _)
  · exact SameEngine.refl _

theorem Owners.joinQueue (O : Owners s) {c : Client} (hc : (s.session c).state = .purging) :
    Owners (s.setPurge ⟨s.purge.queue ++ [c], if s.purge.queue = [] then .wait 0 else s.purge.walk⟩) := by
  cases hq : s.purge.queue with
  | nil =>
    refine ⟨O.hold, O.wait, fun k hk => ?_, fun k w y j _ _ _ hw => ?_, fun k w y j _ _ hw => (nomatch hw),
      fun k i h j _ _ _ hw => (nomatch hw)⟩
    · cases hk
      exact hc
    · cases hw
      exact Fin.zero_le _
  | cons k rest =>
    have head : ∀ d, (s.setPurge ⟨(k :: rest) ++ [c], s.purge.walk⟩).purge.queue.head? = some d →
        s.purge.queue.head? = some d := fun d hd => by rw [hq]; exact hd
    exact ⟨O.hold, O.wait, fun d hd => O.purging d (head d hd), fun d w y j hd => O.passedWait d w y j (head d hd),
      fun d w y j hd => O.noWait d w y j (head d hd), fun d i h j hd => O.passedHold d i h j (head d hd)⟩

/-- R78: a client that is served enters PURGING. -/
theorem EngineGood.enterPurging (G : EngineGood s) {c : Client} (served : (s.session c).state.served) (after : AfterPurge)
    (tag : Option Byte) (d : Option Deferred) : EngineGood (s.enterPurging c after tag d) := by
  obtain ⟨f, hf⟩ : ∃ f : Session → Session, f = fun k =>
    { k with state := .purging, afterPurge := some after, pendingTag := tag, deferred := d } := ⟨_, rfl⟩
  have hstate : ∀ k, (f k).state = .purging := fun k => by rw [hf]
  have entered : s.enterPurging c after tag d = (((s.modifySession c f).joinPurgeQueue c).waitsOf c).foldl State.passForWait
      ((s.modifySession c f).joinPurgeQueue c) := by rw [hf]; rfl
  have purging : ((s.modifySession c f).session c).state = .purging := by
    rw [session_modifySession, if_pos rfl]; exact hstate _
  have L : EngineLaw (s.modifySession c f) := G.law.modifySession c f (by rw [hf]; exact ⟨rfl, rfl⟩)
    (G.law.owners.modifySession c f (fun h => by simp [hstate] at h) fun _ => hstate _)
  have S := sameEngine_joinPurgeQueue (s.modifySession c f) c
  have wait : ∀ w, ((s.modifySession c f).joinPurgeQueue c).wait w = s.wait w := fun w => S.wait w
  rw [entered]
  refine EngineLaw.passAll _ _ (S.engineLaw (L.setPurge _ (L.owners.joinQueue purging)))
    (fun q => S.settledAt (G.settled q)) (fun w hw => ?_) fun q => ?_
  · obtain ⟨y, hy, rfl⟩ := (mem_waitsOf _ c w).1 hw
    exact ⟨y, hy, (S.state _).trans purging⟩
  · by_cases h : ∃ w y, s.wait w = some y ∧ y.slot = q ∧ y.client = c
    · obtain ⟨w, y, hy, hr, hc⟩ := h
      exact .inr ⟨w, (mem_waitsOf _ c w).2 ⟨y, (wait w).trans hy, hc⟩, y, (wait w).trans hy, hr⟩
    · have g : GrantAt (s.modifySession c f) q :=
        (G.grant q).modifySession G.law c f (.inl fun w y hy hr e => h ⟨w, y, hy, hr, e⟩)
      exact .inl (S.grantAt g)

/-! ### The steps of the walk (R124 to R126) -/

/-- R125: the step on a wait slot leaves no wait of the client in it and makes no claim. -/
theorem EngineGood.purgeWait (G : EngineGood s) (c : Client) (w : WaitIx) : EngineGood (s.purgeWait c w) ∧
    Continues s (s.purgeWait c w) ∧ ∀ y, (s.purgeWait c w).wait w = some y → y.client ≠ c := by
  unfold State.purgeWait
  split
  · rename_i y hy
    split
    · have W := G.law.freeWait hy
      obtain ⟨C, hnone, -⟩ := G.law.freeWait_rest hy
      obtain ⟨-, P, -⟩ := W.law.settleRecord y.slot
      refine ⟨G.settle W, C.trans P.continues, fun z hz => ?_⟩
      have := P.continues.wait w z hz
      rw [hnone] at this
      cases this
    · rename_i hc
      refine ⟨G, (SameEngine.refl s).continues, fun z hz => ?_⟩
      rw [hy] at hz
      cases hz
      exact hc
  · rename_i hn
    refine ⟨G, (SameEngine.refl s).continues, fun z hz => ?_⟩
    rw [hn] at hz
    cases hz

/-- R126: the step on a hold slot, of a client that has no waits, leaves it no hold in the slot and makes no claim. -/
theorem EngineGood.purgeHold (G : EngineGood s) (c : Client) (i : HoldIx)
    (noWait : ∀ w y, s.wait w = some y → y.client ≠ c) : EngineGood (s.purgeHold c i) ∧ Continues s (s.purgeHold c i) ∧
      ∀ h, (s.purgeHold c i).hold i = some h → h.client ≠ c := by
  unfold State.purgeHold
  split
  · rename_i h hh
    split
    · have W := G.law.freeHold hh
      obtain ⟨C, hnone, -⟩ := G.law.freeHold_rest hh
      obtain ⟨-, P, -⟩ := W.law.settleRecord h.slot
      refine ⟨G.settle W, C.trans P.continues, fun g hg hc => ?_⟩
      rcases P.continues.hold i g hg with ⟨k, hk, -⟩ | ⟨w, y, hy, e, -⟩
      · rw [hnone] at hk
        cases hk
      · exact noWait w y (C.wait w y hy) (e.trans hc)
    · rename_i hc
      refine ⟨G, (SameEngine.refl s).continues, fun g hg => ?_⟩
      rw [hh] at hg
      cases hg
      exact hc
  · rename_i hn
    refine ⟨G, (SameEngine.refl s).continues, fun g hg => ?_⟩
    rw [hn] at hg
    cases hg

/-- R124: the walk moves past a wait slot. -/
theorem EngineGood.purgeWaitStep (G : EngineGood s) {c : Client} {w : WaitIx} (hq : s.purge.queue.head? = some c)
    (hw : s.purge.walk = .wait w) : EngineGood ((s.purgeWait c w).setWalk (afterWaitStep w)) := by
  obtain ⟨G', C, N⟩ := G.purgeWait c w
  have purge : (s.purgeWait c w).purge = s.purge := (EngineOnly.purgeWait (o := none) c w).outside.purge
  have head : ∀ d, ((s.purgeWait c w).setWalk (afterWaitStep w)).purge.queue.head? = some d → d = c := fun d hd => by
    have hd : (s.purgeWait c w).purge.queue.head? = some d := hd
    rw [purge, hq] at hd
    exact (Option.some.inj hd).symm
  -- the waits of the client lie after slot w
  have after : ∀ v y, (s.purgeWait c w).wait v = some y → y.client = c → w < v := fun v y hy hc =>
    lt_of_le_of_ne (G.law.owners.passedWait c v y w hq (C.wait v y hy) hc hw) fun e => N y (e ▸ hy) hc
  refine G'.setPurge _ ⟨G'.law.owners.hold, G'.law.owners.wait, fun d hd => ?_, fun d v y u hd hy hc hu => ?_,
    fun d v y j hd hy hj hc => ?_, fun d i h j _ _ _ hj => ?_⟩
  · exact G'.law.owners.purging d hd
  · have hlt := after v y hy (hc.trans (head d hd))
    have hu : afterWaitStep w = .wait u := hu
    unfold afterWaitStep at hu
    split at hu
    · cases hu
      exact Fin.mk_le_of_le_val (Nat.succ_le_of_lt hlt)
    · cases hu
  · have hlt := after v y hy (hc.trans (head d hd))
    have hj : afterWaitStep w = .hold j := hj
    unfold afterWaitStep at hj
    split at hj
    · cases hj
    · have h1 := v.isLt
      have h2 : w.val < v.val := hlt
      omega
  · have hj : afterWaitStep w = .hold j := hj
    unfold afterWaitStep at hj
    split at hj
    · cases hj
    · cases hj
      exact Fin.zero_le _

section
variable {c : Client} {i : HoldIx} (G : EngineGood s) (hq : s.purge.queue.head? = some c) (hw : s.purge.walk = .hold i)
include G hq hw

/-- R124: after the step on hold slot i the client has no wait, and its holds lie after slot i. -/
theorem EngineGood.purgeHold_left : (∀ w y, (s.purgeHold c i).wait w = some y → y.client ≠ c) ∧
    ∀ j h, (s.purgeHold c i).hold j = some h → h.client = c → i < j := by
  have noWait : ∀ w y, s.wait w = some y → y.client ≠ c := fun w y hy => G.law.owners.noWait c w y i hq hy hw
  obtain ⟨-, C, N⟩ := G.purgeHold c i noWait
  refine ⟨fun w y hy => noWait w y (C.wait w y hy), fun j h hh hc => ?_⟩
  refine lt_of_le_of_ne ?_ fun e => N h (e ▸ hh) hc
  rcases C.hold j h hh with ⟨k, hk, e, -⟩ | ⟨w, y, hy, e, -⟩
  · exact G.law.owners.passedHold c j k i hq hk (e.trans hc) hw
  · exact absurd (e.trans hc) (noWait w y hy)

/-- R124: the walk moves past a hold slot that is not the last. -/
theorem EngineGood.purgeHoldStep (h : i.val + 1 < 256) :
    EngineGood ((s.purgeHold c i).setWalk (.hold ⟨i.val + 1, h⟩)) := by
  obtain ⟨G', -, -⟩ := G.purgeHold c i fun w y hy => G.law.owners.noWait c w y i hq hy hw
  obtain ⟨noWait, after⟩ := G.purgeHold_left hq hw
  have purge : (s.purgeHold c i).purge = s.purge := (EngineOnly.purgeHold (o := none) c i).outside.purge
  have head : ∀ d, (s.purgeHold c i).purge.queue.head? = some d → d = c := fun d hd => by
    rw [purge, hq] at hd
    exact (Option.some.inj hd).symm
  refine G'.setPurge _ ⟨G'.law.owners.hold, G'.law.owners.wait, G'.law.owners.purging, fun d v y u _ _ _ hu => (nomatch hu),
    fun d v y j hd hy _ hc => noWait v y hy (hc.trans (head d hd)), fun d j g k hd hg hc hk => ?_⟩
  cases hk
  exact Fin.mk_le_of_le_val (Nat.succ_le_of_lt (after j g hg (hc.trans (head d hd))))

end

/-! ### The end of a purge (R80, R130) -/

theorem SameEngine.answerDeferred (c : Client) (d : Option Deferred) : SameEngine s (s.answerDeferred c d) := by
  unfold State.answerDeferred
  split
  · exact respond _ _ _
  · exact refl s

/-- R130, step 5: the start of the next purge, as the engine sees it. -/
theorem sameEngine_nextPurge (s : State) :
    SameEngine (s.setPurge ⟨s.purge.queue, if s.purge.queue = [] then .idle else .wait 0⟩) s.nextPurge := by
  unfold State.nextPurge
  cases hq : s.purge.queue with
  | nil => exact { SameEngine.refl _ with purge := by simp [hq] }
  | cons d rest =>
    exact (SameEngine.modifyLink d Link.dropNotices).trans { SameEngine.refl _ with purge := by simp [State.purgeStart, hq] }

/-- R130: the end of a purge, as the engine sees it. -/
theorem sameEngine_purgeEnd (s : State) (c : Client) :
    SameEngine ((s.setPurge ⟨s.purge.queue.tail, if s.purge.queue.tail = [] then .idle else .wait 0⟩).modifySession c
      Session.endPurge) (s.purgeEnd c) := by
  unfold State.purgeEnd
  dsimp only
  obtain ⟨t, ht⟩ : ∃ t, t = (s.modifySession c Session.endPurge).answerDeferred c (s.session c).deferred := ⟨_, rfl⟩
  have S : SameEngine (s.modifySession c Session.endPurge) t := ht ▸ .answerDeferred _ _
  rw [← ht]
  have queue : s.purge.queue = t.purge.queue := by rw [S.purge]; rfl
  have ended : SameEngine (s.modifySession c Session.endPurge) (t.raise .purgeDone) := S.trans (.raise _)
  rw [queue]
  exact (ended.setPurge _).trans (sameEngine_nextPurge ((t.setPurge { t.purge with queue := t.purge.queue.tail }).raise .purgeDone))

/-- R130: the purge of a client that has no claims left ends. -/
theorem EngineGood.purgeEnd (G : EngineGood s) {c : Client} (hq : s.purge.queue.head? = some c)
    (once : s.purge.queue.Nodup) (purging : ∀ d ∈ s.purge.queue, (s.session d).state = .purging)
    (noHold : ∀ i h, s.hold i = some h → h.client ≠ c) (noWait : ∀ w y, s.wait w = some y → y.client ≠ c) :
    EngineGood (s.purgeEnd c) := by
  refine (sameEngine_purgeEnd s c).engineGood ?_
  have queue : s.purge.queue = c :: s.purge.queue.tail := List.eq_cons_of_mem_head? hq
  have O : Owners (s.setPurge ⟨s.purge.queue.tail, if s.purge.queue.tail = [] then .idle else .wait 0⟩) := by
    have walk : ∀ v, (if s.purge.queue.tail = [] then WalkPosition.idle else .wait 0) = .wait v → v = 0 := fun v hv => by
      split at hv <;> cases hv
      rfl
    have noHoldWalk : ∀ j, (if s.purge.queue.tail = [] then WalkPosition.idle else .wait 0) ≠ .hold j := fun j hj => by
      split at hj <;> cases hj
    exact ⟨G.law.owners.hold, G.law.owners.wait,
      fun d hd => purging d (List.mem_of_mem_tail (List.mem_of_mem_head? hd)),
      fun d w y v _ _ _ hv => by rw [walk v hv]; exact Fin.zero_le _, fun d w y j _ _ hj => absurd hj (noHoldWalk j),
      fun d i h j _ _ _ hj => absurd hj (noHoldWalk j)⟩
  have G' := G.setPurge _ O
  have O' := O.modifySession c Session.endPurge (fun _ => ⟨noHold, noWait⟩) fun hd => by
    rw [queue] at once
    exact absurd (List.mem_of_mem_head? hd) (List.nodup_cons.1 once).1
  exact ⟨G'.law.modifySession c _ ⟨rfl, rfl⟩ O',
    fun r => (G'.grant r).modifySession G'.law c _ (.inl fun w y hy _ => noWait w y hy), G'.settled⟩

/-! ### The tick, the seed and CLEAR ALL -/

theorem EngineGood.tick (G : EngineGood s) : EngineGood (((s.setTimer s.timer.tick).setDeadlines
    (markDue (s.now + 1) s.deadlines)).setSessions (s.sessions.map Session.refill)) := by
  have read : ∀ c : Client, (s.sessions.map Session.refill)[c] = (s.session c).refill := fun c => by simp [State.session]
  have S : SameEngine s ((s.setTimer s.timer.tick).setSessions (s.sessions.map Session.refill)) :=
    { SameEngine.refl s with
      session := fun c => by
        show (((s.sessions.map Session.refill)[c]).state = _ ∧ ((s.sessions.map Session.refill)[c]).holdCount = _ ∧
          ((s.sessions.map Session.refill)[c]).waitCount = _)
        rw [read]
        exact ⟨rfl, rfl, rfl⟩ }
  have G' := S.engineGood G
  have D := ((deadlineLaw_iff _).1 G'.law.deadlines).mark (s.now + 1)
  have marked : (deadlines : List DeadlineEntry) → deadlines = markDue (s.now + 1) s.deadlines → EngineGood
      (((s.setTimer s.timer.tick).setSessions (s.sessions.map Session.refill)).setDeadlines deadlines) := fun deadlines hd => {
    law := {
      record := fun r x hx => (G'.law.record r x hx).congr (fun _ _ => rfl) fun _ _ => rfl
      homeHold := G'.law.homeHold
      homeWait := G'.law.homeWait
      place := G'.law.place
      key := G'.law.key
      fences := { G'.law.fences with }
      pool := { G'.law.pool with }
      counts := { G'.law.counts with }
      deadlines := (deadlineLaw_iff _).2 (hd ▸ D)
      owners := { G'.law.owners with } }
    grant := G'.grant
    settled := G'.settled }
  exact marked _ rfl

/-- R3: the seed changes only while the table is empty. -/
theorem EngineGood.setSeed (G : EngineGood s) (b : Byte) (empty : ∀ r, s.record r = none) : EngineGood (s.setSeed b) where
  law := {
    record := fun r x hx => (G.law.record r x hx).congr (fun _ _ => rfl) fun _ _ => rfl
    homeHold := G.law.homeHold
    homeWait := G.law.homeWait
    place := fun r x hx => by
      have hx : s.record r = some x := hx
      rw [empty] at hx
      cases hx
    key := G.law.key
    fences := { G.law.fences with }
    pool := { G.law.pool with }
    counts := { G.law.counts with }
    deadlines := { G.law.deadlines with }
    owners := { G.law.owners with } }
  grant := G.grant
  settled := G.settled

@[simp] theorem record_clearPart (s : State) (r : Slot) : s.clearPart.record r = none := by
  simp [State.record, State.clearPart]

@[simp] theorem hold_clearPart (s : State) (i : HoldIx) : s.clearPart.hold i = none := by
  simp [State.hold, State.holdSlot, State.clearPart]

@[simp] theorem wait_clearPart (s : State) (w : WaitIx) : s.clearPart.wait w = none := by
  simp [State.wait, State.waitSlot, State.clearPart]

@[simp] theorem session_clearPart (s : State) (c : Client) : s.clearPart.session c = (s.session c).clear := by
  simp [State.session, State.clearPart]

@[simp] theorem clear_holdCount (k : Session) : k.clear.holdCount = 0 := by
  unfold Session.clear
  dsimp only
  split <;> rfl

@[simp] theorem clear_waitCount (k : Session) : k.clear.waitCount = 0 := by
  unfold Session.clear
  dsimp only
  split <;> rfl

/-- R166: the cleared part obeys the laws of the engine whatever was before, but for its fences. -/
theorem engineGood_clearPart (L : FenceLaw s) : EngineGood s.clearPart where
  law := {
    record := fun r x hx => by simp at hx
    homeHold := fun i h hh => by simp at hh
    homeWait := fun w y hy => by simp at hy
    place := fun r x hx => by simp at hx
    key := fun r r' x x' hx => by simp at hx
    fences := L.of_sub rfl (fun i h hh => by simp at hh) fun r x hx => by simp at hx
    pool := by
      have e : s.clearPart.holdCounts = ⟨256, 0, 0⟩ := rfl
      constructor <;> simp [e, State.holdsInUse, State.newWaits]
    counts := by constructor <;> simp
    deadlines := by
      refine ⟨List.nodup_nil, fun ref d => ?_⟩
      cases ref <;> simp [State.deadlineOf, State.clearPart, State.record, State.hold, State.wait, State.holdSlot,
        State.waitSlot]
    owners := by
      have e : s.clearPart.purge = ⟨[], .idle⟩ := rfl
      constructor <;> simp [e] }
  grant r _ x w y hx := by simp at hx
  settled r x hx := by simp at hx

theorem SameEngine.answerAll (b : State) (cs : List Client) (s : State) :
    SameEngine s (cs.foldl (State.answerCleared b) s) := by
  induction cs generalizing s with
  | nil => exact refl s
  | cons c cs ih =>
    refine SameEngine.trans ?_ (ih _)
    unfold State.answerCleared
    split
    · exact respond _ _ _
    · exact refl s

theorem engineGood_clearAll (L : FenceLaw s) : EngineGood s.clearAll :=
  ((SameEngine.answerAll s _ s.clearPart).trans (.complete _ _)).engineGood (engineGood_clearPart L)

/-! ### Sessions (R75, R76, R81) -/

/-- R75, R76, R91: an ATTACH of a client that is not PURGING or BARRED. -/
theorem EngineGood.decideAttach (G : EngineGood s) {l : Client} (hp : (s.session l).state ≠ .purging)
    (hb : (s.session l).state ≠ .barred) (tag new : Byte) : EngineGood (s.decideAttach l tag new) := by
  unfold State.decideAttach
  split
  · exact (G.setState l _ ⟨rfl, rfl⟩ (fun h => by simp at h) hp (by simp)).respond _ _ _
  · rename_i hd
    split
    · exact G.respond _ _ _
    · refine G.enterPurging ?_ _ _ _
      unfold ClientState.served
      cases h : (s.session l).state <;> simp_all

theorem EngineGood.applyAction (G : EngineGood s) {c : Client} {a : ClientAction} (h : s.applyAction c a = some t) :
    EngineGood t := by
  unfold State.applyAction at h
  split at h <;> cases h
  case h_1 hs => exact G.setState c _ ⟨rfl, rfl⟩ (fun h => by simp at h) (by simp [hs]) (by simp)
  case h_2 => exact G
  case h_3 hs => exact G.setState c _ ⟨rfl, rfl⟩ (fun h => by simp at h) (by simp [hs]) (by simp)
  case h_4 => exact G
  case h_5 hs => exact G.enterPurging (.inl hs) _ _ _
  case h_6 hs => exact G.enterPurging (.inr hs) _ _ _
  case h_7 hs => exact G.setState c _ ⟨rfl, rfl⟩ (fun _ => .inl hs) (by simp [hs]) (by simp)
  case h_8 hs =>
    refine SameEngine.engineGood { SameEngine.refl s with session := fun d => ?_ } G
    rw [session_modifySession]
    split
    · subst_vars; exact ⟨rfl, rfl, rfl⟩
    · exact ⟨rfl, rfl, rfl⟩
  case h_9 hs => exact G.setState c _ ⟨rfl, rfl⟩ (fun _ => .inr hs) (by simp [hs]) (by simp)
  case h_10 hs => exact G.enterPurging (.inl hs) _ _ _
  case h_11 hs => exact G.enterPurging (.inr hs) _ _ _

theorem EngineGood.setClient (G : EngineGood s) (p : Vector Word 4) : EngineGood (s.setClient p) := by
  unfold State.setClient
  split
  · split
    · exact G.complete _ _
    · split
      · exact (G.applyAction ‹_›).complete _ _
      · exact G.complete _ _
  · exact G.complete _ _

end Sys2Proof.Machine
end

