-- ==== Sys2Proof/Proofs/Standing.lean ====
section
/-! PROOFS. The laws outside the engine: links, sessions and the purge queue, closing marks, and the notice queues of clients whose notices
are discarded (R21, R72, R79, R114 to R120, R122 to R124). Most happenings do not touch what these laws speak of: `Calm`. -/

namespace Sys2Proof.Machine

open Sys2Proof

variable {s t u : State}

/-- R74, R123: a DETACHED or BARRED client and the client being walked have empty notice queues. -/
structure NoticeLaw (s : State) : Prop where
  gone : ∀ c : Client, (s.session c).state = .detached ∨ (s.session c).state = .barred → (s.link c).noticeQueue = []
  walked : ∀ c, s.purge.queue.head? = some c → (s.link c).noticeQueue = []

/-! ### The session record of one client -/

/-- The fields that the laws of sessions speak of are the same. -/
structure SameStanding (a b : Session) : Prop where
  state : b.state = a.state
  tag : b.tag = a.tag
  afterPurge : b.afterPurge = a.afterPurge
  pendingTag : b.pendingTag = a.pendingTag
  deferred : b.deferred = a.deferred

theorem SameStanding.refl (a : Session) : SameStanding a a := ⟨rfl, rfl, rfl, rfl, rfl⟩

theorem SameStanding.trans {a b c : Session} (h : SameStanding a b) (k : SameStanding b c) : SameStanding a c :=
  ⟨k.state.trans h.state, k.tag.trans h.tag, k.afterPurge.trans h.afterPurge, k.pendingTag.trans h.pendingTag,
    k.deferred.trans h.deferred⟩

/-- The law of a session record but for its link: `queued` says that the client is in the purge queue. -/
structure SessionForm (k : Session) (queued : Prop) : Prop where
  queued : queued ↔ k.state = .purging
  absent : k.state ≠ .purging → k.afterPurge = none ∧ k.pendingTag = none ∧ k.deferred = none
  after : k.state = .purging → k.afterPurge ≠ none
  pendingTag : k.afterPurge = some .active ↔ k.pendingTag ≠ none
  tagRange : k.pendingTag ≠ some 0
  active : k.afterPurge = some .active → ∃ b, k.deferred = some ⟨.attach, b⟩
  attach : ∀ b, k.deferred = some ⟨.attach, b⟩ → k.afterPurge = some .active ∨ k.afterPurge = some .barred
  detach : ∀ b, k.deferred = some ⟨.detach, b⟩ → k.afterPurge = some .detached ∨ k.afterPurge = some .barred
  tag : k.tag = 0 ↔ k.state = .detached ∨ k.state = .barred

theorem SessionLaw.form {c : Client} (h : SessionLaw s c) : SessionForm (s.session c) (c ∈ s.purge.queue) := { h with }

theorem SessionForm.law {c : Client} (h : SessionForm (s.session c) (c ∈ s.purge.queue))
    (progress : (s.session c).deferred ≠ none ↔ (s.link c).inProgress ≠ none) : SessionLaw s c :=
  { h with inProgress := progress }

theorem SessionForm.congr {a b : Session} {p q : Prop} (h : SessionForm a p) (e : SameStanding a b) (hq : q ↔ p) :
    SessionForm b q := by
  constructor <;> simp only [e.state, e.tag, e.afterPurge, e.pendingTag, e.deferred, hq]
  · exact h.queued
  · exact h.absent
  · exact h.after
  · exact h.pendingTag
  · exact h.tagRange
  · exact h.active
  · exact h.attach
  · exact h.detach
  · exact h.tag

/-- The sessions and the purge queue change for client l only. -/
theorem SessionsLaw.change (L : SessionsLaw s) (l : Client) (others : ∀ c, c ≠ l → SameStanding (s.session c) (t.session c))
    (form : SessionForm (t.session l) (l ∈ t.purge.queue))
    (progress : ∀ c, c ≠ l → ((t.link c).inProgress = none ↔ (s.link c).inProgress = none))
    (mine : (t.session l).deferred ≠ none ↔ (t.link l).inProgress ≠ none)
    (queue : ∀ c, c ≠ l → (c ∈ t.purge.queue ↔ c ∈ s.purge.queue)) (once : t.purge.queue.Nodup)
    (walk : t.purge.walk = .idle ↔ t.purge.queue = []) : SessionsLaw t := by
  refine ⟨fun c => ?_, once, walk⟩
  by_cases hc : c = l
  · exact hc ▸ form.law mine
  · refine ((L.each c).form.congr (others c hc) (queue c hc)).law ?_
    rw [(others c hc).deferred, Ne, Ne, progress c hc]
    exact (L.each c).inProgress

/-! ### Happenings that these laws hardly see -/

/-- From s to t the sessions keep their standing, the purge queue, the marks and the walk of a domain are the same, links keep their laws and
whether a request is in progress, but for the link that is exempt, and no notice comes to a client whose notices are discarded. -/
structure Calm (exempt : Option Client) (s t : State) : Prop where
  session : ∀ c : Client, SameStanding (s.session c) (t.session c)
  link : ∀ l : Client, LinkLaw (s.link l) → LinkLaw (t.link l)
  progress : ∀ l : Client, exempt ≠ some l → ((t.link l).inProgress = none ↔ (s.link l).inProgress = none)
  notices : ∀ l : Client, (s.session l).state.discardsNotices = true → (s.link l).noticeQueue = [] →
    (t.link l).noticeQueue = []
  queue : t.purge.queue = s.purge.queue
  walk : t.purge.walk = .idle ↔ s.purge.walk = .idle
  closing : t.closing = s.closing
  walking : ∀ k, t.admin.busy = .walking k ↔ s.admin.busy = .walking k

namespace Calm

variable {o : Option Client}

theorem refl (o : Option Client) (s : State) : Calm o s s :=
  ⟨fun _ => .refl _, fun _ => id, fun _ _ => Iff.rfl, fun _ _ => id, rfl, Iff.rfl, rfl, fun _ => Iff.rfl⟩

theorem trans (h : Calm o s t) (k : Calm o t u) : Calm o s u where
  session c := (h.session c).trans (k.session c)
  link l := k.link l ∘ h.link l
  progress l hl := (k.progress l hl).trans (h.progress l hl)
  notices l hd hq := k.notices l (by rw [(h.session l).state]; exact hd) (h.notices l hd hq)
  queue := k.queue.trans h.queue
  walk := k.walk.trans h.walk
  closing := k.closing.trans h.closing
  walking d := (k.walking d).trans (h.walking d)

/-- The exempt link has its request ended as it had none before. -/
theorem close {l : Client} (h : Calm (some l) s t) (hs : (s.link l).inProgress = none) (ht : (t.link l).inProgress = none) :
    Calm o s t :=
  { h with
    progress := fun k _ => by
      by_cases hk : k = l
      · subst hk; rw [hs, ht]
      · exact h.progress k (fun e => hk (Option.some.inj e).symm) }

theorem of_engineOnly (h : EngineOnly o s t) : Calm o s t where
  session c := by
    obtain ⟨a, b, e⟩ := h.session c
    rw [e]
    exact ⟨rfl, rfl, rfl, rfl, rfl⟩
  link l := (h.link l).law
  progress l hl := by rw [h.progress l hl]
  notices := h.notices
  queue := by rw [h.outside.purge]
  walk := by rw [h.outside.purge]
  closing := h.outside.closing
  walking d := by rw [h.outside.admin]

theorem modifyLink (l : Client) (f : Link → Link) (law : LinkLaw (s.link l) → LinkLaw (f (s.link l)))
    (progress : o ≠ some l → ((f (s.link l)).inProgress = none ↔ (s.link l).inProgress = none))
    (notices : (s.link l).noticeQueue = [] → (f (s.link l)).noticeQueue = []) : Calm o s (s.modifyLink l f) :=
  { refl o s with
    link := fun k => by
      rw [link_modifyLink]
      split
      · rename_i h; subst h; exact law
      · exact id
    progress := fun k hk => by
      rw [link_modifyLink]
      split
      · rename_i h; subst h; exact progress hk
      · rfl
    notices := fun k _ => by
      rw [link_modifyLink]
      split
      · rename_i h; subst h; exact notices
      · exact id }

theorem modifySession (c : Client) (f : Session → Session) (hf : SameStanding (s.session c) (f (s.session c))) :
    Calm o s (s.modifySession c f) :=
  { refl o s with
    session := fun d => by
      rw [session_modifySession]
      split
      · rename_i h; subst h; exact hf
      · exact .refl _ }

theorem raise (f : EventFlag) : Calm o s (s.raise f) := { refl o s with }

theorem countLink (l : Client) (f : LinkCounters → LinkCounters) : Calm o s (s.countLink l f) := { refl o s with }

theorem setAdmin (x : AdminEngine) (h : ∀ k, x.busy = .walking k ↔ s.admin.busy = .walking k) : Calm o s (s.setAdmin x) :=
  { refl o s with walking := h }

/-- R153: a command completes that is no walk. -/
theorem complete (h : ∀ k, s.admin.busy ≠ .walking k) (code : ResultCode) (ws : List Word) : Calm o s (s.complete code ws) :=
  (setAdmin _ fun k => iff_of_false (fun e => by cases e) (h k)).trans (raise _)

/-- R124: the walk moves on. -/
theorem setWalk (p : WalkPosition) (hs : s.purge.walk ≠ .idle) (hp : p ≠ .idle) : Calm o s (s.setWalk p) :=
  { refl o s with walk := iff_of_false hp hs }

end Calm

/-! ### What a happening keeps -/

/-- From s to t the laws outside the engine are kept. -/
structure Keeping (s t : State) : Prop where
  links : LinksLaw s → LinksLaw t
  sessions : SessionsLaw s → SessionsLaw t
  marks : MarkLaw s → MarkLaw t
  notices : SessionsLaw s → NoticeLaw s → NoticeLaw t

theorem Keeping.trans (h : Keeping s t) (k : Keeping t u) : Keeping s u where
  links := k.links ∘ h.links
  sessions := k.sessions ∘ h.sessions
  marks := k.marks ∘ h.marks
  notices S N := k.notices (h.sessions S) (h.notices S N)

theorem Keeping.refl (s : State) : Keeping s s := ⟨id, id, id, fun _ => id⟩

theorem isClosing_congr (h : t.closing = s.closing) (d : BitVec 4) : t.isClosing d = s.isClosing d := by
  unfold State.isClosing
  rw [h]

theorem Calm.keeping (h : Calm none s t) : Keeping s t where
  links L l := h.link l (L l)
  sessions L := by
    refine ⟨fun c => ?_, by rw [h.queue]; exact L.once, by rw [h.walk, h.queue]; exact L.walk⟩
    refine ((L.each c).form.congr (h.session c) (by rw [h.queue])).law ?_
    rw [(h.session c).deferred, Ne, Ne, h.progress c (by simp)]
    exact (L.each c).inProgress
  marks M d := by
    simp only [isClosing_congr h.closing, h.walking]
    exact M d
  notices S N := by
    refine ⟨fun c hc => ?_, fun c hc => ?_⟩
    · rw [(h.session c).state] at hc
      refine h.notices c ?_ (N.gone c hc)
      rcases hc with hc | hc <;> rw [hc] <;> rfl
    · rw [h.queue] at hc
      refine h.notices c ?_ (N.walked c hc)
      rw [(S.each c).queued.1 (List.mem_of_mem_head? hc)]
      rfl

theorem EngineOnly.keeping (h : EngineOnly none s t) : Keeping s t := (Calm.of_engineOnly h).keeping

end Sys2Proof.Machine
end

