-- ==== Sys2Proof/Proofs/Purging.lean ====
section
/-! PROOFS. Entering PURGING, the end of a purge, ATTACH, DETACH and SET CLIENT STATE keep the laws outside the engine (R75 to R81, R91, R92,
R122 to R130). -/

namespace Sys2Proof.Machine

open Sys2Proof

variable {s t u : State}

/-! ### Entering PURGING (R78) -/

/-- R72, R76, R79: what a client takes into PURGING fits together. -/
structure Fits (after : AfterPurge) (tag : Option Byte) (d : Option Deferred) : Prop where
  pendingTag : after = .active ↔ tag ≠ none
  tagRange : tag ≠ some 0
  active : after = .active → ∃ b, d = some ⟨.attach, b⟩
  attach : ∀ b, d = some ⟨.attach, b⟩ → after = .active ∨ after = .barred
  detach : ∀ b, d = some ⟨.detach, b⟩ → after = .detached ∨ after = .barred

/-- R78 step 1: the session record that enters PURGING. -/
def Session.enter (k : Session) (after : AfterPurge) (tag : Option Byte) (d : Option Deferred) : Session :=
  { k with state := .purging, afterPurge := some after, pendingTag := tag, deferred := d }

theorem Fits.form {after : AfterPurge} {tag : Option Byte} {d : Option Deferred} (F : Fits after tag d) {k : Session} {p q : Prop}
    (h : SessionForm k p) (served : k.state.served) (hq : q) : SessionForm (k.enter after tag d) q where
  queued := iff_of_true hq rfl
  absent h := absurd rfl h
  after _ := by simp [Session.enter]
  pendingTag := by simpa [Session.enter] using F.pendingTag
  tagRange := F.tagRange
  active := by simpa [Session.enter] using F.active
  attach b hb := by simpa [Session.enter] using F.attach b hb
  detach b hb := by simpa [Session.enter] using F.detach b hb
  tag := by
    have := h.tag
    rcases served with e | e <;> simpa [e, Session.enter] using this

/-- The client's session record and the purge queue after R78, steps 1 and 2. -/
theorem joinPurgeQueue_cases (s : State) (c : Client) :
    (s.purge.queue = [] ∧ s.joinPurgeQueue c = (s.modifyLink c Link.dropNotices).setPurge ⟨[c], .wait 0⟩) ∨
      s.purge.queue ≠ [] ∧ s.joinPurgeQueue c = s.setPurge ⟨s.purge.queue ++ [c], s.purge.walk⟩ := by
  unfold State.joinPurgeQueue
  dsimp only
  split
  · rename_i h
    refine .inl ⟨h, ?_⟩
    rw [h]
    rfl
  · exact .inr ⟨‹_›, rfl⟩

theorem session_joinPurgeQueue (s : State) (c d : Client) : (s.joinPurgeQueue c).session d = s.session d := by
  rcases joinPurgeQueue_cases s c with ⟨-, e⟩ | ⟨-, e⟩ <;> rw [e] <;> rfl

theorem queue_joinPurgeQueue (s : State) (c : Client) : (s.joinPurgeQueue c).purge.queue = s.purge.queue ++ [c] := by
  rcases joinPurgeQueue_cases s c with ⟨h, e⟩ | ⟨-, e⟩ <;> rw [e]
  · rw [h]; rfl
  · rfl

theorem link_joinPurgeQueue (s : State) (c l : Client) : (s.joinPurgeQueue c).link l = s.link l ∨
    (s.joinPurgeQueue c).link l = (s.link l).dropNotices := by
  rcases joinPurgeQueue_cases s c with ⟨-, e⟩ | ⟨-, e⟩ <;> rw [e]
  · rw [link_setPurge, link_modifyLink]
    split
    · subst_vars; exact .inr rfl
    · exact .inl rfl
  · exact .inl rfl

/-- R78, R79: a client that is served enters PURGING, with the request that its link has in progress, if it has one. -/
theorem Keeping.enterPurging {o : Option Client} {c : Client} {after : AfterPurge} {tag : Option Byte} {d : Option Deferred}
    (K : Calm o s u) (ho : o = none ∨ o = some c) (served : (s.session c).state.served) (F : Fits after tag d)
    (mine : SessionsLaw s → (d ≠ none ↔ (u.link c).inProgress ≠ none)) : Keeping s (u.enterPurging c after tag d) := by
  obtain ⟨v, hv⟩ : ∃ v, v = (u.modifySession c fun k => k.enter after tag d).joinPurgeQueue c := ⟨_, rfl⟩
  have passes : Calm none v (u.enterPurging c after tag d) := by
    have e : u.enterPurging c after tag d = (v.waitsOf c).foldl State.passForWait v := by rw [hv]; rfl
    rw [e]
    exact .of_engineOnly (.foldl _ (fun _ w => .passForWait w) _ _)
  refine Keeping.trans ?_ passes.keeping
  have session : ∀ k : Client, v.session k = if c = k then (u.session c).enter after tag d else u.session k := fun k => by
    rw [hv, session_joinPurgeQueue]; exact session_modifySession _ _ _ _
  have queue : v.purge.queue = s.purge.queue ++ [c] := by rw [hv, queue_joinPurgeQueue, ← K.queue]; rfl
  have link : ∀ l, v.link l = u.link l ∨ v.link l = (u.link l).dropNotices := fun l => by
    rw [hv]; exact link_joinPurgeQueue (u.modifySession c fun k => k.enter after tag d) c l
  have progress : ∀ l : Client, (v.link l).inProgress = (u.link l).inProgress := fun l => by
    rcases link l with e | e <;> rw [e]
    rfl
  have served' : (u.session c).state.served := by rw [(K.session c).state]; exact served
  have exempt : ∀ k, k ≠ c → o ≠ some k := fun k hk => by
    rcases ho with rfl | rfl
    · simp
    · exact fun h => hk (Option.some.inj h).symm
  have others : ∀ k, k ≠ c → SameStanding (s.session k) (v.session k) := fun k hk => by
    rw [session, if_neg (Ne.symm hk)]; exact K.session k
  have sessions : SessionsLaw s → SessionsLaw v := fun L => by
    have out : c ∉ s.purge.queue := fun h => by
      have := (L.each c).queued.1 h
      rcases served with e | e <;> rw [e] at this <;> cases this
    refine L.change c others ?_ (fun k hk => ?_) ?_ (fun k hk => ?_) ?_ ?_
    · rw [session, if_pos rfl]
      exact F.form ((L.each c).form.congr (K.session c) Iff.rfl) served' (by simp [queue])
    · rw [progress]; exact K.progress k (exempt k hk)
    · rw [session, if_pos rfl, progress]; exact mine L
    · simp [queue, hk]
    · rw [queue]
      exact List.nodup_append.2 ⟨L.once, by simp, fun a ha b hb => by simp at hb; rintro rfl; exact out (hb ▸ ha)⟩
    · have walk := (K.walk.trans L.walk).trans (by rw [K.queue] : s.purge.queue = [] ↔ u.purge.queue = [])
      refine iff_of_false (fun h => ?_) (by simp [queue])
      rcases joinPurgeQueue_cases (u.modifySession c fun k => k.enter after tag d) c with ⟨-, e⟩ | ⟨hne, e⟩
      · rw [hv, e] at h
        cases h
      · rw [hv, e] at h
        exact hne (walk.1 h)
  refine ⟨fun L l => ?_, sessions, fun M e => ?_, fun S N => ⟨fun k hk => ?_, fun k hk => ?_⟩⟩
  · rcases link l with e | e <;> rw [e]
    · exact K.link l (L l)
    · exact (K.link l (L l)).dropNotices
  · have closing : v.closing = s.closing := by
      rw [← K.closing, hv]
      rcases joinPurgeQueue_cases (u.modifySession c fun k => k.enter after tag d) c with ⟨-, e⟩ | ⟨-, e⟩ <;> rw [e] <;> rfl
    have admin : v.admin = u.admin := by
      rw [hv]
      rcases joinPurgeQueue_cases (u.modifySession c fun k => k.enter after tag d) c with ⟨-, e⟩ | ⟨-, e⟩ <;> rw [e] <;> rfl
    simp only [isClosing_congr closing, admin, K.walking]
    exact M e
  · have hkc : k ≠ c := by
      rintro rfl
      rw [session, if_pos rfl] at hk
      rcases hk with hk | hk <;> cases hk
    rw [(others k hkc).state] at hk
    have empty := K.notices k (by rcases hk with hk | hk <;> rw [hk] <;> rfl) (N.gone k hk)
    rcases link k with e | e <;> rw [e]
    · exact empty
    · rfl
  · rcases joinPurgeQueue_cases (u.modifySession c fun k => k.enter after tag d) c with ⟨-, e⟩ | ⟨hne, e⟩
    · rw [hv, e] at hk ⊢
      cases hk
      rw [link_setPurge, link_modifyLink, if_pos rfl]
      rfl
    · have hne : s.purge.queue ≠ [] := by rw [← K.queue]; exact hne
      have hk : s.purge.queue.head? = some k := by
        rw [queue] at hk
        rwa [List.head?_append_of_ne_nil _ hne] at hk
      have empty := K.notices k (by rw [(S.each k).queued.1 (List.mem_of_mem_head? hk)]; rfl) (N.walked k hk)
      rcases link k with e | e <;> rw [e]
      · exact empty
      · rfl

/-! ### The end of a purge (R80, R130) -/

theorem SessionForm.endPurge {k : Session} {p q : Prop} (h : SessionForm k p) (hp : k.state = .purging) (hq : ¬q) :
    SessionForm k.endPurge q := by
  have hafter := h.after hp
  have htag := h.tagRange
  have hpend := h.pendingTag
  constructor
  case queued =>
    refine iff_of_false hq ?_
    unfold Session.endPurge
    cases k.afterPurge with
    | none => simp [finalState]
    | some a => cases a <;> simp [finalState]
  case absent => exact fun _ => ⟨rfl, rfl, rfl⟩
  case after =>
    intro hs
    unfold Session.endPurge at hs
    cases hk : k.afterPurge with
    | none => exact absurd hk hafter
    | some a => rw [hk] at hs; cases a <;> cases hs
  case pendingTag => exact iff_of_false (fun e => by cases e) fun e => e rfl
  case tagRange => exact fun e => by cases e
  case active => exact fun e => by cases e
  case attach => exact fun b e => by cases e
  case detach => exact fun b e => by cases e
  case tag =>
    unfold Session.endPurge
    cases hk : k.afterPurge with
    | none => exact absurd hk hafter
    | some a =>
      rw [hk] at hpend
      cases a with
      | detached => simp [finalState]
      | barred => simp [finalState]
      | active =>
        obtain ⟨b, hb⟩ := Option.ne_none_iff_exists'.1 (hpend.1 rfl)
        have hb0 : b ≠ 0 := fun e => htag (by rw [hb, e])
        simpa [finalState, hb] using hb0

/-- R130: the head of the purge queue leaves it, and the purge of the next client starts. -/
theorem Keeping.purgeEnd {c : Client} (hq : s.purge.queue.head? = some c) : Keeping s (s.purgeEnd c) := by
  have queue : s.purge.queue = c :: s.purge.queue.tail := List.eq_cons_of_mem_head? hq
  obtain ⟨u, hu⟩ : ∃ u, u = (s.modifySession c Session.endPurge).answerDeferred c (s.session c).deferred := ⟨_, rfl⟩
  have answered : EngineOnly (some c) (s.modifySession c Session.endPurge) u := by
    rw [hu]
    unfold State.answerDeferred
    split
    · exact .respond _ _ _
    · exact .refl _ _
  have ended : (s.session c).deferred ≠ none → (u.link c).inProgress = none := fun h => by
    obtain ⟨d, hd⟩ := Option.ne_none_iff_exists'.1 h
    rw [hu, hd]
    exact EngineOnly.respond_inProgress _ _ _ _
  obtain ⟨v, hv⟩ : ∃ v, v = s.purgeEnd c := ⟨_, rfl⟩
  rw [← hv]
  have purge : u.purge = s.purge := answered.outside.purge
  -- what v is beside u: the next client's notices are dropped
  have facts : v.purge.queue = s.purge.queue.tail ∧ (v.purge.walk = .idle ↔ s.purge.queue.tail = []) ∧
      v.sessions = u.sessions ∧ v.closing = s.closing ∧ v.admin = s.admin ∧
      (∀ l, v.link l = u.link l ∨ v.link l = (u.link l).dropNotices) ∧
      ∀ d, s.purge.queue.tail.head? = some d → v.link d = (u.link d).dropNotices := by
    have e : v = ((u.setPurge { u.purge with queue := u.purge.queue.tail }).raise .purgeDone).nextPurge := by
      rw [hv, hu]; rfl
    unfold State.nextPurge at e
    split at e
    · rename_i d rest hd
      have hd : u.purge.queue.tail = d :: rest := hd
      have ht : s.purge.queue.tail = d :: rest := by rw [← purge]; exact hd
      have link : ∀ l, v.link l = if d = l then (u.link d).dropNotices else u.link l := fun l => by
        rw [e]; exact link_modifyLink _ d l Link.dropNotices
      refine ⟨by rw [e, ← purge]; rfl, ?_, by rw [e]; rfl, by rw [e]; exact answered.outside.closing,
        by rw [e]; exact answered.outside.admin, fun l => ?_, fun k hk => ?_⟩
      · rw [e, ht]
        exact iff_of_false (fun h => by cases h) (by simp)
      · rw [link]
        split
        · subst_vars; exact .inr rfl
        · exact .inl rfl
      · rw [ht] at hk
        cases hk
        rw [link, if_pos rfl]
    · rename_i hd
      have hd : u.purge.queue.tail = [] := hd
      have ht : s.purge.queue.tail = [] := by rw [← purge]; exact hd
      refine ⟨by rw [e, ← purge]; rfl, ?_, by rw [e]; rfl, by rw [e]; exact answered.outside.closing,
        by rw [e]; exact answered.outside.admin, fun l => .inl (by rw [e]; rfl), fun k hk => ?_⟩
      · rw [e, ht]
        exact iff_of_true rfl rfl
      · rw [ht] at hk
        cases hk
  obtain ⟨vqueue, vwalk, vsessions, vclosing, vadmin, vlink, vdropped⟩ := facts
  have session : ∀ k, SameStanding (if c = k then (s.session c).endPurge else s.session k) (v.session k) := fun k => by
    have e1 : v.session k = u.session k := congrArg (fun x : Vector Session 8 => x[k]) vsessions
    have e2 : (s.modifySession c Session.endPurge).session k = if c = k then (s.session c).endPurge else s.session k :=
      session_modifySession _ _ _ _
    rw [e1, ← e2]
    exact (Calm.of_engineOnly answered).session k
  have law : ∀ l, LinkLaw (s.link l) → LinkLaw (v.link l) := fun l L => by
    have L' := (answered.link l).law L
    rcases vlink l with e | e <;> rw [e]
    · exact L'
    · exact L'.dropNotices
  have progress : ∀ l, (v.link l).inProgress = (u.link l).inProgress := fun l => by
    rcases vlink l with e | e <;> rw [e]
    rfl
  have sessions : SessionsLaw s → SessionsLaw v := fun L => by
    have once := L.once
    rw [queue] at once
    obtain ⟨out, once⟩ := List.nodup_cons.1 once
    have purging : (s.session c).state = .purging := (L.each c).queued.1 (by rw [queue]; exact .head _)
    refine L.change c (fun k hk => ?_) ?_ (fun k hk => ?_) ?_ (fun k hk => ?_) (by rw [vqueue]; exact once)
      (by rw [vwalk, vqueue])
    · have := session k
      rwa [if_neg (Ne.symm hk)] at this
    · have := session c
      rw [if_pos rfl] at this
      exact ((L.each c).form.endPurge purging (q := c ∈ v.purge.queue) (by rw [vqueue]; exact out)).congr this Iff.rfl
    · rw [progress, answered.progress k (fun e => hk (Option.some.inj e).symm)]
      rfl
    · have := session c
      rw [if_pos rfl] at this
      rw [this.deferred, progress]
      refine iff_of_false (fun h => h rfl) (not_not.2 ?_)
      by_cases h : (s.session c).deferred = none
      · have := (L.each c).inProgress.not.1 (not_not.2 h)
        have e : u = s.modifySession c Session.endPurge := by rw [hu, h]; rfl
        rw [e]
        exact not_not.1 this
      · exact ended h
    · rw [vqueue]
      conv_rhs => rw [queue]
      simp [hk]
  refine ⟨fun L l => law l (L l), sessions, fun M d => ?_, fun S N => ⟨fun k hk => ?_, fun k hk => ?_⟩⟩
  · simp only [isClosing_congr vclosing, vadmin]
    exact M d
  · have empty : (u.link k).noticeQueue = [] := by
      have es := session k
      have gone : ((s.modifySession c Session.endPurge).session k).state.discardsNotices = true := by
        have e2 : (s.modifySession c Session.endPurge).session k = if c = k then (s.session c).endPurge else s.session k :=
          session_modifySession _ _ _ _
        rw [e2, ← es.state]
        rcases hk with hk | hk <;> rw [hk] <;> rfl
      refine answered.notices k gone ?_
      show (s.link k).noticeQueue = []
      by_cases hc : c = k
      · subst hc
        exact N.walked c hq
      · rw [if_neg hc] at es
        rw [es.state] at hk
        exact N.gone k hk
    rcases vlink k with e | e <;> rw [e]
    · exact empty
    · rfl
  · rw [vqueue] at hk
    rw [vdropped k hk]
    rfl

end Sys2Proof.Machine
end

