-- ==== Sys2Proof/Proofs/RequestsKeep.lean ====
section
/-! PROOFS. Every request keeps the laws of the engine and those outside it (R75 to R77, R85 to R109). -/

namespace Sys2Proof.Machine

open Sys2Proof

variable {s t u : State} {l c : Client}

/-- The laws of the engine and those outside it. -/
structure Stands (s : State) : Prop where
  engine : EngineGood s
  links : LinksLaw s
  sessions : SessionsLaw s
  marks : MarkLaw s
  notices : NoticeLaw s

theorem Stands.keep (S : Stands s) (K : Keeping s t) (G : EngineGood t) : Stands t :=
  ⟨G, K.links S.links, K.sessions S.sessions, K.marks S.marks, K.notices S.sessions S.notices⟩

/-- What neither the engine's laws nor the others see. -/
theorem Stands.calm (S : Stands s) (C : Calm none s t) (E : SameEngine s t) : Stands t :=
  S.keep C.keeping (E.engineGood S.engine)

theorem Stands.engineOnly (S : Stands s) (C : EngineOnly none s t) (G : EngineGood t) : Stands t := S.keep C.keeping G

/-! ### The change of one session record -/

theorem SessionForm.setState {k : Session} {p : Prop} (h : SessionForm k p) (old : k.state ≠ .purging) {new : ClientState}
    (hnew : new ≠ .purging) {tag : Byte} (htag : tag = 0 ↔ new = .detached ∨ new = .barred) :
    SessionForm { k with state := new, tag := tag } p :=
  { h with
    queued := iff_of_false (fun hp => old (h.queued.1 hp)) hnew
    absent := fun _ => h.absent old
    after := fun hp => absurd hp hnew
    tag := htag }

/-- R81: a BAR of a PURGING client overtakes its after-purge state. -/
theorem SessionForm.overtake {k : Session} {p : Prop} (h : SessionForm k p) (hp : k.state = .purging) :
    SessionForm { k with afterPurge := some .barred, pendingTag := none } p :=
  { h with
    absent := fun hn => absurd hp hn
    after := fun _ => by simp
    pendingTag := by simp
    tagRange := by simp
    active := by simp
    attach := fun _ _ => .inr rfl
    detach := fun _ _ => .inr rfl }

theorem Keeping.setSession (c : Client) (f : Session → Session)
    (form : ∀ p, SessionForm (s.session c) p → SessionForm (f (s.session c)) p)
    (deferred : (f (s.session c)).deferred = (s.session c).deferred)
    (gone : (f (s.session c)).state = .detached ∨ (f (s.session c)).state = .barred →
      (s.session c).state = .detached ∨ (s.session c).state = .barred) : Keeping s (s.modifySession c f) where
  links L := L
  sessions L := by
    refine L.change c (fun d hd => ?_) ?_ (fun _ _ => Iff.rfl) ?_ (fun _ _ => Iff.rfl) L.once L.walk
    · rw [session_modifySession, if_neg (Ne.symm hd)]
      exact .refl _
    · rw [session_modifySession, if_pos rfl]
      exact form _ (L.each c).form
    · rw [session_modifySession, if_pos rfl, deferred]
      exact (L.each c).inProgress
  marks M := M
  notices _ N := by
    refine ⟨fun d hd => N.gone d ?_, N.walked⟩
    rw [session_modifySession] at hd
    split at hd
    · subst_vars; exact gone hd
    · exact hd

/-! ### The take and the gate (R85, R143) -/

theorem Calm.taken {m : RxMessage} {i : Fin 4} (h : Takes s l m i) : Calm (some l) s (s.taken l i) := by
  obtain ⟨enabled, idle, -, free, -⟩ := h
  exact .modifyLink l _ (fun L => L.taken enabled idle free) (fun hn => absurd rfl hn) id

theorem Calm.admitted {m : RxMessage} {i : Fin 4} (h : Takes s l m i) (k : RequestKind) :
    Calm (some l) s (s.admitted l k i) :=
  (Calm.taken h).trans (.modifySession l _ (by
    unfold Session.spend
    split <;> exact ⟨rfl, rfl, rfl, rfl, rfl⟩))

theorem SameEngine.admitted (l : Client) (k : RequestKind) (i : Fin 4) : SameEngine s (s.admitted l k i) :=
  { refl s with session := fun c => ⟨by simp, by simp, by simp⟩ }

theorem inProgress_admitted (s : State) (l : Client) (k : RequestKind) (i : Fin 4) :
    ((s.admitted l k i).link l).inProgress = some (.reserved i) := by
  show ((s.taken l i).link l).inProgress = _
  rw [State.taken, link_modifyLink, if_pos rfl]

/-- A request that is answered in the happening that takes it. -/
theorem Keeping.answered {m : RxMessage} {i : Fin 4} (h : Takes s l m i) (K : Calm (some l) s u) (A : Answered l u t) :
    Keeping s t :=
  ((K.trans (.of_engineOnly A.only)).close h.2.1 A.ended).keeping

theorem stateCheck_of_gate {k : Session} {kind : RequestKind} {newClaim : Bool} {tag : Byte}
    (h : gateRefusal k kind newClaim tag = none) : stateCheck k.state kind newClaim = none := by
  unfold gateRefusal at h
  split at h
  · cases h
  · assumption

/-- R86: only ATTACH and PING pass the check of a client that is not served. -/
theorem served_of_stateCheck {a : ClientState} {kind : RequestKind} {newClaim : Bool} (h : stateCheck a kind newClaim = none)
    (ha : kind ≠ .attach) (hp : kind ≠ .ping) : a.served := by
  cases a with
  | active => exact .inl rfl
  | queryOnly => exact .inr rfl
  | detached | purging | barred => simp [stateCheck, ha, hp] at h

/-- R86: an ATTACH passes when the client is DETACHED or is served. -/
theorem attach_of_stateCheck {a : ClientState} {newClaim : Bool} (h : stateCheck a .attach newClaim = none) :
    a = .detached ∨ a.served := by
  cases a with
  | active => exact .inr (.inl rfl)
  | queryOnly => exact .inr (.inr rfl)
  | detached => exact .inl rfl
  | purging | barred => simp [stateCheck] at h

/-! ### ATTACH and DETACH -/

theorem modifySession_modifySession (s : State) (c : Client) (f g : Session → Session) :
    (s.modifySession c f).modifySession c g = s.modifySession c fun k => g (f k) := by
  simp [State.modifySession, State.session, State.setSessions]

/-- R75: the change that an ATTACH of a DETACHED client makes stands beside the take of the request. -/
theorem attach_admitted (s : State) (l : Client) (k : RequestKind) (i : Fin 4) (new : Byte) :
    (s.admitted l k i).modifySession l (fun x => { x with state := .active, tag := new }) =
      (s.modifySession l fun x => { x with state := .active, tag := new }).admitted l k i := by
  have e : ∀ x : Session, { x.spend k with state := .active, tag := new } =
      ({ x with state := .active, tag := new } : Session).spend k := fun x => by
    unfold Session.spend
    split <;> rfl
  have swap : (s.modifySession l fun x => { x with state := .active, tag := new }).admitted l k i =
      ((s.taken l i).modifySession l fun x => { x with state := .active, tag := new }).modifySession l fun x => x.spend k :=
    rfl
  rw [swap, State.admitted, modifySession_modifySession, modifySession_modifySession, funext e]

theorem fits_attach {new tag : Byte} (hn : new ≠ 0) : Fits .active (some new) (some ⟨.attach, tag⟩) where
  pendingTag := by simp
  tagRange := by simpa using hn
  active _ := ⟨tag, rfl⟩
  attach _ _ := .inl rfl
  detach _ h := by simp at h

theorem fits_detach {tag : Byte} : Fits .detached none (some ⟨.detach, tag⟩) where
  pendingTag := by simp
  tagRange := by simp
  active h := by cases h
  attach _ h := by simp at h
  detach _ _ := .inl rfl

theorem fits_silent {after : AfterPurge} (h : after ≠ .active) : Fits after none none where
  pendingTag := by simp [h]
  tagRange := by simp
  active e := absurd e h
  attach _ e := by cases e
  detach _ e := by cases e

theorem Keeping.enterFromRequest {m : RxMessage} {i : Fin 4} {k : RequestKind} {after : AfterPurge} {tag : Option Byte}
    {d : Deferred} (h : Takes s l m i) (served : (s.session l).state.served) (F : Fits after tag (some d)) :
    Keeping s ((s.admitted l k i).enterPurging l after tag (some d)) :=
  .enterPurging (.admitted h k) (.inr rfl) served F fun _ => by simp [inProgress_admitted]

theorem Keeping.decideAttach {m : RxMessage} {i : Fin 4} {k : RequestKind} {tag new : Byte} (h : Takes s l m i)
    (state : (s.session l).state = .detached ∨ (s.session l).state.served) (hn : new ≠ 0) :
    Keeping s ((s.admitted l k i).decideAttach l tag new) := by
  unfold State.decideAttach
  rw [admitted_state]
  split
  · rename_i hd
    rw [attach_admitted]
    have h' : Takes (s.modifySession l fun x => { x with state := .active, tag := new }) l m i := h
    refine Keeping.trans (.setSession l (fun x => { x with state := .active, tag := new }) ?_ rfl ?_)
      (.answered h' (.admitted h' k) (.respond _ _))
    · exact fun p F => F.setState (by rw [hd]; simp) (by simp) (by simpa using hn)
    · intro e
      rcases e with e | e <;> cases e
  · rename_i hd
    split
    · exact .answered h (.admitted h k) (.respond _ _)
    · exact .enterFromRequest h (state.resolve_left hd) (fits_attach hn)

/-! ### The rows of the requests -/

theorem Keeping.decision {m : RxMessage} {i : Fin 4} {k : RequestKind} (h : Admits s l k m i) :
    Keeping s (k.decision l m (s.admitted l k i)) := by
  obtain ⟨takes, -, good, gate⟩ := h
  have check := stateCheck_of_gate gate
  by_cases ha : k = .attach
  · subst ha
    exact .decideAttach takes (attach_of_stateCheck check) (by simpa [RxMessage.fieldsGood] using good)
  by_cases hd : k = .detach
  · subst hd
    exact .enterFromRequest takes (served_of_stateCheck check (by simp) (by simp)) fits_detach
  exact .answered takes (.admitted takes k) (.decision k m ha hd good)

theorem EngineGood.admittedDecision {m : RxMessage} {i : Fin 4} {k : RequestKind} (G : EngineGood s) (h : Admits s l k m i) :
    EngineGood (k.decision l m (s.admitted l k i)) := by
  obtain ⟨-, -, good, gate⟩ := h
  have check := stateCheck_of_gate gate
  have G' : EngineGood (s.admitted l k i) := (SameEngine.admitted l k i).engineGood G
  by_cases ha : k = .attach
  · subst ha
    refine G'.decideAttach ?_ ?_ _ _ <;> rw [admitted_state] <;>
      rcases attach_of_stateCheck check with e | e | e <;> rw [e] <;> simp
  by_cases hd : k = .detach
  · subst hd
    exact G'.enterPurging (by rw [admitted_state]; exact served_of_stateCheck check (by simp) (by simp)) _ _ _
  · exact G'.decision k l m ha hd (fun hp => by rw [admitted_state]; exact served_of_stateCheck check ha hp) good

theorem Stands.refused (S : Stands s) {m : RxMessage} {i : Fin 4} (h : Takes s l m i) (tag : Byte) (reply : Reply) :
    Stands ((s.taken l i).refuse l tag reply) :=
  S.keep (.answered h (.taken h) (.refuse _ _))
    (((SameEngine.modifyLink l _).trans (.refuse l _ _)).engineGood S.engine)

theorem Stands.row (S : Stands s) (l : Client) (k : RequestKind) (h : exec (k.row l) s = .next t) : Stands t := by
  rcases exec_row_cases s l k with e | ⟨m, i, takes, kind, e⟩ <;> rw [e] at h <;> cases h
  · exact S
  split
  · rename_i good
    cases gate : gateRefusal (s.session l) k (m.asksNewClaim k) m.sessionTag with
    | some r =>
      rw [gated_of_refusal _ gate]
      exact S.refused takes _ _
    | none =>
      have admits : Admits s l k m i := ⟨takes, kind, good, gate⟩
      rw [gated_of_admits _ admits]
      exact S.keep (.decision admits) (S.engine.admittedDecision admits)
  · exact S.refused takes _ _

theorem Stands.malformed (S : Stands s) (l : Client) :
    Stands (s.take l none fun m t => t.refuse l m.requestTag .malformed) := by
  unfold State.take
  split
  · rename_i m i h
    split
    · exact S.refused ((takable_takes ..).1 h) _ _
    · exact S
  · exact S

end Sys2Proof.Machine
end

