-- ==== Sys2Proof/Proofs/LinksKeep.lean ====
section
/-! PROOFS. What happens on the links keeps the laws: the receiver, the end of a message, the disabling and enabling of a link
(R120, R136 to R141, R146, R147). -/

namespace Sys2Proof.Machine

open Sys2Proof

variable {s t u : State} {l : Client}

/-- A happening that neither the engine's laws nor those outside it see. -/
structure Quiet (s t : State) : Prop where
  calm : Calm none s t
  engine : SameEngine s t

theorem Stands.quiet (S : Stands s) (Q : Quiet s t) : Stands t := S.calm Q.calm Q.engine

namespace Quiet

theorem refl (s : State) : Quiet s s := ⟨.refl _ s, .refl s⟩

theorem trans (h : Quiet s t) (k : Quiet t u) : Quiet s u := ⟨h.calm.trans k.calm, h.engine.trans k.engine⟩

theorem raise (f : EventFlag) : Quiet s (s.raise f) := ⟨.raise f, .raise f⟩

theorem countLink (l : Client) (f : LinkCounters → LinkCounters) : Quiet s (s.countLink l f) := ⟨.countLink l f, .countLink l f⟩

theorem modifyLink (l : Client) (f : Link → Link) (law : LinkLaw (s.link l) → LinkLaw (f (s.link l)))
    (progress : (f (s.link l)).inProgress = none ↔ (s.link l).inProgress = none)
    (notices : (s.link l).noticeQueue = [] → (f (s.link l)).noticeQueue = []) : Quiet s (s.modifyLink l f) :=
  ⟨.modifyLink l f law (fun _ => progress) notices, .modifyLink l f⟩

/-- The change of a link with the choice that follows it. -/
theorem modifyLink_choose (l : Client) (f : Link → Link) (form : LinkLaw (s.link l) → LinkForm (f (s.link l)))
    (progress : (f (s.link l)).inProgress = none ↔ (s.link l).inProgress = none)
    (notices : (s.link l).noticeQueue = [] → (f (s.link l)).noticeQueue = []) : Quiet s ((s.modifyLink l f).choose l) := by
  rw [Machine.modifyLink_choose]
  exact modifyLink l _ (fun L => (form L).choose _) (by rw [choose_inProgress]; exact progress)
    fun h => choose_noticeQueue _ (notices h)

end Quiet

/-! ### A message being assembled (R136 to R140) -/

/-- R136 to R138: the characters of a message that is not complete. -/
def Assembles (chars : List Byte) : Prop :=
  chars ≠ [] ∧ (2 ≤ chars.length → goodLength (announcedLength chars) ∧ chars.length < 4 + (announcedLength chars).toNat)

theorem assembles_single (b : Byte) : Assembles [b] := ⟨by simp, fun h => absurd h (by simp)⟩

theorem announcedLength_append {chars : List Byte} {b : Byte} (h : 2 ≤ chars.length) :
    announcedLength (chars ++ [b]) = announcedLength chars := by
  unfold announcedLength
  rw [List.getD_append _ _ _ _ (by omega)]

theorem announcedLength_second {chars : List Byte} {b : Byte} (h : chars.length = 1) : announcedLength (chars ++ [b]) = b := by
  unfold announcedLength
  rw [List.getD_append_right _ _ _ _ (by omega), h]
  rfl

theorem goodLength_of_inRange {b : Byte} (h : ¬lengthOutOfRange b = true) : goodLength b := by
  simp only [lengthOutOfRange, Bool.or_eq_true, decide_eq_true_eq, not_or, not_lt] at h
  exact h

theorem isWhole_iff {chars : List Byte} :
    isWhole chars = true ↔ 2 ≤ chars.length ∧ chars.length = 4 + (announcedLength chars).toNat := by
  simp [isWhole]

/-- R137: a further character, whose message it does not complete. -/
theorem Assembles.append {chars : List Byte} {b : Byte} (A : Assembles chars)
    (range : ¬(chars.length = 1 ∧ lengthOutOfRange b = true)) (whole : ¬isWhole (chars ++ [b]) = true) :
    Assembles (chars ++ [b]) := by
  refine ⟨by simp, fun _ => ?_⟩
  have some : 1 ≤ chars.length := List.length_pos_iff.2 A.1
  by_cases h : chars.length = 1
  · rw [announcedLength_second h]
    refine ⟨goodLength_of_inRange fun hb => range ⟨h, hb⟩, ?_⟩
    rw [List.length_append, h, List.length_singleton]
    omega
  · obtain ⟨good, short⟩ := A.2 (by omega)
    rw [isWhole_iff] at whole
    rw [announcedLength_append (by omega)] at whole ⊢
    rw [List.length_append, List.length_singleton] at whole ⊢
    exact ⟨good, by omega⟩

/-- R140: a message that is completed has a length in range, and as many characters. -/
theorem Assembles.whole {chars : List Byte} {b : Byte} (A : Assembles chars) (whole : isWhole (chars ++ [b]) = true) :
    goodLength (messageOf (chars ++ [b])).length ∧
      (messageOf (chars ++ [b])).chars.length = (messageOf (chars ++ [b])).length.toNat := by
  have some : 1 ≤ chars.length := List.length_pos_iff.2 A.1
  obtain ⟨-, length⟩ := isWhole_iff.1 whole
  rw [List.length_append, List.length_singleton] at length
  refine ⟨?_, ?_⟩
  · show goodLength (announcedLength (chars ++ [b]))
    rw [announcedLength_append (by omega)]
    exact (A.2 (by omega)).1
  · show (((chars ++ [b]).drop 2).take _).length = (announcedLength (chars ++ [b])).toNat
    rw [List.length_take, List.length_drop, List.length_append, List.length_singleton]
    omega

namespace Quiet

theorem discard (cause : DiscardCause) {after : Receiver} (hk : (s.link l).receiver ≠ .stopped) (hx : after ≠ .stopped)
    (hmsg : ∀ chars g, after = .inMessage chars g → Assembles chars) : Quiet s (s.discard l cause after) := by
  have swap : s.discard l cause after = (((s.modifyLink l fun k =>
      { k with receiver := after, discardCount := countUp k.discardCount }).choose l).countLink l cause.count).raise
        .linkDiscard := rfl
  rw [swap]
  exact ((modifyLink_choose l _ (fun L => L.discard hk hx hmsg) Iff.rfl id).trans (.countLink _ _)).trans (.raise _)

theorem setReceiver {x : Receiver} (hk : (s.link l).receiver ≠ .stopped) (hx : x ≠ .stopped)
    (hmsg : LinkLaw (s.link l) → ∀ chars g, x = .inMessage chars g → Assembles chars) : Quiet s (s.setReceiver l x) :=
  modifyLink l _ (fun L => L.setReceiver hk hx (hmsg L)) Iff.rfl id

theorem beginMessage (b : Byte) (hk : (s.link l).receiver ≠ .stopped) : Quiet s (s.beginMessage l b) :=
  setReceiver hk (by simp) fun _ _ _ e => by cases e; exact assembles_single b

theorem truncateMessage (b : Byte) (hk : (s.link l).receiver ≠ .stopped) : Quiet s (s.truncateMessage l b) :=
  discard _ hk (by simp) fun _ _ e => by cases e; exact assembles_single b

theorem discardTo (cause : DiscardCause) {after : Receiver} (hk : (s.link l).receiver ≠ .stopped)
    (h : after = .idle ∨ after = .hunt) : Quiet s (s.discard l cause after) := by
  refine discard cause hk ?_ ?_ <;> rcases h with rfl | rfl <;> simp

theorem completeMessage {chars : List Byte} {g : Gap} {b : Byte} (hr : (s.link l).receiver = .inMessage chars g)
    (whole : isWhole (chars ++ [b]) = true) : Quiet s (s.completeMessage l (chars ++ [b])) := by
  have hk : (s.link l).receiver ≠ .stopped := by rw [hr]; simp
  unfold State.completeMessage
  split
  · exact discardTo _ hk (.inl rfl)
  · split
    · exact discardTo _ hk (.inl rfl)
    · rename_i room
      refine (modifyLink l _ (fun L => ?_) Iff.rfl id).trans (countLink l _)
      exact L.accept hk (not_le.1 room) (Assembles.whole (L.assembling _ _ hr) whole)

theorem extendMessage {chars : List Byte} {g : Gap} (b : Byte) (hr : (s.link l).receiver = .inMessage chars g) :
    Quiet s (s.extendMessage l chars b) := by
  have hk : (s.link l).receiver ≠ .stopped := by rw [hr]; simp
  unfold State.extendMessage
  split
  · exact discardTo _ hk (.inr rfl)
  · rename_i range
    split
    · exact completeMessage hr ‹_›
    · rename_i whole
      exact setReceiver hk (by simp) fun L _ _ e => by
        cases e
        exact Assembles.append (L.assembling _ _ hr) range whole

theorem receive (b : Byte) (mark : Bool) : Quiet s (s.receive l b mark) := by
  unfold State.receive
  split
  · rename_i h
    exact beginMessage b (by rw [h]; simp)
  · exact countLink _ _
  · rename_i h
    exact beginMessage b (by rw [h]; simp)
  · exact refl s
  · rename_i h
    exact truncateMessage b (by rw [h]; simp)
  · exact extendMessage b ‹_›
  · exact refl s

theorem receiveBroken : Quiet s (s.receiveBroken l) := by
  unfold State.receiveBroken
  split
  · rename_i h
    exact discardTo _ (by rw [h]; simp) (.inr rfl)
  · rename_i h
    exact setReceiver (by rw [h]; simp) (by simp) fun _ _ _ e => by cases e
  · exact refl s
  · exact refl s

/-! ### Sending, disabling and enabling (R120, R146, R147) -/

theorem messageSent : Quiet s (s.messageSent l) := by
  unfold State.messageSent
  split
  · rename_i m hm
    have swap : ((s.modifyLink l Link.finishSending).countLink l m.countSent).choose l =
        ((s.modifyLink l Link.finishSending).choose l).countLink l m.countSent := rfl
    rw [swap]
    refine (modifyLink_choose l _ (fun L => L.finishSending) ?_ ?_).trans (countLink _ _)
    · unfold Link.finishSending
      split <;> rfl
    · unfold Link.finishSending
      split <;> exact id
  · exact refl s

theorem disableLink : Quiet s (s.disableLink l) := by
  unfold State.disableLink
  split
  · exact modifyLink l _ (fun L => L.disable) (by simp [Link.disable]) fun _ => rfl
  · exact refl s

theorem modifyWire (l : Client) (f : LinkWire → LinkWire) : Quiet s (s.modifyWire l f) :=
  ⟨{ Calm.refl none s with }, { SameEngine.refl s with }⟩

theorem enableLink : Quiet s (s.enableLink l) := by
  unfold State.enableLink
  split
  · exact refl s
  · exact (modifyWire l _).trans (modifyLink_choose l _ (fun L => L.enable) Iff.rfl id)

/-! ### A clock (R51, R133 to R139) -/

theorem clockPasses : Quiet s s.clockPasses :=
  ⟨{ Calm.refl none s with
      link := fun l L => by rw [link_clockPasses]; exact L.clock
      progress := fun l _ => by rw [link_clockPasses]
      notices := fun l _ h => by rw [link_clockPasses]; exact h },
    { SameEngine.refl s with }⟩

end Quiet

end Sys2Proof.Machine
end

