-- ==== Sys2Proof/Proofs/LawsTogether.lean ====
section
/-! PROOFS. `Lawful`, which speaks of the state law by law, says the same as `Stands`, which gathers the laws of the table, the pools and
the queues record by record. -/

namespace Sys2Proof.Machine

open Sys2Proof

variable {s : State}

/-! ### From law by law to record by record -/

/-- R26: the wait that a hold's conversion names stands in the queue of the hold's record. -/
theorem ReferenceLaw.queuedConversion (R : ReferenceLaw s) {i : HoldIx} {h : Hold} {x : Record} {v : WaitIx} {y : Wait}
    (hh : s.hold i = some h) (hx : s.record h.slot = some x) (hy : s.wait v = some y)
    (hp : y.purpose = .conversion (s.holdHandle i)) : v ∈ x.waitQueue := by
  obtain ⟨-, -, k, hk, -, -, slot⟩ := R.converting v y _ hy hp
  have hk : s.hold i = some k := hk
  obtain rfl : h = k := Option.some.inj (hh.symm.trans hk)
  obtain ⟨z, hz, mem⟩ := R.wait v y hy
  rw [← slot, hx] at hz
  cases hz
  exact mem

theorem recordLaw_of_lawful (L : Lawful s) {r : Slot} {x : Record} (hx : s.record r = some x) : RecordLaw s r x where
  holder i hi := L.references.holder r x i hx hi
  holderOnce := L.references.holderOnce r x hx
  waiter w hw := L.references.waiter r x w hx hw
  waiterOnce := L.references.waiterOnce r x hx
  cap := L.table.cap r x hx
  dynamic := L.table.dynamic r x hx
  idle := (L.table.idle r x hx).1
  bound := L.holders.bound r x hx
  exclusive i hi h hh hm := L.holders.exclusive r x i h hx hi hh hm
  sharedHold hs i hi h hh := L.holders.sharedHold r x i h hx hs hi hh
  sharedWait hs w hw y hy := L.holders.sharedWait r x w y hx hs hw hy
  conversion i hi h v hh hc := by
    obtain ⟨k, hk, hslot⟩ := L.references.holder r x i hx hi
    obtain rfl : h = k := Option.some.inj (hh.symm.trans hk)
    obtain ⟨active, shared, hv, y, hy, hp⟩ := L.references.conversion i h v hh hc
    exact ⟨active, shared, L.references.queuedConversion hh (hslot ▸ hx) hy hp, hv, y, hy, hp⟩
  converting w hw y v hy hp := by
    obtain ⟨z, hz, hslot⟩ := L.references.waiter r x w hx hw
    obtain rfl : y = z := Option.some.inj (hy.symm.trans hz)
    obtain ⟨mode, hv, h, hh, hc, client, slot⟩ := L.references.converting w y v hy hp
    obtain ⟨x', hx', mem⟩ := L.references.hold v.index h hh
    rw [slot, hslot, hx] at hx'
    cases hx'
    exact ⟨mode, mem, hv, h, hh, hc, client⟩
  oneHold i hi j hj h k hh hk hc := by
    obtain ⟨h', hh', e⟩ := L.references.holder r x i hx hi
    obtain ⟨k', hk', f⟩ := L.references.holder r x j hx hj
    cases hh.symm.trans hh'
    cases hk.symm.trans hk'
    exact L.holders.oneHold i j h k hh hk (e.trans f.symm) hc
  oneWait v hv w hw y z hy hz hc := by
    obtain ⟨y', hy', e⟩ := L.references.waiter r x v hx hv
    obtain ⟨z', hz', f⟩ := L.references.waiter r x w hx hw
    cases hy.symm.trans hy'
    cases hz.symm.trans hz'
    exact L.holders.oneWait v w y z hy hz (e.trans f.symm) hc
  both i hi w hw h y hh hy hc := by
    obtain ⟨h', hh', e⟩ := L.references.holder r x i hx hi
    obtain ⟨y', hy', f⟩ := L.references.waiter r x w hx hw
    cases hh.symm.trans hh'
    cases hy.symm.trans hy'
    exact L.holders.both i h w y hh hy (e.trans f.symm) hc
  queue := L.queues r x hx

theorem Lawful.stands (L : Lawful s) : Stands s where
  engine := {
    law := {
      record := fun _ _ hx => recordLaw_of_lawful L hx
      homeHold := L.references.hold
      homeWait := L.references.wait
      place := L.table.place
      key := L.table.key
      fences := L.fences
      pool := L.pool
      counts := L.counts
      deadlines := L.deadlines
      owners := { L.owners with
        purging := fun c hc => (L.sessions.each c).queued.1 (List.mem_of_mem_head? hc) } }
    grant := fun r hf x w y => L.grants hf r x w y
    settled := fun r x hx hk hh hw => (L.table.idle r x hx).2 ⟨hk, hh, hw⟩ }
  links := L.links
  sessions := L.sessions
  marks := L.marks
  notices := ⟨L.owners.notices, L.owners.walked⟩

/-! ### From record by record to law by law -/

theorem EngineGood.tableLaw (G : EngineGood s) : TableLaw s where
  place := G.law.place
  key := G.law.key
  cap r x hx := (G.law.record r x hx).cap
  dynamic r x hx := (G.law.record r x hx).dynamic
  idle r x hx := ⟨(G.law.record r x hx).idle, fun ⟨hk, hh, hw⟩ => G.settled r x hx hk hh hw⟩

theorem EngineLaw.referenceLaw (L : EngineLaw s) : ReferenceLaw s where
  holder r x i hx hi := (L.record r x hx).holder i hi
  hold := L.homeHold
  holderOnce r x hx := (L.record r x hx).holderOnce
  waiter r x w hx hw := (L.record r x hx).waiter w hw
  wait := L.homeWait
  waiterOnce r x hx := (L.record r x hx).waiterOnce
  conversion i h v hh hc := by
    obtain ⟨x, hx, hi⟩ := L.homeHold i h hh
    obtain ⟨active, shared, -, rest⟩ := (L.record _ x hx).conversion i hi h v hh hc
    exact ⟨active, shared, rest⟩
  converting w y v hy hp := by
    obtain ⟨x, hx, hw⟩ := L.homeWait w y hy
    obtain ⟨mode, hv, name, h, hh, hc, client⟩ := (L.record _ x hx).converting w hw y v hy hp
    obtain ⟨k, hk, slot⟩ := (L.record _ x hx).holder v.index hv
    cases hh.symm.trans hk
    exact ⟨mode, name, h, hh, hc, client, slot⟩

theorem EngineLaw.holderLaw (L : EngineLaw s) : HolderLaw s where
  bound r x hx := (L.record r x hx).bound
  exclusive r x i h hx hi hh := (L.record r x hx).exclusive i hi h hh
  sharedHold r x i h hx hs hi hh := (L.record r x hx).sharedHold hs i hi h hh
  sharedWait r x w y hx hs hw hy := (L.record r x hx).sharedWait hs w hw y hy
  oneHold i j h k hh hk slot client := by
    obtain ⟨x, hx, hi⟩ := L.homeHold i h hh
    obtain ⟨x', hx', hj⟩ := L.homeHold j k hk
    rw [← slot, hx] at hx'
    cases hx'
    exact (L.record _ x hx).oneHold i hi j hj h k hh hk client
  oneWait v w y z hy hz slot client := by
    obtain ⟨x, hx, hv⟩ := L.homeWait v y hy
    obtain ⟨x', hx', hw⟩ := L.homeWait w z hz
    rw [← slot, hx] at hx'
    cases hx'
    exact (L.record _ x hx).oneWait v hv w hw y z hy hz client
  both i h w y hh hy slot client := by
    obtain ⟨x, hx, hi⟩ := L.homeHold i h hh
    obtain ⟨x', hx', hw⟩ := L.homeWait w y hy
    rw [← slot, hx] at hx'
    cases hx'
    exact (L.record _ x hx).both i hi w hw h y hh hy client

theorem Stands.lawful (S : Stands s) : Lawful s where
  links := S.links
  sessions := S.sessions
  fences := S.engine.law.fences
  table := S.engine.tableLaw
  references := S.engine.law.referenceLaw
  holders := S.engine.law.holderLaw
  queues r x hx := (S.engine.law.record r x hx).queue
  grants hf r x w y := S.engine.grant r hf x w y
  pool := S.engine.law.pool
  counts := S.engine.law.counts
  deadlines := S.engine.law.deadlines
  owners := { S.engine.law.owners with notices := S.notices.gone, walked := S.notices.walked }
  marks := S.marks

end Sys2Proof.Machine
end

