-- ==== Sys2Proof/Proofs/AdminKeeps.lean ====
section
/-! PROOFS. The commands of the Admin Engine keep the laws (R153 to R167). -/

namespace Sys2Proof.Machine

open Sys2Proof

variable {s t u : State}

/-! ### Commands that end at once -/

/-- No walk of a domain is in progress. -/
def State.unwalked (s : State) : Prop := ∀ k, s.admin.busy ≠ .walking k

theorem Keeping.thenComplete (O : EngineOnly none s t) (h : s.unwalked) (code : ResultCode) (ws : List Word) :
    Keeping s (t.complete code ws) :=
  ((Calm.of_engineOnly O).trans (.complete (by rw [O.outside.admin]; exact h) code ws)).keeping

theorem Keeping.complete (h : s.unwalked) (code : ResultCode) (ws : List Word) : Keeping s (s.complete code ws) :=
  .thenComplete (.refl _ s) h code ws

theorem Keeping.install (h : s.unwalked) (p : Vector Word 4) : Keeping s (s.install p) := by
  unfold State.install
  dsimp only
  split
  · exact .complete h _ _
  · split
    · split
      · split
        · exact .complete h _ _
        · exact .thenComplete (.installOn _ _ _ _ _) h _ _
      · exact .complete h _ _
    · split
      · exact .thenComplete (.raise _) h _ _
      · exact .thenComplete (.place _ _) h _ _

theorem Keeping.unpin (h : s.unwalked) (p : Vector Word 4) : Keeping s (s.unpin p) := by
  unfold State.unpin
  split
  · split
    · exact .thenComplete (.unpinOn _ _) h _ _
    · exact .complete h _ _
  · exact .complete h _ _

theorem Keeping.remove (h : s.unwalked) (p : Vector Word 4) : Keeping s (s.remove p) := by
  unfold State.remove
  split
  · split
    · exact .thenComplete (.removeClaims _ _) h _ _
    · exact .complete h _ _
  · exact .complete h _ _

theorem Keeping.revoke (h : s.unwalked) (p : Vector Word 4) : Keeping s (s.revoke p) := by
  unfold State.revoke
  split
  · exact .complete h _ _
  · exact .thenComplete (.endHold _ _ _) h _ _

theorem Keeping.cancelByManager (h : s.unwalked) (p : Vector Word 4) : Keeping s (s.cancelByManager p) := by
  unfold State.cancelByManager
  split
  · exact .complete h _ _
  · exact .thenComplete (.endWait _ _ _) h _ _

/-- A command that only reports. -/
theorem Stands.complete (S : Stands s) (h : s.unwalked) (code : ResultCode) (ws : List Word) : Stands (s.complete code ws) :=
  S.keep (.complete h code ws) (S.engine.complete code ws)

theorem Stands.readRecordCommand (S : Stands s) (h : s.unwalked) (p : Vector Word 4) : Stands (s.readRecordCommand p) := by
  unfold State.readRecordCommand
  split
  · split
    · exact S.complete h _ _
    · split <;> exact S.complete h _ _
  · exact S.complete h _ _

/-- R154: what a command keeps, its taking keeps. -/
theorem Stands.takeCommand (S : Stands s) {c : AdminCommand} {act : Vector Word 4 → State → State}
    (h : ∀ p, s.unwalked → Stands (act p s)) : Stands (s.takeCommand c act) := by
  unfold State.takeCommand
  split
  · rename_i busy
    split
    · exact h _ fun k e => by rw [busy] at e; cases e
    · exact S
  · exact S
  · exact S

/-! ### SET CLIENT STATE (R81, R164) -/

theorem admin_joinPurgeQueue (s : State) (c : Client) : (s.joinPurgeQueue c).admin = s.admin := by
  rcases joinPurgeQueue_cases s c with ⟨-, e⟩ | ⟨-, e⟩ <;> rw [e] <;> rfl

theorem admin_enterPurging (s : State) (c : Client) (after : AfterPurge) (tag : Option Byte) (d : Option Deferred) :
    (s.enterPurging c after tag d).admin = s.admin :=
  (EngineOnly.foldl (o := none) State.passForWait (fun _ w => .passForWait w) _ _).outside.admin.trans
    (admin_joinPurgeQueue _ c)

theorem admin_applyAction {c : Client} {a : ClientAction} (h : s.applyAction c a = some t) : t.admin = s.admin := by
  unfold State.applyAction at h
  split at h <;> cases h
  case h_1 | h_2 | h_3 | h_4 | h_7 | h_8 | h_9 => rfl
  all_goals exact admin_enterPurging _ _ _ _ _

theorem Keeping.enterSilently {c : Client} {after : AfterPurge} (served : (s.session c).state.served) (h : after ≠ .active) :
    Keeping s (s.enterPurging c after none none) :=
  .enterPurging (.refl none s) (.inl rfl) served (fits_silent h) fun L => by
    have absent : (s.session c).deferred = none :=
      ((L.each c).absent (by rcases served with e | e <;> rw [e] <;> simp)).2.2
    exact iff_of_false (fun e => e rfl) fun e => (L.each c).inProgress.2 e absent

/-- R81: a change of state that is no purge. -/
theorem Keeping.setState {c : Client} {old new : ClientState} (f : Session → Session) (hs : (s.session c).state = old)
    (hf : f (s.session c) = { s.session c with state := new, tag := (f (s.session c)).tag }) (hold : old ≠ .purging)
    (hnew : new ≠ .purging)
    (tag : ((s.session c).tag = 0 ↔ old = .detached ∨ old = .barred) →
      ((f (s.session c)).tag = 0 ↔ new = .detached ∨ new = .barred))
    (gone : new = .detached ∨ new = .barred → old = .detached ∨ old = .barred) : Keeping s (s.modifySession c f) := by
  refine .setSession c f (fun p F => ?_) (by rw [hf]) (by rw [hf, hs]; exact gone)
  rw [hf]
  have := F.tag
  rw [hs] at this
  exact F.setState (by rw [hs]; exact hold) hnew (tag this)

theorem Keeping.applyAction {c : Client} {a : ClientAction} (h : s.applyAction c a = some t) : Keeping s t := by
  unfold State.applyAction at h
  split at h <;> cases h
  case h_1 hs => exact .setState _ hs rfl (by simp) (by simp) (by simp) (by simp)
  case h_2 | h_4 => exact .refl _
  case h_3 hs => exact .setState _ hs rfl (by simp) (by simp) (by simp) (by simp)
  case h_5 hs => exact .enterSilently (.inl hs) (by simp)
  case h_6 hs => exact .enterSilently (.inr hs) (by simp)
  case h_7 hs => exact .setState _ hs rfl (by simp) (by simp) (by simp) (by simp)
  case h_8 hs =>
    refine .setSession c _ (fun p F => F.overtake hs) rfl fun e => ?_
    exact e
  case h_9 hs => exact .setState _ hs rfl (by simp) (by simp) (by simp) (by simp)
  case h_10 hs => exact .enterSilently (.inl hs) (by simp)
  case h_11 hs => exact .enterSilently (.inr hs) (by simp)

theorem Keeping.setClient (h : s.unwalked) (p : Vector Word 4) : Keeping s (s.setClient p) := by
  unfold State.setClient
  split
  · split
    · exact .complete h _ _
    · split
      · rename_i e
        refine Keeping.trans (.applyAction e) (.complete (fun k => ?_) _ _)
        rw [admin_applyAction e]
        exact h k
      · exact .complete h _ _
  · exact .complete h _ _

/-! ### SNAPSHOT COUNTERS, SET HASH SEED (R165, R167) -/

theorem Quiet.takeSnapshot (clear : Bool) : Quiet s (s.takeSnapshot clear) := by
  unfold State.takeSnapshot
  dsimp only
  split <;> exact ⟨{ Calm.refl none s with }, { SameEngine.refl s with }⟩

theorem Stands.setSeed (S : Stands s) (b : Byte) (empty : ∀ r, s.record r = none) : Stands (s.setSeed b) :=
  S.keep (Calm.keeping { Calm.refl none s with }) (S.engine.setSeed b empty)

theorem admin_takeSnapshot (s : State) (clear : Bool) : (s.takeSnapshot clear).admin = s.admin := by
  unfold State.takeSnapshot
  dsimp only
  split <;> rfl

/-! ### REMOVE DOMAIN and its walk (R157, R158) -/

/-- The laws during a step of the walk of domain d: its mark alone is set. -/
structure Walking (d : BitVec 4) (s : State) : Prop where
  engine : EngineGood s
  links : LinksLaw s
  sessions : SessionsLaw s
  notices : NoticeLaw s
  mark : ∀ e, s.isClosing e = true ↔ e = d

theorem Walking.engineOnly {d : BitVec 4} (W : Walking d s) (O : EngineOnly none s t) (G : EngineGood t) : Walking d t where
  engine := G
  links := O.keeping.links W.links
  sessions := O.keeping.sessions W.sessions
  notices := O.keeping.notices W.sessions W.notices
  mark e := by
    rw [isClosing_congr O.outside.closing]
    exact W.mark e

theorem isClosing_setMark (s : State) (d e : BitVec 4) (b : Bool) :
    (s.setMark d b).isClosing e = if e = d then b else s.isClosing e := by
  have same : domainIx d = domainIx e ↔ e = d := by
    rw [domainIx, domainIx, BitVec.toFin_inj, eq_comm]
  have set := getElem_set_fin s.closing (domainIx d) (domainIx e) b
  simp only [same] at set
  exact set

theorem Walking.advance {k : DomainWalk} (W : Walking k.domain s) : Stands (s.advanceWalk k) := by
  have G := W.engine.advanceWalk k
  unfold State.advanceWalk at G ⊢
  split at G
  · rename_i h
    rw [dif_pos h]
    refine ⟨G, W.links, ⟨fun c => { W.sessions.each c with }, W.sessions.once, W.sessions.walk⟩, fun e => ?_,
      ⟨W.notices.gone, W.notices.walked⟩⟩
    refine (W.mark e).trans ⟨?_, ?_⟩
    · rintro rfl
      exact ⟨_, rfl, rfl⟩
    · rintro ⟨k', hk', rfl⟩
      cases hk'
      rfl
  · rename_i h
    rw [dif_neg h]
    refine ⟨G, W.links, ⟨fun c => { W.sessions.each c with }, W.sessions.once, W.sessions.walk⟩, fun e => ?_,
      ⟨W.notices.gone, W.notices.walked⟩⟩
    refine iff_of_false ?_ ?_
    · show ¬(s.setMark k.domain false).isClosing e = true
      rw [isClosing_setMark]
      split
      · simp
      · rw [W.mark]; assumption
    · rintro ⟨k', hk', -⟩
      cases hk'

theorem Walking.step {k : DomainWalk} (W : Walking k.domain s) : Stands (s.walkStep k) := by
  unfold State.walkStep
  split
  · rename_i x hx
    split
    · exact Walking.advance (k := k.add x) (W.engineOnly (.removeClaims _ _) (W.engine.removeClaims hx))
    · exact W.advance
  · exact W.advance

/-- R157: the walk's first step. -/
theorem Stands.beginWalk (S : Stands s) (h : s.unwalked) (d : BitVec 4) : Stands (s.beginWalk d) := by
  refine Walking.step (k := ⟨d, 0, 0, 0, 0⟩) ⟨S.engine.setMark d true, S.links,
    ⟨fun c => { S.sessions.each c with }, S.sessions.once, S.sessions.walk⟩, ⟨S.notices.gone, S.notices.walked⟩, fun e => ?_⟩
  have none : s.isClosing e ≠ true := fun he => by
    obtain ⟨k, hk, -⟩ := (S.marks e).1 he
    exact h k hk
  rw [isClosing_setMark]
  split <;> simp_all

/-- R158: a further step. -/
theorem Stands.walkStep (S : Stands s) {k : DomainWalk} (hk : s.admin.busy = .walking k) : Stands (s.walkStep k) := by
  refine Walking.step ⟨S.engine, S.links, S.sessions, S.notices, fun e => (S.marks e).trans ⟨?_, ?_⟩⟩
  · rintro ⟨k', hk', rfl⟩
    rw [hk] at hk'
    cases hk'
    rfl
  · rintro rfl
    exact ⟨k, hk, rfl⟩

end Sys2Proof.Machine
end

