-- ==== Sys2Proof/Proofs/ClearAllKeeps.lean ====
section
/-! PROOFS. CLEAR ALL keeps the laws (R82, R132, R148, R166). -/

namespace Sys2Proof.Machine

open Sys2Proof

variable {s t u : State}

/-- What stands while CLEAR ALL answers the deferred requests that s held; the clients in `waiting` are still to be looked at. -/
structure Clearing (s : State) (waiting : List Client) (u : State) : Prop where
  session : ∀ c : Client, SameStanding (s.session c).clear (u.session c)
  links : LinksLaw s → LinksLaw u
  notices : ∀ l : Client, (u.link l).noticeQueue = []
  progress : SessionsLaw s → ∀ l : Client, (s.session l).deferred = none ∨ l ∉ waiting → (u.link l).inProgress = none
  purge : u.purge = ⟨[], .idle⟩
  closing : u.closing = Vector.replicate 16 false

/-- R82: a cleared session is DETACHED, or BARRED as before. -/
theorem clear_state (k : Session) : k.clear.state = .detached ∨ k.clear.state = .barred := by
  unfold Session.clear
  dsimp only
  split
  · exact .inr ‹_›
  · exact .inl rfl

theorem clear_discardsNotices (k : Session) : k.clear.state.discardsNotices = true := by
  rcases clear_state k with e | e <;> rw [e] <;> rfl

/-- R82: nothing of a purge is left in a cleared session, whose tag is that of no session. -/
theorem SessionForm.clear {k : Session} {p q : Prop} (h : SessionForm k p) (hq : ¬q) : SessionForm k.clear q := by
  have absent : k.clear.afterPurge = none ∧ k.clear.pendingTag = none ∧ k.clear.deferred = none ∧ k.clear.tag = 0 := by
    unfold Session.clear
    dsimp only
    split
    · rename_i hb
      obtain ⟨ha, hp, hd⟩ := h.absent (by rw [hb]; simp)
      exact ⟨ha, hp, hd, h.tag.2 (.inr hb)⟩
    · exact ⟨rfl, rfl, rfl, rfl⟩
  obtain ⟨ha, hp, hd, ht⟩ := absent
  have left : k.clear.state ≠ .purging := by rcases clear_state k with e | e <;> rw [e] <;> simp
  constructor
  case queued => exact iff_of_false hq left
  case absent => exact fun _ => ⟨ha, hp, hd⟩
  case after => exact fun e => absurd e left
  case tag => exact iff_of_true ht (clear_state k)
  all_goals simp [ha, hp, hd]

theorem clearing_clearPart (s : State) : Clearing s (List.finRange 8) s.clearPart where
  session c := by rw [session_clearPart]; exact .refl _
  links L l := by
    have e : s.clearPart.link l = (s.link l).clear := by simp [State.link, State.clearPart]
    rw [e]
    exact (L l).clear
  notices l := by
    have e : s.clearPart.link l = (s.link l).clear := by simp [State.link, State.clearPart]
    rw [e]
    rfl
  progress L l h := by
    have e : s.clearPart.link l = (s.link l).clear := by simp [State.link, State.clearPart]
    rw [e]
    have h : (s.session l).deferred = none := h.resolve_right (by simp)
    exact not_not.1 ((L.each l).inProgress.not.1 (not_not.2 h))
  purge := rfl
  closing := rfl

theorem Clearing.answer {c : Client} {rest : List Client} (C : Clearing s (c :: rest) u) :
    Clearing s rest (State.answerCleared s u c) := by
  unfold State.answerCleared
  split
  · rename_i d hd
    have O : EngineOnly (some c) u (u.respond c d.requestTag .cleared) := .respond _ _ _
    refine ⟨fun k => (C.session k).trans ((Calm.of_engineOnly O).session k), fun L l => (O.link l).law (C.links L l), fun l => ?_,
      fun L l h => ?_, O.outside.purge.trans C.purge, O.outside.closing.trans C.closing⟩
    · refine O.notices l ?_ (C.notices l)
      rw [(C.session l).state]
      exact clear_discardsNotices _
    · by_cases hl : l = c
      · subst hl
        exact EngineOnly.respond_inProgress _ _ _ _
      · rw [O.progress l fun e => hl (Option.some.inj e).symm]
        exact C.progress L l (h.imp_right fun h => by simpa [hl] using h)
  · rename_i hd
    refine { C with progress := fun L l h => C.progress L l ?_ }
    by_cases hl : l = c
    · subst hl
      exact .inl hd
    · exact h.imp_right fun h => by simpa [hl] using h

theorem Clearing.answerAll (waiting : List Client) (u : State) (C : Clearing s waiting u) :
    Clearing s [] (waiting.foldl (State.answerCleared s) u) := by
  induction waiting generalizing u with
  | nil => exact C
  | cons c rest ih => exact ih _ C.answer

theorem Stands.clearAll (S : Stands s) : Stands s.clearAll := by
  have C := Clearing.answerAll _ _ (clearing_clearPart s)
  obtain ⟨u, hu⟩ : ∃ u, u = (List.finRange 8).foldl (State.answerCleared s) s.clearPart := ⟨_, rfl⟩
  rw [← hu] at C
  have all : s.clearAll = u.complete .done s.freedWords := by rw [hu]; rfl
  refine ⟨engineGood_clearAll S.engine.law.fences, ?_, ?_, ?_, ?_⟩ <;> rw [all]
  · exact C.links S.links
  · refine ⟨fun c => ?_, ?_, ?_⟩
    · have empty : c ∉ (u.complete .done s.freedWords).purge.queue := by
        show c ∉ u.purge.queue
        rw [C.purge]
        simp
      refine SessionForm.law (((S.sessions.each c).form.clear empty).congr (C.session c) Iff.rfl) ?_
      have deferred := (((S.sessions.each c).form.clear empty).absent
        (by rcases clear_state (s.session c) with e | e <;> rw [e] <;> simp)).2.2
      refine iff_of_false (fun h => h ((C.session c).deferred.trans deferred)) fun h => h ?_
      exact C.progress S.sessions c (.inr (by simp))
    · show u.purge.queue.Nodup
      rw [C.purge]
      exact List.nodup_nil
    · show u.purge.walk = .idle ↔ u.purge.queue = []
      rw [C.purge]
      exact iff_of_true rfl rfl
  · intro d
    refine iff_of_false ?_ ?_
    · show ¬u.isClosing d = true
      unfold State.isClosing
      rw [C.closing]
      simp
    · rintro ⟨k, hk, -⟩
      cases hk
  · refine ⟨fun c _ => C.notices c, fun c hc => C.notices c⟩

end Sys2Proof.Machine
end

