-- ==== Sys2Proof/Proofs/EveryStep.lean ====
section
/-! PROOFS. Every command and every clock keep every law (O59). -/

namespace Sys2Proof.Machine

open Sys2Proof

variable {s t : State}

/-! ### The Lease Timer and the Purge Unit -/

theorem Calm.tick : Calm none s (((s.setTimer s.timer.tick).setDeadlines (markDue (s.now + 1) s.deadlines)).setSessions
    (s.sessions.map Session.refill)) :=
  { refl none s with
    session := fun c => by
      have e : (((s.setTimer s.timer.tick).setDeadlines (markDue (s.now + 1) s.deadlines)).setSessions
          (s.sessions.map Session.refill)).session c = (s.session c).refill := by simp [State.session]
      rw [e]
      exact ⟨rfl, rfl, rfl, rfl, rfl⟩ }

theorem afterWaitStep_ne_idle (w : WaitIx) : afterWaitStep w ≠ .idle := by
  unfold afterWaitStep
  split <;> simp

/-- R124, R125: a step of the walk over the wait slots. -/
theorem Stands.purgeWaitStep (S : Stands s) {c : Client} {w : WaitIx} (hq : s.purge.queue.head? = some c)
    (hw : s.purge.walk = .wait w) : Stands ((s.purgeWait c w).setWalk (afterWaitStep w)) := by
  have O : EngineOnly none s (s.purgeWait c w) := .purgeWait c w
  refine S.keep (Calm.keeping ((Calm.of_engineOnly O).trans (.setWalk _ ?_ (afterWaitStep_ne_idle w))))
    (S.engine.purgeWaitStep hq hw)
  rw [O.outside.purge, hw]
  simp

/-- R124, R126: a step of the walk over the hold slots but the last. -/
theorem Stands.purgeHoldStep (S : Stands s) {c : Client} {i : HoldIx} (hq : s.purge.queue.head? = some c)
    (hw : s.purge.walk = .hold i) (h : i.val + 1 < 256) :
    Stands ((s.purgeHold c i).setWalk (.hold ⟨i.val + 1, h⟩)) := by
  have O : EngineOnly none s (s.purgeHold c i) := .purgeHold c i
  refine S.keep (Calm.keeping ((Calm.of_engineOnly O).trans (.setWalk _ ?_ (by simp)))) (S.engine.purgeHoldStep hq hw h)
  rw [O.outside.purge, hw]
  simp

/-- R126, R130: the step on the last hold slot, and the end of the purge. -/
theorem Stands.lastHoldStep (S : Stands s) {c : Client} {i : HoldIx} (hq : s.purge.queue.head? = some c)
    (hw : s.purge.walk = .hold i) (h : ¬i.val + 1 < 256) : Stands ((s.purgeHold c i).purgeEnd c) := by
  have O : EngineOnly none s (s.purgeHold c i) := .purgeHold c i
  obtain ⟨noWait, noHold⟩ := S.engine.purgeHold_left hq hw
  have K : Stands (s.purgeHold c i) :=
    S.engineOnly O (S.engine.purgeHold c i fun w y hy => S.engine.law.owners.noWait c w y i hq hy hw).1
  have hq' : (s.purgeHold c i).purge.queue.head? = some c := by rw [O.outside.purge]; exact hq
  refine K.keep (.purgeEnd hq') (K.engine.purgeEnd hq' K.sessions.once
    (fun d hd => (K.sessions.each d).queued.1 hd) (fun j k hk hc => ?_) noWait)
  have after : i.val < j.val := noHold j k hk hc
  have last := j.isLt
  omega

/-! ### Settings -/

theorem Quiet.setSettings (c : Client) (f : Session → Session) (h : ∀ k, SameStanding k (f k))
    (counts : ∀ k : Session, (f k).holdCount = k.holdCount ∧ (f k).waitCount = k.waitCount) : Quiet s (s.modifySession c f) :=
  ⟨.modifySession c f (h _), { SameEngine.refl s with
    session := fun d => by
      rw [session_modifySession]
      split
      · subst_vars; exact ⟨(h _).state, counts _⟩
      · exact ⟨rfl, rfl, rfl⟩ }⟩

/-- R153: a write of the command word. -/
theorem Quiet.writeCommand (v : Word) : Quiet s (s.writeCommand v) := by
  unfold State.writeCommand
  dsimp only
  split
  · rename_i busy
    have idle : ∀ x : AdminEngine, (∀ k, x.busy ≠ .walking k) → Quiet s (s.setAdmin x) := fun x hx =>
      ⟨.setAdmin x fun k => iff_of_false (hx k) (by rw [busy]; simp), .setAdmin x⟩
    split
    · exact idle _ (by simp)
    · exact (idle { s.admin with command := field v 0 8, busy := .idle, resultCode := _, results := _ } (by simp)).trans
        (.raise _)
  · exact .raise _
  · exact .raise _

theorem Quiet.writeWindow (v : Word) (w : WindowWord) : Quiet s (s.writeWindow v w) := by
  have unseen : ∀ {t : State}, Calm none s t → SameEngine s t → Quiet s t := fun C E => ⟨C, E⟩
  cases w with
  | linkEnable l =>
    unfold State.writeWindow State.writeLinkEnable
    dsimp only
    split
    · exact enableLink
    · exact disableLink
  | linkLine l => exact modifyLink l (fun k => k.writeLine v) (fun L => L.writeLine v) Iff.rfl id
  | clientDomains c =>
    exact setSettings c (fun k => { k with domainMask := field v 0 16 })
      (fun _ => ⟨rfl, rfl, rfl, rfl, rfl⟩) fun _ => ⟨rfl, rfl⟩
  | clientLimits c =>
    exact setSettings c (fun k => k.writeLimits v)
      (fun _ => ⟨rfl, rfl, rfl, rfl, rfl⟩) fun _ => ⟨rfl, rfl⟩
  | clientTerm c =>
    exact setSettings c (fun k => { k with defaultTerm := accept notZero k.defaultTerm (field v 0 16) })
      (fun _ => ⟨rfl, rfl, rfl, rfl, rfl⟩) fun _ => ⟨rfl, rfl⟩
  | clientCredits c =>
    exact setSettings c (fun k => k.writeCredits v)
      (fun _ => ⟨rfl, rfl, rfl, rfl, rfl⟩) fun _ => ⟨rfl, rfl⟩
  | command => exact writeCommand v
  | tickPeriod | terms | idleAndGrace | urgencyMap | lowMarks | flags | enables | param i =>
    exact unseen { Calm.refl none s with } { SameEngine.refl s with }
  | _ => exact refl s

theorem Quiet.writeWord (a : Half) (v : Word) : Quiet s (s.writeWord a v) := by
  unfold State.writeWord
  split
  · exact writeWindow v _
  · exact refl s

/-! ### Every command -/

theorem stands_powerOnReset (s : State) : Stands ((State.reset.setPending s.pending).setPins s.pins) :=
  lawful_reset.stands.quiet ⟨{ Calm.refl none State.reset with }, { SameEngine.refl State.reset with }⟩

/-- Every command keeps the laws. -/
theorem Stands.exec (S : Stands s) (c : Instr) (h : Machine.exec c s = .next t) : Stands t := by
  cases c with
  | powerOnReset => cases h; exact stands_powerOnReset s
  | attach l => exact S.row l .attach h
  | detach l => exact S.row l .detach h
  | ping l => exact S.row l .ping h
  | acquire l => exact S.row l .acquire h
  | convert l => exact S.row l .convert h
  | renew l => exact S.row l .renew h
  | release l => exact S.row l .release h
  | cancel l => exact S.row l .cancel h
  | query l => exact S.row l .query h
  | validate l => exact S.row l .validate h
  | malformedRequest l => cases h; exact S.malformed l
  | tick => cases h; exact S.keep Calm.tick.keeping S.engine.tick
  | dueLeaseEntry =>
    cases h
    split
    · split
      · split
        · exact S.engineOnly (.takeLease _ _) (S.engine.takeLease ‹_›)
        · exact S
      · exact S
    · exact S
  | dueGraceEntry =>
    cases h
    split
    · split
      · split
        · exact S.engineOnly (.expireHold _ _) (S.engine.expireHold ‹_›)
        · exact S
      · exact S
    · exact S
  | dueWaitEntry =>
    cases h
    split
    · split
      · exact S.engineOnly (.timeOutWait _ _) (S.engine.timeOutWait ‹_›)
      · exact S
    · exact S
  | dueIdleRecordEntry =>
    cases h
    split
    · exact S.engineOnly (.retire _) (S.engine.takeIdle ‹_›)
    · exact S
  | purgeWaitStep =>
    cases h
    split
    · rename_i hq hw
      exact S.purgeWaitStep (by rw [hq]; rfl) hw
    · exact S
  | purgeHoldStep =>
    cases h
    split
    · rename_i hq hw
      split
      · exact S.purgeHoldStep (by rw [hq]; rfl) hw _
      · exact S.lastHoldStep (by rw [hq]; rfl) hw ‹_›
    · exact S
  | messageComplete l b =>
    cases h
    split
    · split
      · rename_i hr whole
        exact S.quiet (.completeMessage hr whole.2)
      · exact S
    · exact S
  | framing l f =>
    cases h
    split
    · exact S.quiet .receiveBroken
    · split
      · rename_i hr
        split
        · exact S.quiet (.discardTo _ (by rw [hr]; simp) (.inr rfl))
        · exact S
      · exact S
  | truncated l b =>
    cases h
    split
    · rename_i hr
      exact S.quiet (.truncateMessage b (by rw [hr]; simp))
    · exact S
  | gapLimit l =>
    cases h
    split
    · rename_i hr
      exact S.quiet (.discardTo _ (by rw [hr]; simp) (.inl rfl))
    · exact S
  | stray l b =>
    cases h
    split
    · exact S.quiet (.countLink _ _)
    · exact S
  | messageSent l => cases h; exact S.quiet .messageSent
  | linkDisable l => cases h; exact S.quiet .disableLink
  | linkEnable l => cases h; exact S.quiet .enableLink
  | settingWrite a v => cases h; exact S.quiet (.writeWord a v)
  | flagsWrite v =>
    cases h
    exact S.calm (t := s.clearFlags v) { Calm.refl none s with } { SameEngine.refl s with }
  | enablesWrite v =>
    cases h
    exact S.calm (t := s.setEnables (v.setWidth 9)) { Calm.refl none s with } { SameEngine.refl s with }
  | fenceCounterLatch e =>
    cases h
    cases e <;> exact S.calm { Calm.refl none s with } { SameEngine.refl s with }
  | installRecord => cases h; exact S.takeCommand fun p hs => S.keep (.install hs p) (S.engine.install p)
  | unpinRecord => cases h; exact S.takeCommand fun p hs => S.keep (.unpin hs p) (S.engine.unpin p)
  | removeRecord => cases h; exact S.takeCommand fun p hs => S.keep (.remove hs p) (S.engine.remove p)
  | removeDomain =>
    cases h
    refine S.takeCommand fun p hs => ?_
    split
    · exact S.complete hs _ _
    · exact S.beginWalk hs _
  | domainWalkStep =>
    cases h
    split
    · exact S.walkStep ‹_›
    · exact S
    · exact S
  | revokeHold => cases h; exact S.takeCommand fun p hs => S.keep (.revoke hs p) (S.engine.revoke p)
  | cancelWait => cases h; exact S.takeCommand fun p hs => S.keep (.cancelByManager hs p) (S.engine.cancelByManager p)
  | findRecord =>
    cases h
    refine S.takeCommand fun p hs => ?_
    split
    · split <;> exact S.complete hs _ _
    · exact S.complete hs _ _
  | readRecord => cases h; exact S.takeCommand fun p hs => S.readRecordCommand hs p
  | readHold =>
    cases h
    refine S.takeCommand fun p hs => ?_
    split <;> exact S.complete hs _ _
  | readWait =>
    cases h
    refine S.takeCommand fun p hs => ?_
    split <;> exact S.complete hs _ _
  | setClientState => cases h; exact S.takeCommand fun p hs => S.keep (.setClient hs p) (S.engine.setClient p)
  | snapshotCounters =>
    cases h
    refine S.takeCommand fun p hs => ?_
    split
    · exact S.complete hs _ _
    · refine Stands.complete (S.quiet (.takeSnapshot _)) (fun k => ?_) _ _
      rw [admin_takeSnapshot]
      exact hs k
  | clearAll => cases h; exact S.takeCommand fun _ _ => S.clearAll
  | setHashSeed =>
    cases h
    refine S.takeCommand fun p hs => ?_
    split
    · exact S.complete hs _ _
    · split
      · exact S.complete hs _ _
      · rename_i empty
        refine Stands.complete (S.setSeed (field p[0] 0 8) fun r => ?_) hs _ _
        simp only [List.any_eq_true, List.mem_finRange, true_and, not_exists, Bool.not_eq_true, Option.isSome_eq_false_iff,
          Option.isNone_iff_eq_none] at empty
        exact empty r
  | characterReceived l b mark => cases h; exact S.quiet (.receive b mark)

/-- A step keeps the laws: the rest of the queue is not what they speak of, and a clock moves only what they do not see. -/
theorem Stands.step (S : Stands s) (h : Machine.step s = .next t) : Stands t := by
  rcases step_cases h with ⟨c, rest, -, hc⟩ | ⟨-, rfl⟩
  · exact Stands.exec (S.calm (t := s.setPending rest) { Calm.refl none s with } { SameEngine.refl s with }) c hc
  · exact S.quiet .clockPasses

/-- Settles O59: the laws gathered record by record (`Stands`) are kept by every command and every clock, and say the same as `Lawful`. -/
theorem everyStepKeepsTheLaws : Obligations.EveryStepKeepsTheLaws :=
  fun _ _ L h => (L.stands.step h).lawful

end Sys2Proof.Machine
end

