-- ==== Sys2Proof/Proofs/Fences.lean ====
section
/-! PROOFS. Every command keeps the queue of commands and issues fences only in order: one relation, `Orderly`, that each
operation keeps and that chains (O1, O58). -/

namespace Sys2Proof.Machine

set_option Elab.async false

open Sys2Proof

variable {s t u : State}

/-! ### What is read after an update of a record, of a hold, of the fence counter -/

@[simp] theorem record_modifyRecord (s : State) (r q : Slot) (f : Record → Record) :
    (s.modifyRecord r f).record q = if r = q then (s.record r).map f else s.record q := by
  unfold State.modifyRecord
  split
  · rename_i x hx
    rw [record_setRecord, hx]
    rfl
  · rename_i hx
    split
    · subst_vars; rw [hx]; rfl
    · rfl

@[simp] theorem hold_modifyHold (s : State) (i j : HoldIx) (f : Hold → Hold) :
    (s.modifyHold i f).hold j = if i = j then (s.hold i).map f else s.hold j := by
  unfold State.modifyHold
  split
  · rename_i x hx
    rw [hold_setHold, hx]
    rfl
  · rename_i hx
    split
    · subst_vars; rw [hx]; rfl
    · rfl

@[simp] theorem record_advanceFence (s : State) (r : Slot) : s.advanceFence.record r = s.record r := by
  rw [advanceFence_eq]; rfl

@[simp] theorem hold_advanceFence (s : State) (i : HoldIx) : s.advanceFence.hold i = s.hold i := by
  rw [advanceFence_eq]; rfl

@[simp] theorem fence_advanceFence (s : State) : s.advanceFence.fence = s.fence.advance := by
  rw [advanceFence_eq]; rfl

@[simp] theorem pending_advanceFence (s : State) : s.advanceFence.pending = s.pending := by
  rw [advanceFence_eq]

/-- R48: the counter does not wrap. -/
theorem FenceCounter.next_le_advance (f : FenceCounter) : f.next ≤ f.advance.next := by
  unfold FenceCounter.advance
  split
  · exact BitVec.le_refl _
  · rename_i h
    have h : f.next ≠ 281474976710655#48 := h
    show f.next ≤ f.next + 1
    bv_omega

/-! ### The relation -/

/-- From s to t the queue of commands is the same, and fences are issued only in order: the law of fences is kept, the counter does not
fall, and an exhausted counter stands still. -/
structure Orderly (s t : State) : Prop where
  pending : t.pending = s.pending
  law : FenceLaw s → FenceLaw t
  next : s.fence.next ≤ t.fence.next
  stopped : s.fence.exhausted = true → t.fence = s.fence

namespace Orderly

theorem refl (s : State) : Orderly s s := ⟨rfl, id, BitVec.le_refl _, fun _ => rfl⟩

theorem trans (h : Orderly s t) (k : Orderly t u) : Orderly s u where
  pending := k.pending.trans h.pending
  law := k.law ∘ h.law
  next := BitVec.le_trans h.next k.next
  stopped he := (k.stopped (by rw [h.stopped he]; exact he)).trans (h.stopped he)

/-- No fence is issued: every hold and record of t has the fence that it had, or a record has none yet. -/
theorem of_sub (pending : t.pending = s.pending) (fence : t.fence = s.fence)
    (hold : ∀ i h, t.hold i = some h → ∃ k, s.hold i = some k ∧ k.fence = h.fence)
    (record : ∀ r x, t.record r = some x → x.lastFence = 0 ∨ ∃ y, s.record r = some y ∧ y.lastFence = x.lastFence) :
    Orderly s t where
  pending := pending
  law L := L.of_sub fence hold fun r x hx => (record r x hx).imp_right fun h => ⟨r, h⟩
  next := by rw [fence]; exact BitVec.le_refl _
  stopped _ := fence

/-- The counter, the holds and the records are the same. -/
theorem same (pending : t.pending = s.pending) (fence : t.fence = s.fence) (holds : t.holds = s.holds)
    (records : t.records = s.records) : Orderly s t := by
  have hold : ∀ i, t.hold i = s.hold i := fun i => congrArg (fun v : Vector HoldSlot 256 => v[i].occupant) holds
  have record : ∀ r, t.record r = s.record r := fun r => congrArg (fun v : Vector (Option Record) 1024 => v[r]) records
  exact of_sub pending fence (fun i h hh => ⟨h, hold i ▸ hh, rfl⟩) fun r x hx => .inr ⟨x, record r ▸ hx, rfl⟩

/-- An operation of the engine that its laws do not see. -/
theorem of_unseen {o : Option Client} (O : EngineOnly o s t) (E : SameEngine s t) : Orderly s t :=
  same O.outside.pending E.fence E.holds E.records

/-- R48: the next fence is issued to the hold in slot i, and to its record. -/
theorem issue {i : HoldIx} (hx : s.fence.exhausted = false) (pending : t.pending = s.pending)
    (fence : t.fence = s.fence.advance) (issued : ∀ h, t.hold i = some h → h.fence = s.fence.next)
    (hold : ∀ j h, j ≠ i → t.hold j = some h → s.hold j = some h)
    (record : ∀ r x, t.record r = some x → x.lastFence = s.fence.next ∨ s.record r = some x) : Orderly s t where
  pending := pending
  law L := L.issue hx fence issued (fun j h hj hh => ⟨h, hold j h hj hh, rfl⟩)
    fun r x h => (record r x h).imp_right fun h => ⟨x, h, rfl⟩
  next := by rw [fence]; exact s.fence.next_le_advance
  stopped he := absurd (hx.symm.trans he) (by simp)

/-! ### Updates of a record and of a hold -/

/-- A record slot becomes free, or gets a record that has no fence yet. -/
theorem setRecord (r : Slot) (x : Option Record) (hx : ∀ y, x = some y → y.lastFence = 0) : Orderly s (s.setRecord r x) := by
  refine of_sub rfl rfl (fun i h hh => ⟨h, hh, rfl⟩) fun q y hy => ?_
  rw [record_setRecord] at hy
  split at hy
  · exact .inl (hx y hy)
  · exact .inr ⟨y, hy, rfl⟩

theorem modifyRecord (r : Slot) (f : Record → Record) (hf : ∀ x, (f x).lastFence = x.lastFence := by exact fun _ => rfl) :
    Orderly s (s.modifyRecord r f) := by
  refine of_sub (by simp) (by simp) (fun i h hh => ⟨h, by simpa using hh, rfl⟩) fun q y hy => ?_
  rw [record_modifyRecord] at hy
  split at hy
  · subst_vars
    obtain ⟨x, hx, rfl⟩ := Option.map_eq_some_iff.1 hy
    exact .inr ⟨x, hx, (hf x).symm⟩
  · exact .inr ⟨y, hy, rfl⟩

theorem modifyHold (i : HoldIx) (f : Hold → Hold) (hf : ∀ h, (f h).fence = h.fence := by exact fun _ => rfl) :
    Orderly s (s.modifyHold i f) := by
  refine of_sub (by simp) (by simp) (fun j h hh => ?_) fun q y hy => .inr ⟨y, by simpa using hy, rfl⟩
  rw [hold_modifyHold] at hh
  split at hh
  · subst_vars
    obtain ⟨k, hk, rfl⟩ := Option.map_eq_some_iff.1 hh
    exact ⟨k, hk, (hf k).symm⟩
  · exact ⟨h, hh, rfl⟩

/-- A hold slot becomes FREE. -/
theorem emptyHold (i : HoldIx) : Orderly s (s.setHold i none) := by
  refine of_sub rfl rfl (fun j h hh => ?_) fun q y hy => .inr ⟨y, hy, rfl⟩
  rw [hold_setHold] at hh
  split at hh
  · cases hh
  · exact ⟨h, hh, rfl⟩

/-! ### Updates that no fence depends on -/

theorem setWaitSlot (w : WaitIx) (x : WaitSlot) : Orderly s (s.setWaitSlot w x) := same rfl rfl rfl rfl

theorem setWait (w : WaitIx) (x : Option Wait) : Orderly s (s.setWait w x) := same rfl rfl rfl rfl

theorem setHoldCounts (x : HoldCounts) : Orderly s (s.setHoldCounts x) := same rfl rfl rfl rfl

theorem setArrival (x : Word) : Orderly s (s.setArrival x) := same rfl rfl rfl rfl

theorem removeEntry (ref : DeadlineRef) : Orderly s (s.removeEntry ref) := same rfl rfl rfl rfl

theorem addEntry (ref : DeadlineRef) (d : Word) : Orderly s (s.addEntry ref d) := same rfl rfl rfl rfl

theorem moveEntry (ref : DeadlineRef) (d : Word) : Orderly s (s.moveEntry ref d) := same rfl rfl rfl rfl

theorem raise (f : EventFlag) : Orderly s (s.raise f) := same rfl rfl rfl rfl

theorem countClient (c : Client) (f : ClientCounters → ClientCounters) : Orderly s (s.countClient c f) :=
  same rfl rfl rfl rfl

theorem countLink (l : Client) (f : LinkCounters → LinkCounters) : Orderly s (s.countLink l f) := same rfl rfl rfl rfl

theorem modifySession (c : Client) (f : Session → Session) : Orderly s (s.modifySession c f) := same rfl rfl rfl rfl

theorem modifyLink (l : Client) (f : Link → Link) : Orderly s (s.modifyLink l f) := same rfl rfl rfl rfl

theorem choose (l : Client) : Orderly s (s.choose l) := modifyLink l _

theorem setPurge (x : PurgeUnit) : Orderly s (s.setPurge x) := same rfl rfl rfl rfl

theorem setAdmin (x : AdminEngine) : Orderly s (s.setAdmin x) := same rfl rfl rfl rfl

/-! ### Answers and notices -/

theorem respond (l : Client) (tag : Byte) (reply : Reply) : Orderly s (s.respond l tag reply) :=
  of_unseen (.respond l tag reply) (.respond l tag reply)

theorem refuse (l : Client) (tag : Byte) (reply : Reply) : Orderly s (s.refuse l tag reply) :=
  of_unseen (.refuse l tag reply) (.refuse l tag reply)

theorem refuseFence (l : Client) (tag : Byte) : Orderly s (s.refuseFence l tag) :=
  (raise _).trans (refuse l tag _)

theorem postNotice (c : Client) (tag : Byte) (body : NoticeBody) : Orderly s (s.postNotice c tag body) :=
  of_unseen (.postNotice (o := none) c tag body) (.postNotice c tag body)

theorem postGranted (c : Client) (tag : Byte) (i : HoldIx) : Orderly s (s.postGranted c tag i) :=
  of_unseen (.postGranted (o := none) c tag i) (.postGranted c tag i)

/-! ### The Grant Engine's operations -/

theorem clearIdle (r : Slot) : Orderly s (s.clearIdle r) :=
  (modifyRecord r _).trans (removeEntry _)

theorem settleIdle (r : Slot) : Orderly s (s.settleIdle r) := by
  unfold State.settleIdle
  split
  · rename_i x hx
    split
    · rw [← modifyRecord_some (fun x => { x with idleDeadline := some (s.after s.device.idleAge) }) hx]
      exact (modifyRecord r _).trans (addEntry _ _)
    · exact refl s
  · exact refl s

theorem retire (r : Slot) : Orderly s (s.retire r) := (setRecord r none fun _ h => nomatch h).trans (removeEntry _)

theorem place (r : Slot) (x : Record) (hx : x.lastFence = 0) : Orderly s (s.place r x) :=
  (retire r).trans (setRecord r (some x) fun _ h => by cases h; exact hx)

theorem setHoldDeadline (i : HoldIx) (d : Word) : Orderly s (s.setHoldDeadline i d) :=
  (modifyHold i _).trans (moveEntry _ _)

theorem testHoldMark (n : Nat) : Orderly s (s.testHoldMark n) := by
  rw [testHoldMark_eq]; exact same rfl rfl rfl rfl

theorem testWaitMark (n : Nat) : Orderly s (s.testWaitMark n) := by
  rw [testWaitMark_eq]; exact same rfl rfl rfl rfl

/-- R36, R44: a hold is made with the next fence. -/
theorem openHold (hf : s.fence.exhausted = false) (i : HoldIx) (c : Client) (r : Slot) (m : Mode) (term : Half) :
    Orderly s (s.openHold i c r m term) := by
  unfold State.openHold
  refine trans ?_ (clearIdle r)
  refine issue (i := i) hf (by simp) (by simp) (fun h hh => ?_) (fun j h hj hh => ?_) fun q x hx => ?_
  · obtain rfl : _ = h := by simpa using hh
    rfl
  · simpa [Ne.symm hj] using hh
  · simp only [record_addEntry, record_advanceFence, record_modifyRecord] at hx
    split at hx
    · obtain ⟨y, -, rfl⟩ := Option.map_eq_some_iff.1 hx
      exact .inl rfl
    · exact .inr hx

theorem countGrant (c : Client) : Orderly s (s.countGrant c) := countClient c _

theorem countImmediate (c : Client) : Orderly s (s.countImmediate c) :=
  (((setHoldCounts _).trans (testHoldMark _)).trans (modifySession c _)).trans (countGrant c)

theorem grantAtOnce (hf : s.fence.exhausted = false) (i : HoldIx) (c : Client) (r : Slot) (m : Mode) (term : Half) :
    Orderly s (s.grantAtOnce i c r m term) :=
  (openHold hf i c r m term).trans (countImmediate c)

theorem dropWait (w : WaitIx) (y : Wait) : Orderly s (s.dropWait w y) :=
  (((modifyRecord y.slot _).trans (removeEntry _)).trans (setWait w _)).trans (modifySession _ _)

theorem fence_dropWait (s : State) (w : WaitIx) (y : Wait) : (s.dropWait w y).fence = s.fence := by
  simp [State.dropWait]

theorem grantNew (hf : s.fence.exhausted = false) (r : Slot) (x : Record) (w : WaitIx) (y : Wait) :
    Orderly s (s.grantNew r x w y) := by
  unfold State.grantNew
  split
  · exact refl s
  · exact ((((dropWait w y).trans (openHold (by rw [fence_dropWait]; exact hf) ..)).trans (setHoldCounts _)).trans
      (countGrant _)).trans (postGranted ..)

/-- R42, R46: an upgrade takes the next fence. -/
theorem upgrade (hf : s.fence.exhausted = false) (i : HoldIx) (r : Slot) (term : Half) : Orderly s (s.upgrade i r term) := by
  unfold State.upgrade State.setHoldDeadline
  refine issue (i := i) hf (by simp) (by simp) (fun h hh => ?_) (fun j h hj hh => ?_) fun q x hx => ?_
  · obtain ⟨k, -, rfl⟩ : ∃ k, s.hold i = some k ∧ _ = h := by simpa using hh
    rfl
  · simpa [Ne.symm hj] using hh
  · simp only [record_advanceFence, record_modifyRecord] at hx
    split at hx
    · obtain ⟨y, -, rfl⟩ := Option.map_eq_some_iff.1 hx
      exact .inl rfl
    · exact .inr (by simpa using hx)

theorem grantConversion (hf : s.fence.exhausted = false) (r : Slot) (x : Record) (w : WaitIx) (y : Wait) (h : HoldHandle) :
    Orderly s (s.grantConversion r x w y h) :=
  (((dropWait w y).trans (upgrade (by rw [fence_dropWait]; exact hf) ..)).trans (countGrant _)).trans
    (postGranted ..)

theorem grantHead (hf : s.fence.exhausted = false) (r : Slot) (x : Record) (w : WaitIx) (y : Wait) :
    Orderly s (s.grantHead r x w y) := by
  unfold State.grantHead
  split
  · exact grantNew hf r x w y
  · exact grantConversion hf r x w y _

/-- R41: a pass grants only while a fence is left. -/
theorem grantPassLoop (r : Slot) (n : Nat) (s : State) : Orderly s (grantPassLoop r n s) := by
  induction n generalizing s with
  | zero => exact refl s
  | succ n ih =>
    unfold Machine.grantPassLoop
    split
    · exact refl s
    · split
      · exact refl s
      · split
        · exact refl s
        · split
          · exact refl s
          · split
            · exact raise _
            · rename_i hf
              exact (grantHead (by simpa using hf) ..).trans (ih _)

theorem grantPass (r : Slot) : Orderly s (s.grantPass r) := grantPassLoop r _ s

theorem settleRecord (r : Slot) : Orderly s (s.settleRecord r) := (grantPass r).trans (settleIdle r)

theorem freeConversion (h : Hold) : Orderly s (s.freeConversion h) := by
  unfold State.freeConversion
  split
  · exact refl s
  · split
    · exact dropWait ..
    · exact refl s

theorem freeHold (i : HoldIx) (h : Hold) : Orderly s (s.freeHold i h) :=
  (((((modifyRecord h.slot _).trans (removeEntry _)).trans (freeConversion h)).trans (emptyHold i)).trans
    (setHoldCounts _)).trans (modifySession _ _)

theorem endHold (i : HoldIx) (h : Hold) (cause : LostCause) : Orderly s (s.endHold i h cause) :=
  ((freeHold i h).trans (postNotice ..)).trans (settleRecord _)

theorem freeWait (w : WaitIx) (y : Wait) : Orderly s (s.freeWait w y) := by
  unfold State.freeWait
  split
  · exact ((dropWait w y).trans (setHoldCounts _)).trans (modifySession _ _)
  · exact (dropWait w y).trans (modifyHold _ _)

theorem endWait (w : WaitIx) (y : Wait) (cause : WaitEndCause) : Orderly s (s.endWait w y cause) :=
  ((freeWait w y).trans (postNotice ..)).trans (settleRecord _)

theorem openWait (w : WaitIx) (y : Wait) (place : List WaitIx → List WaitIx) : Orderly s (s.openWait w y place) :=
  ((((((setWaitSlot w _).trans (setArrival _)).trans (modifyRecord _ _)).trans (addEntry _ _)).trans
    (clearIdle _)).trans (modifySession _ _)).trans (testWaitMark _)

theorem reserveHold (c : Client) : Orderly s (s.reserveHold c) :=
  ((setHoldCounts _).trans (testHoldMark _)).trans (modifySession _ _)

theorem countWaitBegun (c : Client) : Orderly s (s.countWaitBegun c) := countClient c _

theorem queueNew (w : WaitIx) (y : Wait) : Orderly s (s.queueNew w y) := by
  unfold State.queueNew
  exact ((openWait w y _).trans (reserveHold _)).trans (countWaitBegun _)

theorem queueUpgrade (i : HoldIx) (w : WaitIx) (y : Wait) : Orderly s (s.queueUpgrade i w y) := by
  unfold State.queueUpgrade
  have opened : Orderly s (s.openWait w y fun q => w :: q) := openWait w y _
  have marked := opened.trans
    (modifyHold i fun h => { h with conversion := some ((s.openWait w y fun q => w :: q).waitHandle w) })
  exact marked.trans (countWaitBegun _)

/-- What each step of a fold keeps, the fold keeps. -/
theorem foldl {α : Type} (f : State → α → State) (hf : ∀ s a, Orderly s (f s a)) (as : List α) (s : State) :
    Orderly s (as.foldl f s) := by
  induction as generalizing s with
  | nil => exact refl s
  | cons a as ih => exact (hf s a).trans (ih _)

theorem displaceOne (i : HoldIx) : Orderly s (s.displaceOne i) := by
  unfold State.displaceOne
  split
  · exact endHold ..
  · exact refl s

theorem displace (c : Client) (r : Slot) (m : Mode) : Orderly s (s.displace c r m) := by
  unfold State.displace
  split
  · exact foldl _ (fun _ i => displaceOne i) _ _
  · exact refl s

end Orderly

end Sys2Proof.Machine
end

