-- ==== Sys2Proof/Proofs/FencesKeep.lean ====
section
/-! PROOFS. Every command but the reset is `Orderly`: the requests, the due entries, the purge walk, the commands of the Admin Engine
and the links. So a step keeps the law of fences and takes the front command off the queue (O1, O58). -/

namespace Sys2Proof.Machine

set_option Elab.async false

open Sys2Proof

variable {s t : State}

namespace Orderly

/-! ### ACQUIRE -/

theorem acquireCreate (l : Client) (tag : Byte) (b : AcquireBody) : Orderly s (s.acquireCreate l tag b) := by
  unfold State.acquireCreate
  split
  · exact (raise _).trans (refuse ..)
  · rename_i r hr
    split
    · exact refuse ..
    · split
      · exact refuse ..
      · split
        · exact refuseFence ..
        · rename_i hf
          have placed : Orderly s (s.place r (freshRecord b.key)) := place r _ rfl
          exact (placed.trans (grantAtOnce (by simpa [State.place, State.retire] using hf) ..)).trans (respond ..)

theorem acquireNow (l : Client) (tag : Byte) (b : AcquireBody) (r : Slot) (x : Record) :
    Orderly s (s.acquireNow l tag b r x) := by
  unfold State.acquireNow
  split
  · exact refuse ..
  · split
    · exact refuseFence ..
    · rename_i hf
      exact (grantAtOnce (by simpa using hf) ..).trans (respond ..)

theorem acquireQueue (l : Client) (tag : Byte) (b : AcquireBody) (r : Slot) (x : Record) (priority : BitVec 2) :
    Orderly s (s.acquireQueue l tag b r x priority) := by
  unfold State.acquireQueue
  split
  · exact refuse ..
  · split
    · exact refuse ..
    · split
      · exact ((queueNew ..).trans (respond ..)).trans (grantPass r)
      · exact refuse ..

theorem acquireDecide (l : Client) (tag : Byte) (b : AcquireBody) (r : Slot) : Orderly s (s.acquireDecide l tag b r) := by
  unfold State.acquireDecide
  split
  · dsimp only
    split
    · exact acquireNow ..
    · exact acquireQueue ..
  · exact refuse ..

theorem acquirePresent (l : Client) (tag : Byte) (b : AcquireBody) (r : Slot) (x : Record) :
    Orderly s (s.acquirePresent l tag b r x) := by
  unfold State.acquirePresent
  split
  · exact refuse ..
  · split
    · exact refuse ..
    · split
      · exact refuse ..
      · split
        · exact refuse ..
        · exact (displace ..).trans (acquireDecide ..)

theorem decideAcquire (l : Client) (tag : Byte) (b : AcquireBody) : Orderly s (s.decideAcquire l tag b) := by
  unfold State.decideAcquire
  split
  · exact refuse ..
  · split
    · exact refuse ..
    · split
      · split
        · exact refuse ..
        · exact acquireCreate ..
      · split
        · exact acquirePresent ..
        · exact refuse ..

/-! ### CONVERT -/

theorem recover (i : HoldIx) (h : Hold) (d : Word) : Orderly s (s.recover i h d) := by
  unfold State.recover
  split
  · exact (modifyHold i _).trans (setHoldDeadline i d)
  · exact refl s

theorem downgrade (l : Client) (tag : Byte) (i : HoldIx) (r : Slot) : Orderly s (s.downgrade l tag i r) :=
  ((modifyHold i _).trans (respond ..)).trans (settleRecord r)

theorem upgradeNow (l : Client) (tag : Byte) (b : ConvertBody) (i : HoldIx) (r : Slot) (x : Record) :
    Orderly s (s.upgradeNow l tag b i r x) := by
  unfold State.upgradeNow
  split
  · exact refuseFence ..
  · rename_i hf
    exact (((upgrade (by simpa using hf) ..).trans (countGrant l)).trans (respond ..)).trans (settleRecord r)

theorem convertQueue (l : Client) (tag : Byte) (b : ConvertBody) (i : HoldIx) (r : Slot) (x : Record) :
    Orderly s (s.convertQueue l tag b i r x) := by
  unfold State.convertQueue
  split
  · exact refuse ..
  · split
    · exact refuse ..
    · split
      · exact refuse ..
      · exact ((queueUpgrade ..).trans (respond ..)).trans (grantPass r)

theorem upgradeDecide (l : Client) (tag : Byte) (b : ConvertBody) (i : HoldIx) (r : Slot) :
    Orderly s (s.upgradeDecide l tag b i r) := by
  unfold State.upgradeDecide
  split
  · split
    · exact upgradeNow ..
    · exact convertQueue ..
  · exact refuse ..

theorem convertActive (l : Client) (tag : Byte) (b : ConvertBody) (i : HoldIx) (r : Slot) (x : Record) :
    Orderly s (s.convertActive l tag b i r x) := by
  unfold State.convertActive
  split
  · split
    · exact refuse ..
    · exact downgrade ..
  · split
    · exact refuse ..
    · exact (displace ..).trans (upgradeDecide ..)

theorem decideConvert (l : Client) (tag : Byte) (b : ConvertBody) : Orderly s (s.decideConvert l tag b) := by
  unfold State.decideConvert
  split
  · exact refuse ..
  · split
    · exact refuse ..
    · split
      · exact refuse ..
      · split
        · exact refuse ..
        · exact (recover ..).trans (convertActive ..)

/-! ### The other requests -/

theorem renewHold (l : Client) (tag : Byte) (i : HoldIx) (x : Record) (term : Half) :
    Orderly s (s.renewHold l tag i x term) :=
  ((modifyHold i _).trans (setHoldDeadline i _)).trans (respond ..)

theorem releaseHold (l : Client) (tag : Byte) (i : HoldIx) (h : Hold) : Orderly s (s.releaseHold l tag i h) :=
  ((freeHold i h).trans (respond ..)).trans (settleRecord _)

theorem cancelNamed (l : Client) (tag : Byte) (w : WaitIx) (y : Wait) : Orderly s (s.cancelNamed l tag w y) :=
  ((freeWait w y).trans (respond ..)).trans (settleRecord _)

theorem decideValidate (l : Client) (tag : Byte) (key : Word) (fence : Fence) :
    Orderly s (s.decideValidate l tag key fence) := by
  unfold State.decideValidate
  split
  · exact refuse ..
  · split
    · exact refuse ..
    · split
      · exact respond ..
      · split <;> exact respond ..

theorem purgeStart (c : Client) : Orderly s (s.purgeStart c) := (modifyLink c _).trans (setPurge _)

theorem joinPurgeQueue (c : Client) : Orderly s (s.joinPurgeQueue c) := by
  unfold State.joinPurgeQueue
  dsimp only
  split
  · exact (setPurge _).trans (purgeStart c)
  · exact setPurge _

theorem passForWait (w : WaitIx) : Orderly s (s.passForWait w) := by
  unfold State.passForWait
  split
  · exact grantPass _
  · exact refl s

theorem enterPurging (c : Client) (after : AfterPurge) (tag : Option Byte) (d : Option Deferred) :
    Orderly s (s.enterPurging c after tag d) :=
  ((modifySession c _).trans (joinPurgeQueue c)).trans (foldl _ (fun _ w => passForWait w) _ _)

theorem decideAttach (l : Client) (tag new : Byte) : Orderly s (s.decideAttach l tag new) := by
  unfold State.decideAttach
  split
  · exact (modifySession l _).trans (respond ..)
  · split
    · exact respond ..
    · exact enterPurging ..

/-- What a request of well-formed fields decides. -/
theorem decision (k : RequestKind) (l : Client) (m : RxMessage) (hg : m.fieldsGood k = true) :
    Orderly s (k.decision l m s) := by
  cases k with
  | attach => exact decideAttach l _ _
  | detach => exact enterPurging ..
  | ping => exact respond ..
  | acquire =>
    rw [fieldsGood_acquire] at hg
    obtain ⟨b, hb⟩ := Option.isSome_iff_exists.1 hg
    simp only [RequestKind.decision, hb]
    exact decideAcquire ..
  | convert =>
    rw [fieldsGood_convert] at hg
    obtain ⟨b, hb⟩ := Option.isSome_iff_exists.1 hg
    simp only [RequestKind.decision, hb]
    exact decideConvert ..
  | renew =>
    simp only [RequestKind.decision]
    split
    · exact refuse ..
    · split
      · exact renewHold ..
      · exact refuse ..
  | release =>
    simp only [RequestKind.decision]
    split
    · exact refuse ..
    · exact releaseHold ..
  | cancel =>
    simp only [RequestKind.decision]
    split
    · exact refuse ..
    · exact cancelNamed ..
  | query =>
    simp only [RequestKind.decision]
    split
    · exact refuse ..
    · exact respond ..
  | validate => exact decideValidate ..

theorem gated (l : Client) (k : RequestKind) (newClaim : Bool) (m : RxMessage) (act : State → State)
    (h : ∀ u, Orderly u (act u)) : Orderly s (s.gated l k newClaim m act) := by
  unfold State.gated
  split
  · exact refuse ..
  · exact (modifySession l _).trans (h _)

/-- The row of a request. -/
theorem row (l : Client) (k : RequestKind) (h : exec (k.row l) s = .next t) : Orderly s t := by
  rcases exec_row_cases s l k with e | ⟨m, i, -, -, e⟩ <;> rw [e] at h <;> cases h
  · exact refl s
  · refine trans (t := s.taken l i) (modifyLink l _) ?_
    split
    · exact gated _ _ _ _ _ fun u => decision k l m ‹_›
    · exact refuse ..

/-! ### Due entries and the purge walk -/

theorem lapse (i : HoldIx) (h : Hold) : Orderly s (s.lapse i h) :=
  ((modifyHold i _).trans (setHoldDeadline i _)).trans (postNotice ..)

theorem expireHold (i : HoldIx) (h : Hold) : Orderly s (s.expireHold i h) := (countClient ..).trans (endHold ..)

theorem timeOutWait (w : WaitIx) (y : Wait) : Orderly s (s.timeOutWait w y) := (countClient ..).trans (endWait ..)

theorem takeLease (i : HoldIx) (h : Hold) : Orderly s (s.takeLease i h) := by
  unfold State.takeLease
  split
  · split
    · exact lapse ..
    · exact expireHold ..
  · exact expireHold ..

theorem purgeWait (c : Client) (w : WaitIx) : Orderly s (s.purgeWait c w) := by
  unfold State.purgeWait
  split
  · split
    · exact (freeWait ..).trans (settleRecord _)
    · exact refl s
  · exact refl s

theorem purgeHold (c : Client) (i : HoldIx) : Orderly s (s.purgeHold c i) := by
  unfold State.purgeHold
  split
  · split
    · exact (freeHold ..).trans (settleRecord _)
    · exact refl s
  · exact refl s

theorem nextPurge : Orderly s s.nextPurge := by
  unfold State.nextPurge
  split
  · exact purgeStart _
  · exact setPurge _

theorem answerDeferred (c : Client) (d : Option Deferred) : Orderly s (s.answerDeferred c d) := by
  unfold State.answerDeferred
  split
  · exact respond ..
  · exact refl s

theorem purgeEnd (c : Client) : Orderly s (s.purgeEnd c) :=
  ((((modifySession c _).trans (answerDeferred c _)).trans (setPurge _)).trans (raise _)).trans nextPurge

theorem setWalk (p : WalkPosition) : Orderly s (s.setWalk p) := setPurge _

/-! ### The commands of the Admin Engine -/

theorem complete (code : ResultCode) (ws : List Word) : Orderly s (s.complete code ws) := (setAdmin _).trans (raise _)

theorem takeCommand (c : AdminCommand) (act : Vector Word 4 → State → State) (h : ∀ p u, Orderly u (act p u)) :
    Orderly s (s.takeCommand c act) := by
  unfold State.takeCommand
  split
  · split
    · exact h _ _
    · exact refl s
  · exact refl s
  · exact refl s

theorem installOn (r : Slot) (x : Record) (shareable : Bool) (cap : Nat) (maxTerm : Half) :
    Orderly s (s.installOn r x shareable cap maxTerm) := by
  unfold State.installOn
  dsimp only
  split
  · exact ((modifyRecord r _).trans (clearIdle r)).trans (grantPass r)
  · exact (modifyRecord r _).trans (clearIdle r)

theorem install (p : Vector Word 4) : Orderly s (s.install p) := by
  unfold State.install
  dsimp only
  split
  · exact complete ..
  · split
    · split
      · split
        · exact complete ..
        · exact (installOn ..).trans (complete ..)
      · exact complete ..
    · split
      · exact (raise _).trans (complete ..)
      · refine trans ?_ (complete ..)
        exact place _ _ rfl

theorem unpinOn (r : Slot) (x : Record) : Orderly s (s.unpinOn r x) := by
  unfold State.unpinOn
  split
  · exact refl s
  · exact (modifyRecord r _).trans (settleRecord r)

theorem unpin (p : Vector Word 4) : Orderly s (s.unpin p) := by
  unfold State.unpin
  split
  · split
    · exact (unpinOn ..).trans (complete ..)
    · exact complete ..
  · exact complete ..

theorem removeWait (w : WaitIx) : Orderly s (s.removeWait w) := by
  unfold State.removeWait
  split
  · exact (freeWait ..).trans (postNotice ..)
  · exact refl s

theorem removeHold (i : HoldIx) : Orderly s (s.removeHold i) := by
  unfold State.removeHold
  split
  · exact (freeHold ..).trans (postNotice ..)
  · exact refl s

theorem removeClaims (r : Slot) (x : Record) : Orderly s (s.removeClaims r x) :=
  ((foldl _ (fun _ w => removeWait w) _ _).trans (foldl _ (fun _ i => removeHold i) _ _)).trans (retire r)

theorem remove (p : Vector Word 4) : Orderly s (s.remove p) := by
  unfold State.remove
  split
  · split
    · exact (removeClaims ..).trans (complete ..)
    · exact complete ..
  · exact complete ..

theorem setMark (d : BitVec 4) (b : Bool) : Orderly s (s.setMark d b) := same rfl rfl rfl rfl

theorem advanceWalk (k : DomainWalk) : Orderly s (s.advanceWalk k) := by
  unfold State.advanceWalk
  split
  · exact setAdmin _
  · exact (setMark ..).trans (complete ..)

theorem walkStep (k : DomainWalk) : Orderly s (s.walkStep k) := by
  unfold State.walkStep
  split
  · split
    · exact (removeClaims ..).trans (advanceWalk _)
    · exact advanceWalk _
  · exact advanceWalk _

theorem revoke (p : Vector Word 4) : Orderly s (s.revoke p) := by
  unfold State.revoke
  split
  · exact complete ..
  · exact (endHold ..).trans (complete ..)

theorem cancelByManager (p : Vector Word 4) : Orderly s (s.cancelByManager p) := by
  unfold State.cancelByManager
  split
  · exact complete ..
  · exact (endWait ..).trans (complete ..)

theorem readRecordCommand (p : Vector Word 4) : Orderly s (s.readRecordCommand p) := by
  unfold State.readRecordCommand
  split
  · split
    · exact complete ..
    · split <;> exact complete ..
  · exact complete ..

theorem applyAction (c : Client) (a : ClientAction) (h : s.applyAction c a = some t) : Orderly s t := by
  unfold State.applyAction at h
  split at h <;> cases h
  case h_1 | h_3 | h_7 | h_8 | h_9 => exact modifySession c _
  case h_2 | h_4 => exact refl s
  all_goals exact enterPurging ..

theorem setClient (p : Vector Word 4) : Orderly s (s.setClient p) := by
  unfold State.setClient
  split
  · split
    · exact complete ..
    · split
      · exact (applyAction _ _ ‹_›).trans (complete ..)
      · exact complete ..
  · exact complete ..

theorem takeSnapshot (clear : Bool) : Orderly s (s.takeSnapshot clear) := by
  unfold State.takeSnapshot
  dsimp only
  split <;> exact same rfl rfl rfl rfl

/-- R166: CLEAR ALL frees every record and every hold; the fence counter stands. -/
theorem clearAll : Orderly s s.clearAll := by
  have cleared : Orderly s s.clearPart := by
    refine of_sub rfl rfl (fun i h hh => ?_) fun r x hx => ?_
    · simp [State.hold, State.holdSlot, State.clearPart] at hh
    · simp [State.record, State.clearPart] at hx
  have answered : ∀ (u : State) (c : Client), Orderly u (State.answerCleared s u c) := fun u c => by
    unfold State.answerCleared
    split
    · exact respond ..
    · exact refl u
  exact (cleared.trans (foldl _ answered _ _)).trans (complete ..)

/-! ### Links and settings -/

theorem modifyWire (l : Client) (f : LinkWire → LinkWire) : Orderly s (s.modifyWire l f) := same rfl rfl rfl rfl

theorem discard (l : Client) (cause : DiscardCause) (after : Receiver) : Orderly s (s.discard l cause after) :=
  (((modifyLink l _).trans (countLink l _)).trans (raise _)).trans (choose l)

theorem setReceiver (l : Client) (r : Receiver) : Orderly s (s.setReceiver l r) := modifyLink l _

theorem completeMessage (l : Client) (chars : List Byte) : Orderly s (s.completeMessage l chars) := by
  unfold State.completeMessage
  split
  · exact discard ..
  · split
    · exact discard ..
    · exact (modifyLink l _).trans (countLink l _)

theorem receive (l : Client) (b : Byte) (mark : Bool) : Orderly s (s.receive l b mark) := by
  unfold State.receive
  split
  · exact setReceiver ..
  · exact countLink ..
  · exact setReceiver ..
  · exact refl s
  · exact discard ..
  · unfold State.extendMessage
    split
    · exact discard ..
    · split
      · exact completeMessage ..
      · exact setReceiver ..
  · exact refl s

theorem receiveBroken (l : Client) : Orderly s (s.receiveBroken l) := by
  unfold State.receiveBroken
  split
  · exact discard ..
  · exact setReceiver ..
  · exact refl s
  · exact refl s

theorem messageSent (l : Client) : Orderly s (s.messageSent l) := by
  unfold State.messageSent
  split
  · exact ((modifyLink l _).trans (countLink l _)).trans (choose l)
  · exact refl s

theorem disableLink (l : Client) : Orderly s (s.disableLink l) := by
  unfold State.disableLink
  split
  · exact modifyLink l _
  · exact refl s

theorem enableLink (l : Client) : Orderly s (s.enableLink l) := by
  unfold State.enableLink
  split
  · exact refl s
  · exact ((modifyWire l _).trans (modifyLink l _)).trans (choose l)

theorem writeCommand (v : Word) : Orderly s (s.writeCommand v) := by
  unfold State.writeCommand
  dsimp only
  split
  · split
    · exact setAdmin _
    · exact trans (t := s.setAdmin { s.admin with command := field v 0 8 }) (setAdmin _) (complete ..)
  · exact raise _
  · exact raise _

theorem writeWindow (v : Word) (w : WindowWord) : Orderly s (s.writeWindow v w) := by
  cases w with
  | linkEnable l =>
    unfold State.writeWindow State.writeLinkEnable
    dsimp only
    split
    · exact enableLink l
    · exact disableLink l
  | command => exact writeCommand v
  | _ => exact same rfl rfl rfl rfl

theorem writeWord (a : Half) (v : Word) : Orderly s (s.writeWord a v) := by
  unfold State.writeWord
  split
  · exact writeWindow ..
  · exact refl s

/-! ### Every command -/

/-- Every command but the reset. -/
theorem exec (c : Instr) (h : Machine.exec c s = .next t) (hc : c ≠ .powerOnReset) : Orderly s t := by
  cases c with
  | powerOnReset => exact absurd rfl hc
  | attach l => exact row l .attach h
  | detach l => exact row l .detach h
  | ping l => exact row l .ping h
  | acquire l => exact row l .acquire h
  | convert l => exact row l .convert h
  | renew l => exact row l .renew h
  | release l => exact row l .release h
  | cancel l => exact row l .cancel h
  | query l => exact row l .query h
  | validate l => exact row l .validate h
  | malformedRequest l =>
    cases h
    unfold State.take
    split
    · split
      · exact (modifyLink l _).trans (refuse ..)
      · exact refl s
    · exact refl s
  | tick => cases h; exact same rfl rfl rfl rfl
  | dueLeaseEntry =>
    cases h
    split
    · split
      · split
        · exact takeLease ..
        · exact refl s
      · exact refl s
    · exact refl s
  | dueGraceEntry =>
    cases h
    split
    · split
      · split
        · exact expireHold ..
        · exact refl s
      · exact refl s
    · exact refl s
  | dueWaitEntry =>
    cases h
    split
    · split
      · exact timeOutWait ..
      · exact refl s
    · exact refl s
  | dueIdleRecordEntry =>
    cases h
    split
    · exact retire _
    · exact refl s
  | purgeWaitStep =>
    cases h
    split
    · exact (purgeWait ..).trans (setWalk _)
    · exact refl s
  | purgeHoldStep =>
    cases h
    split
    · split
      · exact (purgeHold ..).trans (setWalk _)
      · exact (purgeHold ..).trans (purgeEnd _)
    · exact refl s
  | messageComplete l b =>
    cases h
    split
    · split
      · exact completeMessage ..
      · exact refl s
    · exact refl s
  | framing l f =>
    cases h
    split
    · exact receiveBroken l
    · split
      · split
        · exact discard ..
        · exact refl s
      · exact refl s
  | truncated l b =>
    cases h
    split
    · exact discard ..
    · exact refl s
  | gapLimit l =>
    cases h
    split
    · exact discard ..
    · exact refl s
  | stray l b =>
    cases h
    split
    · exact countLink ..
    · exact refl s
  | messageSent l => cases h; exact messageSent l
  | linkDisable l => cases h; exact disableLink l
  | linkEnable l => cases h; exact enableLink l
  | settingWrite a v => cases h; exact writeWord a v
  | flagsWrite v => cases h; exact same rfl rfl rfl rfl
  | enablesWrite v => cases h; exact same rfl rfl rfl rfl
  | fenceCounterLatch e => cases h; cases e <;> exact same rfl rfl rfl rfl
  | installRecord => cases h; exact takeCommand _ _ fun p _ => install p
  | unpinRecord => cases h; exact takeCommand _ _ fun p _ => unpin p
  | removeRecord => cases h; exact takeCommand _ _ fun p _ => remove p
  | removeDomain =>
    cases h
    refine takeCommand _ _ fun p u => ?_
    split
    · exact complete ..
    · exact (setMark ..).trans (walkStep _)
  | domainWalkStep =>
    cases h
    split
    · exact walkStep _
    · exact refl s
    · exact refl s
  | revokeHold => cases h; exact takeCommand _ _ fun p _ => revoke p
  | cancelWait => cases h; exact takeCommand _ _ fun p _ => cancelByManager p
  | findRecord =>
    cases h
    refine takeCommand _ _ fun p u => ?_
    split
    · split <;> exact complete ..
    · exact complete ..
  | readRecord => cases h; exact takeCommand _ _ fun p _ => readRecordCommand p
  | readHold =>
    cases h
    refine takeCommand _ _ fun p u => ?_
    split <;> exact complete ..
  | readWait =>
    cases h
    refine takeCommand _ _ fun p u => ?_
    split <;> exact complete ..
  | setClientState => cases h; exact takeCommand _ _ fun p _ => setClient p
  | snapshotCounters =>
    cases h
    refine takeCommand _ _ fun p u => ?_
    split
    · exact complete ..
    · exact (takeSnapshot _).trans (complete ..)
  | clearAll => cases h; exact takeCommand _ _ fun _ _ => clearAll
  | setHashSeed =>
    cases h
    refine takeCommand _ _ fun p u => ?_
    split
    · exact complete ..
    · split
      · exact complete ..
      · exact trans (t := u.setSeed (field p[0] 0 8)) (same rfl rfl rfl rfl) (complete ..)
  | characterReceived l b mark => cases h; exact receive l b mark

end Orderly

/-- R48: the reset starts the counter at 1, with no hold and no record. -/
theorem fenceLaw_powerOnReset (s : State) : FenceLaw ((State.reset.setPending s.pending).setPins s.pins) :=
  SameEngine.fenceLaw (s := State.reset) { SameEngine.refl State.reset with } fenceLaw_reset

theorem fenceLaw_exec {c : Instr} (L : FenceLaw s) (h : exec c s = .next t) : FenceLaw t := by
  by_cases hc : c = .powerOnReset
  · subst hc
    cases h
    exact fenceLaw_powerOnReset s
  · exact (Orderly.exec c h hc).law L

theorem fenceLaw_step (L : FenceLaw s) (h : step s = .next t) : FenceLaw t := by
  rcases step_cases h with ⟨c, rest, -, hc⟩ | ⟨-, rfl⟩
  · exact fenceLaw_exec (SameEngine.fenceLaw (s := s) (t := s.setPending rest) { SameEngine.refl s with } L) hc
  · exact Quiet.clockPasses.engine.fenceLaw L

/-- Settles O58: no operation gives out a fence but the next one, and none puts the counter back. -/
theorem fencesKeepTheirLaw : Obligations.FencesKeepTheirLaw := by
  refine ⟨fun s t L h => fenceLaw_step L h, fun c s t hc h => ?_⟩
  have ordered := Orderly.exec c h hc
  exact ⟨ordered.next, ordered.stopped⟩

/-- Every command answers a next state. -/
theorem exec_eq_next (c : Instr) (s : State) : ∃ t, exec c s = .next t := by
  cases c <;> exact ⟨_, rfl⟩

theorem pending_of_exec {c : Instr} (h : exec c s = .next t) : t.pending = s.pending := by
  by_cases hc : c = .powerOnReset
  · subst hc
    cases h
    rfl
  · exact (Orderly.exec c h hc).pending

/-- Settles O1: a step is `exec` of the front command, and no command touches the queue. -/
theorem stepTakesTheFrontCommand : Obligations.StepTakesTheFrontCommand := by
  refine ⟨fun c rest s => rfl, fun c s => ?_, fun s hs => ?_⟩
  · obtain ⟨t, ht⟩ := exec_eq_next c s
    exact ⟨t, ht, pending_of_exec ht⟩
  · unfold step
    rw [hs]

end Sys2Proof.Machine
end

