-- ==== Sys2Proof/Proofs/Grants.lean ====
section
/-! PROOFS. What a grant, an upgrade and the queueing of a request change, every field (O29, O30, O32). -/

namespace Sys2Proof.Machine

set_option Elab.async false

open Sys2Proof

variable {s : State}

/-! ### Grants at once (R36, R46) -/

/-- R27, R29, R36, R174: the counts of an immediate grant, every field. -/
theorem countImmediate_eq (s : State) (c : Client) : s.countImmediate c =
    { s with
      holdCounts := ⟨s.holdCounts.free - 1, s.holdCounts.reserved, s.holdCounts.inUse + 1⟩
      sessions := s.sessions.set c { s.session c with holdCount := (s.session c).holdCount + 1 }
      live := countedClient s.live c fun k => { k with grants := k.grants + 1 }
      flags := s.flags |||
        (if s.device.holdLowMark.toNat ≤ s.holdCounts.free ∧ s.holdCounts.free - 1 < s.device.holdLowMark.toNat
          then EventFlag.holdPoolLow.mask else 0) } := by
  unfold State.countImmediate
  rw [testHoldMark_eq]
  rfl

/-- Settles O29: making the hold and counting it, one after the other. -/
theorem grantAtOnceMakesOrUpgradesTheHold : Obligations.GrantAtOnceMakesOrUpgradesTheHold := by
  refine ⟨?_, ?_⟩
  · rintro s i c r m term x d hx rfl
    unfold State.grantAtOnce
    rw [openHold_eq s i c r m term x hx, countImmediate_eq]
    rfl
  · rintro s i r term h x d hh hx rfl
    exact upgrade_eq s i r term h x hh hx

/-! ### Queueing (R37, R42) -/

/-- R27, R29, R37, R174: the reservation of a hold slot, every field. -/
theorem reserveHold_eq (s : State) (c : Client) : s.reserveHold c =
    { s with
      holdCounts := ⟨s.holdCounts.free - 1, s.holdCounts.reserved + 1, s.holdCounts.inUse⟩
      sessions := s.sessions.set c { s.session c with holdCount := (s.session c).holdCount + 1 }
      flags := s.flags |||
        (if s.device.holdLowMark.toNat ≤ s.holdCounts.free ∧ s.holdCounts.free - 1 < s.device.holdLowMark.toNat
          then EventFlag.holdPoolLow.mask else 0) } := by
  unfold State.reserveHold
  rw [testHoldMark_eq]
  rfl

/-- R37: the queueing of a NEW wait, every field. -/
theorem queueNew_eq {w : WaitIx} {y : Wait} {x : Record} (hw : s.wait w = none) (hx : s.record y.slot = some x) :
    s.queueNew w y =
    { s with
      waits := s.waits.set w ⟨(s.waitSlot w).generation + 1, some { y with arrival := s.arrival }⟩
      arrival := s.arrival + 1
      records := s.records.set y.slot (some { x with
        waitQueue := insertAfterLast (s.staysAhead y.priority) w x.waitQueue, idleDeadline := none })
      deadlines := (insertEntry s.timer.clock ⟨.wait w, y.deadline, false⟩ s.deadlines).filter
        fun e => e.ref != .record y.slot
      holdCounts := ⟨s.holdCounts.free - 1, s.holdCounts.reserved + 1, s.holdCounts.inUse⟩
      sessions := s.sessions.set y.client { s.session y.client with
        holdCount := (s.session y.client).holdCount + 1, waitCount := (s.session y.client).waitCount + 1 }
      live := countedClient s.live y.client fun k => { k with waitsBegun := k.waitsBegun + 1 }
      flags := s.flags |||
        (if s.device.waitLowMark.toNat ≤ s.freeWaitCount ∧ s.freeWaitCount - 1 < s.device.waitLowMark.toNat
          then EventFlag.waitPoolLow.mask else 0) |||
        (if s.device.holdLowMark.toNat ≤ s.holdCounts.free ∧ s.holdCounts.free - 1 < s.device.holdLowMark.toNat
          then EventFlag.holdPoolLow.mask else 0) } := by
  unfold State.queueNew
  rw [openWait_eq s w y _ x hw hx, reserveHold_eq]
  simp only [State.session, Fin.getElem_fin, Vector.getElem_set_self, Vector.set_set]
  rfl

/-- R42: the queueing of a CONVERSION wait, every field. -/
theorem queueUpgrade_eq {i : HoldIx} {h : Hold} {w : WaitIx} {y : Wait} {x : Record} (hw : s.wait w = none)
    (hx : s.record y.slot = some x) (hh : s.hold i = some h) : s.queueUpgrade i w y =
    { s with
      holds := s.holds.set i ⟨(s.holdSlot i).generation,
        some { h with conversion := some ⟨w, (s.waitSlot w).generation + 1⟩ }⟩
      waits := s.waits.set w ⟨(s.waitSlot w).generation + 1, some { y with arrival := s.arrival }⟩
      arrival := s.arrival + 1
      records := s.records.set y.slot (some { x with waitQueue := w :: x.waitQueue, idleDeadline := none })
      deadlines := (insertEntry s.timer.clock ⟨.wait w, y.deadline, false⟩ s.deadlines).filter
        fun e => e.ref != .record y.slot
      sessions := s.sessions.set y.client { s.session y.client with waitCount := (s.session y.client).waitCount + 1 }
      live := countedClient s.live y.client fun k => { k with waitsBegun := k.waitsBegun + 1 }
      flags := s.flags |||
        (if s.device.waitLowMark.toNat ≤ s.freeWaitCount ∧ s.freeWaitCount - 1 < s.device.waitLowMark.toNat
          then EventFlag.waitPoolLow.mask else 0) } := by
  unfold State.queueUpgrade
  have opened := openWait_eq s w y (fun q => w :: q) x hw hx
  have handle : (s.openWait w y fun q => w :: q).waitHandle w = ⟨w, (s.waitSlot w).generation + 1⟩ := by
    simp [opened, State.waitHandle, State.waitSlot]
  have hold : (s.openWait w y fun q => w :: q).hold i = some h := by
    rw [opened]
    exact hh
  simp only [handle]
  rw [modifyHold_eq _ i h _ hold, opened]
  rfl

/-- Settles O30: making the wait, then the reservation or the hold's conversion. -/
theorem queuedRequestMakesTheWait : Obligations.QueuedRequestMakesTheWait :=
  fun _ _ _ _ hw hx => ⟨queueNew_eq hw hx, fun _ _ hh => queueUpgrade_eq hw hx hh⟩

/-! ### Grants from the queue (R42, R44) -/

/-- R44: the grant of a NEW wait before its notice, every field. -/
def State.grantedNew (s : State) (i : HoldIx) (r : Slot) (x : Record) (w : WaitIx) (y : Wait) (d : Word) : State :=
  { s with
    holds := s.holds.set i ⟨(s.holdSlot i).generation + 1, some ⟨.active, y.client, r, y.mode, s.fence.next, d, none⟩⟩
    waits := s.waits.set w ⟨(s.waitSlot w).generation, none⟩
    records := s.records.set r (some { x with
      holders := x.holders ++ [i], waitQueue := x.waitQueue.filter (· != w), lastFence := s.fence.next,
      idleDeadline := none })
    fence := if s.fence.next = BitVec.allOnes 48 then ⟨s.fence.next, true⟩ else ⟨s.fence.next + 1, s.fence.exhausted⟩
    deadlines := (insertEntry s.timer.clock ⟨.hold i, d, false⟩ (s.deadlines.filter fun e => e.ref != .wait w)).filter
      fun e => e.ref != .record r
    holdCounts := ⟨s.holdCounts.free, s.holdCounts.reserved - 1, s.holdCounts.inUse + 1⟩
    sessions := s.sessions.set y.client { s.session y.client with waitCount := (s.session y.client).waitCount - 1 }
    live := countedClient s.live y.client fun k => { k with grants := k.grants + 1 }
    flags := s.flags ||| (if s.fence.next = BitVec.allOnes 48 then EventFlag.fenceExhausted.mask else 0) }

/-- R42: the grant of a CONVERSION wait before its notice, every field. -/
def State.grantedConversion (s : State) (i : HoldIx) (h : Hold) (r : Slot) (x : Record) (w : WaitIx) (y : Wait) (d : Word) :
    State :=
  { s with
    holds := s.holds.set i ⟨(s.holdSlot i).generation,
      some { h with mode := .exclusive, fence := s.fence.next, deadline := d, conversion := none }⟩
    waits := s.waits.set w ⟨(s.waitSlot w).generation, none⟩
    records := s.records.set r (some { x with waitQueue := x.waitQueue.filter (· != w), lastFence := s.fence.next })
    fence := if s.fence.next = BitVec.allOnes 48 then ⟨s.fence.next, true⟩ else ⟨s.fence.next + 1, s.fence.exhausted⟩
    deadlines := insertEntry s.timer.clock ⟨.hold i, d, false⟩
      ((s.deadlines.filter fun e => e.ref != .wait w).filter fun e => e.ref != .hold i)
    sessions := s.sessions.set y.client { s.session y.client with waitCount := (s.session y.client).waitCount - 1 }
    live := countedClient s.live y.client fun k => { k with grants := k.grants + 1 }
    flags := s.flags ||| (if s.fence.next = BitVec.allOnes 48 then EventFlag.fenceExhausted.mask else 0) }

/-- The record after its wait has left it. -/
theorem record_dropWait_slot {w : WaitIx} {y : Wait} {x : Record} (hx : s.record y.slot = some x) :
    (s.dropWait w y).record y.slot = some { x with waitQueue := x.waitQueue.filter (· != w) } := by
  rw [dropWait_eq s w y x hx]
  simp [State.record]

theorem postGranted_of_hold {i : HoldIx} {h : Hold} (c : Client) (tag : Byte) (hh : s.hold i = some h) :
    s.postGranted c tag i = s.postNotice c tag (.granted (s.holdHandle i) h.mode h.fence h.deadline) := by
  unfold State.postGranted
  rw [hh]

/-- R44: the wait leaves, the hold is made, and both are counted. -/
theorem openHold_dropWait_eq {w : WaitIx} {y : Wait} {x : Record} {i : HoldIx} (hx : s.record y.slot = some x) (term : Half) :
    (((s.dropWait w y).openHold i y.client y.slot y.mode term).setHoldCounts
      { s.holdCounts with reserved := s.holdCounts.reserved - 1, inUse := s.holdCounts.inUse + 1 }).countGrant y.client =
    s.grantedNew i y.slot x w y (s.after term) := by
  rw [openHold_eq _ i y.client y.slot y.mode term _ (record_dropWait_slot hx), dropWait_eq s w y x hx]
  simp only [Vector.set_set]
  rfl

/-- R42: the wait leaves, the hold is upgraded, and the grant is counted. -/
theorem upgrade_dropWait_eq {w : WaitIx} {y : Wait} {x : Record} {i : HoldIx} {h : Hold} (hx : s.record y.slot = some x)
    (hh : s.hold i = some h) (term : Half) :
    ((s.dropWait w y).upgrade i y.slot term).countGrant y.client = s.grantedConversion i h y.slot x w y (s.after term) := by
  have hold : (s.dropWait w y).hold i = some h := by
    rw [dropWait_eq s w y x hx]
    exact hh
  rw [upgrade_eq _ i y.slot term h _ hold (record_dropWait_slot hx), dropWait_eq s w y x hx]
  simp only [Vector.set_set]
  rfl

theorem holdSlot_grantedNew (s : State) (i : HoldIx) (r : Slot) (x : Record) (w : WaitIx) (y : Wait) (d : Word) :
    (s.grantedNew i r x w y d).holdSlot i =
      ⟨(s.holdSlot i).generation + 1, some ⟨.active, y.client, r, y.mode, s.fence.next, d, none⟩⟩ := by
  simp [State.holdSlot, State.grantedNew]

theorem holdSlot_grantedConversion (s : State) (i : HoldIx) (h : Hold) (r : Slot) (x : Record) (w : WaitIx) (y : Wait)
    (d : Word) : (s.grantedConversion i h r x w y d).holdSlot i = ⟨(s.holdSlot i).generation,
      some { h with mode := .exclusive, fence := s.fence.next, deadline := d, conversion := none }⟩ := by
  simp [State.holdSlot, State.grantedConversion]

theorem grantHead_new {w : WaitIx} {y : Wait} {x : Record} {i : HoldIx} (hx : s.record y.slot = some x)
    (hp : y.purpose = .new) (hi : s.lowestFreeHold = some i) :
    s.grantHead y.slot x w y =
      (s.grantedNew i y.slot x w y (s.after (s.clampTerm y.client x y.term))).postNotice y.client y.requestTag
        (.granted ⟨i, (s.holdSlot i).generation + 1⟩ y.mode s.fence.next (s.after (s.clampTerm y.client x y.term))) := by
  simp only [State.grantHead, hp, State.grantNew, hi]
  rw [openHold_dropWait_eq hx]
  have slot := holdSlot_grantedNew s i y.slot x w y (s.after (s.clampTerm y.client x y.term))
  rw [postGranted_of_hold _ _ (congrArg HoldSlot.occupant slot)]
  simp only [State.holdHandle, slot]

theorem grantHead_conversion {w : WaitIx} {y : Wait} {x : Record} {v : HoldHandle} {h : Hold}
    (hx : s.record y.slot = some x) (hp : y.purpose = .conversion v) (hh : s.hold v.index = some h) :
    s.grantHead y.slot x w y =
      (s.grantedConversion v.index h y.slot x w y (s.after (s.clampTerm y.client x y.term))).postNotice y.client
        y.requestTag (.granted (s.holdHandle v.index) .exclusive s.fence.next (s.after (s.clampTerm y.client x y.term))) := by
  simp only [State.grantHead, hp, State.grantConversion]
  rw [upgrade_dropWait_eq hx hh]
  have slot := holdSlot_grantedConversion s v.index h y.slot x w y (s.after (s.clampTerm y.client x y.term))
  rw [postGranted_of_hold _ _ (congrArg HoldSlot.occupant slot)]
  simp only [State.holdHandle, slot]

/-- Settles O32: the wait leaves its queue, the hold is made or upgraded, and the notice reads the hold as it stands then. -/
theorem grantedWaitBecomesTheHold : Obligations.GrantedWaitBecomesTheHold := by
  rintro s r x w y d hx - rfl rfl
  exact ⟨fun i hp hi => grantHead_new hx hp hi, fun v h hp hh => grantHead_conversion hx hp hh⟩

end Sys2Proof.Machine
end

