-- ==== Sys2Proof/Proofs/ClaimRequests.lean ====
section
/-! PROOFS. The handles of requests, and the requests that end a claim (O21, O23). -/

namespace Sys2Proof.Machine

set_option Elab.async false

open Sys2Proof

variable {s : State} {l : Client} {m : RxMessage} {i : Fin 4}

/-! ### Handles (R25) -/

/-- R25: the first three conditions on a hold handle. -/
theorem namedHold_eq_some {b g : Byte} {j : HoldIx} {h : Hold} :
    s.namedHold b g = some (j, h) ↔ b.toNat = j.val ∧ s.hold j = some h ∧ (s.holdSlot j).generation = g := by
  have index : b.toNat = j.val ↔ (b.toFin : HoldIx) = j := Fin.ext_iff.symm
  rw [index]
  unfold State.namedHold
  dsimp only
  constructor
  · intro e
    split at e
    · rename_i k hk
      split at e
      · cases e
        exact ⟨rfl, hk, ‹_›⟩
      · cases e
    · cases e
  · rintro ⟨rfl, hh, hg⟩
    simp only [hh, hg, if_true]

/-- R25: the first three conditions on a wait handle. -/
theorem namedWait_eq_some {b g : Byte} {w : WaitIx} {y : Wait} :
    s.namedWait b g = some (w, y) ↔ b.toNat = w.val ∧ s.wait w = some y ∧ (s.waitSlot w).generation = g := by
  unfold State.namedWait
  constructor
  · intro e
    split at e
    · dsimp only at e
      split at e
      · rename_i z hz
        split at e
        · cases e
          exact ⟨rfl, hz, ‹_›⟩
        · cases e
      · cases e
    · cases e
  · rintro ⟨hb, hy, hg⟩
    have lt : b.toNat < 128 := hb ▸ w.isLt
    obtain rfl : w = ⟨b.toNat, lt⟩ := Fin.ext hb.symm
    rw [dif_pos lt]
    simp only [hy, hg, if_true]

/-- R25: the handle must be the client's own. -/
theorem ownNamedHold_eq_some {c : Client} {b g : Byte} {j : HoldIx} {h : Hold} :
    s.ownNamedHold c b g = some (j, h) ↔ s.namedHold b g = some (j, h) ∧ h.client = c := by
  unfold State.ownNamedHold
  cases s.namedHold b g with
  | none => simp
  | some p =>
    dsimp only
    split <;> grind

/-- R25: the handle must be the client's own. -/
theorem ownNamedWait_eq_some {c : Client} {b g : Byte} {w : WaitIx} {y : Wait} :
    s.ownNamedWait c b g = some (w, y) ↔ s.namedWait b g = some (w, y) ∧ y.client = c := by
  unfold State.ownNamedWait
  cases s.namedWait b g with
  | none => simp
  | some p =>
    dsimp only
    split <;> grind

/-! ### RENEW, RELEASE and CANCEL -/

theorem exec_renew_badHandle (h : Admits s l .renew m i) (hn : s.ownNamedHold l (m.body 0) (m.body 1) = none) :
    exec (.renew l) s = .next ((s.admitted l .renew i).refuse l m.requestTag .badHandle) := by
  have row := exec_admits h
  simpa only [RequestKind.row, RequestKind.decision, admitted_ownNamedHold, hn] using row

theorem exec_release_badHandle (h : Admits s l .release m i) (hn : s.ownNamedHold l (m.body 0) (m.body 1) = none) :
    exec (.release l) s = .next ((s.admitted l .release i).refuse l m.requestTag .badHandle) := by
  have row := exec_admits h
  simpa only [RequestKind.row, RequestKind.decision, admitted_ownNamedHold, hn] using row

theorem exec_cancel_badHandle (h : Admits s l .cancel m i) (hn : s.ownNamedWait l (m.body 0) (m.body 1) = none) :
    exec (.cancel l) s = .next ((s.admitted l .cancel i).refuse l m.requestTag .badHandle) := by
  have row := exec_admits h
  simpa only [RequestKind.row, RequestKind.decision, admitted_ownNamedWait, hn] using row

/-- R104: a RELEASE of the client's own hold. -/
theorem exec_release {j : HoldIx} {h : Hold} (ha : Admits s l .release m i)
    (hj : s.ownNamedHold l (m.body 0) (m.body 1) = some (j, h)) :
    exec (.release l) s = .next ((s.admitted l .release i).releaseHold l m.requestTag j h) := by
  have row := exec_admits ha
  simpa only [RequestKind.row, RequestKind.decision, admitted_ownNamedHold, hj] using row

/-- R105: a CANCEL of the client's own wait. -/
theorem exec_cancel {w : WaitIx} {y : Wait} (ha : Admits s l .cancel m i)
    (hw : s.ownNamedWait l (m.body 0) (m.body 1) = some (w, y)) :
    exec (.cancel l) s = .next ((s.admitted l .cancel i).cancelNamed l m.requestTag w y) := by
  have row := exec_admits ha
  simpa only [RequestKind.row, RequestKind.decision, admitted_ownNamedWait, hw] using row

/-- Settles O21: the handle tests, condition by condition, and the three rows where they fail. -/
theorem handleTestHasFourConditions : Obligations.HandleTestHasFourConditions := by
  refine ⟨fun s c b g i h => ?_, fun s c b g w y => ?_, fun s l m i => ⟨?_, exec_cancel_badHandle⟩⟩
  · rw [ownNamedHold_eq_some, namedHold_eq_some]
    tauto
  · rw [ownNamedWait_eq_some, namedWait_eq_some]
    tauto
  · rintro k (rfl | rfl)
    · exact exec_renew_badHandle
    · exact exec_release_badHandle

/-- Settles O23: both rows free the claim, answer, and settle the record. -/
theorem releaseAndCancelEndTheClaim : Obligations.ReleaseAndCancelEndTheClaim :=
  fun _ _ _ _ => ⟨fun _ _ ha hj => exec_release ha hj, fun _ _ ha hw => exec_cancel ha hw⟩

end Sys2Proof.Machine
end

