-- ==== Sys2Proof/Proofs/QueueAndDisplacement.lean ====
section
/-! PROOFS. The place of a NEW wait in its queue (O34), and the holds that a request displaces (O35). -/

namespace Sys2Proof.Machine

set_option Elab.async false

open Sys2Proof

variable {s : State}

/-! ### The place of a NEW wait (R32) -/

theorem staysAhead_iff {p : BitVec 2} {v : WaitIx} {x : Wait} (hx : s.wait v = some x) :
    s.staysAhead p v = true ↔ x.purpose ≠ .new ∨ p ≤ x.priority := by
  simp [State.staysAhead, hx]

/-- The element is inserted between a front, whose elements stay ahead or stand before one that does, and a back without such
elements. -/
theorem insertAfterLast_split {α : Type} (ahead : α → Bool) (a : α) (l : List α) :
    ∃ front back, l = front ++ back ∧ insertAfterLast ahead a l = front ++ a :: back ∧ (∀ x ∈ back, ahead x = false) ∧
      ∀ x ∈ front, ahead x = true ∨ ∃ y, ahead y = true ∧ List.Sublist [x, y] l := by
  induction l with
  | nil => exact ⟨[], [], rfl, rfl, by simp, by simp⟩
  | cons x l ih =>
    obtain ⟨front, back, hl, hi, hb, hf⟩ := ih
    unfold insertAfterLast
    split
    · rename_i h
      refine ⟨x :: front, back, by rw [hl]; rfl, by rw [hi]; rfl, hb, fun z hz => ?_⟩
      rcases List.mem_cons.1 hz with rfl | hz
      · refine (Bool.or_eq_true_iff.1 h).imp_right fun h => ?_
        obtain ⟨y, hy, hay⟩ := List.any_eq_true.1 h
        exact ⟨y, hay, (List.singleton_sublist.2 hy).cons_cons z⟩
      · exact (hf z hz).imp_right fun ⟨y, hy, hs⟩ => ⟨y, hy, hs.cons x⟩
    · rename_i h
      simp only [Bool.or_eq_true, List.any_eq_true, not_or, not_exists, not_and, Bool.not_eq_true] at h
      refine ⟨[], x :: l, rfl, rfl, fun z hz => ?_, by simp⟩
      rcases List.mem_cons.1 hz with rfl | hz
      · exact h.1
      · exact h.2 z hz

/-- Settles O34: in a queue in order, what stands before a wait that stays ahead stays ahead too. -/
theorem newWaitIsInsertedByPriority : Obligations.NewWaitIsInsertedByPriority := by
  intro s w y q used order hw hp
  refine ⟨pairwise_staysAhead order hw hp fun _ _ => rfl, ?_⟩
  obtain ⟨front, back, hq, hi, behind, before⟩ := insertAfterLast_split (s.staysAhead y.priority) w q
  refine ⟨front, back, hq, hi, fun v hv x hx => ?_, fun v hv x hx => ?_⟩
  · rcases before v hv with ahead | ⟨u, ahead, sub⟩
    · exact (staysAhead_iff hx).1 ahead
    · obtain ⟨z, hz⟩ := used u (sub.subset (by simp))
      have precedes : s.mayPrecede v u := by simpa using order.sublist sub
      obtain ⟨isNew, h⟩ := precedes x z hx hz
      have least : y.priority ≤ z.priority := ((staysAhead_iff hz).1 ahead).resolve_left fun h => h isNew
      exact h.imp_right fun h => BitVec.le_trans least h
  · have h := mt (staysAhead_iff hx).2 (Bool.eq_false_iff.1 (behind v hv))
    rw [not_or, not_not] at h
    exact ⟨h.1, BitVec.not_le.1 h.2⟩

/-! ### Displacement (R38) -/

theorem isLapsedOfOther_eq_any (s : State) (c : Client) (i : HoldIx) :
    s.isLapsedOfOther c i = (s.hold i).any fun h => h.state == .lapsed && h.client != c := by
  unfold State.isLapsedOfOther
  cases s.hold i <;> rfl

/-- A hold that is not SHARED is EXCLUSIVE. -/
theorem not_isShared_eq_any {i : HoldIx} {h : Hold} (hh : s.hold i = some h) :
    (!s.isShared i) = (s.hold i).any fun h => h.mode == .exclusive := by
  simp only [State.isShared, hh, Option.any_some]
  cases h.mode <;> rfl

theorem displaced_exclusive (s : State) (c : Client) (x : Record) :
    s.displaced c x .exclusive = x.holders.filter (s.isLapsedOfOther c) := rfl

/-- R38: the EXCLUSIVE ones of the lapsed holds of others. -/
theorem displaced_shared_of_exclusive {c : Client} {x : Record} {i : HoldIx} {h : Hold}
    (hi : i ∈ x.holders.filter (s.isLapsedOfOther c)) (hh : s.hold i = some h) (hm : h.mode = .exclusive) :
    s.displaced c x .shared = (x.holders.filter (s.isLapsedOfOther c)).filter fun i => !s.isShared i := by
  have mem : i ∈ (x.holders.filter (s.isLapsedOfOther c)).filter fun i => !s.isShared i :=
    List.mem_filter.2 ⟨hi, by simp [State.isShared, hh, hm]⟩
  exact if_pos (List.ne_nil_of_mem mem)

/-- R38: when all of them are SHARED, the first, if the list is at the cap. -/
theorem displaced_shared_of_shared {c : Client} {x : Record}
    (h : ∀ i ∈ x.holders.filter (s.isLapsedOfOther c), s.isShared i = true) :
    s.displaced c x .shared =
      if x.holderCap ≤ x.holders.length then (x.holders.filter (s.isLapsedOfOther c)).take 1 else [] := by
  have empty : ((x.holders.filter (s.isLapsedOfOther c)).filter fun i => !s.isShared i) = [] :=
    List.filter_eq_nil_iff.2 fun i hi => by simp [h i hi]
  exact if_neg (not_not.2 empty)

theorem lapsedOfOther_used {c : Client} {x : Record} {i : HoldIx} (hi : i ∈ x.holders.filter (s.isLapsedOfOther c)) :
    ∃ h, s.hold i = some h := by
  have lapsed := (List.mem_filter.1 hi).2
  rw [isLapsedOfOther_eq_any] at lapsed
  obtain ⟨h, hh, -⟩ := (Option.any_eq_true _ _).1 lapsed
  exact ⟨h, hh⟩

/-- Settles O35: the lapsed holds of others are found first, then each is ended. -/
theorem lapsedHoldsOfOthersAreDisplaced : Obligations.LapsedHoldsOfOthersAreDisplaced := by
  refine ⟨fun s c r m => ⟨fun hr => ?_, fun x hx => ?_⟩, fun s i => ⟨fun hi => ?_, fun h hh => ?_⟩, fun s c x lapsed hl => ?_⟩
  · simp only [State.displace, hr]
  · simp only [State.displace, hx]
  · simp only [State.displaceOne, hi]
  · simp only [State.displaceOne, hh]
    rfl
  · simp only [← isLapsedOfOther_eq_any] at hl
    subst hl
    refine ⟨rfl, ?_, fun shared => ?_⟩
    · rintro ⟨i, h, hi, hh, hm⟩
      rw [displaced_shared_of_exclusive hi hh hm]
      refine List.filter_congr fun j hj => ?_
      obtain ⟨k, hk⟩ := lapsedOfOther_used hj
      exact not_isShared_eq_any hk
    · have all : ∀ i ∈ x.holders.filter (s.isLapsedOfOther c), s.isShared i = true := fun i hi => by
        obtain ⟨h, hh⟩ := lapsedOfOther_used hi
        simp [State.isShared, hh, shared i h hi hh]
      rw [displaced_shared_of_shared all]
      refine ⟨fun cap => ?_, fun cap => if_neg (Nat.not_le.2 cap)⟩
      rw [if_pos cap]
      cases x.holders.filter (s.isLapsedOfOther c) <;> rfl

end Sys2Proof.Machine
end

