-- ==== Sys2Proof/Proofs/AcquireAndConvert.lean ====
section
/-! PROOFS. ACQUIRE after displacement (O17, O18), and CONVERT (O19, O20). -/

namespace Sys2Proof.Machine

set_option Elab.async false

open Sys2Proof

/-! ### ACQUIRE after displacement (R95, steps 10 and 11) -/

section
variable {s : State} {l : Client} {m : RxMessage} {i : Fin 4} {b : AcquireBody} {r : Slot} {x : Record}

/-- R95: every check before displacement passes. -/
theorem exec_acquire_displaces (h : AdmitsAcquire s l m i b) (reach : ReachesDisplacement s l b r x) :
    exec (.acquire l) s =
      .next (((s.admitted l .acquire i).displace l r b.mode).acquireDecide l m.requestTag b r) := by
  obtain ⟨may, hl, hx, hmode, hold, wait, quota⟩ := reach
  rw [exec_acquire_present h may hl hx]
  have mode : ¬(x.shareable = false ∧ b.mode = .shared) := by
    rcases hmode with hmode | hmode <;> simp [hmode]
  have below : ¬(s.session l).holdQuota.toNat * 4 ≤ (s.session l).holdCount := by omega
  simp [State.acquirePresent, mode, hold, wait, below]

end

section
variable {e : State} {l : Client} {tag : Byte} {b : AcquireBody} {r : Slot} {y : Record} {priority : BitVec 2}

/-- R95 step 10: the request leads and is compatible. -/
theorem acquireDecide_now (hy : e.record r = some y) (lead : e.wouldLead y (e.effectivePriority l b.urgency) = true)
    (fits : e.compatible y b.mode none = true) : e.acquireDecide l tag b r = e.acquireNow l tag b r y := by
  simp only [State.acquireDecide, hy, lead, fits, and_self, if_true]

/-- R95 step 11: it does not lead, or is not compatible. -/
theorem acquireDecide_queue (hy : e.record r = some y)
    (late : e.wouldLead y (e.effectivePriority l b.urgency) = false ∨ e.compatible y b.mode none = false) :
    e.acquireDecide l tag b r = e.acquireQueue l tag b r y (e.effectivePriority l b.urgency) := by
  have notNow : ¬(e.wouldLead y (e.effectivePriority l b.urgency) = true ∧ e.compatible y b.mode none = true) := by
    rcases late with late | late <;> simp [late]
  simp only [State.acquireDecide, hy]
  exact if_neg notNow

/-- R37, R98: the queued wait's handle has the next generation of its slot. -/
theorem waitHandle_queueNew {w : WaitIx} {z : Wait} (hw : e.wait w = none) (hx : e.record z.slot = some y) :
    (e.queueNew w z).waitHandle w = ⟨w, (e.waitSlot w).generation + 1⟩ := by
  rw [queueNew_eq hw hx]
  simp [State.waitHandle, State.waitSlot]

end

/-- Settles O17: the grant is made on the record as displacement left it. -/
theorem acquireIsGrantedAtOnce : Obligations.AcquireIsGrantedAtOnce := by
  rintro s e l m i b r x y h reach rfl hy lead fits
  rw [exec_acquire_displaces h reach, acquireDecide_now hy lead fits]
  generalize (s.admitted l .acquire i).displace l r b.mode = e at *
  unfold State.acquireNow
  refine ⟨fun full => ?_, fun room stopped => ?_, fun j free running => ?_⟩
  · simp only [full]
  · obtain ⟨j, free⟩ := Option.ne_none_iff_exists'.1 room
    simp only [free, stopped, if_true]
    rfl
  · simp only [free, running, Bool.false_eq_true, if_false]
    rw [grantedReply_grantAtOnce hy]

/-- Settles O18: the checks of step 11 in their order, then the wait, its answer and the pass. -/
theorem acquireIsQueued : Obligations.AcquireIsQueued := by
  rintro s e l m i b r x y h reach rfl hy late
  rw [exec_acquire_displaces h reach, acquireDecide_queue hy late]
  generalize (s.admitted l .acquire i).displace l r b.mode = e at *
  unfold State.acquireQueue State.atWaitQuota
  refine ⟨fun once => by rw [if_pos once], fun ticks quota => ?_, fun ticks quota full => ?_,
    fun w t ticks quota hold wait ht => ?_⟩
  all_goals rw [if_neg ticks]
  · rw [if_pos (decide_eq_true quota)]
  · rw [if_neg (by simpa using quota)]
    split
    · rename_i hold wait
      rcases full with noHold | noWait
      · cases noHold.symm.trans hold
      · cases noWait.symm.trans wait
    · rfl
  · rw [if_neg (by simpa using quota)]
    obtain ⟨j, free⟩ := Option.ne_none_iff_exists'.1 hold
    have handle := waitHandle_queueNew (z := ⟨l, r, .new, b.mode, e.effectivePriority l b.urgency, e.arrival,
      e.timer.clock + b.waitTicks.setWidth 32, e.clampTerm l y b.term, m.requestTag⟩)
      ((lowestFreeWait_eq_some e w).1 wait).1 hy
    rw [← ht] at handle
    simp only [free, wait, ← handle]
    subst ht
    rfl

/-! ### CONVERT (R101) -/

section
variable {s : State} {l : Client} {m : RxMessage} {i : Fin 4} {b : ConvertBody} {j : HoldIx} {h : Hold} {x : Record}

theorem exec_convert (ha : Admits s l .convert m i) (hb : m.convertBody = some b) :
    exec (.convert l) s = .next ((s.admitted l .convert i).decideConvert l m.requestTag b) := by
  have row := exec_admits ha
  simpa only [RequestKind.row, RequestKind.decision, hb] using row

/-- R45, R101 steps 1 to 4: the checks pass and the hold is recovered. -/
theorem exec_convert_recovers (ha : Admits s l .convert m i) (hb : m.convertBody = some b)
    (own : s.ownNamedHold l b.index b.generation = some (j, h)) (hx : s.record h.slot = some x) (differs : b.target ≠ h.mode)
    (opened : b.target = .exclusive → s.isClosing (domainOf x.key) = false) :
    exec (.convert l) s = .next (((s.admitted l .convert i).recover j h
      (s.timer.clock + (s.clampTerm l x b.term).setWidth 32)).convertActive l m.requestTag b j h.slot x) := by
  have pass : ¬(b.target = .exclusive ∧ s.isClosing (domainOf x.key) = true) := fun ⟨ht, hc⟩ => by
    simp [opened ht] at hc
  rw [exec_convert ha hb]
  simp [State.decideConvert, own, hx, differs, pass, State.after]

theorem wait_recover (s : State) (j : HoldIx) (h : Hold) (d : Word) (w : WaitIx) : (s.recover j h d).wait w = s.wait w := by
  unfold State.recover
  split
  · simp [State.setHoldDeadline]
  · rfl

theorem isConversion_recover (s : State) (j : HoldIx) (h : Hold) (d : Word) :
    (s.recover j h d).isConversion = s.isConversion := by
  funext w
  simp only [State.isConversion, wait_recover]

/-- R45, R67: only a LAPSED hold changes, to ACTIVE with the new deadline. -/
theorem holdSlot_recover (hh : s.hold j = some h) (d : Word) :
    (s.recover j h d).holdSlot j = ⟨(s.holdSlot j).generation,
      some { h with state := .active, deadline := if h.state = .lapsed then d else h.deadline }⟩ := by
  unfold State.recover
  split
  · rw [retime_eq hh]
    simp [State.holdSlot]
  · rename_i active
    have active : h.state = .active := by
      cases hs : h.state with
      | active => rfl
      | lapsed => exact absurd hs active
    have slot : s.holdSlot j = ⟨(s.holdSlot j).generation, s.hold j⟩ := rfl
    rw [slot, hh, ← active]

/-- R102: what the GRANTED report of a hold says, from the hold's slot. -/
theorem grantedReply_of_holdSlot {t : State} {g : Byte} (slot : t.holdSlot j = ⟨g, some h⟩) :
    t.grantedReply j = .granted ⟨j, g⟩ h.mode h.fence h.deadline := by
  have hold : t.hold j = some h := congrArg HoldSlot.occupant slot
  simp only [State.grantedReply, hold, State.holdHandle, slot]

theorem holdSlot_modifyHold {t : State} {g : Byte} (f : Hold → Hold) (slot : t.holdSlot j = ⟨g, some h⟩) :
    (t.modifyHold j f).holdSlot j = ⟨g, some (f h)⟩ := by
  rw [modifyHold_eq t j h f (congrArg HoldSlot.occupant slot)]
  have generation : (t.holdSlot j).generation = g := congrArg HoldSlot.generation slot
  simp [State.holdSlot, ← generation]

end

/-- Settles O19: the checks in their order; the downgrade changes the mode of the hold as recovery left it. -/
theorem convertIsRefusedOrDowngrades : Obligations.ConvertIsRefusedOrDowngrades := by
  refine ⟨fun s l m i b ha hb => ⟨fun own => ?_, fun j h x own hx => ⟨fun same => ?_, fun differs up closing => ?_⟩⟩, ?_⟩
  · rw [exec_convert ha hb]
    simp [State.decideConvert, own]
  · rw [exec_convert ha hb]
    simp [State.decideConvert, own, hx, same]
  · rw [exec_convert ha hb]
    simp only [up] at differs
    simp [State.decideConvert, own, hx, up, differs, closing]
  · rintro s e l m i b j h x d ha hb own hx down mode he rfl
    have differs : b.target ≠ h.mode := by simp [down, mode]
    obtain ⟨named, -⟩ := ownNamedHold_eq_some.1 own
    obtain ⟨-, hh, generation⟩ := namedHold_eq_some.1 named
    have recovered : (s.admitted l .convert i).recover j h (s.timer.clock + (s.clampTerm l x b.term).setWidth 32) = e :=
      he.symm
    have slot := holdSlot_recover (s := s.admitted l .convert i) hh (s.timer.clock + (s.clampTerm l x b.term).setWidth 32)
    rw [recovered, admitted_holdSlot, generation] at slot
    have reply := grantedReply_of_holdSlot (holdSlot_modifyHold (fun k => { k with mode := .shared }) slot)
    rw [exec_convert_recovers ha hb own hx differs (by simp [down]), recovered]
    refine ⟨fun exclusive => ?_, fun shareable => ?_⟩
    · simp only [State.convertActive, down, exclusive, if_true]
    · simp only [State.convertActive, down, shareable, Bool.true_eq_false, if_false, State.downgrade, reply]

section
variable {e : State} {l : Client} {tag : Byte} {b : ConvertBody} {j : HoldIx} {r : Slot} {k : Hold} {y : Record}

/-- R46, R102: what the GRANTED report of an upgrade says. -/
theorem grantedReply_upgrade (hk : e.hold j = some k) (hy : e.record r = some y) (term : Half) :
    ((e.upgrade j r term).countGrant l).grantedReply j =
      .granted (e.holdHandle j) .exclusive e.fence.next (e.timer.clock + term.setWidth 32) := by
  refine grantedReply_of_holdSlot (t := (e.upgrade j r term).countGrant l) (h := { k with
    mode := .exclusive, fence := e.fence.next, deadline := e.timer.clock + term.setWidth 32, conversion := none }) ?_
  rw [upgrade_eq e j r term k y hk hy]
  simp [State.holdSlot, State.countGrant, State.countClient, State.setLive]

/-- R42, R98: the queued CONVERSION wait's handle has the next generation of its slot. -/
theorem waitHandle_queueUpgrade {w : WaitIx} {z : Wait} (hw : e.wait w = none) (hy : e.record z.slot = some y)
    (hk : e.hold j = some k) : (e.queueUpgrade j w z).waitHandle w = ⟨w, (e.waitSlot w).generation + 1⟩ := by
  rw [queueUpgrade_eq hw hy hk]
  simp [State.waitHandle, State.waitSlot]

/-- R101 step 9: the upgrade of the only holder. -/
theorem upgradeDecide_alone (hk : e.hold j = some k) (hy : e.record r = some y) (alone : y.holders = [j]) :
    e.upgradeDecide l tag b j r = if e.fence.exhausted then e.refuseFence l tag else
      (((e.upgrade j r (e.clampTerm l y b.term)).countGrant l).respond l tag (.granted (e.holdHandle j) .exclusive
        e.fence.next (e.timer.clock + (e.clampTerm l y b.term).setWidth 32))).settleRecord r := by
  simp only [State.upgradeDecide, hy, alone, if_true, State.upgradeNow, grantedReply_upgrade hk hy]

/-- R101 step 10: the upgrade beside other holders. -/
theorem upgradeDecide_shared (hy : e.record r = some y) (others : y.holders ≠ [j]) :
    e.upgradeDecide l tag b j r = e.convertQueue l tag b j r y := by
  simp only [State.upgradeDecide, hy, others, if_false]

end

/-- Settles O20: the checks of R101 from step 7 on in their order, on the record as displacement left it. -/
theorem convertToExclusiveUpgradesOrQueues : Obligations.ConvertToExclusiveUpgradesOrQueues := by
  intro s c l m i b j h x ha hb own hx up mode opened hc
  have differs : b.target ≠ h.mode := by simp [up, mode]
  have recovered : (s.admitted l .convert i).recover j h (s.timer.clock + (s.clampTerm l x b.term).setWidth 32) = c := hc.symm
  have conversions : c.isConversion = s.isConversion := by
    rw [← recovered]
    exact isConversion_recover (s.admitted l .convert i) j h _
  rw [exec_convert_recovers ha hb own hx differs fun _ => opened, recovered]
  simp only [State.convertActive, up, conversions]
  refine ⟨fun waits => by rw [if_pos waits], ?_⟩
  rintro e y k term noWait rfl hy hk rfl
  rw [if_neg (by simp [noWait])]
  generalize c.displace l h.slot .exclusive = e at *
  refine ⟨fun alone => ?_, fun others => ?_⟩
  · rw [upgradeDecide_alone hk hy alone]
    exact ⟨fun stopped => by rw [if_pos stopped]; rfl, fun running => by rw [if_neg (by simp [running])]⟩
  · rw [upgradeDecide_shared hy others]
    unfold State.convertQueue State.atWaitQuota
    refine ⟨fun once => by rw [if_pos once], fun ticks quota => ?_, fun ticks quota full => ?_, fun w ticks quota wait => ?_⟩
    all_goals rw [if_neg ticks]
    · rw [if_pos (decide_eq_true quota)]
    · rw [if_neg (by simpa using quota)]
      simp only [full]
    · rw [if_neg (by simpa using quota)]
      have handle := waitHandle_queueUpgrade (z := ⟨l, h.slot, .conversion (e.holdHandle j), .exclusive,
        (e.session l).ceiling, e.arrival, e.timer.clock + b.waitTicks.setWidth 32, e.clampTerm l y b.term, m.requestTag⟩)
        ((lowestFreeWait_eq_some e w).1 wait).1 hy hk
      simp only [wait, ← handle]
      rfl

end Sys2Proof.Machine
end

