-- ==== Sys2Proof/Proofs/GrantPass.lean ====
section
/-! PROOFS. A grant pass, one examination at a time, under the laws of references and of the pool alone (O33). -/

namespace Sys2Proof.Machine

set_option Elab.async false

open Sys2Proof

variable {s t u : State} {r : Slot} {x x' : Record} {i : HoldIx} {h : Hold} {w : WaitIx} {y : Wait}

/-! ### What a grant leaves of the references -/

/-- R42, R44: from s to t the claim of wait w on record r goes over to the hold h in slot i: the wait leaves the queue of r and its slot
is FREE, the hold stands in the holder list and has no conversion. -/
structure ClaimMoved (s t : State) (r : Slot) (x x' : Record) (i : HoldIx) (h : Hold) (w : WaitIx) : Prop where
  record : ∀ q, t.record q = if r = q then some x' else s.record q
  hold : ∀ j, t.hold j = if i = j then some h else s.hold j
  holdHandle : ∀ j, j ≠ i → t.holdHandle j = s.holdHandle j
  wait : ∀ v, t.wait v = if w = v then none else s.wait v
  waitHandle : ∀ v, t.waitHandle v = s.waitHandle v
  slot : h.slot = r
  conversion : h.conversion = none
  holder : i ∈ x'.holders
  holderOnce : x'.holders.Nodup
  holders : ∀ j, j ≠ i → (j ∈ x'.holders ↔ j ∈ x.holders)
  queue : x'.waitQueue = x.waitQueue.filter (· != w)
  /-- the wait was on record r -/
  left : ∃ y, s.wait w = some y ∧ y.slot = r
  /-- a hold that was in slot i is the one that stands there now -/
  same : ∀ k, s.hold i = some k → k.client = h.client ∧ k.slot = h.slot
  /-- no other wait converts it -/
  noWait : ∀ v z a, v ≠ w → s.wait v = some z → z.purpose = .conversion a → a.index ≠ i
  /-- no other hold's conversion is the wait that left -/
  noHold : ∀ j k a, j ≠ i → s.hold j = some k → k.conversion = some a → a.index ≠ w

namespace ClaimMoved

variable (M : ClaimMoved s t r x x' i h w)
include M

theorem here : t.record r = some x' := (M.record r).trans (if_pos rfl)

theorem elsewhere {q : Slot} (hq : q ≠ r) : t.record q = s.record q := (M.record q).trans (if_neg (Ne.symm hq))

theorem granted : t.hold i = some h := (M.hold i).trans (if_pos rfl)

theorem otherHold {j : HoldIx} (hj : j ≠ i) : t.hold j = s.hold j := (M.hold j).trans (if_neg (Ne.symm hj))

theorem otherWait {v : WaitIx} (hv : v ≠ w) : t.wait v = s.wait v := (M.wait v).trans (if_neg (Ne.symm hv))

/-- A wait of t is a wait of s, and not the one that left. -/
theorem wait_some {v : WaitIx} {z : Wait} (hz : t.wait v = some z) : v ≠ w ∧ s.wait v = some z := by
  rw [M.wait] at hz
  split at hz
  · cases hz
  · exact ⟨Ne.symm ‹_›, hz⟩

/-- Every hold of s is in its slot still, for its client on its record. -/
theorem hold_stays {j : HoldIx} {k : Hold} (hk : s.hold j = some k) :
    ∃ k', t.hold j = some k' ∧ k'.client = k.client ∧ k'.slot = k.slot := by
  by_cases hj : j = i
  · subst hj
    obtain ⟨client, slot⟩ := M.same k hk
    exact ⟨h, M.granted, client.symm, slot.symm⟩
  · exact ⟨k, (M.otherHold hj).trans hk, rfl, rfl⟩

theorem mem_waitQueue {v : WaitIx} : v ∈ x'.waitQueue ↔ v ∈ x.waitQueue ∧ v ≠ w := by
  rw [M.queue, List.mem_filter]
  simp

/-- The law of references is kept. -/
theorem referenceLaw (R : ReferenceLaw s) (hx : s.record r = some x) : ReferenceLaw t where
  holder q z j hz hj := by
    by_cases hq : q = r
    · subst hq
      cases M.here.symm.trans hz
      by_cases hji : j = i
      · subst hji
        exact ⟨h, M.granted, M.slot⟩
      · rw [M.otherHold hji]
        exact R.holder q x j hx ((M.holders j hji).1 hj)
    · obtain ⟨k, hk, slot⟩ := R.holder q z j (M.elsewhere hq ▸ hz) hj
      have hji : j ≠ i := by
        rintro rfl
        exact hq (slot.symm.trans ((M.same k hk).2.trans M.slot))
      exact ⟨k, (M.otherHold hji).trans hk, slot⟩
  hold j k hk := by
    by_cases hji : j = i
    · subst hji
      cases M.granted.symm.trans hk
      exact ⟨x', M.slot ▸ M.here, M.holder⟩
    · obtain ⟨z, hz, hj⟩ := R.hold j k (M.otherHold hji ▸ hk)
      by_cases hq : k.slot = r
      · rw [hq] at hz ⊢
        cases hx.symm.trans hz
        exact ⟨x', M.here, (M.holders j hji).2 hj⟩
      · exact ⟨z, (M.elsewhere hq).trans hz, hj⟩
  holderOnce q z hz := by
    by_cases hq : q = r
    · subst hq
      cases M.here.symm.trans hz
      exact M.holderOnce
    · exact R.holderOnce q z (M.elsewhere hq ▸ hz)
  waiter q z v hz hv := by
    have at_s : ∃ y, s.wait v = some y ∧ y.slot = q ∧ v ≠ w := by
      by_cases hq : q = r
      · subst hq
        cases M.here.symm.trans hz
        obtain ⟨hmem, hvw⟩ := M.mem_waitQueue.1 hv
        obtain ⟨y, hy, slot⟩ := R.waiter q x v hx hmem
        exact ⟨y, hy, slot, hvw⟩
      · obtain ⟨y, hy, slot⟩ := R.waiter q z v (M.elsewhere hq ▸ hz) hv
        refine ⟨y, hy, slot, ?_⟩
        rintro rfl
        obtain ⟨y', hy', slot'⟩ := M.left
        cases hy.symm.trans hy'
        exact hq (slot.symm.trans slot')
    obtain ⟨y, hy, slot, hvw⟩ := at_s
    exact ⟨y, (M.otherWait hvw).trans hy, slot⟩
  wait v z hz := by
    obtain ⟨hvw, hz⟩ := M.wait_some hz
    obtain ⟨x₁, hx₁, hv⟩ := R.wait v z hz
    by_cases hq : z.slot = r
    · rw [hq] at hx₁ ⊢
      cases hx.symm.trans hx₁
      exact ⟨x', M.here, M.mem_waitQueue.2 ⟨hv, hvw⟩⟩
    · exact ⟨x₁, (M.elsewhere hq).trans hx₁, hv⟩
  waiterOnce q z hz := by
    by_cases hq : q = r
    · subst hq
      cases M.here.symm.trans hz
      rw [M.queue]
      exact (R.waiterOnce q x hx).filter _
    · exact R.waiterOnce q z (M.elsewhere hq ▸ hz)
  conversion j k v hk hv := by
    have hji : j ≠ i := by
      rintro rfl
      cases M.granted.symm.trans hk
      exact absurd (M.conversion.symm.trans hv) (by simp)
    have hk := M.otherHold hji ▸ hk
    rw [M.waitHandle, M.holdHandle j hji, M.otherWait (M.noHold j k v hji hk hv)]
    exact R.conversion j k v hk hv
  converting v z a hz hp := by
    obtain ⟨hvw, hz⟩ := M.wait_some hz
    have hai := M.noWait v z a hvw hz hp
    rw [M.waitHandle, M.holdHandle _ hai, M.otherHold hai]
    exact R.converting v z a hz hp

end ClaimMoved

/-! ### Readings after the update of one slot -/

theorem hold_of_holds {g : Byte} {o : Option Hold} (e : t.holds = s.holds.set i ⟨g, o⟩) (j : HoldIx) :
    t.hold j = if i = j then o else s.hold j := by
  unfold State.hold State.holdSlot
  rw [e, getElem_set_fin]
  split <;> rfl

theorem holdHandle_of_holds {a : HoldSlot} (e : t.holds = s.holds.set i a) {j : HoldIx} (hj : j ≠ i) :
    t.holdHandle j = s.holdHandle j := by
  unfold State.holdHandle State.holdSlot
  rw [e, getElem_set_fin, if_neg (Ne.symm hj)]

theorem wait_of_waits {g : Byte} {o : Option Wait} (e : t.waits = s.waits.set w ⟨g, o⟩) (v : WaitIx) :
    t.wait v = if w = v then o else s.wait v := by
  unfold State.wait State.waitSlot
  rw [e, getElem_set_fin]
  split <;> rfl

/-- A handle goes by the slot's generation, which stays when the slot becomes FREE. -/
theorem waitHandle_of_waits {o : Option Wait} (e : t.waits = s.waits.set w ⟨(s.waitSlot w).generation, o⟩) (v : WaitIx) :
    t.waitHandle v = s.waitHandle v := by
  unfold State.waitHandle State.waitSlot
  rw [e, getElem_set_fin]
  split
  · subst_vars; rfl
  · rfl

/-! ### The two grants -/

theorem claimMoved_grantedNew (R : ReferenceLaw s) (hx : s.record y.slot = some x) (hy : s.wait w = some y)
    (hp : y.purpose = .new) (free : s.hold i = none) (d : Word) :
    ClaimMoved s (s.grantedNew i y.slot x w y d) y.slot x
      { x with
        holders := x.holders ++ [i], waitQueue := x.waitQueue.filter (· != w), lastFence := s.fence.next,
        idleDeadline := none }
      i ⟨.active, y.client, y.slot, y.mode, s.fence.next, d, none⟩ w where
  record q := getElem_set_fin s.records y.slot q _
  hold := hold_of_holds rfl
  holdHandle _ := holdHandle_of_holds (s := s) (i := i) rfl
  wait := wait_of_waits rfl
  waitHandle := waitHandle_of_waits rfl
  slot := rfl
  conversion := rfl
  holder := by simp
  holderOnce := by
    have fresh : i ∉ x.holders := fun hi => by
      obtain ⟨k, hk, -⟩ := R.holder _ x i hx hi
      cases free.symm.trans hk
    exact List.nodup_append.2 ⟨R.holderOnce _ x hx, List.nodup_singleton i, by grind⟩
  holders j hj := by simp [hj]
  queue := rfl
  left := ⟨y, hy, rfl⟩
  same k hk := by cases free.symm.trans hk
  noWait v z a _ hz ha hi := by
    obtain ⟨-, -, k, hk, -⟩ := R.converting v z a hz ha
    rw [hi] at hk
    cases free.symm.trans hk
  noHold j k a _ hk ha hw := by
    obtain ⟨-, -, -, z, hz, hc⟩ := R.conversion j k a hk ha
    rw [hw] at hz
    cases hy.symm.trans hz
    cases hp.symm.trans hc

theorem claimMoved_grantedConversion {v : HoldHandle} (R : ReferenceLaw s) (hx : s.record y.slot = some x)
    (hy : s.wait w = some y) (hp : y.purpose = .conversion v) (hh : s.hold v.index = some h) (d : Word) :
    ClaimMoved s (s.grantedConversion v.index h y.slot x w y d) y.slot x
      { x with waitQueue := x.waitQueue.filter (· != w), lastFence := s.fence.next }
      v.index { h with mode := .exclusive, fence := s.fence.next, deadline := d, conversion := none } w := by
  obtain ⟨-, name, h', hh', conv, -, slot⟩ := R.converting w y v hy hp
  cases hh.symm.trans hh'
  exact {
    record := fun q => getElem_set_fin s.records y.slot q _
    hold := hold_of_holds rfl
    holdHandle := fun _ => holdHandle_of_holds (s := s) (i := v.index) rfl
    wait := wait_of_waits rfl
    waitHandle := waitHandle_of_waits rfl
    slot := slot
    conversion := rfl
    holder := by
      obtain ⟨z, hz, hi⟩ := R.hold _ h hh
      rw [slot] at hz
      cases hx.symm.trans hz
      exact hi
    holderOnce := R.holderOnce _ x hx
    holders := fun _ _ => Iff.rfl
    queue := rfl
    left := ⟨y, hy, rfl⟩
    same := fun k hk => by
      cases hh.symm.trans hk
      exact ⟨rfl, rfl⟩
    noWait := fun u z a huw hz ha hi => by
      obtain ⟨-, -, k, hk, hc, -⟩ := R.converting u z a hz ha
      rw [hi] at hk
      cases hh.symm.trans hk
      have handles := Option.some.inj (conv.symm.trans hc)
      exact huw (congrArg WaitHandle.index handles).symm
    noHold := fun j k a hj hk ha hw => by
      obtain ⟨-, -, -, z, hz, hc⟩ := R.conversion j k a hk ha
      rw [hw] at hz
      cases hy.symm.trans hz
      have handles := Purpose.conversion.inj (hp.symm.trans hc)
      exact hj (congrArg HoldHandle.index handles).symm }

/-- R27: a NEW wait has a hold slot reserved, so one is FREE. -/
theorem PoolLaw.exists_lowestFreeHold (P : PoolLaw s) (hy : s.wait w = some y) (hp : y.purpose = .new) :
    ∃ i, s.lowestFreeHold = some i := by
  refine Option.ne_none_iff_exists'.1 fun allUsed => ?_
  have full : s.holdsInUse = 256 := by
    unfold State.holdsInUse
    rw [List.countP_eq_length.2 fun i hi => ?_, List.length_finRange]
    have used := List.find?_eq_none.1 allUsed i hi
    simpa [Option.isSome_iff_ne_none] using used
  have one : 0 < s.newWaits := List.countP_pos_iff.2 ⟨w, List.mem_finRange w, by simp [hy, hp]⟩
  have sum := P.sum
  have inUse := P.inUse
  have reserved := P.reserved
  omega

/-- R27, R44: one reserved hold slot comes into use, as one NEW wait becomes a hold. -/
theorem poolLaw_grantedNew (R : ReferenceLaw s) (P : PoolLaw s) (hx : s.record y.slot = some x) (hy : s.wait w = some y)
    (hp : y.purpose = .new) (free : s.hold i = none) (d : Word) : PoolLaw (s.grantedNew i y.slot x w y d) := by
  have M := claimMoved_grantedNew R hx hy hp free d
  have holds := holdsInUse_change M.hold
  have waits := newWaits_change M.wait
  have sum := P.sum
  have inUse := P.inUse
  have reserved := P.reserved
  simp only [free, hy, hp, Option.isSome, Option.any, BEq.rfl, Bool.toNat_true, Bool.toNat_false, Nat.add_zero] at holds waits
  constructor
  · show s.holdCounts.free + (s.holdCounts.reserved - 1) + (s.holdCounts.inUse + 1) = 256
    omega
  · show s.holdCounts.inUse + 1 = _
    omega
  · show s.holdCounts.reserved - 1 = _
    omega

/-- R27, R42: an upgrade changes neither number. -/
theorem poolLaw_grantedConversion {v : HoldHandle} (R : ReferenceLaw s) (P : PoolLaw s) (hx : s.record y.slot = some x)
    (hy : s.wait w = some y) (hp : y.purpose = .conversion v) (hh : s.hold v.index = some h) (d : Word) :
    PoolLaw (s.grantedConversion v.index h y.slot x w y d) := by
  have M := claimMoved_grantedConversion R hx hy hp hh d
  have holds := holdsInUse_change M.hold
  have waits := newWaits_change M.wait
  have notNew : (Purpose.conversion v == Purpose.new) = false := rfl
  simp only [hh, hy, hp, Option.isSome, Option.any, notNew, Bool.toNat_true, Bool.toNat_false, Nat.add_zero] at holds waits
  have inUse := P.inUse
  have reserved := P.reserved
  constructor
  · exact P.sum
  · show s.holdCounts.inUse = _
    omega
  · show s.holdCounts.reserved = _
    omega

/-! ### What a pass keeps -/

/-- R41: from s to t only record r may change, no hold ends, no wait is new, and the two laws hold in t. -/
structure PassKept (r : Slot) (s t : State) : Prop where
  record : ∀ q, q ≠ r → t.record q = s.record q
  hold : ∀ i h, s.hold i = some h → ∃ k, t.hold i = some k ∧ k.client = h.client ∧ k.slot = h.slot
  wait : ∀ w y, t.wait w = some y → s.wait w = some y
  references : ReferenceLaw t
  pool : PoolLaw t

theorem PassKept.trans (h : PassKept r s t) (k : PassKept r t u) : PassKept r s u where
  record q hq := (k.record q hq).trans (h.record q hq)
  hold i g hg := by
    obtain ⟨g', hg', client', slot'⟩ := h.hold i g hg
    obtain ⟨g'', hg'', client'', slot''⟩ := k.hold i g' hg'
    exact ⟨g'', hg'', client''.trans client', slot''.trans slot'⟩
  wait w y hy := h.wait w y (k.wait w y hy)
  references := k.references
  pool := k.pool

theorem SameEngine.referenceLaw (E : SameEngine s t) (R : ReferenceLaw s) : ReferenceLaw t := by
  have holdHandle : ∀ i, t.holdHandle i = s.holdHandle i := fun i => by rw [State.holdHandle, E.holdSlot]; rfl
  have waitHandle : ∀ w, t.waitHandle w = s.waitHandle w := fun w => by rw [State.waitHandle, E.waitSlot]; rfl
  constructor <;> simp only [E.record, E.hold, E.wait, holdHandle, waitHandle]
  · exact R.holder
  · exact R.hold
  · exact R.holderOnce
  · exact R.waiter
  · exact R.wait
  · exact R.waiterOnce
  · exact R.conversion
  · exact R.converting

theorem SameEngine.passKept (E : SameEngine s t) (R : ReferenceLaw s) (P : PoolLaw s) (r : Slot) : PassKept r s t where
  record q _ := E.record q
  hold i h hh := ⟨h, (E.hold i).trans hh, rfl, rfl⟩
  wait w _ hy := E.wait w ▸ hy
  references := E.referenceLaw R
  pool := E.poolLaw P

theorem ClaimMoved.passKept (M : ClaimMoved s t r x x' i h w) (R : ReferenceLaw s) (hx : s.record r = some x) (P : PoolLaw t) :
    PassKept r s t where
  record _ hq := M.elsewhere hq
  hold _ _ hk := M.hold_stays hk
  wait _ _ hz := (M.wait_some hz).2
  references := M.referenceLaw R hx
  pool := P

/-- The notice of a grant changes nothing of this. -/
theorem ClaimMoved.postNotice (M : ClaimMoved s t r x x' i h w) (R : ReferenceLaw s) (hx : s.record r = some x) (P : PoolLaw t)
    (c : Client) (tag : Byte) (body : NoticeBody) : PassKept r s (t.postNotice c tag body) ∧
      ∃ x', (t.postNotice c tag body).record r = some x' ∧ x'.waitQueue = x.waitQueue.filter (· != w) := by
  have kept := M.passKept R hx P
  have posted : SameEngine t (t.postNotice c tag body) := .postNotice c tag body
  exact ⟨kept.trans (posted.passKept kept.references kept.pool r), x', (posted.record r).trans M.here, M.queue⟩

/-- R42, R44: a grant keeps both laws, and the queue loses its wait. -/
theorem grantHead_passKept (R : ReferenceLaw s) (P : PoolLaw s) (hx : s.record y.slot = some x) (hy : s.wait w = some y) :
    PassKept y.slot s (s.grantHead y.slot x w y) ∧
      ∃ x', (s.grantHead y.slot x w y).record y.slot = some x' ∧ x'.waitQueue = x.waitQueue.filter (· != w) := by
  cases hp : y.purpose with
  | new =>
    obtain ⟨i, hi⟩ := P.exists_lowestFreeHold hy hp
    have free := ((lowestFreeHold_eq_some s i).1 hi).1
    rw [grantHead_new hx hp hi]
    exact (claimMoved_grantedNew R hx hy hp free _).postNotice R hx (poolLaw_grantedNew R P hx hy hp free _) _ _ _
  | conversion v =>
    obtain ⟨-, -, h, hh, -⟩ := R.converting w y v hy hp
    rw [grantHead_conversion hx hp hh]
    exact (claimMoved_grantedConversion R hx hy hp hh _).postNotice R hx (poolLaw_grantedConversion R P hx hy hp hh _) _ _ _

/-! ### The examinations of a pass (R41) -/

/-- R41: the examination of record r finds the wait y in slot w at the head, and compatible. -/
structure HeadFits (s : State) (r : Slot) (x : Record) (w : WaitIx) (y : Wait) : Prop where
  record : s.record r = some x
  head : (s.effectiveQueue x).head? = some w
  wait : s.wait w = some y
  fits : s.waitCompatible x y = true

theorem HeadFits.mem (H : HeadFits s r x w y) : w ∈ x.waitQueue :=
  List.mem_of_mem_filter (List.mem_of_mem_head? H.head)

theorem HeadFits.slot (H : HeadFits s r x w y) (R : ReferenceLaw s) : y.slot = r := by
  obtain ⟨z, hz, slot⟩ := R.waiter r x w H.record H.mem
  cases H.wait.symm.trans hz
  exact slot

/-- The examination of a head that fits. -/
theorem grantPassLoop_of_headFits (H : HeadFits s r x w y) (n : Nat) :
    grantPassLoop r (n + 1) s =
      if s.fence.exhausted then s.raise .fenceExhausted else grantPassLoop r n (s.grantHead r x w y) := by
  obtain ⟨rest, hq⟩ := List.head?_eq_some_iff.1 H.head
  simp only [grantPassLoop, H.record, hq, H.wait, H.fits, Bool.true_eq_false, if_false]

/-- Without a head that fits an examination ends the pass. -/
theorem grantPassLoop_of_noHead (noHead : ∀ x w y, ¬HeadFits s r x w y) (n : Nat) : grantPassLoop r n s = s := by
  cases n with
  | zero => rfl
  | succ n =>
    unfold grantPassLoop
    split
    · rfl
    · rename_i x hx
      split
      · rfl
      · rename_i w rest hq
        split
        · rfl
        · rename_i y hy
          have unfit : s.waitCompatible x y = false := Bool.eq_false_iff.2 fun fits =>
            noHead x w y ⟨hx, by rw [hq]; rfl, hy, fits⟩
          rw [if_pos unfit]

/-- R41: without a head that fits, a pass changes nothing. -/
theorem grantPass_of_noHead (noHead : ∀ x w y, ¬HeadFits s r x w y) : s.grantPass r = s :=
  grantPassLoop_of_noHead noHead _

theorem HeadFits.queueLength (H : HeadFits s r x w y) : ∃ n, s.queueLength r = n + 1 := by
  rw [queueLength_of_record H.record]
  exact Nat.exists_eq_succ_of_ne_zero (Nat.pos_iff_ne_zero.1 (List.length_pos_of_mem H.mem))

/-- R41, R48: for want of a fence a pass ends. -/
theorem grantPass_of_exhausted (H : HeadFits s r x w y) (stopped : s.fence.exhausted = true) :
    s.grantPass r = s.raise .fenceExhausted := by
  obtain ⟨n, hn⟩ := H.queueLength
  unfold State.grantPass
  rw [hn, grantPassLoop_of_headFits H, if_pos stopped]

/-- The queue is one shorter after a grant. -/
theorem HeadFits.queueLength_grantHead (H : HeadFits s r x w y) (R : ReferenceLaw s) (P : PoolLaw s) :
    s.queueLength r = (s.grantHead r x w y).queueLength r + 1 := by
  obtain rfl := H.slot R
  obtain ⟨-, x', hx', hq⟩ := grantHead_passKept R P H.record H.wait
  rw [queueLength_of_record H.record, queueLength_of_record hx', hq, ← (R.waiterOnce _ x H.record).erase_eq_filter,
    List.length_erase_of_mem H.mem]
  have := List.length_pos_of_mem H.mem
  omega

/-- R41: a head that fits is granted, and the pass goes on. -/
theorem grantPass_of_headFits (R : ReferenceLaw s) (P : PoolLaw s) (H : HeadFits s r x w y)
    (running : s.fence.exhausted = false) : s.grantPass r = (s.grantHead r x w y).grantPass r := by
  unfold State.grantPass
  rw [H.queueLength_grantHead R P, grantPassLoop_of_headFits H, if_neg (by simp [running])]

/-- R41: what a pass keeps, and that it leaves no head that fits while there are fences. -/
theorem grantPass_passKept (R : ReferenceLaw s) (P : PoolLaw s) (r : Slot) :
    PassKept r s (s.grantPass r) ∧ GrantAt (s.grantPass r) r := by
  induction hn : s.queueLength r using Nat.strongRecOn generalizing s with
  | ind n ih =>
    by_cases found : ∃ x w y, HeadFits s r x w y
    · obtain ⟨x, w, y, H⟩ := found
      obtain rfl := H.slot R
      cases running : s.fence.exhausted with
      | true =>
        rw [grantPass_of_exhausted H running]
        exact ⟨(SameEngine.raise _).passKept R P _, fun he => absurd (running.symm.trans he) (by simp)⟩
      | false =>
        have granted := (grantHead_passKept R P H.record H.wait).1
        have shorter := H.queueLength_grantHead R P
        obtain ⟨kept, head⟩ := ih _ (by omega) granted.references granted.pool rfl
        rw [grantPass_of_headFits R P H running]
        exact ⟨granted.trans kept, head⟩
    · have noHead : ∀ x w y, ¬HeadFits s r x w y := fun x w y H => found ⟨x, w, y, H⟩
      rw [grantPass_of_noHead noHead]
      exact ⟨(SameEngine.refl s).passKept R P r,
        fun _ x w y hx hw hy => Bool.eq_false_iff.2 fun fits => noHead x w y ⟨hx, hw, hy, fits⟩⟩

/-- Settles O33: each examination by `HeadFits`, and the whole pass by induction on the length of the queue. -/
theorem grantPassGrantsFromTheHead : Obligations.GrantPassGrantsFromTheHead := by
  rintro s t r R P rfl
  obtain ⟨kept, head⟩ := grantPass_passKept R P r
  refine ⟨fun noRecord => ?_, fun x hx empty => ?_, fun x w q y hx hq hy => ⟨fun unfit => ?_, fun fits stopped => ?_,
    fun fits running => ?_⟩, head, kept.record, kept.hold, kept.wait, (EngineOnly.grantPass (o := none) r).outside,
    kept.references, kept.pool⟩
  · refine grantPass_of_noHead fun x w y H => ?_
    cases noRecord.symm.trans H.record
  · refine grantPass_of_noHead fun z w y H => ?_
    cases hx.symm.trans H.record
    have head := H.head
    rw [empty] at head
    cases head
  · refine grantPass_of_noHead fun z v y' H => ?_
    cases hx.symm.trans H.record
    have same := H.head
    rw [hq] at same
    cases same
    cases hy.symm.trans H.wait
    exact absurd H.fits (by simp [unfit])
  · exact grantPass_of_exhausted ⟨hx, by rw [hq]; rfl, hy, fits⟩ stopped
  · exact grantPass_of_headFits R P ⟨hx, by rw [hq]; rfl, hy, fits⟩ running

end Sys2Proof.Machine
end

