-- ==== Sys2Proof/Proofs/EnteringPurging.lean ====
section
/-! PROOFS. A client enters PURGING: what that changes, and that the grant passes after it spare the client's session record and link,
as its waits stand in no effective queue (O14). -/

namespace Sys2Proof.Machine

set_option Elab.async false

open Sys2Proof

/-- From s to t the session record and the link of client c are the same. -/
structure Spares (c : Client) (s t : State) : Prop where
  session : t.session c = s.session c
  link : t.link c = s.link c

namespace Spares

variable {c d : Client} {s t u : State}

theorem refl (s : State) : Spares c s s := ⟨rfl, rfl⟩

theorem trans (h : Spares c s t) (k : Spares c t u) : Spares c s u :=
  ⟨k.session.trans h.session, k.link.trans h.link⟩

/-- The session records and the links are the same. -/
theorem same (sessions : t.sessions = s.sessions) (links : t.links = s.links) : Spares c s t :=
  ⟨congrArg (fun v : Vector Session 8 => v[c]) sessions, congrArg (fun v : Vector Link 8 => v[c]) links⟩

theorem raise (f : EventFlag) : Spares c s (s.raise f) := same rfl rfl

theorem setHoldCounts (x : HoldCounts) : Spares c s (s.setHoldCounts x) := same rfl rfl

theorem countGrant (d : Client) : Spares c s (s.countGrant d) := same rfl rfl

theorem modifySession (hd : d ≠ c) (f : Session → Session) : Spares c s (s.modifySession d f) :=
  ⟨by rw [session_modifySession, if_neg hd], rfl⟩

theorem modifyLink (hd : d ≠ c) (f : Link → Link) : Spares c s (s.modifyLink d f) :=
  ⟨rfl, by rw [link_modifyLink, if_neg hd]⟩

theorem postNotice (hd : d ≠ c) (tag : Byte) (body : NoticeBody) : Spares c s (s.postNotice d tag body) := by
  unfold State.postNotice
  split
  · exact refl s
  · split
    · exact refl s
    · split
      · exact modifyLink hd _
      · split
        · exact ((modifyLink hd _).trans (raise _)).trans (modifyLink hd _)
        · exact (modifyLink hd _).trans (modifyLink hd _)

theorem postGranted (hd : d ≠ c) (tag : Byte) (i : HoldIx) : Spares c s (s.postGranted d tag i) := by
  unfold State.postGranted
  split
  · exact postNotice hd ..
  · exact refl s

/-! ### Grants to other clients -/

theorem dropWait (w : WaitIx) {y : Wait} (hy : y.client ≠ c) : Spares c s (s.dropWait w y) :=
  trans (t := ((s.modifyRecord y.slot _).removeEntry (.wait w)).setWait w none) (same (by simp) (by simp)) (modifySession hy _)

theorem openHold (i : HoldIx) (d : Client) (r : Slot) (m : Mode) (term : Half) : Spares c s (s.openHold i d r m term) :=
  same (by simp [State.openHold, State.clearIdle, advanceFence_eq]) (by simp [State.openHold, State.clearIdle, advanceFence_eq])

theorem upgrade (i : HoldIx) (r : Slot) (term : Half) : Spares c s (s.upgrade i r term) :=
  same (by simp [State.upgrade, State.setHoldDeadline, advanceFence_eq])
    (by simp [State.upgrade, State.setHoldDeadline, advanceFence_eq])

theorem grantHead (r : Slot) (x : Record) (w : WaitIx) {y : Wait} (hy : y.client ≠ c) :
    Spares c s (s.grantHead r x w y) := by
  unfold State.grantHead
  split
  · unfold State.grantNew
    split
    · exact refl s
    · exact ((((dropWait w hy).trans (openHold ..)).trans (setHoldCounts _)).trans (countGrant _)).trans (postGranted hy ..)
  · exact (((dropWait w hy).trans (upgrade ..)).trans (countGrant _)).trans (postGranted hy ..)

/-! ### Passes while the client is PURGING -/

theorem purging (h : Spares c s t) (hc : (s.session c).state = .purging) : (t.session c).state = .purging := by
  rw [h.session]
  exact hc

/-- R34: the head of an effective queue is a wait of a client that is not PURGING. -/
theorem client_ne_of_headFits {r : Slot} {x : Record} {w : WaitIx} {y : Wait} (hc : (s.session c).state = .purging)
    (H : HeadFits s r x w y) : y.client ≠ c := by
  rintro rfl
  obtain ⟨-, z, hz, served⟩ := (mem_effectiveQueue s x w).1 (List.mem_of_mem_head? H.head)
  cases H.wait.symm.trans hz
  exact served hc

theorem grantPassLoop (r : Slot) (n : Nat) (s : State) (hc : (s.session c).state = .purging) :
    Spares c s (grantPassLoop r n s) := by
  induction n generalizing s with
  | zero => exact refl s
  | succ n ih =>
    by_cases found : ∃ x w y, HeadFits s r x w y
    · obtain ⟨x, w, y, H⟩ := found
      rw [grantPassLoop_of_headFits H]
      split
      · exact raise _
      · have granted : Spares c s (s.grantHead r x w y) := grantHead r x w (client_ne_of_headFits hc H)
        exact granted.trans (ih _ (granted.purging hc))
    · rw [grantPassLoop_of_noHead fun x w y H => found ⟨x, w, y, H⟩]
      exact refl s

theorem passForWait (w : WaitIx) (hc : (s.session c).state = .purging) : Spares c s (s.passForWait w) := by
  unfold State.passForWait
  split
  · exact grantPassLoop _ _ s hc
  · exact refl s

theorem passes (ws : List WaitIx) (s : State) (hc : (s.session c).state = .purging) :
    Spares c s (ws.foldl State.passForWait s) := by
  induction ws generalizing s with
  | nil => exact refl s
  | cons w ws ih =>
    have first : Spares c s (s.passForWait w) := passForWait w hc
    exact first.trans (ih _ (first.purging hc))

end Spares

/-! ### Entering PURGING (R78) -/

/-- R78, steps 1 and 2: the session record is set, and the client joins the purge queue; R123: a purge that starts drops the client's
notices. -/
theorem joinPurgeQueue_eq (s : State) (c : Client) (f : Session → Session) :
    (s.modifySession c f).joinPurgeQueue c =
    { s with
      sessions := s.sessions.set c (f (s.session c))
      purge := ⟨s.purge.queue ++ [c], if s.purge.queue = [] then .wait 0 else s.purge.walk⟩
      links := if s.purge.queue = []
        then s.links.set c { s.link c with noticeQueue := [], lossMark := false, lossCount := 0 } else s.links } := by
  unfold State.joinPurgeQueue
  by_cases empty : s.purge.queue = []
  · rw [if_pos empty, if_pos empty, if_pos (show (s.modifySession c f).purge.queue = [] from empty)]
    rfl
  · rw [if_neg empty, if_neg empty, if_neg (show ¬(s.modifySession c f).purge.queue = [] from empty)]
    rfl

theorem waitsOf_eq (s : State) (c : Client) :
    s.waitsOf c = (List.finRange 128).filter fun w => (s.wait w).any fun y => y.client == c := by
  refine List.filter_congr fun w _ => ?_
  cases s.wait w <;> rfl

/-- Settles O14: the first part in closed form; the passes go by effective queues, in which the client has no wait. -/
theorem enteringPurgingSetsTheSessionAndTheQueue : Obligations.EnteringPurgingSetsTheSessionAndTheQueue := by
  intro s u c after tag d hu
  have entered : s.enterPurging c after tag d = (u.waitsOf c).foldl State.passForWait u := by
    unfold State.enterPurging
    rw [joinPurgeQueue_eq, hu]
  have waits : u.waitsOf c = (List.finRange 128).filter fun w => (s.wait w).any fun y => y.client == c := by
    rw [waitsOf_eq, hu]
    rfl
  have purging : (u.session c).state = .purging := by simp [hu, State.session]
  have spared : Spares c u ((u.waitsOf c).foldl State.passForWait u) := .passes _ u purging
  have engine : EngineOnly none u ((u.waitsOf c).foldl State.passForWait u) := .foldl _ (fun _ w => .passForWait w) _ _
  rw [entered]
  refine ⟨?_, spared.session, spared.link, engine.outside.purge, engine.outside⟩
  rw [waits]
  rfl

end Sys2Proof.Machine
end

