-- ==== Sys2Proof/Proofs/Credits.lean ====
section
/-! PROOFS. The credits of the clients (R71, R73, R88): nothing but the spending of a request, a tick and a reset changes them (O11). -/

namespace Sys2Proof.Machine

open Sys2Proof

/-- From s to t every client keeps its credits. -/
def SameCredits (s t : State) : Prop := ∀ c : Client, (t.session c).credits = (s.session c).credits

namespace SameCredits

variable {s t u : State}

theorem refl (s : State) : SameCredits s s := fun _ => rfl

theorem trans (h : SameCredits s t) (k : SameCredits t u) : SameCredits s u := fun c => (k c).trans (h c)

theorem of_engineOnly {o : Option Client} (h : EngineOnly o s t) : SameCredits s t := fun c => by
  obtain ⟨a, b, e⟩ := h.session c
  rw [e]

theorem of_sessions (h : t.sessions = s.sessions) : SameCredits s t :=
  fun c => congrArg (fun v : Vector Session 8 => v[c].credits) h

theorem modifySession (c : Client) (f : Session → Session) (hf : (f (s.session c)).credits = (s.session c).credits) :
    SameCredits s (s.modifySession c f) := fun d => by
  rw [session_modifySession]
  split
  · rename_i h; subst h; exact hf
  · rfl

/-! ### Purges and sessions -/

theorem enterPurging (c : Client) (after : AfterPurge) (tag : Option Byte) (d : Option Deferred) :
    SameCredits s (s.enterPurging c after tag d) :=
  have joined : ∀ u : State, SameCredits u (u.joinPurgeQueue c) := fun u k => by rw [session_joinPurgeQueue]
  ((modifySession c _ rfl).trans (joined _)).trans
    (of_engineOnly (EngineOnly.foldl (o := none) _ (fun _ w => .passForWait w) _ _))

theorem decideAttach (l : Client) (tag new : Byte) : SameCredits s (s.decideAttach l tag new) := by
  unfold State.decideAttach
  split
  · exact (modifySession l _ rfl).trans (of_engineOnly (.respond ..))
  · split
    · exact of_engineOnly (.respond ..)
    · exact enterPurging _ _ _ _

theorem answerDeferred (c : Client) (d : Option Deferred) : SameCredits s (s.answerDeferred c d) := by
  unfold State.answerDeferred
  split
  · exact of_engineOnly (.respond ..)
  · exact refl s

theorem nextPurge : SameCredits s s.nextPurge := by
  unfold State.nextPurge
  split
  · exact of_sessions rfl
  · exact of_sessions rfl

theorem purgeEnd (c : Client) : SameCredits s (s.purgeEnd c) :=
  have raised : ∀ u : State, SameCredits u ((u.setPurge { u.purge with queue := u.purge.queue.tail }).raise .purgeDone) :=
    fun _ => of_sessions rfl
  (((modifySession c _ rfl).trans (answerDeferred c _)).trans (raised _)).trans nextPurge

theorem applyAction {c : Client} {a : ClientAction} (h : s.applyAction c a = some t) : SameCredits s t := by
  unfold State.applyAction at h
  split at h <;> cases h
  case h_1 | h_3 | h_7 | h_8 | h_9 => exact modifySession _ _ rfl
  case h_2 | h_4 => exact refl s
  all_goals exact enterPurging _ _ _ _

/-- R82: CLEAR ALL keeps the credits. -/
theorem clearAll : SameCredits s s.clearAll := by
  have cleared : SameCredits s s.clearPart := fun c => by
    rw [session_clearPart]
    unfold Session.clear
    dsimp only
    split <;> rfl
  have answers : ∀ (clients : List Client) (u : State), SameCredits u (clients.foldl (State.answerCleared s) u) := by
    intro clients
    induction clients with
    | nil => exact refl
    | cons c clients ih =>
      intro u
      refine SameCredits.trans ?_ (ih _)
      unfold State.answerCleared
      split
      · exact of_engineOnly (.respond ..)
      · exact refl u
  exact (cleared.trans (answers _ _)).trans (of_sessions rfl)

/-! ### Requests -/

/-- R88: what follows the spending of the cost spends nothing. -/
theorem decision (k : RequestKind) (l : Client) (m : RxMessage) (hg : m.fieldsGood k = true) :
    SameCredits s (k.decision l m s) := by
  by_cases ha : k = .attach
  · subst ha; exact decideAttach l _ _
  · by_cases hd : k = .detach
    · subst hd; exact enterPurging _ _ _ _
    · exact of_engineOnly (Answered.decision k m ha hd hg).only

end SameCredits

/-- R88: the cost of each kind. -/
theorem cost_eq (k : RequestKind) : k.cost = if k = .acquire ∨ k = .convert then 2 else if k = .ping then 0 else 1 := by
  cases k <;> rfl

/-- R88: the spending of the cost, and none while the refill in force is 0 (log 24). -/
theorem credits_spend (x : Session) (k : RequestKind) : (x.spend k).credits =
    if x.refillInForce ≠ 0 then x.credits - (if k = .acquire ∨ k = .convert then 2 else if k = .ping then 0 else 1)
    else x.credits := by
  unfold Session.spend
  rw [cost_eq, ite_not]
  split <;> rfl

/-- Settles O11: an admitted request spends its cost before the decision, which keeps the credits; a refusal is an answer alone. -/
theorem creditsSpentWhateverFollows : Obligations.CreditsSpentWhateverFollows := by
  intro s t l k m i takes kind h
  have refused : ∀ reply, (((s.taken l i).refuse l m.requestTag reply).session l).credits = (s.session l).credits :=
    fun reply => SameCredits.of_engineOnly (.refuse l m.requestTag reply) l
  rw [exec_row s l k m i takes kind] at h
  cases h
  by_cases good : m.fieldsGood k = true
  · rw [if_pos good]
    cases gate : gateRefusal (s.session l) k (m.asksNewClaim k) m.sessionTag with
    | some r =>
      rw [gated_of_refusal _ gate, refused, if_neg fun h => nomatch h.2.1]
    | none =>
      rw [gated_of_admits _ ⟨takes, kind, good, gate⟩, SameCredits.decision k l m good l, session_admitted, if_pos rfl,
        credits_spend]
      simp only [good, true_and]
  · rw [if_neg good, refused, if_neg fun h => good h.1]

end Sys2Proof.Machine
end

