-- ==== Sys2Proof/Proofs/SettingsKeep.lean ====
section
/-! PROOFS. Every step keeps the settings in range and the laws of the links (O56). The settings themselves change only by their own
commands (`OnlyItsOwn`); what is left to say of the others is that they keep the links' laws and let no credits rise. -/

namespace Sys2Proof.Machine

open Sys2Proof

variable {s t u : State}

/-! ### What leaves the sessions as they are -/

section
variable {l : Client}

theorem sessions_completeMessage (chars : List Byte) : (s.completeMessage l chars).sessions = s.sessions := by
  unfold State.completeMessage
  split
  · rfl
  · split <;> rfl

theorem sessions_receive (b : Byte) (mark : Bool) : (s.receive l b mark).sessions = s.sessions := by
  unfold State.receive
  split
  case h_6 chars g _ =>
    unfold State.extendMessage
    split
    · rfl
    · split
      · exact sessions_completeMessage _
      · rfl
  all_goals rfl

theorem sessions_receiveBroken : (s.receiveBroken l).sessions = s.sessions := by
  unfold State.receiveBroken
  split <;> rfl

theorem sessions_messageSent : (s.messageSent l).sessions = s.sessions := by
  unfold State.messageSent
  split <;> rfl

theorem sessions_disableLink : (s.disableLink l).sessions = s.sessions := by
  unfold State.disableLink
  split <;> rfl

theorem sessions_enableLink : (s.enableLink l).sessions = s.sessions := by
  unfold State.enableLink
  split <;> rfl

theorem sessions_writeCommand (v : Word) : (s.writeCommand v).sessions = s.sessions := by
  unfold State.writeCommand
  dsimp only
  split
  · split <;> rfl
  · rfl
  · rfl

end

/-! ### The relation -/

/-- From s to t the laws of the links are kept, and no client's credits rise. -/
structure LinksAndCredits (s t : State) : Prop where
  links : LinksLaw s → LinksLaw t
  credits : ∀ c : Client, (t.session c).credits ≤ (s.session c).credits

namespace LinksAndCredits

theorem trans (h : LinksAndCredits s t) (k : LinksAndCredits t u) : LinksAndCredits s u :=
  ⟨k.links ∘ h.links, fun c => (k.credits c).trans (h.credits c)⟩

theorem of_keeping (K : Keeping s t) (C : SameCredits s t) : LinksAndCredits s t := ⟨K.links, fun c => (C c).le⟩

theorem of_engineOnly {o : Option Client} (E : EngineOnly o s t) : LinksAndCredits s t :=
  ⟨fun L l => (E.link l).law (L l), fun c => (SameCredits.of_engineOnly E c).le⟩

theorem of_quiet (Q : Quiet s t) (C : SameCredits s t) : LinksAndCredits s t := of_keeping Q.calm.keeping C

/-- Neither the links nor the sessions change. -/
theorem same (links : t.links = s.links) (sessions : t.sessions = s.sessions) : LinksAndCredits s t :=
  ⟨fun L l => by rw [show t.link l = s.link l from congrArg (fun v : Vector Link 8 => v[l]) links]; exact L l,
    fun c => (SameCredits.of_sessions sessions c).le⟩

theorem refl (s : State) : LinksAndCredits s s := same rfl rfl

theorem complete (code : ResultCode) (ws : List Word) : LinksAndCredits s (s.complete code ws) := same rfl rfl

theorem setWalk (p : WalkPosition) : LinksAndCredits s (s.setWalk p) := same rfl rfl

/-! ### Requests (R85, R88, R143) -/

theorem refused {l : Client} {m : RxMessage} {i : Fin 4} (h : Takes s l m i) (tag : Byte) (reply : Reply) :
    LinksAndCredits s ((s.taken l i).refuse l tag reply) :=
  of_keeping (.answered h (.taken h) (.refuse _ _)) (.of_engineOnly (s := s.taken l i) (.refuse l tag reply))

/-- An admitted request spends, and its decision keeps the credits. -/
theorem admitted {l : Client} {k : RequestKind} {m : RxMessage} {i : Fin 4} (h : Admits s l k m i) :
    LinksAndCredits s (k.decision l m (s.admitted l k i)) where
  links := (Keeping.decision h).links
  credits c := by
    obtain ⟨-, -, good, -⟩ := h
    rw [SameCredits.decision k l m good c, session_admitted]
    split
    · rename_i hc
      subst hc
      rw [credits_spend]
      split
      · exact Nat.sub_le ..
      · exact le_rfl
    · exact le_rfl

theorem row (l : Client) (k : RequestKind) (h : exec (k.row l) s = .next t) : LinksAndCredits s t := by
  rcases exec_row_cases s l k with e | ⟨m, i, takes, kind, e⟩ <;> rw [e] at h <;> cases h
  · exact refl s
  · split
    · rename_i good
      cases gate : gateRefusal (s.session l) k (m.asksNewClaim k) m.sessionTag with
      | some r =>
        rw [gated_of_refusal _ gate]
        exact refused takes ..
      | none =>
        have admits : Admits s l k m i := ⟨takes, kind, good, gate⟩
        rw [gated_of_admits _ admits]
        exact admitted admits
    · exact refused takes ..

theorem malformed (l : Client) : LinksAndCredits s (s.take l none fun m t => t.refuse l m.requestTag .malformed) := by
  unfold State.take
  split
  · rename_i m i h
    split
    · exact refused ((takable_takes ..).1 h) ..
    · exact refl s
  · exact refl s

/-! ### The purge walk (R124 to R130) -/

theorem purgeWaitStep (h : exec .purgeWaitStep s = .next t) : LinksAndCredits s t := by
  cases h
  split
  · exact (of_engineOnly (.purgeWait (o := none) ..)).trans (setWalk _)
  · exact refl s

theorem purgeHoldStep (h : exec .purgeHoldStep s = .next t) : LinksAndCredits s t := by
  cases h
  split
  · rename_i c rest i hq hw
    have step : EngineOnly none s (s.purgeHold c i) := .purgeHold c i
    split
    · exact (of_engineOnly step).trans (setWalk _)
    · have head : (s.purgeHold c i).purge.queue.head? = some c := by rw [step.outside.purge, hq]; rfl
      exact (of_engineOnly step).trans (of_keeping (.purgeEnd head) (.purgeEnd c))
  · exact refl s

/-! ### The links (R120, R137 to R141, R146, R147) -/

variable {l : Client}

theorem discardTo (cause : DiscardCause) {chars : List Byte} {g : Gap} (hr : (s.link l).receiver = .inMessage chars g)
    {after : Receiver} (h : after = .idle ∨ after = .hunt) : LinksAndCredits s (s.discard l cause after) :=
  of_quiet (.discardTo cause (by rw [hr]; simp) h) (.of_sessions rfl)

theorem disableLink (l : Client) : LinksAndCredits s (s.disableLink l) := of_quiet .disableLink (.of_sessions sessions_disableLink)

theorem enableLink (l : Client) : LinksAndCredits s (s.enableLink l) := of_quiet .enableLink (.of_sessions sessions_enableLink)

/-! ### Settings (R150) -/

theorem credits_writeWindow (v : Word) (w : WindowWord) : SameCredits s (s.writeWindow v w) := by
  cases w with
  | linkEnable l =>
    unfold State.writeWindow State.writeLinkEnable
    dsimp only
    split
    · exact .of_sessions sessions_enableLink
    · exact .of_sessions sessions_disableLink
  | clientDomains c | clientLimits c | clientTerm c | clientCredits c => exact .modifySession c _ rfl
  | command => exact .of_sessions (sessions_writeCommand v)
  | _ => exact .of_sessions rfl

theorem writeWord (a : Half) (v : Word) : LinksAndCredits s (s.writeWord a v) := by
  refine of_quiet (.writeWord a v) ?_
  unfold State.writeWord
  split
  · exact credits_writeWindow v _
  · exact .refl s

/-! ### The Admin Engine (R153 to R167) -/

theorem takeCommand (c : AdminCommand) (act : Vector Word 4 → State → State)
    (h : ∀ p u, LinksAndCredits u (act p u)) : LinksAndCredits s (s.takeCommand c act) := by
  unfold State.takeCommand
  split
  · split
    · exact h _ _
    · exact refl s
  · exact refl s
  · exact refl s

/-- A command that works on the table and reports. -/
theorem thenComplete (E : EngineOnly none s t) (code : ResultCode) (ws : List Word) : LinksAndCredits s (t.complete code ws) :=
  (of_engineOnly E).trans (complete ..)

theorem install (p : Vector Word 4) : LinksAndCredits s (s.install p) := by
  unfold State.install
  dsimp only
  split
  · exact complete ..
  · split
    · split
      · split
        · exact complete ..
        · exact thenComplete (.installOn ..) ..
      · exact complete ..
    · split
      · exact thenComplete (.raise _) ..
      · exact thenComplete (.place ..) ..

theorem unpin (p : Vector Word 4) : LinksAndCredits s (s.unpin p) := by
  unfold State.unpin
  split
  · split
    · exact thenComplete (.unpinOn ..) ..
    · exact complete ..
  · exact complete ..

theorem remove (p : Vector Word 4) : LinksAndCredits s (s.remove p) := by
  unfold State.remove
  split
  · split
    · exact thenComplete (.removeClaims ..) ..
    · exact complete ..
  · exact complete ..

theorem revoke (p : Vector Word 4) : LinksAndCredits s (s.revoke p) := by
  unfold State.revoke
  split
  · exact complete ..
  · exact thenComplete (.endHold ..) ..

theorem cancelByManager (p : Vector Word 4) : LinksAndCredits s (s.cancelByManager p) := by
  unfold State.cancelByManager
  split
  · exact complete ..
  · exact thenComplete (.endWait ..) ..

theorem readRecordCommand (p : Vector Word 4) : LinksAndCredits s (s.readRecordCommand p) := by
  unfold State.readRecordCommand
  split
  · split
    · exact complete ..
    · split <;> exact complete ..
  · exact complete ..

theorem setClient (p : Vector Word 4) : LinksAndCredits s (s.setClient p) := by
  unfold State.setClient
  split
  · split
    · exact complete ..
    · split
      · rename_i applied
        exact (of_keeping (.applyAction applied) (.applyAction applied)).trans (complete ..)
      · exact complete ..
  · exact complete ..

theorem walkStep (k : DomainWalk) : LinksAndCredits s (s.walkStep k) := by
  have advance : ∀ (u : State) (k : DomainWalk), LinksAndCredits u (u.advanceWalk k) := fun u k => by
    unfold State.advanceWalk
    split <;> exact same rfl rfl
  unfold State.walkStep
  split
  · split
    · exact (of_engineOnly (.removeClaims (o := none) ..)).trans (advance ..)
    · exact advance ..
  · exact advance ..

theorem beginWalk (d : BitVec 4) : LinksAndCredits s (s.beginWalk d) :=
  have marked : LinksAndCredits s (s.setMark d true) := same rfl rfl
  marked.trans (walkStep _)

theorem takeSnapshot (clear : Bool) : LinksAndCredits s (s.takeSnapshot clear) := by
  unfold State.takeSnapshot
  dsimp only
  split <;> exact same rfl rfl

theorem clearAll : LinksAndCredits s s.clearAll :=
  ⟨(Clearing.answerAll _ _ (clearing_clearPart s)).links, fun c => (SameCredits.clearAll c).le⟩

/-- Every command but the reset and a tick. -/
theorem exec (c : Instr) (h : Machine.exec c s = .next t) (hr : c ≠ .powerOnReset) (ht : c ≠ .tick) :
    LinksAndCredits s t := by
  cases c with
  | powerOnReset => exact absurd rfl hr
  | tick => exact absurd rfl ht
  | attach l => exact row l .attach h
  | detach l => exact row l .detach h
  | ping l => exact row l .ping h
  | acquire l => exact row l .acquire h
  | convert l => exact row l .convert h
  | renew l => exact row l .renew h
  | release l => exact row l .release h
  | cancel l => exact row l .cancel h
  | query l => exact row l .query h
  | validate l => exact row l .validate h
  | malformedRequest l => cases h; exact malformed l
  | dueLeaseEntry =>
    cases h
    split
    · split
      · split
        · exact of_engineOnly (.takeLease (o := none) ..)
        · exact refl s
      · exact refl s
    · exact refl s
  | dueGraceEntry =>
    cases h
    split
    · split
      · split
        · exact of_engineOnly (.expireHold (o := none) ..)
        · exact refl s
      · exact refl s
    · exact refl s
  | dueWaitEntry =>
    cases h
    split
    · split
      · exact of_engineOnly (.timeOutWait (o := none) ..)
      · exact refl s
    · exact refl s
  | dueIdleRecordEntry =>
    cases h
    split
    · exact of_engineOnly (.retire (o := none) _)
    · exact refl s
  | purgeWaitStep => exact purgeWaitStep h
  | purgeHoldStep => exact purgeHoldStep h
  | messageComplete l b =>
    cases h
    split
    · rename_i hr
      split
      · rename_i whole
        exact of_quiet (.completeMessage hr whole.2) (.of_sessions (sessions_completeMessage _))
      · exact refl s
    · exact refl s
  | framing l f =>
    cases h
    split
    · exact of_quiet .receiveBroken (.of_sessions sessions_receiveBroken)
    · split
      · split
        · exact discardTo _ ‹_› (.inr rfl)
        · exact refl s
      · exact refl s
  | truncated l b =>
    cases h
    split
    · rename_i hr
      exact of_quiet (.truncateMessage b (by rw [hr]; simp)) (.of_sessions rfl)
    · exact refl s
  | gapLimit l =>
    cases h
    split
    · exact discardTo _ ‹_› (.inl rfl)
    · exact refl s
  | stray l b =>
    cases h
    split
    · exact same rfl rfl
    · exact refl s
  | messageSent l => cases h; exact of_quiet .messageSent (.of_sessions sessions_messageSent)
  | linkDisable l => cases h; exact disableLink l
  | linkEnable l => cases h; exact enableLink l
  | settingWrite a v => cases h; exact writeWord a v
  | flagsWrite v => cases h; exact same rfl rfl
  | enablesWrite v => cases h; exact same rfl rfl
  | fenceCounterLatch e => cases h; cases e <;> exact same rfl rfl
  | installRecord => cases h; exact takeCommand _ _ fun p _ => install p
  | unpinRecord => cases h; exact takeCommand _ _ fun p _ => unpin p
  | removeRecord => cases h; exact takeCommand _ _ fun p _ => remove p
  | removeDomain =>
    cases h
    refine takeCommand _ _ fun p u => ?_
    split
    · exact complete ..
    · exact beginWalk _
  | domainWalkStep =>
    cases h
    split
    · exact walkStep _
    · exact refl s
    · exact refl s
  | revokeHold => cases h; exact takeCommand _ _ fun p _ => revoke p
  | cancelWait => cases h; exact takeCommand _ _ fun p _ => cancelByManager p
  | findRecord =>
    cases h
    refine takeCommand _ _ fun p u => ?_
    split
    · split <;> exact complete ..
    · exact complete ..
  | readRecord => cases h; exact takeCommand _ _ fun p _ => readRecordCommand p
  | readHold =>
    cases h
    refine takeCommand _ _ fun p u => ?_
    split <;> exact complete ..
  | readWait =>
    cases h
    refine takeCommand _ _ fun p u => ?_
    split <;> exact complete ..
  | setClientState => cases h; exact takeCommand _ _ fun p _ => setClient p
  | snapshotCounters =>
    cases h
    refine takeCommand _ _ fun p u => ?_
    split
    · exact complete ..
    · exact (takeSnapshot _).trans (complete ..)
  | clearAll => cases h; exact takeCommand _ _ fun _ _ => clearAll
  | setHashSeed =>
    cases h
    refine takeCommand _ _ fun p u => ?_
    split
    · exact complete ..
    · split
      · exact complete ..
      · exact same rfl rfl
  | characterReceived l b mark => cases h; exact of_quiet (.receive b mark) (.of_sessions (sessions_receive b mark))

end LinksAndCredits

/-! ### The laws of the links -/

theorem linksLaw_exec {c : Instr} (L : LinksLaw s) (h : exec c s = .next t) : LinksLaw t := by
  by_cases hr : c = .powerOnReset
  · subst hr
    cases h
    exact lawful_reset.links
  · by_cases ht : c = .tick
    · subst ht
      cases h
      exact L
    · exact (LinksAndCredits.exec c h hr ht).links L

theorem linksLaw_step (L : LinksLaw s) (h : step s = .next t) : LinksLaw t := by
  rcases step_cases h with ⟨c, rest, -, hc⟩ | ⟨-, rfl⟩
  · exact linksLaw_exec (s := s.setPending rest) L hc
  · exact fun l => Quiet.clockPasses.calm.link l (L l)

/-! ### The settings in range (R51, R53, R71, R72, R145, R180) -/

/-- The settings are in range when they are as before and the credits have not risen. -/
theorem SettingsLaw.of_same (L : SettingsLaw s) (S : SameSettings s t) (period : t.timer.period = s.timer.period)
    (credits : ∀ c : Client, (t.session c).credits ≤ (s.session c).credits) : SettingsLaw t where
  period := by rw [period]; exact L.period
  pendingPeriod := by rw [S.period]; exact L.pendingPeriod
  minTerm := by rw [S.device]; exact L.minTerm
  maxTerm := by rw [S.device]; exact L.maxTerm
  defaultTerm c := by rw [(S.sessions c).defaultTerm]; exact L.defaultTerm c
  waitQuota c := by rw [(S.sessions c).waitQuota]; exact L.waitQuota c
  creditBurst c := by rw [(S.sessions c).creditBurst]; exact L.creditBurst c
  credits c := (credits c).trans (L.credits c)
  stopBits l := by rw [S.stopBits]; exact L.stopBits l
  gapLimit l := by rw [S.gapLimit]; exact L.gapLimit l

/-- R71: a tick refills to the burst at most, which is a byte; R51: the pending period takes effect. -/
theorem SettingsLaw.tick (L : SettingsLaw s) (h : exec .tick s = .next t) : SettingsLaw t := by
  cases h
  have session : ∀ c, (((s.setTimer s.timer.tick).setDeadlines (markDue (s.now + 1) s.deadlines)).setSessions
      (s.sessions.map Session.refill)).session c = (s.session c).refill := fun c => by simp [State.session]
  exact { L with
    period := L.pendingPeriod
    defaultTerm := fun c => by rw [session]; exact L.defaultTerm c
    waitQuota := fun c => by rw [session]; exact L.waitQuota c
    creditBurst := fun c => by rw [session]; exact L.creditBurst c
    credits := fun c => by
      rw [session]
      exact (Nat.min_le_left ..).trans (Nat.le_of_lt_succ (s.session c).creditBurst.isLt) }

/-- R150, R180: what is accepted into a field is in its range, when the value before was. -/
theorem accept_range {w : Nat} {P : BitVec w → Prop} {ok : BitVec w → Bool} {old : BitVec w} (new : BitVec w)
    (range : ∀ v, ok v = true → P v) (h : P old) : P (accept ok old new) := by
  unfold accept
  split
  · exact range _ ‹_›
  · exact h

theorem accept_notZero {w : Nat} {old : BitVec w} (new : BitVec w) (h : old ≠ 0) : accept notZero old new ≠ 0 :=
  accept_range (P := (· ≠ 0)) new (fun v hv => by simpa [notZero] using hv) h

theorem SettingsLaw.modifySession (L : SettingsLaw s) (c : Client) (f : Session → Session)
    (defaultTerm : (f (s.session c)).defaultTerm ≠ 0) (waitQuota : (f (s.session c)).waitQuota.toNat ≤ 16)
    (creditBurst : (f (s.session c)).creditBurst ≠ 0) (credits : (f (s.session c)).credits = (s.session c).credits) :
    SettingsLaw (s.modifySession c f) := by
  have session : ∀ {P : Session → Prop}, P (f (s.session c)) → (∀ d, P (s.session d)) →
      ∀ d, P ((s.modifySession c f).session d) := fun mine others d => by
    rw [session_modifySession]
    split
    · exact mine
    · exact others d
  exact { L with
    defaultTerm := session (P := fun k => k.defaultTerm ≠ 0) defaultTerm L.defaultTerm
    waitQuota := session (P := fun k => k.waitQuota.toNat ≤ 16) waitQuota L.waitQuota
    creditBurst := session (P := fun k => k.creditBurst ≠ 0) creditBurst L.creditBurst
    credits := session (P := fun k => k.credits ≤ 255) (credits ▸ L.credits c) L.credits }

/-- R145: the line settings of a link are written. -/
theorem SettingsLaw.writeLine (L : SettingsLaw s) (l : Client) (v : Word) :
    SettingsLaw (s.modifyLink l fun k => k.writeLine v) := by
  have link : ∀ {P : Link → Prop}, P ((s.link l).writeLine v) → (∀ k, P (s.link k)) →
      ∀ k, P ((s.modifyLink l fun k => k.writeLine v).link k) := fun mine others k => by
    rw [link_modifyLink]
    split
    · exact mine
    · exact others k
  exact { L with
    stopBits := link (P := fun k => k.stopBits = 1 ∨ k.stopBits = 2)
      (accept_range (P := fun b => b = 1 ∨ b = 2) _ (fun b hb => by simpa [goodStopBits] using hb) (L.stopBits l)) L.stopBits
    gapLimit := link (P := fun k => k.gapLimit ≠ 0) (accept_notZero _ (L.gapLimit l)) L.gapLimit }

/-- R150, R151: a write of a word of the window. -/
theorem SettingsLaw.writeWindow (L : SettingsLaw s) (v : Word) (w : WindowWord) : SettingsLaw (s.writeWindow v w) := by
  cases w with
  | tickPeriod =>
    have good : ∀ p : BitVec 14, goodPeriod p = true → 1 ≤ p.toNat ∧ p.toNat ≤ 10000 := fun p hp => by
      simp only [goodPeriod, Bool.and_eq_true, bne_iff_ne, decide_eq_true_eq] at hp
      exact ⟨Nat.pos_of_ne_zero fun h => hp.1 (BitVec.eq_of_toNat_eq h), hp.2⟩
    exact { L with
      pendingPeriod := accept_range (P := fun p => 1 ≤ p.toNat ∧ p.toNat ≤ 10000) _ good L.pendingPeriod }
  | terms => exact { L with minTerm := accept_notZero _ L.minTerm, maxTerm := accept_notZero _ L.maxTerm }
  | clientDomains c =>
    exact L.modifySession c (fun k => { k with domainMask := field v 0 16 }) (L.defaultTerm c) (L.waitQuota c)
      (L.creditBurst c) rfl
  | clientLimits c =>
    have quota : ∀ q : BitVec 5, goodWaitQuota q = true → q.toNat ≤ 16 := fun q hq => by simpa [goodWaitQuota] using hq
    exact L.modifySession c (fun k => k.writeLimits v) (L.defaultTerm c)
      (accept_range (P := fun q => q.toNat ≤ 16) _ quota (L.waitQuota c)) (L.creditBurst c) rfl
  | clientTerm c =>
    exact L.modifySession c (fun k => { k with defaultTerm := accept notZero k.defaultTerm (field v 0 16) })
      (accept_notZero _ (L.defaultTerm c)) (L.waitQuota c) (L.creditBurst c) rfl
  | clientCredits c =>
    exact L.modifySession c (fun k => k.writeCredits v) (L.defaultTerm c) (L.waitQuota c)
      (accept_notZero _ (L.creditBurst c)) rfl
  | linkLine l => exact L.writeLine l v
  | linkEnable l =>
    unfold State.writeWindow State.writeLinkEnable
    dsimp only
    split
    · have own : OnlyItsOwn (.linkEnable l) s (s.enableLink l) := enableLink_own (.inl rfl)
      exact L.of_same (own.settings (by simp)).1 (own.clock (by simp)).2.1 (LinksAndCredits.enableLink l).credits
    · have own : OnlyItsOwn (.linkDisable l) s (s.disableLink l) := disableLink_own (.inl rfl)
      exact L.of_same (own.settings (by simp)).1 (own.clock (by simp)).2.1 (LinksAndCredits.disableLink l).credits
  | command =>
    unfold State.writeWindow State.writeCommand
    dsimp only
    split
    · split <;> exact { L with }
    · exact { L with }
    · exact { L with }
  | _ => exact { L with }

theorem SettingsLaw.exec {c : Instr} (L : SettingsLaw s) (h : Machine.exec c s = .next t) : SettingsLaw t := by
  by_cases hr : c = .powerOnReset
  · subst hr
    cases h
    exact { settingsLaw_reset with }
  by_cases ht : c = .tick
  · subst ht
    exact L.tick h
  by_cases hw : ∃ a v, c = .settingWrite a v
  · obtain ⟨a, v, rfl⟩ := hw
    cases h
    unfold State.writeWord
    split
    · exact L.writeWindow v _
    · exact L
  · have own := exec_own c h hr
    have settings := own.settings fun a v e => hw ⟨a, v, e⟩
    exact L.of_same settings.1 (own.clock ht).2.1 (LinksAndCredits.exec c h hr ht).credits

theorem SettingsLaw.step (L : SettingsLaw s) (h : Machine.step s = .next t) : SettingsLaw t := by
  rcases step_cases h with ⟨c, rest, -, hc⟩ | ⟨-, rfl⟩
  · exact SettingsLaw.exec (s := s.setPending rest) { L with } hc
  · exact { L with
      stopBits := fun l => by rw [link_clockPasses]; exact L.stopBits l
      gapLimit := fun l => by rw [link_clockPasses]; exact L.gapLimit l }

/-- Settles O56: only a write changes a setting, and it accepts what is in range; the links' laws are kept command by command. -/
theorem settingsAndLinksKeepTheirLaws : Obligations.SettingsAndLinksKeepTheirLaws :=
  ⟨fun _ _ L h => L.step h, fun _ _ L h => linksLaw_step L h⟩

end Sys2Proof.Machine
end

