-- ==== Sys2Proof/Proofs/Gate.lean ====
section
/-! PROOFS. The gate of a request (R85 to R88) and the term that it may get (R54): O9, O36. -/

namespace Sys2Proof.Machine

open Sys2Proof

/-! ### The state, tag and credit checks (R86 to R88) -/

theorem refuse_or {α : Type} (p : Prop) [Decidable p] (r : α) (x y : Option α) :
    (if p then some r else x).or y = if p then some r else x.or y := by
  split <;> rfl

/-- R85: the first check that fails gives the outcome. -/
theorem gateRefusal_eq_or (x : Session) (k : RequestKind) (new : Bool) (tag : Byte) :
    gateRefusal x k new tag = (stateCheck x.state k new).or ((tagCheck x k tag).or (creditCheck x k)) := by
  unfold gateRefusal
  cases stateCheck x.state k new with
  | some r => rfl
  | none => cases tagCheck x k tag <;> rfl

/-- R86. -/
theorem stateCheck_eq (a : ClientState) (k : RequestKind) (new : Bool) : stateCheck a k new =
    if a = .purging ∧ k ≠ .ping then some .purging
    else if a = .barred ∧ k ≠ .ping then some .barred
    else if a = .detached ∧ k ≠ .ping ∧ k ≠ .attach then some .notAttached
    else if a = .queryOnly ∧ new = true then some .queryOnly
    else none := by
  cases a with
  | detached => by_cases ha : k = .attach <;> by_cases hp : k = .ping <;> simp [stateCheck, ha, hp]
  | purging | barred => by_cases hp : k = .ping <;> simp [stateCheck, hp]
  | active | queryOnly => simp [stateCheck]

/-- R87. -/
theorem tagCheck_eq (x : Session) (k : RequestKind) (tag : Byte) : tagCheck x k tag =
    if k ≠ .ping ∧ k ≠ .attach ∧ tag ≠ x.tag then some .staleSession else none := by
  unfold tagCheck
  by_cases exempt : k = .attach ∨ k = .ping
  · rw [if_pos exempt, if_neg fun h => exempt.elim h.2.1 h.1]
  · obtain ⟨ha, hp⟩ := not_or.1 exempt
    rw [if_neg exempt]
    by_cases ht : tag = x.tag <;> simp [ha, hp, ht]

/-- R88. -/
theorem creditCheck_eq (x : Session) (k : RequestKind) : creditCheck x k =
    if x.refillInForce ≠ 0 ∧ x.credits < (if k = .acquire ∨ k = .convert then 2 else if k = .ping then 0 else 1)
    then some .rate else none := by
  unfold creditCheck
  rw [cost_eq]
  by_cases off : x.refillInForce = 0
  · rw [if_pos off, if_neg fun h => h.1 off]
  · rw [if_neg off]
    simp only [ne_eq, off, not_false_eq_true, true_and]

/-- Settles O9: the three checks, one after the other. -/
theorem gateChecksInOrder : Obligations.GateChecksInOrder := by
  intro x k new tag
  rw [gateRefusal_eq_or, stateCheck_eq, tagCheck_eq, creditCheck_eq]
  simp only [refuse_or, Option.none_or]

/-! ### The term (R54) -/

/-- R54, steps 3 and 4. -/
theorem clampBetween_toNat (lo hi t : Half) : (clampBetween lo hi t).toNat = min hi.toNat (max lo.toNat t.toNat) := by
  unfold clampBetween
  dsimp only
  split <;> split <;> simp only [BitVec.lt_def] at * <;> omega

/-- R54: the record's own maximum counts when it has one below the device's. -/
theorem effectiveMax_eq (s : State) (x : Record) : s.effectiveMax x =
    if x.maxTerm = 0 ∨ s.device.maxTerm ≤ x.maxTerm then s.device.maxTerm else x.maxTerm := by
  unfold State.effectiveMax
  by_cases none : x.maxTerm = 0
  · rw [if_pos none, if_pos (.inl none)]
  · by_cases below : x.maxTerm < s.device.maxTerm
    · rw [if_neg none, if_pos below, if_neg (not_or.2 ⟨none, BitVec.not_le.2 below⟩)]
    · rw [if_neg none, if_neg below, if_pos (.inr (BitVec.not_lt.1 below))]

theorem effectiveMax_ne_zero {s : State} (L : SettingsLaw s) (x : Record) : s.effectiveMax x ≠ 0 := by
  rw [effectiveMax_eq]
  split
  · exact L.maxTerm
  · rename_i own
    exact fun h => own (.inl h)

/-- Settles O36: the minimum and the effective maximum are not 0, so neither is the term between them. -/
theorem requestedTermIsClamped : Obligations.RequestedTermIsClamped := by
  rintro s c x t base hi rfl rfl
  rw [← effectiveMax_eq]
  have clamped := clampBetween_toNat s.device.minTerm (s.effectiveMax x) (if t = 0 then (s.session c).defaultTerm else t)
  refine ⟨clamped, fun L => ?_⟩
  have positive : ∀ v : Half, v ≠ 0 → 1 ≤ v.toNat := fun v hv =>
    Nat.pos_of_ne_zero fun h => hv (BitVec.eq_of_toNat_eq h)
  have low := positive _ L.minTerm
  have high := positive _ (effectiveMax_ne_zero L x)
  show 1 ≤ (clampBetween _ _ _).toNat
  omega

end Sys2Proof.Machine
end

