-- ==== Sys2Proof/Proofs/Leases.lean ====
section
/-! PROOFS. The Lease Timer: the tick, the order of the Deadline List, a RENEW and the taking of a due entry (O22, O37, O38, O39). -/

namespace Sys2Proof.Machine

open Sys2Proof

/-! ### The order of the Deadline List (R57) -/

/-- R57: the three keys of an entry, in lexicographic order. -/
def DeadlineEntry.keys (now : Word) (e : DeadlineEntry) : Int ×ₗ Nat ×ₗ Nat :=
  toLex (distance now e.deadline, toLex (e.ref.rank, e.ref.number))

theorem keys_lt_iff (now : Word) (a b : DeadlineEntry) : a.keys now < b.keys now ↔
    distance now a.deadline < distance now b.deadline ∨ distance now a.deadline = distance now b.deadline ∧
      (a.ref.rank < b.ref.rank ∨ a.ref.rank = b.ref.rank ∧ a.ref.number < b.ref.number) := by
  simp [DeadlineEntry.keys, Prod.Lex.toLex_lt_toLex]

/-- R57: an entry stands before another when its keys are the smaller ones. -/
theorem precedes_iff_keys_lt (now : Word) (a b : DeadlineEntry) : a.precedes now b = true ↔ a.keys now < b.keys now := by
  rw [keys_lt_iff]
  unfold DeadlineEntry.precedes
  split
  · simp_all
  · split
    · simp only [Bool.false_eq_true, false_iff]
      omega
    · split
      · simp only [true_iff]
        omega
      · split
        · simp only [Bool.false_eq_true, false_iff]
          omega
        · rw [decide_eq_true_eq]
          omega

theorem precedes_eq_false_iff (now : Word) (a b : DeadlineEntry) : a.precedes now b = false ↔ b.keys now ≤ a.keys now := by
  rw [← Bool.not_eq_true, precedes_iff_keys_lt, not_lt]

/-- R57: an entry goes before the first one that it precedes, and the others keep their places. -/
theorem insertEntry_split (now : Word) (e : DeadlineEntry) (es : List DeadlineEntry) :
    ∃ front back, es = front ++ back ∧ insertEntry now e es = front ++ e :: back ∧
      (∀ a ∈ front, e.precedes now a = false) ∧ ∀ b ∈ back.head?, e.precedes now b = true := by
  induction es with
  | nil => exact ⟨[], [], by simp [insertEntry]⟩
  | cons x xs ih =>
    unfold insertEntry
    by_cases before : e.precedes now x = true
    · exact ⟨[], x :: xs, by simp [before]⟩
    · obtain ⟨front, back, rfl, inserted, after, first⟩ := ih
      refine ⟨x :: front, back, rfl, by simp [before, inserted], fun a ha => ?_, first⟩
      rcases List.mem_cons.1 ha with rfl | ha
      · simpa using before
      · exact after a ha

/-- R57: an ordered list stays ordered when an entry joins it. -/
theorem insertEntry_ordered {now : Word} (e : DeadlineEntry) {es : List DeadlineEntry}
    (h : es.Pairwise fun a b => b.precedes now a = false) :
    (insertEntry now e es).Pairwise fun a b => b.precedes now a = false := by
  obtain ⟨front, back, rfl, inserted, after, first⟩ := insertEntry_split now e es
  simp only [precedes_eq_false_iff, precedes_iff_keys_lt] at *
  obtain ⟨hfront, hback, across⟩ := List.pairwise_append.1 h
  rw [inserted, List.pairwise_append]
  have behind : ∀ b ∈ back, e.keys now ≤ b.keys now := by
    cases back with
    | nil => simp
    | cons x xs =>
      have lead : e.keys now < x.keys now := first x rfl
      intro b hb
      rcases List.mem_cons.1 hb with rfl | hb
      · exact lead.le
      · exact lead.le.trans (List.rel_of_pairwise_cons hback hb)
  refine ⟨hfront, List.pairwise_cons.2 ⟨behind, hback⟩, fun a ha b hb => ?_⟩
  rcases List.mem_cons.1 hb with rfl | hb
  · exact after a ha
  · exact across a ha b hb

/-- R57: a tick brings a deadline nearer by one, unless it passed 2³¹ ticks ago. -/
theorem distance_succ {now d : Word} (h : distance now d ≠ -2147483648) : distance (now + 1) d = distance now d - 1 := by
  have step : d - (now + 1) = d - now - 1 := (sub_sub d now 1).symm
  rw [distance_eq] at h
  rw [distance_eq, distance_eq, step]
  generalize d - now = n at *
  have less : (n - 1).toNat = if n.toNat = 0 then 4294967295 else n.toNat - 1 := by split <;> bv_omega
  rw [less]
  split at h <;> split_ifs <;> omega

/-- Settles O38: the keys make a linear order, which a tick shifts by one. -/
theorem deadlineListStaysInOrder : Obligations.DeadlineListStaysInOrder := by
  refine ⟨fun now a b ka kb na nb ha hb => ?_, fun now a b ha hb => ?_, fun now e es h =>
    ⟨insertEntry_ordered e h, insertEntry_split now e es⟩⟩
  · have keys : ∀ (ref : DeadlineRef) (k n : Nat), (k, n) = (match ref with
        | .hold i => (0, i.val)
        | .wait w => (1, w.val)
        | .record r => (2, r.val)) → ref.rank = k ∧ ref.number = n := fun ref k n h => by
      cases ref <;> cases h <;> exact ⟨rfl, rfl⟩
    obtain ⟨rfl, rfl⟩ := keys a.ref ka na ha
    obtain ⟨rfl, rfl⟩ := keys b.ref kb nb hb
    rw [precedes_iff_keys_lt, keys_lt_iff]
  · rw [Bool.eq_iff_iff]
    simp only [precedes_iff_keys_lt, keys_lt_iff, distance_succ ha, distance_succ hb]
    omega

/-! ### The tick (R50, R52, R58, R71) -/

/-- R58. -/
theorem markDue_eq (now : Word) (es : List DeadlineEntry) : markDue now es =
    es.map fun e => if (now - e.deadline).toNat < 2147483648 then { e with marked := true } else e :=
  List.map_congr_left fun _ _ => if_congr decide_eq_true_iff rfl rfl

/-- Settles O37: the marks go by the clock after the tick. -/
theorem tickAdvancesMarksAndRefills : Obligations.TickAdvancesMarksAndRefills := by
  intro s
  rw [← markDue_eq]
  rfl

/-! ### The new deadline of a hold (R56, R60, R66) -/

/-- R56: a hold changes and gets a deadline, with which its entry moves, not marked. -/
theorem modifyHold_setHoldDeadline {s : State} {i : HoldIx} {h : Hold} (hh : s.hold i = some h) (f : Hold → Hold) (d : Word) :
    (s.modifyHold i f).setHoldDeadline i d = (s.setHold i (some { f h with deadline := d })).setDeadlines
      (insertEntry s.timer.clock ⟨.hold i, d, false⟩ (s.deadlines.filter fun e => e.ref != .hold i)) := by
  rw [modifyHold_eq _ _ _ _ hh, setHoldDeadline_eq (h := f h)]
  · simp [State.setHold, State.setHoldSlot, State.setHolds, State.setDeadlines, State.holdSlot]
  · simp [State.hold, State.holdSlot]

/-- R66, R67: a RENEW of the client's own hold. -/
theorem exec_renew {s : State} {l : Client} {m : RxMessage} {i : Fin 4} {j : HoldIx} {h : Hold} {x : Record}
    (ha : Admits s l .renew m i) (hj : s.ownNamedHold l (m.body 0) (m.body 1) = some (j, h))
    (hx : s.record h.slot = some x) :
    exec (.renew l) s = .next ((s.admitted l .renew i).renewHold l m.requestTag j x (m.half 2)) := by
  have row := exec_admits ha
  simpa only [RequestKind.row, RequestKind.decision, admitted_ownNamedHold, hj, admitted_record, hx] using row

/-- Settles O22: the hold that the handle names changes with its entry, and the answer follows. -/
theorem renewMovesTheDeadline : Obligations.RenewMovesTheDeadline := by
  rintro s l m i j h x d ha hj hx rfl
  have hh : s.hold j = some h := (namedHold_eq_some.1 (ownNamedHold_eq_some.1 hj).1).2.1
  rw [exec_renew ha hj hx, State.renewHold, modifyHold_setHoldDeadline (s := s.admitted l .renew i) hh]
  simp only [State.after, admitted_now, admitted_clampTerm, admitted_timer, admitted_deadlines]
  rfl

/-! ### The taking of a due entry (R59 to R64) -/

/-- R59: the first marked entry. -/
theorem nextMarked_eq_some (s : State) (e : DeadlineEntry) : s.nextMarked = some e ↔
    ∃ front back, s.deadlines = front ++ e :: back ∧ e.marked = true ∧ ∀ a ∈ front, a.marked = false := by
  unfold State.nextMarked
  rw [List.find?_eq_some_iff_append]
  simp only [Bool.not_eq_true']
  constructor
  · rintro ⟨marked, front, back, e, unmarked⟩
    exact ⟨front, back, e, marked, unmarked⟩
  · rintro ⟨front, back, e, marked, unmarked⟩
    exact ⟨marked, front, back, e, unmarked⟩

/-- R60. -/
theorem getsGrace_iff (s : State) (h : Hold) (x : Record) : s.getsGrace h x = true ↔
    s.device.graceTerm ≠ 0 ∧ s.effectiveQueue x = [] ∧ h.conversion = none ∧ (s.session h.client).state ≠ .purging := by
  simp [State.getsGrace, and_assoc]

variable {s : State} {e : DeadlineEntry} {i : HoldIx} {h : Hold}

theorem exec_dueLeaseEntry (hn : s.nextMarked = some e) (he : e.ref = .hold i) (hh : s.hold i = some h)
    (active : h.state = .active) : exec .dueLeaseEntry s = .next (s.takeLease i h) := by
  obtain ⟨ref, d, b⟩ := e
  cases he
  simp only [exec, execDueLeaseEntry, hn, hh, active, if_true]

theorem exec_dueGraceEntry (hn : s.nextMarked = some e) (he : e.ref = .hold i) (hh : s.hold i = some h)
    (lapsed : h.state = .lapsed) : exec .dueGraceEntry s = .next (s.expireHold i h) := by
  obtain ⟨ref, d, b⟩ := e
  cases he
  simp only [exec, execDueGraceEntry, hn, hh, lapsed, if_true]

theorem exec_dueWaitEntry {w : WaitIx} {y : Wait} (hn : s.nextMarked = some e) (he : e.ref = .wait w)
    (hy : s.wait w = some y) : exec .dueWaitEntry s = .next (s.timeOutWait w y) := by
  obtain ⟨ref, d, b⟩ := e
  cases he
  simp only [exec, execDueWaitEntry, hn, hy]

theorem exec_dueIdleRecordEntry {r : Slot} (hn : s.nextMarked = some e) (he : e.ref = .record r) :
    exec .dueIdleRecordEntry s = .next (s.retire r) := by
  obtain ⟨ref, d, b⟩ := e
  cases he
  simp only [exec, execDueIdleRecordEntry, hn]

/-- R60, R61: the four conditions decide between grace and expiry. -/
theorem takeLease_eq {x : Record} (hx : s.record h.slot = some x) :
    s.takeLease i h = if s.getsGrace h x then s.lapse i h else s.expireHold i h := by
  simp only [State.takeLease, hx]

/-- R60: the hold lapses until the end of its grace. -/
theorem lapse_eq (hh : s.hold i = some h) : s.lapse i h =
    ((s.setHold i (some { h with
        state := .lapsed, deadline := s.timer.clock + s.device.graceTerm.setWidth 32 })).setDeadlines
      (insertEntry s.timer.clock ⟨.hold i, s.timer.clock + s.device.graceTerm.setWidth 32, false⟩
        (s.deadlines.filter fun e => e.ref != .hold i))).postNotice h.client 0
      (.lapsed (s.holdHandle i) (s.timer.clock + s.device.graceTerm.setWidth 32)) := by
  have grace : s.after (s.device.graceTerm.setWidth 16) = s.timer.clock + s.device.graceTerm.setWidth 32 := by
    simp only [State.after, State.now]
    bv_omega
  unfold State.lapse
  dsimp only
  rw [modifyHold_setHoldDeadline hh, grace]

/-- Settles O39: each row takes the entry of its kind; the ends of holds and waits are those of R39 and R40. -/
theorem dueEntryIsTaken : Obligations.DueEntryIsTaken := by
  refine ⟨nextMarked_eq_some, ?_, fun s e hn => ⟨fun w y he hy => ?_, fun r he => ?_⟩⟩
  · rintro s e i h x d hn he hh hx rfl
    refine ⟨fun active grace => ?_, fun active noGrace => ?_, fun lapsed => ?_⟩
    · rw [exec_dueLeaseEntry hn he hh active, takeLease_eq hx, if_pos ((getsGrace_iff s h x).2 grace), lapse_eq hh]
    · rw [exec_dueLeaseEntry hn he hh active, takeLease_eq hx, if_neg fun g => noGrace ((getsGrace_iff s h x).1 g)]
      rfl
    · rw [exec_dueGraceEntry hn he hh lapsed]
      rfl
  · rw [exec_dueWaitEntry hn he hy]
    rfl
  · rw [exec_dueIdleRecordEntry hn he]
    rfl

end Sys2Proof.Machine
end

