-- ==== Sys2Proof/Proofs/ClockBrings.lean ====
section
/-! PROOFS. What a clock of the 48 MHz reference moves on and which happenings it brings about (O44). -/

namespace Sys2Proof.Machine

open Sys2Proof

/-! ### What a clock moves on -/

theorem see_eq (p : Port) (b : Bool) : p.see b = { p with seenSelectHigh := p.seenSelectHigh || b } := by
  cases b <;> simp [Port.see]

theorem periodEnds_iff (s : State) : s.periodEnds = true ↔ s.timer.period.toNat * 480 ≤ s.wires.prescaler + 1 :=
  decide_eq_true_iff

/-! ### The happenings at one link (R120, R135, R139) -/

variable {k : Link} {l : Client} {w v : LinkWire} {level : Bool} {d : Option Decided}

/-- The character that is decided, the running-out of the gap limit, and the end of the message in flight. -/
theorem clock_eq (h : w.receive k level = (v, d)) : k.clock l w level = (v, (d.bind (Decided.command l)).toList ++
    (if (d.bind (Decided.command l)).toList = [] ∧ v.rx.isWatching = true ∧ k.receiver.gapEnds = true
      then [.gapLimit l] else []) ++
    if (k.tx.clock k).2 then [.messageSent l] else []) := by
  unfold Link.clock
  rw [h]

/-- What is heard on the line leaves no room for the gap limit. -/
theorem clock_of_heard {c : Instr} (h : w.receive k level = (v, d)) (hd : d.bind (Decided.command l) = some c) :
    (k.clock l w level).2 = c :: if (k.tx.clock k).2 then [.messageSent l] else [] := by
  rw [clock_eq h, hd]
  rfl

/-- When no character has been decided, the gap limit can run out. -/
theorem clock_of_unheard (h : w.receive k level = (v, d)) (hd : d = none ∨ d = some .noCharacter) :
    (k.clock l w level).2 = (if v.rx.isWatching = true ∧ k.receiver.gapEnds = true then [.gapLimit l] else []) ++
      if (k.tx.clock k).2 then [.messageSent l] else [] := by
  have unheard : d.bind (Decided.command l) = none := by rcases hd with rfl | rfl <;> rfl
  rw [clock_eq h, unheard]
  simp

/-- R139: the limit runs out while a message is being assembled and no start edge has been seen. -/
theorem gapRunsOut_iff (r : Receiver) (x : RxLine) : x.isWatching = true ∧ r.gapEnds = true ↔
    ∃ chars g last, r = .inMessage chars g ∧ x = .watching last ∧
      g.limit.toNat * ((10 + g.stopBits.toNat) * (16 * (g.divider.toNat + 1))) ≤ g.elapsed + 1 := by
  cases r with
  | inMessage chars g =>
    cases x with
    | watching last =>
      have limit : (Receiver.inMessage chars g).gapEnds = true ↔
          g.limit.toNat * ((10 + g.stopBits.toNat) * (16 * (g.divider.toNat + 1))) ≤ g.elapsed + 1 := decide_eq_true_iff
      simp [RxLine.isWatching, limit]
    | inside divider samples => simp [RxLine.isWatching]
  | idle | hunt | stopped => simp [Receiver.gapEnds]

/-- Settles O44: what moves on, part by part, and the happenings at a link by what its receiver has decided. -/
theorem clockBringsTheHappenings : Obligations.ClockBringsTheHappenings := by
  refine ⟨fun s => ?_, fun s => ?_, fun s => ⟨?_, rfl, fun l => wires_links_clockPasses s l⟩,
    fun k l w v level d h => ⟨?_, ?_, ?_, fun hd => ⟨?_, ?_⟩⟩⟩
  · have links : s.clockPasses.links = s.links.map fun k => { k with
        receiver := match k.receiver with
          | .inMessage chars g => .inMessage chars { g with elapsed := g.elapsed + 1 }
          | other => other
        tx := (k.tx.clock k).1 } := by
      refine congrArg (s.links.map ·) (funext fun k => ?_)
      cases k.receiver <;> rfl
    exact congrArg₂ (fun links port => { s with
      wires := s.clockPasses.wires, links := links, port := port, pending := s.clockPasses.pending })
      links (see_eq s.port s.pins.chipSelect)
  · rw [clockPasses_pending, State.clockedCommands]
    simp only [periodEnds_iff, List.append_assoc]
    rfl
  · rw [clockPasses_wires, State.clockedWires]
    simp only [periodEnds_iff]
  · rw [clock_eq h]
  · rintro c rfl
    exact clock_of_heard h rfl
  · rintro rfl
    exact clock_of_heard h rfl
  · intro chars g last hr hv limit
    rw [clock_of_unheard h hd, if_pos ((gapRunsOut_iff ..).2 ⟨chars, g, last, hr, hv, limit⟩)]
    rfl
  · intro running
    rw [clock_of_unheard h hd, if_neg]
    · rfl
    · rintro runsOut
      obtain ⟨chars, g, last, hr, hv, limit⟩ := (gapRunsOut_iff ..).1 runsOut
      exact absurd limit (not_le.2 (running chars g last hr hv))

end Sys2Proof.Machine
end

