-- ==== Sys2Proof/Proofs/WindowReads.lean ====
section
/-! PROOFS. What a READ of each word of the management window returns (O47): first which addresses name a word, then the words field by
field. -/

namespace Sys2Proof.Machine

open Sys2Proof

/-! ### Addresses (R150) -/

theorem readWord_of_some {s : State} {a : Half} {w : WindowWord} (h : windowWord a = some w) : s.readWord a = s.readWindow w := by
  unfold State.readWord
  rw [h]

theorem octetOf_eq {base a : Nat} {n : Client} {i : Fin 8} (h : octetOf base a = some (n, i)) : a = base + 8 * n.val + i.val := by
  unfold octetOf at h
  split at h
  · cases h
    dsimp only
    omega
  · cases h

theorem singleWord_range {a : Nat} {w : WindowWord} (h : singleWord a = some w) :
    a < 0x0006 ∨ 0x0410 ≤ a ∧ a < 0x041C ∨ 0x0500 ≤ a ∧ a < 0x0502 ∨ 0x0604 ≤ a ∧ a < 0x0606 ∨ a = 0x0700 := by
  unfold singleWord at h
  split at h
  case h_24 => cases h
  all_goals omega

theorem settingBlock_range {a : Nat} {w : WindowWord} (h : settingBlock a = some w) :
    0x0100 ≤ a ∧ a < 0x0180 ∧ a % 16 < 4 ∨ 0x0200 ≤ a ∧ a < 0x0280 ∧ a % 16 < 2 := by
  unfold settingBlock at h
  split at h
  case h_1 c e | h_2 c e | h_3 c e | h_4 c e =>
    have := blockOf_eq e
    omega
  case h_5 => cases h
  case h_6 =>
    split at h
    case h_1 c e | h_2 c e =>
      have := blockOf_eq e
      omega
    case h_3 => cases h

theorem counterBlock_range {a : Nat} {w : WindowWord} (h : counterBlock a = some w) :
    0x0710 ≤ a ∧ a < 0x0790 ∨ 0x0810 ≤ a ∧ a < 0x0890 := by
  unfold counterBlock at h
  split at h
  · have := octetOf_eq ‹_›
    omega
  · split at h
    · have := octetOf_eq ‹_›
      omega
    · split at h
      · have := octetOf_eq ‹_›
        omega
      · split at h
        · have := octetOf_eq ‹_›
          omega
        · cases h

/-- The addresses that name a word. -/
theorem windowWord_range {a : Half} {w : WindowWord} (h : windowWord a = some w) :
    a.toNat < 0x0006 ∨ 0x0100 ≤ a.toNat ∧ a.toNat < 0x0180 ∧ a.toNat % 16 < 4 ∨
      0x0200 ≤ a.toNat ∧ a.toNat < 0x0280 ∧ a.toNat % 16 < 2 ∨ 0x0400 ≤ a.toNat ∧ a.toNat < 0x041C ∨
      0x0500 ≤ a.toNat ∧ a.toNat < 0x0502 ∨ 0x0600 ≤ a.toNat ∧ a.toNat < 0x060E ∨ a.toNat = 0x0700 ∨
      0x0710 ≤ a.toNat ∧ a.toNat < 0x0790 ∨ 0x0810 ≤ a.toNat ∧ a.toNat < 0x0890 := by
  unfold windowWord at h
  dsimp only at h
  split at h
  · have := singleWord_range ‹_›
    omega
  · split_ifs at h
    · omega
    · omega
    · omega
    · omega
    · split at h
      · have := settingBlock_range ‹_›
        omega
      · have := counterBlock_range h
        omega

theorem readWord_of_none {s : State} {a : Half} (h : ∀ w, windowWord a ≠ some w) : s.readWord a = 0 := by
  unfold State.readWord
  rw [Option.eq_none_iff_forall_ne_some.2 h]

/-- The words of a client or link, and the words of the mailbox. -/
theorem windowWord_client : ∀ c : Client,
    windowWord (BitVec.ofNat 16 (0x0100 + 16 * c.val)) = some (.clientDomains c) ∧
    windowWord (BitVec.ofNat 16 (0x0101 + 16 * c.val)) = some (.clientLimits c) ∧
    windowWord (BitVec.ofNat 16 (0x0102 + 16 * c.val)) = some (.clientTerm c) ∧
    windowWord (BitVec.ofNat 16 (0x0103 + 16 * c.val)) = some (.clientCredits c) ∧
    windowWord (BitVec.ofNat 16 (0x0200 + 16 * c.val)) = some (.linkEnable c) ∧
    windowWord (BitVec.ofNat 16 (0x0201 + 16 * c.val)) = some (.linkLine c) ∧
    windowWord (BitVec.ofNat 16 (0x0400 + c.val)) = some (.clientStatus c) ∧
    windowWord (BitVec.ofNat 16 (0x0408 + c.val)) = some (.clientCounts c) := by decide

theorem windowWord_param : ∀ i : Fin 4, windowWord (BitVec.ofNat 16 (0x0600 + i.val)) = some (.param i) := by decide

theorem windowWord_result : ∀ j : Fin 8, windowWord (BitVec.ofNat 16 (0x0606 + j.val)) = some (.result j) := by decide

theorem windowWord_snapshot : ∀ n i : Fin 8,
    windowWord (BitVec.ofNat 16 (0x0710 + 8 * n.val + i.val)) = some (.snapshotLink n i) ∧
    windowWord (BitVec.ofNat 16 (0x0710 + 0x40 + 8 * n.val + i.val)) = some (.snapshotClient n i) := by decide

theorem windowWord_live : ∀ n i : Fin 8,
    windowWord (BitVec.ofNat 16 (0x0810 + 8 * n.val + i.val)) = some (.liveLink n i) ∧
    windowWord (BitVec.ofNat 16 (0x0810 + 0x40 + 8 * n.val + i.val)) = some (.liveClient n i) := by decide

/-! ### Fields of a word -/

theorem getLsbD_bitsAt {w : Nat} (lo : Nat) (v : BitVec w) (i : Nat) :
    (bitsAt lo v).getLsbD i = (decide (i < 32) && decide (lo ≤ i) && v.getLsbD (i - lo)) := by
  unfold bitsAt
  rw [BitVec.getLsbD_shiftLeft, BitVec.getLsbD_setWidth]
  by_cases h : i < 32
  · have inside : i - lo < 32 := by omega
    rcases lt_or_ge i lo with below | above
    · simp [h, inside, below, not_le.2 below]
    · simp [h, inside, above, not_lt.2 above]
  · simp [h]

/-- Two fields side by side. -/
theorem bitsAt_or_eq_append {v w : Nat} (x : BitVec v) (y : BitVec w) : bitsAt 0 y ||| bitsAt w x = (x ++ y).setWidth 32 := by
  refine BitVec.eq_of_getLsbD_eq fun i hi => ?_
  rw [BitVec.getLsbD_or, getLsbD_bitsAt, getLsbD_bitsAt, BitVec.getLsbD_setWidth, BitVec.getLsbD_append]
  by_cases h : i < w
  · simp [h, hi]
  · simp [h, hi, not_lt.1 h]

/-- Zeros above a field. -/
theorem bitsAt_zero_append {n w : Nat} (lo : Nat) (x : BitVec w) : bitsAt lo ((0 : BitVec n) ++ x) = bitsAt lo x := by
  refine BitVec.eq_of_getLsbD_eq fun i hi => ?_
  rw [getLsbD_bitsAt, getLsbD_bitsAt, BitVec.getLsbD_append]
  split
  · rfl
  · rw [BitVec.getLsbD_of_ge x _ (by omega)]
    simp

theorem or_congr_word {a a' b b' : Word} (ha : a = a') (hb : b = b') : a ||| b = a' ||| b' := ha ▸ hb ▸ rfl

/-- Log 6: the bits without a stated value stay within their field. -/
theorem extract_unstated {mask : Word} {lo len : Nat} (s : State) (a : Half) (h : mask.extractLsb' lo len = 0) :
    (s.unstated a mask).extractLsb' lo len = 0 := by
  unfold State.unstated
  rw [BitVec.extractLsb'_and, h]
  exact BitVec.and_zero

/-! ### The words of the device -/

theorem readWindow_terms (s : State) : s.readWindow .terms = s.device.maxTerm ++ s.device.minTerm :=
  (bitsAt_or_eq_append _ _).trans (BitVec.setWidth_eq _)

theorem readWindow_idleAndGrace (s : State) :
    s.readWindow .idleAndGrace = (0 : Byte) ++ s.device.graceTerm ++ s.device.idleAge := by
  show bitsAt 0 _ ||| bitsAt 16 _ = _
  rw [← bitsAt_zero_append (n := 8) 16, bitsAt_or_eq_append]
  exact BitVec.setWidth_eq _

theorem readWindow_lowMarks (s : State) :
    s.readWindow .lowMarks = (0 : BitVec 17) ++ s.device.waitLowMark ++ s.device.holdLowMark := by
  show bitsAt 0 _ ||| bitsAt 8 _ = _
  rw [← bitsAt_zero_append (n := 17) 8, bitsAt_or_eq_append]
  exact BitVec.setWidth_eq _

/-- A bit of the word is a bit of one of the eight entries. -/
theorem getLsbD_urgencyWord (m : Vector (BitVec 2) 8) (i : Nat) :
    (urgencyWord m).getLsbD i = true ↔ i < 32 ∧ ∃ u : Fin 8, 2 * u.val ≤ i ∧ m[u].getLsbD (i - 2 * u.val) = true := by
  have fold : ∀ (us : List (Fin 8)) (v : Word), (us.foldl (fun v u => v ||| bitsAt (2 * u.val) m[u]) v).getLsbD i = true ↔
      v.getLsbD i = true ∨ i < 32 ∧ ∃ u ∈ us, 2 * u.val ≤ i ∧ m[u].getLsbD (i - 2 * u.val) = true := by
    intro us
    induction us with
    | nil => simp
    | cons u us ih =>
      intro v
      rw [List.foldl_cons, ih, BitVec.getLsbD_or, getLsbD_bitsAt]
      simp only [Bool.or_eq_true, Bool.and_eq_true, decide_eq_true_eq, List.exists_mem_cons_iff]
      tauto
  unfold urgencyWord
  rw [fold]
  simp

theorem extract_urgencyWord (m : Vector (BitVec 2) 8) (u : Fin 8) : (urgencyWord m).extractLsb' (2 * u.val) 2 = m[u] := by
  refine BitVec.eq_of_getLsbD_eq fun i hi => ?_
  rw [BitVec.getLsbD_extractLsb', Bool.eq_iff_iff, Bool.and_eq_true, getLsbD_urgencyWord]
  constructor
  · rintro ⟨-, -, v, le, bit⟩
    have lt := BitVec.lt_of_getLsbD bit
    obtain rfl : v = u := Fin.ext (by omega)
    rwa [Nat.add_sub_cancel_left] at bit
  · intro bit
    exact ⟨decide_eq_true hi, by omega, u, by omega, by rwa [Nat.add_sub_cancel_left]⟩

theorem extract_urgencyWord_high (m : Vector (BitVec 2) 8) : (urgencyWord m).extractLsb' 16 16 = 0 := by
  refine BitVec.eq_of_getLsbD_eq fun i hi => ?_
  rw [BitVec.getLsbD_extractLsb', Bool.eq_iff_iff, Bool.and_eq_true, getLsbD_urgencyWord]
  refine iff_of_false ?_ (by simp)
  rintro ⟨-, -, u, le, bit⟩
  have lt := BitVec.lt_of_getLsbD bit
  omega

/-! ### The status words -/

theorem readWindow_fenceHigh (s : State) : s.readWindow .fenceHigh =
    (if s.fence.exhausted then (1 : BitVec 1) else 0) ++ (0 : BitVec 15) ++ s.fence.next.extractLsb' 32 16 := by
  have top : boolAt 31 s.fence.exhausted = bitsAt 16 ((if s.fence.exhausted then (1 : BitVec 1) else 0) ++ (0 : BitVec 15)) := by
    cases s.fence.exhausted <;> decide
  have low : fenceHigh s.fence.next = bitsAt 0 (s.fence.next.extractLsb' 32 16) := (bitsAt_zero _).symm
  show fenceHigh s.fence.next ||| boolAt 31 s.fence.exhausted = _
  rw [top, low, bitsAt_or_eq_append]
  exact BitVec.setWidth_eq _

/-- The clients of the purge queue, four bits each, the head lowest. -/
theorem extract_purgeWord (q : List Client) {n : Nat} (hn : n < 8) :
    (purgeWord q).extractLsb' (4 * n) 4 = (q[n]?).elim 0 fun c => BitVec.ofNat 4 c.val := by
  induction q generalizing n with
  | nil => simp [purgeWord]
  | cons c cs ih =>
    refine BitVec.eq_of_getLsbD_eq fun i hi => ?_
    have head : ∀ j, 4 ≤ j → (BitVec.ofNat 32 c.val).getLsbD j = false := fun j hj => by
      have small : c.val < 2 ^ j := (show c.val < 2 ^ 4 by omega).trans_le (Nat.pow_le_pow_right (by omega) hj)
      rw [BitVec.getLsbD_ofNat, Nat.testBit_lt_two_pow small, Bool.and_false]
    rw [BitVec.getLsbD_extractLsb', purgeWord, natAt_zero, BitVec.getLsbD_or, BitVec.getLsbD_shiftLeft]
    cases n with
    | zero =>
      show (decide (i < 4) && ((BitVec.ofNat 32 c.val).getLsbD (4 * 0 + i) || _)) = (BitVec.ofNat 4 c.val).getLsbD i
      simp only [BitVec.getLsbD_ofNat]
      simp [hi, show i < 32 by omega]
    | succ n =>
      have rest := congrArg (fun v => v.getLsbD i) (ih (n := n) (by omega))
      simp only [BitVec.getLsbD_extractLsb', hi, decide_true, Bool.true_and] at rest
      rw [head _ (by omega), show 4 * (n + 1) + i - 4 = 4 * n + i by omega, rest]
      simp [hi, show 4 * (n + 1) + i < 32 by omega, show ¬4 * (n + 1) + i < 4 by omega]

/-! ### The purge walk and the Admin Engine (log 6 for the fields without a value) -/

section
variable {s : State}

theorem extract_walkWord_idle (h : s.purge.walk = .idle) :
    s.walkWord.extractLsb' 0 8 = 0 ∧ s.walkWord.extractLsb' 16 16 = 0 := by
  have word : s.walkWord = s.unstated 0x0418 0x0000FF00 := by unfold State.walkWord; rw [h]
  rw [word]
  exact ⟨extract_unstated s _ (by decide), extract_unstated s _ (by decide)⟩

theorem walkWord_of_wait {w : WaitIx} (h : s.purge.walk = .wait w) : s.walkWord = 1 ||| BitVec.ofNat 32 w.val <<< 8 := by
  unfold State.walkWord
  rw [h]
  rfl

theorem walkWord_of_hold {i : HoldIx} (h : s.purge.walk = .hold i) : s.walkWord = 2 ||| BitVec.ofNat 32 i.val <<< 8 := by
  unfold State.walkWord
  rw [h]
  rfl

theorem extract_adminWord_idle (h : s.admin.busy = .idle) :
    s.adminWord.extractLsb' 0 8 = 0 ∧ s.adminWord.extractLsb' 20 12 = 0 := by
  have word : s.adminWord = s.unstated 0x0419 0x000FFF00 := by unfold State.adminWord; rw [h]
  rw [word]
  exact ⟨extract_unstated s _ (by decide), extract_unstated s _ (by decide)⟩

theorem extract_adminWord_pending {c : AdminCommand} {p : Vector Word 4} (h : s.admin.busy = .pending c p) :
    s.adminWord.extractLsb' 0 16 = c.code ++ (1 : Byte) ∧ s.adminWord.extractLsb' 20 12 = 0 := by
  have word : s.adminWord = natAt 0 1 ||| bitsAt 8 c.code ||| s.unstated 0x0419 0x000F0000 := by
    unfold State.adminWord
    rw [h]
  simp only [word, BitVec.extractLsb'_or]
  rw [extract_unstated s _ (by decide), extract_unstated s _ (by decide)]
  cases c <;> decide

theorem adminWord_of_walking {k : DomainWalk} (h : s.admin.busy = .walking k) :
    s.adminWord = 0x00000402 ||| k.domain.setWidth 32 <<< 16 := by
  unfold State.adminWord
  rw [h]
  rfl

theorem domainWalkWord_eq (s : State) : s.domainWalkWord = (match s.admin.busy with
    | .walking k => BitVec.ofNat 32 k.next.val
    | .idle => 1024
    | .pending _ _ => 1024) := by
  unfold State.domainWalkWord
  cases s.admin.busy with
  | walking k => exact natAt_zero _
  | idle => rfl
  | pending c p => rfl

end

/-! ### The words of a client -/

theorem statusWord_eq (x : Session) : x.statusWord =
    (match x.state with
      | .detached => (0 : Word)
      | .active => 1
      | .queryOnly => 2
      | .purging => 3
      | .barred => 4) ||| x.tag.setWidth 32 <<< 8 |||
    (match x.afterPurge with
      | some .detached => (0 : Word)
      | some .active => 0x10000
      | some .barred => 0x40000
      | none => 0x70000) |||
    (match x.deferred with
      | none => (0 : Word)
      | some d => if d.kind = .attach then 0x80000 else 0x100000) ||| (x.pendingTag.getD 0).setWidth 32 <<< 24 := by
  refine or_congr_word (or_congr_word (or_congr_word (or_congr_word ?_ rfl) ?_) ?_) rfl
  · cases x.state <;> rfl
  · cases x.afterPurge with
    | none => rfl
    | some a => cases a <;> rfl
  · cases x.deferred with
    | none => rfl
    | some d =>
      obtain ⟨kind, tag⟩ := d
      have attach : bitsAt 19 (1 : BitVec 2) = 0x80000 := by decide
      have detach : bitsAt 19 (2 : BitVec 2) = 0x100000 := by decide
      cases kind with
      | attach => exact attach
      | detach => exact detach

theorem limitsWord_eq (x : Session) : x.limitsWord = x.holdQuota.setWidth 32 ||| x.waitQuota.setWidth 32 <<< 8 |||
    x.ceiling.setWidth 32 <<< 16 ||| (if x.mayCreate then (0x01000000 : Word) else 0) |||
    (if x.guardCapability then (0x02000000 : Word) else 0) := by
  unfold Session.limitsWord
  rw [bitsAt_zero]
  refine or_congr_word (or_congr_word rfl ?_) ?_
  · cases x.mayCreate <;> rfl
  · cases x.guardCapability <;> rfl

theorem creditsWord_eq (x : Session) :
    bitsAt 0 x.creditBurst ||| bitsAt 8 x.creditRefill = (0 : Half) ++ x.creditRefill ++ x.creditBurst := by
  rw [← bitsAt_zero_append (n := 16) 8, bitsAt_or_eq_append]
  exact BitVec.setWidth_eq _

theorem boolAt_zero (b : Bool) : boolAt 0 b = if b then 1 else 0 := by
  cases b <;> rfl

/-! ### The counters (R170, R171) -/

theorem linkCounters_getD (k : LinkCounters) (i : Fin 8) : k.words.getD i.val 0 =
    (#v[k.good, k.framing, k.crc, k.truncated, k.overrun, k.stray, k.responsesSent, k.noticesSent])[i] := by
  fin_cases i <;> rfl

theorem clientCounters_getD (k : ClientCounters) (i : Fin 8) : k.words.getD i.val 0 =
    (#v[k.grants, k.waitsBegun, k.refusals, k.holdsExpired, k.waitsTimedOut, 0, 0, 0])[i] := by
  fin_cases i <;> rfl

/-- Settles O47: the word that each address names, with the fields of the word. -/
theorem windowIsReadFieldByField : Obligations.WindowIsReadFieldByField := by
  refine ⟨fun s => ?_, fun s => ?_, fun s c x k hx hk => ?_, fun s i j => ?_, fun s n i base b hb => ?_⟩
  · have word : ∀ {a : Half} {w : WindowWord} {v : Word}, windowWord a = some w → s.readWindow w = v → s.readWord a = v :=
      fun h e => (readWord_of_some h).trans e
    refine ⟨word rfl (bitsAt_zero _), word rfl (readWindow_terms s), word rfl (readWindow_idleAndGrace s), ?_, fun u => ?_,
      word rfl (bitsAt_zero _), word rfl (readWindow_lowMarks s), word rfl ?_, word rfl (natAt_zero _),
      word rfl (readWindow_fenceHigh s), word rfl rfl, word rfl rfl, word rfl (natAt_zero _), fun _ n => ?_,
      word rfl (domainWalkWord_eq s),
      word rfl (boolAt_zero _), word rfl (bitsAt_zero _), word rfl (bitsAt_zero _), word rfl (bitsAt_zero _),
      word rfl rfl, word rfl rfl, fun a gap => readWord_of_none fun w hw => ?_⟩
    · rw [word (w := .urgencyMap) rfl rfl]
      exact extract_urgencyWord_high _
    · rw [word (w := .urgencyMap) rfl rfl]
      exact extract_urgencyWord _ u
    · exact or_congr_word (or_congr_word (natAt_zero _) rfl) rfl
    · rw [word (w := .purgeEntries) rfl rfl]
      refine (extract_purgeWord _ n.isLt).trans ?_
      cases s.purge.queue[n.val]? <;> rfl
    · have := windowWord_range hw
      omega
  · have walk : s.readWord 0x0418 = s.walkWord := readWord_of_some (w := .purgeWalk) rfl
    have admin : s.readWord 0x0419 = s.adminWord := readWord_of_some (w := .adminStatus) rfl
    rw [walk, admin]
    exact ⟨extract_walkWord_idle, fun _ => walkWord_of_wait, fun _ => walkWord_of_hold, extract_adminWord_idle,
      fun _ _ => extract_adminWord_pending, fun _ => adminWord_of_walking⟩
  · subst hx hk
    obtain ⟨domains, limits, term, credits, enable, line, status, counts⟩ := windowWord_client c
    rw [readWord_of_some domains, readWord_of_some limits, readWord_of_some term, readWord_of_some credits,
      readWord_of_some enable, readWord_of_some line, readWord_of_some status, readWord_of_some counts]
    exact ⟨bitsAt_zero _, limitsWord_eq _, bitsAt_zero _, creditsWord_eq _, boolAt_zero _,
      or_congr_word (or_congr_word (bitsAt_zero _) rfl) rfl, statusWord_eq _,
      or_congr_word (or_congr_word (natAt_zero _) rfl) rfl⟩
  · exact ⟨readWord_of_some (windowWord_param i), readWord_of_some (windowWord_result j)⟩
  · rcases hb with ⟨rfl, rfl⟩ | ⟨rfl, rfl⟩
    · rw [readWord_of_some (windowWord_snapshot n i).1, readWord_of_some (windowWord_snapshot n i).2]
      exact ⟨linkCounters_getD _ i, clientCounters_getD _ i⟩
    · rw [readWord_of_some (windowWord_live n i).1, readWord_of_some (windowWord_live n i).2]
      exact ⟨linkCounters_getD _ i, clientCounters_getD _ i⟩

end Sys2Proof.Machine
end

