-- ==== Sys2Proof/Proofs/SessionsKeep.lean ====
section
/-! PROOFS. Every step keeps the laws of the session records and of the purge queue (O57), in every state, whether or not the other laws
hold there. These laws speak of the sessions' standing, of the purge queue and of which links have a request in progress alone. -/

namespace Sys2Proof.Machine

open Sys2Proof

variable {s t : State}

namespace SessionsLaw

/-! ### What is known to keep the laws -/

theorem keep (L : SessionsLaw s) (K : Keeping s t) : SessionsLaw t := K.sessions L

theorem engineOnly (L : SessionsLaw s) (O : EngineOnly none s t) : SessionsLaw t := L.keep O.keeping

theorem quiet (L : SessionsLaw s) (Q : Quiet s t) : SessionsLaw t := L.keep Q.calm.keeping

/-- The sessions, the links and the Purge Unit are the same. -/
theorem same (L : SessionsLaw s) (sessions : t.sessions = s.sessions) (links : t.links = s.links)
    (purge : t.purge = s.purge) : SessionsLaw t := by
  have session : ∀ c, t.session c = s.session c := fun c => congrArg (fun v : Vector Session 8 => v[c]) sessions
  have link : ∀ c, t.link c = s.link c := fun c => congrArg (fun v : Vector Link 8 => v[c]) links
  refine ⟨fun c => SessionForm.law ?_ ?_, by rw [purge]; exact L.once, by rw [purge]; exact L.walk⟩
  · rw [session, purge]
    exact (L.each c).form
  · rw [session, link]
    exact (L.each c).inProgress

theorem complete (L : SessionsLaw s) (code : ResultCode) (ws : List Word) : SessionsLaw (s.complete code ws) :=
  L.same rfl rfl rfl

/-! ### Requests (R75 to R77, R85 to R88, R178) -/

theorem refused (L : SessionsLaw s) {l : Client} {m : RxMessage} {i : Fin 4} (h : Takes s l m i) (tag : Byte)
    (reply : Reply) : SessionsLaw ((s.taken l i).refuse l tag reply) :=
  L.keep (.answered h (.taken h) (.refuse tag reply))

theorem row (L : SessionsLaw s) (l : Client) (k : RequestKind) (h : Machine.exec (k.row l) s = .next t) :
    SessionsLaw t := by
  rcases exec_row_cases s l k with e | ⟨m, i, takes, kind, e⟩ <;> rw [e] at h <;> cases h
  · exact L
  · split
    · rename_i good
      cases gate : gateRefusal (s.session l) k (m.asksNewClaim k) m.sessionTag with
      | some r =>
        rw [gated_of_refusal _ gate]
        exact L.refused takes ..
      | none =>
        have admits : Admits s l k m i := ⟨takes, kind, good, gate⟩
        rw [gated_of_admits _ admits]
        exact L.keep (.decision admits)
    · exact L.refused takes ..

theorem malformed (L : SessionsLaw s) (l : Client) :
    SessionsLaw (s.take l none fun m t => t.refuse l m.requestTag .malformed) := by
  by_cases h : ∃ m i, Takes s l m i ∧ m.requestKind = none
  · obtain ⟨m, i, takes, kind⟩ := h
    rw [take_of_takes _ takes kind]
    exact L.refused takes ..
  · rw [take_of_not _ fun m i takes kind => h ⟨m, i, takes, kind⟩]
    exact L

/-! ### The Lease Timer (R59 to R64) -/

theorem dueEntry (L : SessionsLaw s) {c : Instr}
    (hc : c = .dueLeaseEntry ∨ c = .dueGraceEntry ∨ c = .dueWaitEntry ∨ c = .dueIdleRecordEntry)
    (h : Machine.exec c s = .next t) : SessionsLaw t := by
  rcases hc with rfl | rfl | rfl | rfl <;> cases h
  · split
    · split
      · split
        · exact L.engineOnly (.takeLease ..)
        · exact L
      · exact L
    · exact L
  · split
    · split
      · split
        · exact L.engineOnly (.expireHold ..)
        · exact L
      · exact L
    · exact L
  · split
    · split
      · exact L.engineOnly (.timeOutWait ..)
      · exact L
    · exact L
  · split
    · exact L.engineOnly (.retire _)
    · exact L

/-! ### The purge walk (R124 to R126, R130) -/

/-- R124: a step of the walk on a slot, after which the walk moves on. -/
theorem walkOn (L : SessionsLaw s) (O : EngineOnly none s t) {p : WalkPosition} (hs : s.purge.walk ≠ .idle)
    (hp : p ≠ .idle) : SessionsLaw (t.setWalk p) :=
  L.keep (Calm.keeping ((Calm.of_engineOnly O).trans (.setWalk p (by rw [O.outside.purge]; exact hs) hp)))

theorem purgeWaitStep (L : SessionsLaw s) (h : Machine.exec .purgeWaitStep s = .next t) : SessionsLaw t := by
  cases h
  split
  · rename_i walk
    exact L.walkOn (.purgeWait ..) (by rw [walk]; simp) (afterWaitStep_ne_idle _)
  · exact L

theorem purgeHoldStep (L : SessionsLaw s) (h : Machine.exec .purgeHoldStep s = .next t) : SessionsLaw t := by
  cases h
  split
  · rename_i c rest i queue walk
    have step : EngineOnly none s (s.purgeHold c i) := .purgeHold c i
    split
    · exact L.walkOn step (by rw [walk]; simp) (by simp)
    · have head : (s.purgeHold c i).purge.queue.head? = some c := by rw [step.outside.purge, queue]; rfl
      exact (L.engineOnly step).keep (.purgeEnd head)
  · exact L

/-! ### The links (R136 to R141) -/

theorem discardTo (L : SessionsLaw s) {l : Client} (cause : DiscardCause) {chars : List Byte} {g : Gap}
    (receiver : (s.link l).receiver = .inMessage chars g) {after : Receiver} (h : after = .idle ∨ after = .hunt) :
    SessionsLaw (s.discard l cause after) :=
  L.quiet (.discardTo cause (by rw [receiver]; simp) h)

theorem messageComplete (L : SessionsLaw s) {l : Client} {b : Byte}
    (h : Machine.exec (.messageComplete l b) s = .next t) : SessionsLaw t := by
  cases h
  split
  · rename_i receiver
    split
    · rename_i whole
      exact L.quiet (.completeMessage receiver whole.2)
    · exact L
  · exact L

theorem framing (L : SessionsLaw s) {l : Client} {f : FramingFault} (h : Machine.exec (.framing l f) s = .next t) :
    SessionsLaw t := by
  cases h
  split
  · exact L.quiet .receiveBroken
  · split
    · split
      · exact L.discardTo _ ‹_› (.inr rfl)
      · exact L
    · exact L

/-! ### The Admin Engine (R153 to R167) -/

/-- R154: what a command keeps, its taking keeps. -/
theorem takeCommand (L : SessionsLaw s) {c : AdminCommand} {act : Vector Word 4 → State → State}
    (h : ∀ p, s.unwalked → SessionsLaw (act p s)) : SessionsLaw (s.takeCommand c act) := by
  unfold State.takeCommand
  split
  · rename_i busy
    split
    · exact h _ fun k e => by rw [busy] at e; cases e
    · exact L
  · exact L
  · exact L

theorem advanceWalk (L : SessionsLaw s) (k : DomainWalk) : SessionsLaw (s.advanceWalk k) := by
  unfold State.advanceWalk
  split <;> exact L.same rfl rfl rfl

theorem walkStep (L : SessionsLaw s) (k : DomainWalk) : SessionsLaw (s.walkStep k) := by
  unfold State.walkStep
  split
  · split
    · exact (L.engineOnly (.removeClaims ..)).advanceWalk _
    · exact L.advanceWalk _
  · exact L.advanceWalk _

theorem beginWalk (L : SessionsLaw s) (d : BitVec 4) : SessionsLaw (s.beginWalk d) :=
  have marked : SessionsLaw (s.setMark d true) := L.same rfl rfl rfl
  marked.walkStep _

theorem readRecordCommand (L : SessionsLaw s) (p : Vector Word 4) : SessionsLaw (s.readRecordCommand p) := by
  unfold State.readRecordCommand
  split
  · split
    · exact L.complete ..
    · split <;> exact L.complete ..
  · exact L.complete ..

/-- R82, R166: no session is PURGING any more, the purge queue is empty, and every deferred request has been answered. -/
theorem of_clearing {u : State} (L : SessionsLaw s) (C : Clearing s [] u) : SessionsLaw u where
  each c := by
    have form : SessionForm (u.session c) (c ∈ u.purge.queue) :=
      ((L.each c).form.clear (by simp [C.purge])).congr (C.session c) Iff.rfl
    have left : (u.session c).state ≠ .purging := by
      rw [(C.session c).state]
      rcases clear_state (s.session c) with e | e <;> simp [e]
    obtain ⟨-, -, deferred⟩ := form.absent left
    have ended : (u.link c).inProgress = none := C.progress L c (.inr (by simp))
    exact form.law (by simp [deferred, ended])
  once := by simp [C.purge]
  walk := by simp [C.purge]

theorem clearAll (L : SessionsLaw s) : SessionsLaw s.clearAll :=
  (L.of_clearing (.answerAll _ _ (clearing_clearPart s))).complete ..

/-! ### Every command -/

theorem exec (L : SessionsLaw s) (c : Instr) (h : Machine.exec c s = .next t) : SessionsLaw t := by
  cases c with
  | powerOnReset => cases h; exact sessionsLaw_reset.same rfl rfl rfl
  | attach l => exact L.row l .attach h
  | detach l => exact L.row l .detach h
  | ping l => exact L.row l .ping h
  | acquire l => exact L.row l .acquire h
  | convert l => exact L.row l .convert h
  | renew l => exact L.row l .renew h
  | release l => exact L.row l .release h
  | cancel l => exact L.row l .cancel h
  | query l => exact L.row l .query h
  | validate l => exact L.row l .validate h
  | malformedRequest l => cases h; exact L.malformed l
  | tick => cases h; exact L.keep Calm.tick.keeping
  | dueLeaseEntry | dueGraceEntry | dueWaitEntry | dueIdleRecordEntry => exact L.dueEntry (by simp) h
  | purgeWaitStep => exact L.purgeWaitStep h
  | purgeHoldStep => exact L.purgeHoldStep h
  | messageComplete l b => exact L.messageComplete h
  | framing l f => exact L.framing h
  | truncated l b =>
    cases h
    split
    · rename_i receiver
      exact L.quiet (.truncateMessage b (by rw [receiver]; simp))
    · exact L
  | gapLimit l =>
    cases h
    split
    · exact L.discardTo _ ‹_› (.inl rfl)
    · exact L
  | stray l b =>
    cases h
    split
    · exact L.quiet (.countLink ..)
    · exact L
  | messageSent l => cases h; exact L.quiet .messageSent
  | linkDisable l => cases h; exact L.quiet .disableLink
  | linkEnable l => cases h; exact L.quiet .enableLink
  | settingWrite a v => cases h; exact L.quiet (.writeWord a v)
  | flagsWrite v => cases h; exact L.same rfl rfl rfl
  | enablesWrite v => cases h; exact L.same rfl rfl rfl
  | fenceCounterLatch e => cases h; cases e <;> exact L.same rfl rfl rfl
  | installRecord => cases h; exact L.takeCommand fun p hs => L.keep (.install hs p)
  | unpinRecord => cases h; exact L.takeCommand fun p hs => L.keep (.unpin hs p)
  | removeRecord => cases h; exact L.takeCommand fun p hs => L.keep (.remove hs p)
  | removeDomain =>
    cases h
    refine L.takeCommand fun p _ => ?_
    split
    · exact L.complete ..
    · exact L.beginWalk _
  | domainWalkStep =>
    cases h
    split
    · exact L.walkStep _
    · exact L
    · exact L
  | revokeHold => cases h; exact L.takeCommand fun p hs => L.keep (.revoke hs p)
  | cancelWait => cases h; exact L.takeCommand fun p hs => L.keep (.cancelByManager hs p)
  | findRecord =>
    cases h
    refine L.takeCommand fun p _ => ?_
    split
    · split <;> exact L.complete ..
    · exact L.complete ..
  | readRecord => cases h; exact L.takeCommand fun p _ => L.readRecordCommand p
  | readHold =>
    cases h
    refine L.takeCommand fun p _ => ?_
    split <;> exact L.complete ..
  | readWait =>
    cases h
    refine L.takeCommand fun p _ => ?_
    split <;> exact L.complete ..
  | setClientState => cases h; exact L.takeCommand fun p hs => L.keep (.setClient hs p)
  | snapshotCounters =>
    cases h
    refine L.takeCommand fun p _ => ?_
    split
    · exact L.complete ..
    · exact (L.quiet (.takeSnapshot _)).complete ..
  | clearAll => cases h; exact L.takeCommand fun _ _ => L.clearAll
  | setHashSeed =>
    cases h
    refine L.takeCommand fun p _ => ?_
    split
    · exact L.complete ..
    · split
      · exact L.complete ..
      · exact L.same rfl rfl rfl
  | characterReceived l b mark => cases h; exact L.quiet (.receive b mark)

/-- The rest of the queue is not what the laws speak of, and a clock moves only what they do not see. -/
theorem step (L : SessionsLaw s) (h : Machine.step s = .next t) : SessionsLaw t := by
  rcases step_cases h with ⟨c, rest, -, hc⟩ | ⟨-, rfl⟩
  · have dequeued : SessionsLaw (s.setPending rest) := L.same rfl rfl rfl
    exact dequeued.exec c hc
  · exact L.quiet .clockPasses

end SessionsLaw

/-- Settles O57: command by command. Only a reset, ATTACH, DETACH, SET CLIENT STATE, the purge walk and CLEAR ALL change what the laws
speak of; the take of a request sets a request in progress, which the answer in the same happening ends. -/
theorem sessionsKeepTheirLaws : Obligations.SessionsKeepTheirLaws := fun _ _ L h => L.step h

end Sys2Proof.Machine
end

