-- ==== Sys2Proof/Proofs/SessionRequests.lean ====
section
/-! PROOFS. What follows the gate for a request that does not pass it (O10), and the decisions of ATTACH, DETACH and PING (O13). -/

namespace Sys2Proof.Machine

open Sys2Proof

variable {s : State} {l : Client} {m : RxMessage} {i : Fin 4}

/-! ### Refused and malformed requests (R85 to R88, R178) -/

/-- R178: a message is of no request kind when each kind has another code or another length. -/
theorem requestKind_eq_none (m : RxMessage) :
    m.requestKind = none ↔ ∀ k : RequestKind, k.code ≠ m.kind ∨ k.length ≠ m.length := by
  have all : ∀ k : RequestKind, k ∈ RequestKind.all := fun k => by cases k <;> decide
  simp [RxMessage.requestKind, all, imp_iff_not_or]

/-- R85: a request that the gate refuses is answered with the refusal. -/
theorem exec_row_of_refusal {k : RequestKind} {r : Reply} (takes : Takes s l m i) (kind : m.requestKind = some k)
    (good : m.fieldsGood k = true)
    (gate : gateRefusal (s.session l) k (m.asksNewClaim k) m.sessionTag = some r) :
    exec (k.row l) s = .next ((s.taken l i).refuse l m.requestTag r) := by
  rw [exec_row s l k m i takes kind, if_pos good, gated_of_refusal _ gate]

/-- R179: a field out of its values is answered MALFORMED before the gate. -/
theorem exec_row_of_badField {k : RequestKind} (takes : Takes s l m i) (kind : m.requestKind = some k)
    (bad : m.fieldsGood k = false) :
    exec (k.row l) s = .next ((s.taken l i).refuse l m.requestTag .malformed) := by
  rw [exec_row s l k m i takes kind, bad]
  rfl

/-- R178: a message of no request kind is answered MALFORMED. -/
theorem exec_malformedRequest (takes : Takes s l m i) (kind : m.requestKind = none) :
    exec (.malformedRequest l) s = .next ((s.taken l i).refuse l m.requestTag .malformed) :=
  congrArg Host.Outcome.next (take_of_takes _ takes kind)

/-- Settles O10: each of the three ends in `State.refuse`, which counts and answers. -/
theorem refusedRequestIsCountedAndAnswered : Obligations.RefusedRequestIsCountedAndAnswered :=
  fun _ _ m _ takes => ⟨fun _ _ kind good gate => exec_row_of_refusal takes kind good gate,
    fun _ kind bad => exec_row_of_badField takes kind bad,
    fun other => exec_malformedRequest takes ((requestKind_eq_none m).2 other)⟩

/-! ### ATTACH and DETACH (R75 to R77, R91, R92) -/

/-- R75: a DETACHED client's session opens. -/
theorem decideAttach_of_detached (tag new : Byte) (h : (s.session l).state = .detached) :
    s.decideAttach l tag new =
      (s.modifySession l fun x => { x with state := .active, tag := new }).respond l tag (.attached new) :=
  if_pos h

/-- R76: the session's own tag again. -/
theorem decideAttach_of_repeat {new : Byte} (tag : Byte) (h : (s.session l).state ≠ .detached)
    (same : new = (s.session l).tag) : s.decideAttach l tag new = s.respond l tag (.attached new) :=
  (if_neg h).trans (if_pos same)

/-- R76: another tag. -/
theorem decideAttach_of_newTag {new : Byte} (tag : Byte) (h : (s.session l).state ≠ .detached)
    (other : new ≠ (s.session l).tag) :
    s.decideAttach l tag new = s.enterPurging l .active (some new) (some ⟨.attach, tag⟩) :=
  (if_neg h).trans (if_neg other)

theorem exec_attach (h : Admits s l .attach m i) :
    exec (.attach l) s = .next ((s.admitted l .attach i).decideAttach l m.requestTag (m.body 0)) := exec_admits h

theorem exec_detach (h : Admits s l .detach m i) :
    exec (.detach l) s =
      .next ((s.admitted l .detach i).enterPurging l .detached none (some ⟨.detach, m.requestTag⟩)) := exec_admits h

/-! ### PING (R88, R93) -/

/-- R86 to R88: every check lets a PING pass. -/
theorem gateRefusal_ping (x : Session) (tag : Byte) : gateRefusal x .ping false tag = none := by
  rw [gateChecksInOrder]
  simp

/-- A PING that is taken is admitted. -/
theorem admits_ping (takes : Takes s l m i) (kind : m.requestKind = some .ping) : Admits s l .ping m i :=
  ⟨takes, kind, rfl, gateRefusal_ping ..⟩

/-- R88: a PING costs nothing. -/
theorem spend_ping (x : Session) : x.spend .ping = x := by
  unfold Session.spend
  split <;> rfl

theorem modifySession_of_fixed {c : Client} {f : Session → Session} (h : f (s.session c) = s.session c) :
    s.modifySession c f = s := by
  unfold State.modifySession State.setSessions
  rw [h]
  simp [State.session]

theorem admitted_ping (s : State) (l : Client) (i : Fin 4) : s.admitted l .ping i = s.taken l i :=
  modifySession_of_fixed (spend_ping _)

theorem exec_ping (takes : Takes s l m i) (kind : m.requestKind = some .ping) :
    exec (.ping l) s = .next ((s.taken l i).respond l m.requestTag
      (.pong [m.body 0, m.body 1, m.body 2, m.body 3] (s.session l).state s.timer.clock)) := by
  have row := exec_admits (admits_ping takes kind)
  rw [admitted_ping] at row
  exact row

/-- Settles O13: the three cases of an ATTACH that has passed the gate, the one decision of a DETACH, and PING, which passes every
check and costs nothing. -/
theorem attachDetachAndPing : Obligations.AttachDetachAndPing := by
  refine ⟨fun s l m i h => ?_, fun s l m i h => exec_detach h, fun s l m i takes kind => exec_ping takes kind⟩
  rw [exec_attach h]
  refine ⟨fun detached => ?_, fun attached same => ?_, fun attached other => ?_⟩
  · rw [decideAttach_of_detached _ _ (by rwa [admitted_state])]
  · rw [decideAttach_of_repeat _ (by rwa [admitted_state]) (by rwa [admitted_tag]), same]
  · rw [decideAttach_of_newTag _ (by rwa [admitted_state]) (by rwa [admitted_tag])]

end Sys2Proof.Machine
end

