-- ==== Sys2Proof/Proofs/RequestFormats.lean ====
section
/-! PROOFS. The formats of the requests: kinds, tags, and the fields of a message (O7). -/

namespace Sys2Proof.Machine

open Sys2Proof

/-! ### Kinds (R176, R178) -/

theorem find_code (k : RequestKind) : RequestKind.all.find? (fun a => a.code == k.code) = some k := by
  cases k <;> rfl

/-- R176: no two kinds share a code. -/
theorem code_injective : Function.Injective RequestKind.code := fun a b h =>
  Option.some.inj (by rw [← find_code a, h, find_code b])

/-- R178: the kind of a message is the one that its code and its length are. -/
theorem requestKind_eq_some (m : RxMessage) (k : RequestKind) :
    m.requestKind = some k ↔ k.code = m.kind ∧ k.length = m.length := by
  have sound : ∀ a, m.requestKind = some a → a.code = m.kind ∧ a.length = m.length := fun a found => by
    simpa using List.find?_some found
  refine ⟨sound k, fun ⟨code, length⟩ => ?_⟩
  cases found : m.requestKind with
  | none => exact absurd code (((requestKind_eq_none m).1 found k).resolve_right (not_not.2 length))
  | some a => rw [code_injective ((sound a found).1.trans code.symm)]

/-! ### Fields of several bytes (Formats) -/

theorem word_eq (m : RxMessage) (n : Nat) :
    m.word n = m.body n ++ m.body (n + 1) ++ m.body (n + 2) ++ m.body (n + 3) :=
  (BitVec.append_assoc (x₁ := m.body n ++ m.body (n + 1)) (x₂ := m.body (n + 2)) (x₃ := m.body (n + 3))).symm

theorem fence_eq (m : RxMessage) (n : Nat) :
    m.fence n =
      m.body n ++ m.body (n + 1) ++ m.body (n + 2) ++ m.body (n + 3) ++ m.body (n + 4) ++ m.body (n + 5) := by
  unfold RxMessage.fence RxMessage.half
  rw [word_eq]
  apply BitVec.eq_of_toNat_eq
  simp only [BitVec.toNat_append, Nat.shiftLeft_or_distrib, ← Nat.shiftLeft_add, Nat.or_assoc]

/-! ### Fields out of their values (R94, R100, R179) -/

theorem modeOfByte_eq (b : Byte) :
    modeOfByte b = if b = 1 ∨ b = 2 then some (if b = 1 then .shared else .exclusive) else none := by
  unfold modeOfByte
  split
  case isTrue shared => simp [shared]
  case isFalse other => simp only [other, false_or]

/-- R94: the fields of an ACQUIRE by the bytes of its body. -/
theorem acquireBody_eq (m : RxMessage) : m.acquireBody =
    if (m.body 4 = 1 ∨ m.body 4 = 2) ∧ (m.body 5).toNat ≤ 7 ∧ (m.body 10).toNat ≤ 1 then
      some ⟨m.word 0, if m.body 4 = 1 then .shared else .exclusive, (m.body 5).extractLsb' 0 3, m.half 6, m.half 8,
        decide (m.body 10 = 1)⟩
    else none := by
  unfold RxMessage.acquireBody
  have urgency : m.body 5 < 8 ↔ (m.body 5).toNat ≤ 7 := Nat.lt_succ_iff
  have create : m.body 10 < 2 ↔ (m.body 10).toNat ≤ 1 := Nat.lt_succ_iff
  rw [modeOfByte_eq]
  by_cases mode : m.body 4 = 1 ∨ m.body 4 = 2
  · simp only [mode, if_true, true_and, urgency, create]
    rfl
  · simp only [mode, if_false, false_and]

/-- R100: the fields of a CONVERT by the bytes of its body. -/
theorem convertBody_eq (m : RxMessage) : m.convertBody =
    if m.body 2 = 1 ∨ m.body 2 = 2 then
      some ⟨m.body 0, m.body 1, if m.body 2 = 1 then .shared else .exclusive, m.half 3, m.half 5⟩
    else none := by
  unfold RxMessage.convertBody
  rw [modeOfByte_eq]
  by_cases target : m.body 2 = 1 ∨ m.body 2 = 2 <;> simp only [target, if_true, if_false]

/-- R136: the body follows the two tags. -/
theorem body_eq_of_getElem? {kind length requestTag sessionTag b : Byte} {body : List Byte} {n : Nat}
    (at_n : body[n]? = some b) : RxMessage.body ⟨kind, length, requestTag :: sessionTag :: body⟩ n = b := by
  simp [RxMessage.body, RxMessage.char, at_n]

/-- Settles O7: each field is read at its place of the L characters. -/
theorem requestFormats : Obligations.RequestFormats := by
  refine ⟨fun m k => ?_, ?_, ?_, ?_⟩
  · rw [requestKind_eq_some, eq_comm, eq_comm (a := k.length), ← BitVec.toNat_inj, ← BitVec.toNat_inj,
      ← Prod.mk.injEq]
    cases k <;> rfl
  · rintro kind length requestTag sessionTag body m rfl
    exact ⟨rfl, rfl, fun n b at_n => body_eq_of_getElem? at_n⟩
  · intro ⟨kind, length, chars⟩ requestTag sessionTag k3 k2 k1 k0 mode urgency w1 w0 t1 t0 create hchars
    subst hchars
    rw [acquireBody_eq, word_eq]
    rfl
  · intro ⟨kind, length, chars⟩ requestTag sessionTag index generation target w1 w0 t1 t0 hchars
    subst hchars
    rw [convertBody_eq]
    rfl

end Sys2Proof.Machine
end

