-- ==== Sys2Proof/Proofs/QueryAndValidate.lean ====
section
/-! PROOFS. The answers to QUERY and to VALIDATE (O24). -/

namespace Sys2Proof.Machine

open Sys2Proof

/-! ### The hold that carries a fence (R109) -/

section
variable {s : State} {x : Record} {f : Fence} {h : Hold}

theorem holderWithFence_some (found : s.holderWithFence x f = some h) :
    ∃ j ∈ x.holders, s.hold j = some h ∧ h.fence = f := by
  obtain ⟨j, mem, carries⟩ := List.exists_of_findSome?_eq_some found
  cases held : s.hold j with
  | none => simp [held] at carries
  | some g =>
    obtain ⟨fence, rfl⟩ : g.fence = f ∧ g = h := by simpa [held] using carries
    exact ⟨j, mem, held, fence⟩

theorem holderWithFence_none_iff :
    s.holderWithFence x f = none ↔ ∀ j ∈ x.holders, ∀ h, s.hold j = some h → h.fence ≠ f := by
  unfold State.holderWithFence
  rw [List.findSome?_eq_none_iff]
  refine forall₂_congr fun j _ => ?_
  cases s.hold j <;> simp

/-- When no other hold carries the fence, the holder that does is found. -/
theorem holderWithFence_of_unique {j : HoldIx} (mem : j ∈ x.holders) (held : s.hold j = some h) (carries : h.fence = f)
    (unique : ∀ j' h', s.hold j' = some h' → h'.fence = f → j' = j) : s.holderWithFence x f = some h := by
  cases found : s.holderWithFence x f with
  | none => exact absurd carries (holderWithFence_none_iff.1 found j mem h held)
  | some h' =>
    obtain ⟨j', -, held', carries'⟩ := holderWithFence_some found
    obtain rfl := unique j' h' held' carries'
    rw [← held, held']

/-- R109: no hold of the record carries the fence. -/
theorem validateReply_of_absent (absent : ∀ j ∈ x.holders, ∀ h, s.hold j = some h → h.fence ≠ f) :
    s.validateReply x f = .stale := by
  unfold State.validateReply
  rw [holderWithFence_none_iff.2 absent]

/-- R109: the answer by the hold that carries the fence. -/
theorem validateReply_of_holder (found : s.holderWithFence x f = some h) : s.validateReply x f =
    if (s.session h.client).state = .purging then .stale
    else if h.state = .lapsed then .lapsed else .current h.mode := by
  unfold State.validateReply
  rw [found]
  dsimp only
  cases h.state <;> simp

end

/-! ### What `admitted` keeps -/

@[simp] theorem admitted_effectiveQueue (s : State) (l k i x) :
    (s.admitted l k i).effectiveQueue x = s.effectiveQueue x :=
  List.filter_congr fun w _ => by simp [isEffective_eq_any]

theorem admitted_recordAnswer (s : State) (l k i c) : (s.admitted l k i).recordAnswer c = s.recordAnswer c := by
  funext x
  unfold State.recordAnswer
  rw [admitted_effectiveQueue]
  rfl

@[simp] theorem admitted_queryReply (s : State) (l k i c key) :
    (s.admitted l k i).queryReply c key = s.queryReply c key := by
  unfold State.queryReply
  rw [admitted_recordAnswer]
  rfl

@[simp] theorem admitted_validateReply (s : State) (l k i x f) :
    (s.admitted l k i).validateReply x f = s.validateReply x f := by
  simp only [State.validateReply, admitted_state]
  rfl

/-! ### QUERY (R106, R107) -/

section
variable {s : State} {l : Client} {m : RxMessage} {i : Fin 4} {key : Word}

theorem exec_query (h : Admits s l .query m i) : exec (.query l) s = .next
    (if (s.session l).domainMask.getLsbD (domainOf (m.word 0)).toNat = false then
       (s.admitted l .query i).refuse l m.requestTag .domain
     else (s.admitted l .query i).respond l m.requestTag (s.queryReply l (m.word 0))) := by
  have row := exec_admits h
  simpa only [RequestKind.row, RequestKind.decision, admitted_allows, admitted_queryReply] using row

theorem queryReply_of_absent (c : Client) (absent : s.lookup key = none) : s.queryReply c key = .noRecord := by
  simp [State.queryReply, absent]

theorem queryReply_of_present (c : Client) {r : Slot} {x : Record} (found : s.lookup key = some r)
    (hx : s.record r = some x) : s.queryReply c key = .record (s.recordAnswer c x) := by
  simp [State.queryReply, found, hx]

/-- R34, R107: the RECORD answer counts the waits of clients that are not PURGING. -/
theorem recordAnswer_eq (s : State) (c : Client) (x : Record) : s.recordAnswer c x =
    { mode := s.recordMode x, holders := x.holders.length,
      waiters := (x.waitQueue.filter fun w => (s.wait w).any fun y => (s.session y.client).state != .purging).length,
      lastFence := x.lastFence, kind := x.kind, ownHold := (s.holdOf c x).map s.holdHandle,
      ownWait := (s.waitOf c x).map s.waitHandle } := by
  rw [← List.filter_congr fun w _ => isEffective_eq_any s w]
  rfl

/-! ### VALIDATE (R108, R109) -/

theorem exec_validate (h : Admits s l .validate m i) : exec (.validate l) s = .next
    ((s.admitted l .validate i).decideValidate l m.requestTag (m.word 0) (m.fence 4)) := exec_admits h

end

section
variable {s : State} {l : Client} {key : Word} {tag : Byte} {f : Fence}

/-- R108, step 1. -/
theorem decideValidate_notGuard (noGuard : (s.session l).guardCapability = false) :
    s.decideValidate l tag key f = s.refuse l tag .notGuard :=
  if_pos noGuard

/-- R108, step 2. -/
theorem decideValidate_domain (guard : (s.session l).guardCapability = true) (outside : s.allows l key = false) :
    s.decideValidate l tag key f = s.refuse l tag .domain := by
  simp [State.decideValidate, guard, outside]

variable (guard : (s.session l).guardCapability = true) (inside : s.allows l key = true)
include guard inside

/-- R108, step 3. -/
theorem decideValidate_closing (closing : s.isClosing (domainOf key) = true) :
    s.decideValidate l tag key f = s.respond l tag .stale := by
  simp [State.decideValidate, guard, inside, closing]

/-- R108, step 4. -/
theorem decideValidate_absent (opened : s.isClosing (domainOf key) = false) (absent : s.lookup key = none) :
    s.decideValidate l tag key f = s.respond l tag .noRecord := by
  simp [State.decideValidate, guard, inside, opened, absent]

/-- R108, step 5. -/
theorem decideValidate_present {r : Slot} {x : Record} (opened : s.isClosing (domainOf key) = false)
    (found : s.lookup key = some r) (hx : s.record r = some x) :
    s.decideValidate l tag key f = s.respond l tag (s.validateReply x f) := by
  simp [State.decideValidate, guard, inside, opened, found, hx]

end

/-- Settles O24: QUERY by the domain mask and the lookup, VALIDATE step by step. -/
theorem queryAndValidateAnswer : Obligations.QueryAndValidateAnswer := by
  refine ⟨fun s l m i key h hkey => ?_, fun s l m i key f h hkey hf => ?_⟩
  · obtain rfl : key = m.word 0 := hkey.trans (word_eq m 0).symm
    rw [exec_query h]
    refine ⟨fun outside => ?_, fun inside absent => ?_, fun r x inside found hx => ?_⟩
    · rw [if_pos outside]
    · rw [inside, queryReply_of_absent l absent]
      rfl
    · rw [inside, queryReply_of_present l found hx, recordAnswer_eq]
      rfl
  · obtain rfl : key = m.word 0 := hkey.trans (word_eq m 0).symm
    obtain rfl : f = m.fence 4 := hf.trans (fence_eq m 4).symm
    rw [exec_validate h]
    refine ⟨fun noGuard => ?_, fun guard outside => ?_, fun guard inside => ?_⟩
    · rw [decideValidate_notGuard (by rwa [admitted_guard])]
    · rw [decideValidate_domain (by rwa [admitted_guard]) (by rwa [admitted_allows])]
    · rw [← admitted_guard s l .validate i] at guard
      rw [← admitted_allows s l .validate i] at inside
      refine ⟨fun closing => ?_, fun opened absent => ?_, fun r x opened found hx => ?_⟩
      · rw [decideValidate_closing guard inside closing]
      · rw [decideValidate_absent guard inside opened absent]
      · rw [decideValidate_present guard inside opened found hx, admitted_validateReply]
        refine ⟨fun absent => ?_, fun j h mem held carries unique => ?_⟩
        · rw [validateReply_of_absent absent]
        · rw [validateReply_of_holder (holderWithFence_of_unique mem held carries unique)]

end Sys2Proof.Machine
end

