-- ==== Sys2Proof/Proofs/Responses.lean ====
section
/-! PROOFS. A response is placed in its slot, and an idle transmitter begins it (O12). -/

namespace Sys2Proof.Machine

open Sys2Proof

/-! ### The choice of an idle transmitter (R119, R146) -/

section
variable {k : Link}

/-- A transmitter that sends, or whose link is disabled, chooses nothing. -/
theorem choose_of_notIdle (tag : Byte) (h : k.inFlight ≠ none ∨ k.enabled = false) : k.choose tag = k :=
  if_neg fun ⟨enabled, idle⟩ => h.elim (· idle) fun disabled => by simp [enabled] at disabled

/-- R119, step 1: the oldest response is READY and begins. -/
theorem choose_of_ready (tag : Byte) {i : Fin 4} {r : Response} (enabled : k.enabled = true) (idle : k.inFlight = none)
    (oldest : k.responseQueue.head? = some i) (ready : k.slots[i] = .ready r) :
    k.choose tag = { k with slots := k.slots.set i .sending }.begin (.response i r) := by
  obtain ⟨rest, queue⟩ := List.head?_eq_some_iff.1 oldest
  unfold Link.choose Link.chooseNext
  rw [if_pos ⟨enabled, idle⟩, queue]
  simp only [ready]

/-- R119: an idle transmitter without a discard count, a notice, a loss count or a READY response begins nothing. -/
theorem choose_of_noSource (tag : Byte) (nothing : k.enabled = true → k.inFlight = none → k.discardCount = 0 ∧
    k.noticeQueue = [] ∧ k.lossCount = 0 ∧ ∀ (i : Fin 4) (r : Response), k.slots[i] ≠ .ready r) : k.choose tag = k := by
  by_cases idle : k.enabled = true ∧ k.inFlight = none
  · obtain ⟨discards, notices, losses, responses⟩ := nothing idle.1 idle.2
    have other : k.chooseOther tag = k := by simp [Link.chooseOther, discards, notices, losses]
    unfold Link.choose Link.chooseNext
    rw [if_pos idle]
    split
    · split
      · exact absurd ‹_› (responses _ _)
      all_goals exact other
    · exact other
  · exact if_neg idle

/-! ### Placing (R118, R144, R146) -/

theorem placeResponse_of_reserved {i : Fin 4} (r : Response) (progress : k.inProgress = some (.reserved i)) :
    k.placeResponse r = { k with slots := k.slots.set i (.ready r), inProgress := none } := by
  unfold Link.placeResponse
  rw [progress]

theorem placeResponse_of_toBeDropped (r : Response) (progress : k.inProgress = some .toBeDropped) :
    k.placeResponse r = { k with inProgress := none } := by
  unfold Link.placeResponse
  rw [progress]

/-- R89, R119: a response that is placed in the oldest slot begins, if the transmitter is idle. -/
theorem choose_of_placed (tag : Byte) {i : Fin 4} (r : Response) (enabled : k.enabled = true) (idle : k.inFlight = none)
    (oldest : k.responseQueue.head? = some i) :
    { k with slots := k.slots.set i (.ready r), inProgress := none }.choose tag =
      { k with
        slots := k.slots.set i .sending
        inProgress := none
        inFlight := some (.response i r)
        tx := TxLine.begin k (InFlight.response i r).characters } := by
  have begun := choose_of_ready (k := { k with slots := k.slots.set i (.ready r), inProgress := none }) tag enabled idle
    oldest (Vector.getElem_set_self i.isLt)
  simp only [Vector.set_set] at begun
  exact begun

end

/-- Two changes of a link are the same when they make the same of the link as it is. -/
theorem modifyLink_congr {s : State} {l : Client} {f g : Link → Link} (h : f (s.link l) = g (s.link l)) :
    s.modifyLink l f = s.modifyLink l g := by
  unfold State.modifyLink
  rw [h]

/-- R89: a response is one change of the link: placed, and then the choice. -/
theorem respond_eq (s : State) (l : Client) (tag : Byte) (reply : Reply) : s.respond l tag reply =
    s.modifyLink l fun k => (k.placeResponse ⟨tag, (s.session l).tag, reply⟩).choose (s.session l).tag :=
  modifyLink_choose s l _

/-- Settles O12: the placing by the request in progress, and then the choice that follows it. -/
theorem responseIsPlacedAndSent : Obligations.ResponseIsPlacedAndSent := by
  intro s l tag reply
  rw [respond_eq]
  refine ⟨fun i reserved => ⟨fun notIdle => ?_, fun enabled idle oldest => ?_⟩, fun dropped law => ?_⟩ <;>
    refine modifyLink_congr ?_
  · rw [placeResponse_of_reserved _ reserved]
    exact choose_of_notIdle _ notIdle
  · rw [placeResponse_of_reserved _ reserved]
    exact choose_of_placed _ _ enabled idle oldest
  · rw [placeResponse_of_toBeDropped _ dropped]
    exact choose_of_noSource _ law.idle

end Sys2Proof.Machine
end

