-- ==== Sys2Proof/Proofs/Transmitter.lean ====
section
/-! PROOFS. A posted notice, the choice of the transmitter and the end of a message (O25, O26). -/

namespace Sys2Proof.Machine

open Sys2Proof

/-! ### Posted notices (R113 to R115) -/

theorem countUp_eq (n : Half) : countUp n = if n = 65535 then 65535 else n + 1 := by
  by_cases full : n = 65535
  · subst full
    rfl
  · exact (if_neg full).trans (if_neg full).symm

theorem discardsNotices_iff (x : ClientState) :
    x.discardsNotices = true ↔ x = .purging ∨ x = .detached ∨ x = .barred := by
  cases x <;> decide

theorem discardsNotices_eq_false_iff (x : ClientState) : x.discardsNotices = false ↔ x = .active ∨ x = .queryOnly := by
  cases x <;> decide

section
variable {s : State} {c : Client} (tag : Byte) (n : NoticeBody)

/-- R113, tests 1 and 2. -/
theorem postNotice_of_discarded
    (h : (s.link c).enabled = false ∨ (s.session c).state.discardsNotices = true) : s.postNotice c tag n = s := by
  unfold State.postNotice
  split
  · rfl
  · rename_i enabled
    rw [if_pos (h.resolve_left enabled)]

/-- R113, tests 3 to 5: a notice that reaches its link. -/
theorem postNotice_of_kept (enabled : (s.link c).enabled = true)
    (kept : (s.session c).state.discardsNotices = false) : s.postNotice c tag n =
      if (s.link c).lossMark then s.modifyLink c fun k => { k with lossCount := countUp k.lossCount }
      else if Config.noticeDepth ≤ (s.link c).noticeQueue.length then
        ((s.modifyLink c Link.beginLoss).raise .noticeLoss).choose c
      else
        (s.modifyLink c fun k => { k with noticeQueue := k.noticeQueue ++ [⟨tag, (s.session c).tag, n⟩] }).choose c := by
  unfold State.postNotice
  rw [if_neg (by simp [enabled]), if_neg (by simp [kept])]

end

/-- Settles O25: the tests of R113 in their order. -/
theorem postedNoticeIsSettled : Obligations.PostedNoticeIsSettled := by
  intro s c tag n
  refine ⟨fun discarded => ?_, fun enabled state => ?_⟩
  · refine postNotice_of_discarded tag n (discarded.imp_right (discardsNotices_iff _).2)
  · rw [postNotice_of_kept tag n enabled ((discardsNotices_eq_false_iff _).2 state)]
    refine ⟨fun episode => ?_, fun noEpisode full => ?_, fun noEpisode room => ?_⟩
    · rw [if_pos episode]
      exact modifyLink_congr (by rw [countUp_eq])
    · rw [if_neg (by simp [noEpisode]), if_pos (show Config.noticeDepth ≤ _ from full)]
      rfl
    · rw [if_neg (by simp [noEpisode]), if_neg (show ¬Config.noticeDepth ≤ _ from not_le.2 room)]

/-! ### The choice (R119) -/

section
variable {k : Link} (tag : Byte)

/-- R119, steps 2 to 4: without a READY response at the head of the response queue. -/
theorem choose_of_noReady (enabled : k.enabled = true) (idle : k.inFlight = none)
    (noReady : ∀ i r, k.responseQueue.head? = some i → k.slots[i] ≠ .ready r) : k.choose tag = k.chooseOther tag := by
  unfold Link.choose Link.chooseNext
  rw [if_pos ⟨enabled, idle⟩]
  split
  · rename_i i rest queue
    split
    · exact absurd ‹_› (noReady i _ (by rw [queue]; rfl))
    all_goals rfl
  · rfl

/-- R117, R119: the discard count is told first. -/
theorem chooseOther_of_discards (discards : k.discardCount ≠ 0) :
    k.chooseOther tag = { k with discardCount := 0 }.begin (.discards tag k.discardCount) := if_pos discards

/-- R119: the oldest notice is next. -/
theorem chooseOther_of_notice {n : Notice} {rest : List Notice} (noDiscards : k.discardCount = 0)
    (queue : k.noticeQueue = n :: rest) : k.chooseOther tag = { k with noticeQueue := rest }.begin (.notice n) := by
  unfold Link.chooseOther
  rw [if_neg (not_not.2 noDiscards), queue]

/-- R116, R119: the losses come last. -/
theorem chooseOther_of_noNotice (noDiscards : k.discardCount = 0) (noNotice : k.noticeQueue = []) :
    k.chooseOther tag = if k.lossCount ≠ 0 then
      { k with lossCount := 0, lossMark := false }.begin (.noticesLost tag k.lossCount) else k := by
  unfold Link.chooseOther
  rw [if_neg (not_not.2 noDiscards), noNotice]

end

/-! ### The end of a message (R120) -/

theorem finishSending_of_response {k : Link} {i : Fin 4} {r : Response} (h : k.inFlight = some (.response i r)) :
    k.finishSending =
      { k with inFlight := none, tx := .rest, slots := k.slots.set i .free, responseQueue := k.responseQueue.erase i } := by
  unfold Link.finishSending
  rw [h]

theorem finishSending_of_other {k : Link} {f : InFlight} (h : k.inFlight = some f) (other : ∀ i r, f ≠ .response i r) :
    k.finishSending = { k with inFlight := none, tx := .rest } := by
  unfold Link.finishSending
  rw [h]
  cases f with
  | response i r => exact absurd rfl (other i r)
  | notice n => rfl
  | discards t n => rfl
  | noticesLost t n => rfl

@[simp] theorem finishSending_inFlight (k : Link) : k.finishSending.inFlight = none := by
  unfold Link.finishSending
  split
  · rfl
  · rfl
  · rfl
  · rfl
  · assumption

theorem countSent_of_other {f : InFlight} (other : ∀ i r, f ≠ .response i r) :
    f.countSent = fun c => { c with noticesSent := c.noticesSent + 1 } := by
  cases f with
  | response i r => exact absurd rfl (other i r)
  | notice n => rfl
  | discards t n => rfl
  | noticesLost t n => rfl

theorem exec_messageSent {s : State} {l : Client} {f : InFlight} (h : (s.link l).inFlight = some f) :
    exec (.messageSent l) s =
      .next (((s.modifyLink l Link.finishSending).countLink l f.countSent).choose l) := by
  show Host.Outcome.next (s.messageSent l) = _
  unfold State.messageSent
  rw [h]

/-- Settles O26: the order of R119, source by source, and the end of a message that makes room for the next choice. -/
theorem transmitterChoosesAndFinishes : Obligations.TransmitterChoosesAndFinishes := by
  refine ⟨fun k tag => ⟨fun notIdle => choose_of_notIdle tag notIdle.symm, fun enabled idle => ⟨?_, fun noReady => ?_⟩⟩,
    fun s l => rfl, fun s l => ⟨fun i r sent => ?_, fun f sent other => ?_⟩⟩
  · intro i rest r queue ready
    exact choose_of_ready tag enabled idle (by rw [queue]; rfl) ready
  · rw [choose_of_noReady tag enabled idle noReady]
    refine ⟨fun discards => chooseOther_of_discards tag discards,
      fun n rest noDiscards queue => chooseOther_of_notice tag noDiscards queue,
      fun noDiscards noNotice losses => ?_, fun noDiscards noNotice noLosses => ?_⟩ <;>
      rw [chooseOther_of_noNotice tag noDiscards noNotice]
    · exact if_pos losses
    · exact if_neg (not_not.2 noLosses)
  · rw [exec_messageSent sent]
    refine congrArg (fun u : State => Host.Outcome.next ((u.countLink l _).choose l)) (modifyLink_congr ?_)
    exact finishSending_of_response sent
  · rw [exec_messageSent sent, countSent_of_other other]
    refine congrArg (fun u : State => Host.Outcome.next ((u.countLink l _).choose l)) (modifyLink_congr ?_)
    exact finishSending_of_other sent other

end Sys2Proof.Machine
end

