-- ==== Sys2Proof/Proofs/TransmitLine.lean ====
section
/-! PROOFS. The transmit line carries a message bit time by bit time, from the choice on (O28). What a line still has to send is the
list of levels that `Carries` ties to it; a bit time takes the first one off, and the whole message follows by induction. -/

namespace Sys2Proof.Machine

open Sys2Proof

/-! ### A character begins (R133, R134) -/

/-- R133: the eight data bits, the least significant one first. -/
theorem levels_eq (b : Byte) (mark : Bool) (n : BitVec 2) : Character.levels ⟨b, mark⟩ n =
    [false, b.getLsbD 0, b.getLsbD 1, b.getLsbD 2, b.getLsbD 3, b.getLsbD 4, b.getLsbD 5, b.getLsbD 6, b.getLsbD 7, mark] ++
      List.replicate n.toNat true := rfl

theorem levels_ne_nil (c : Character) (n : BitVec 2) : c.levels n ≠ [] := List.cons_ne_nil _ _

theorem characters_ne_nil (m : InFlight) : m.characters ≠ [] := List.cons_ne_nil _ _

/-- What begins takes the divider and the stop bits in force, and nothing else of the link. -/
theorem begin_congr {a k : Link} (cs : List Character) (divider : a.divider = k.divider) (stopBits : a.stopBits = k.stopBits) :
    TxLine.begin a cs = TxLine.begin k cs := by
  cases cs with
  | nil => rfl
  | cons c cs => exact congrArg₂ (fun d n => TxLine.sending d (c.levels n) 0 cs) divider stopBits

/-- R133: a message begins with a start bit. -/
theorem level_begin (k : Link) {cs : List Character} (h : cs ≠ []) : (TxLine.begin k cs).level = false := by
  cases cs with
  | nil => exact absurd rfl h
  | cons c cs => rfl

/-! ### One clock (R133, R134, R120) -/

theorem clock_of_idle {k : Link} (x : TxLine) (h : k.inFlight = none) : x.clock k = (.rest, false) := by
  unfold TxLine.clock
  rw [h]

section
variable {k : Link} {d : Byte} {b : Bool} {bits : List Bool} {n : Nat} {later : List Character}

/-- While a message is in flight, a clock goes on in the bit time, or ends it, or the character, or the message. -/
theorem clock_sending (h : k.inFlight ≠ none) : (TxLine.sending d (b :: bits) n later).clock k =
    if n + 1 < 16 * (d.toNat + 1) then (.sending d (b :: bits) (n + 1) later, false)
    else if bits ≠ [] then (.sending d bits 0 later, false)
    else if later = [] then (.rest, true)
    else (.begin k later, false) := by
  obtain ⟨m, flight⟩ := Option.ne_none_iff_exists'.1 h
  have another : 1 < (b :: bits).length ↔ bits ≠ [] := by simp [List.length_pos_iff]
  unfold TxLine.clock
  rw [flight]
  simp only [another]
  rfl

/-- R134: a bit time lasts 16 times the divider plus 1 clocks. -/
theorem clock_inBit (h : k.inFlight ≠ none) (short : n + 1 < 16 * (d.toNat + 1)) :
    (TxLine.sending d (b :: bits) n later).clock k = (.sending d (b :: bits) (n + 1) later, false) := by
  rw [clock_sending h, if_pos short]

theorem clock_bitEnds (h : k.inFlight ≠ none) (full : 16 * (d.toNat + 1) ≤ n + 1) (more : bits ≠ []) :
    (TxLine.sending d (b :: bits) n later).clock k = (.sending d bits 0 later, false) := by
  rw [clock_sending h, if_neg (not_lt.2 full), if_pos more]

theorem clock_characterEnds (h : k.inFlight ≠ none) (full : 16 * (d.toNat + 1) ≤ n + 1) (more : later ≠ []) :
    (TxLine.sending d [b] n later).clock k = (.begin k later, false) := by
  rw [clock_sending h, if_neg (not_lt.2 full), if_neg (not_not.2 rfl), if_neg more]

theorem clock_messageEnds (h : k.inFlight ≠ none) (full : 16 * (d.toNat + 1) ≤ n + 1) :
    (TxLine.sending d [b] n []).clock k = (.rest, true) := by
  rw [clock_sending h, if_neg (not_lt.2 full), if_neg (not_not.2 rfl), if_pos rfl]

end

/-! ### A run of clocks -/

/-- A number of clocks at the transmit line of link k, and whether the last of them ended the message. -/
def TxLine.clocks (k : Link) (n : Nat) (x : TxLine) : TxLine × Bool :=
  (fun y : TxLine × Bool => y.1.clock k)^[n] (x, false)

/-- R134: the clocks of a bit time that begins with the divider of link k. -/
def Link.bitTime (k : Link) : Nat := 16 * (k.divider.toNat + 1)

theorem bitTime_pos (k : Link) : 0 < k.bitTime := Nat.mul_pos (by decide) (Nat.succ_pos _)

/-- At the beginning of a bit time, the line has these levels still to send, under the settings of link k. -/
def TxLine.Carries (k : Link) (x : TxLine) (levels : List Bool) : Prop :=
  ∃ b bits later, x = .sending k.divider (b :: bits) 0 later ∧
    levels = b :: bits ++ later.flatMap fun c => c.levels k.stopBits

/-- A message begins with all its levels to be sent. -/
theorem carries_begin (k : Link) {cs : List Character} (h : cs ≠ []) :
    (TxLine.begin k cs).Carries k (cs.flatMap fun c => c.levels k.stopBits) := by
  cases cs with
  | nil => exact absurd rfl h
  | cons c cs => exact ⟨_, _, cs, rfl, rfl⟩

section
variable {k : Link} {x : TxLine} {b : Bool} {levels : List Bool}

theorem clocks_succ (n : Nat) (x : TxLine) : x.clocks k (n + 1) = (x.clocks k n).1.clock k :=
  Function.iterate_succ_apply' ..

theorem clocks_add {y : TxLine} (n m : Nat) (h : x.clocks k n = (y, false)) : x.clocks k (m + n) = y.clocks k m := by
  unfold TxLine.clocks at h ⊢
  rw [Function.iterate_add_apply, h]

/-- Inside a bit time the clocks are counted. -/
theorem clocks_inBit (h : k.inFlight ≠ none) (bits : List Bool) (later : List Character) :
    ∀ n < k.bitTime, (TxLine.sending k.divider (b :: bits) 0 later).clocks k n =
      (.sending k.divider (b :: bits) n later, false)
  | 0, _ => rfl
  | n + 1, short => by rw [clocks_succ, clocks_inBit h bits later n (by omega), clock_inBit h short]

/-- For a bit time the line shows the first level. -/
theorem level_clocks_inBit (h : k.inFlight ≠ none) (carries : x.Carries k (b :: levels)) {n : Nat} (short : n < k.bitTime) :
    (x.clocks k n).1.level = b ∧ (x.clocks k n).2 = false := by
  obtain ⟨_, bits, later, rfl, split⟩ := carries
  obtain ⟨rfl, -⟩ := List.cons.inj split
  rw [clocks_inBit h bits later n short]
  exact ⟨rfl, rfl⟩

/-- After a bit time its level has been sent: the others are to be sent, or the message has ended. -/
theorem clocks_bitTime (h : k.inFlight ≠ none) (carries : x.Carries k (b :: levels)) :
    (∃ y : TxLine, y.Carries k levels ∧ x.clocks k k.bitTime = (y, false)) ∨
      levels = [] ∧ x.clocks k k.bitTime = (.rest, true) := by
  obtain ⟨_, bits, later, rfl, split⟩ := carries
  obtain ⟨rfl, rest⟩ := List.cons.inj split
  obtain ⟨n, bitTime⟩ := Nat.exists_eq_succ_of_ne_zero (bitTime_pos k).ne'
  have full : 16 * (k.divider.toNat + 1) ≤ n + 1 := bitTime.le
  rw [bitTime, clocks_succ, clocks_inBit h bits later n (bitTime ▸ Nat.lt_succ_self n)]
  cases bits with
  | cons a bits => exact .inl ⟨_, ⟨a, bits, later, rfl, rest⟩, clock_bitEnds h full (List.cons_ne_nil _ _)⟩
  | nil =>
    cases later with
    | cons c cs =>
      exact .inl ⟨_, rest ▸ carries_begin k (List.cons_ne_nil c cs), clock_characterEnds h full (List.cons_ne_nil c cs)⟩
    | nil => exact .inr ⟨rest, clock_messageEnds h full⟩

/-- There is no line without a level to send. -/
theorem not_carries_nil : ¬x.Carries k [] := by
  rintro ⟨b, bits, later, -, h⟩
  exact List.cons_ne_nil _ _ h.symm

/-- R133, R134: the levels follow each other, each for a bit time. -/
theorem level_clocks (h : k.inFlight ≠ none) (levels : List Bool) : ∀ {x : TxLine}, x.Carries k levels →
    ∀ n < levels.length * k.bitTime,
      (x.clocks k n).1.level = levels.getD (n / k.bitTime) true ∧ (x.clocks k n).2 = false := by
  induction levels with
  | nil => exact fun carries => absurd carries not_carries_nil
  | cons b levels ih =>
    intro x carries n short
    rw [List.length_cons, Nat.succ_mul] at short
    by_cases first : n < k.bitTime
    · rw [Nat.div_eq_of_lt first]
      exact level_clocks_inBit h carries first
    · obtain ⟨m, rfl⟩ := Nat.exists_eq_add_of_le' (not_lt.1 first)
      rw [Nat.add_div_right _ (bitTime_pos k), List.getD_cons_succ]
      rcases clocks_bitTime h carries with ⟨y, further, sent⟩ | ⟨rfl, -⟩
      · rw [clocks_add _ m sent]
        exact ih further m (by omega)
      · simp at short

/-- R120: with the last of its levels the message ends. -/
theorem clocks_toEnd (h : k.inFlight ≠ none) (levels : List Bool) : ∀ {x : TxLine}, x.Carries k levels →
    x.clocks k (levels.length * k.bitTime) = (.rest, true) := by
  induction levels with
  | nil => exact fun carries => absurd carries not_carries_nil
  | cons b levels ih =>
    intro x carries
    rw [List.length_cons, Nat.succ_mul]
    rcases clocks_bitTime h carries with ⟨y, further, sent⟩ | ⟨rfl, ended⟩
    · rw [clocks_add _ _ sent]
      exact ih further
    · rw [List.length_nil, Nat.zero_mul, Nat.zero_add]
      exact ended

end

/-! ### The next message (R119, R120) -/

/-- What the transmitter chooses begins on the line, under the settings of the link. -/
theorem tx_choose {k : Link} (tag : Byte) {m : InFlight} (idle : k.inFlight = none) (chosen : (k.choose tag).inFlight = some m) :
    (k.choose tag).tx = TxLine.begin k m.characters := by
  rcases choose_cases k tag with same | ⟨-, v, d, q, lm, lc, f, begun, -⟩
  · rw [same, idle] at chosen
    exact nomatch chosen
  · rw [begun] at chosen ⊢
    obtain rfl : f = m := Option.some.inj chosen
    show TxLine.begin _ f.characters = _
    exact begin_congr _ rfl rfl

theorem transmitLevel_of_idle {s : State} {l : Client} (h : (s.link l).inFlight = none) : s.transmitLevel l = true := by
  unfold State.transmitLevel
  rw [h]

theorem transmitLevel_of_sending {s : State} {l : Client} (h : (s.link l).inFlight ≠ none) :
    s.transmitLevel l = (s.link l).tx.level := by
  obtain ⟨m, flight⟩ := Option.ne_none_iff_exists'.1 h
  unfold State.transmitLevel
  rw [flight]

/-- The link after MESSAGE_SENT has chosen again. -/
theorem link_of_messageSent {s t : State} {l : Client} (sending : (s.link l).inFlight ≠ none)
    (h : exec (.messageSent l) s = .next t) : t.link l = (s.link l).finishSending.choose (s.session l).tag := by
  obtain ⟨f, flight⟩ := Option.ne_none_iff_exists'.1 sending
  rw [exec_messageSent flight] at h
  cases h
  simp [State.choose]

/-- Settles O28: the clocks of a message by the levels that its line still carries, and the message that the next choice begins. -/
theorem transmitLineSendsTheMessage : Obligations.TransmitLineSendsTheMessage := by
  refine ⟨fun s l => ⟨transmitLevel_of_idle, transmitLevel_of_sending⟩, levels_eq, fun k x => clock_of_idle x,
    fun k c cs => ⟨rfl, rfl⟩, fun k d b bits n later sending => ⟨rfl, clock_inBit sending, fun full =>
      ⟨clock_bitEnds sending full, ?_, ?_⟩⟩, ?_, ?_⟩
  · rintro c cs rfl rfl
    exact clock_characterEnds sending full (List.cons_ne_nil c cs)
  · rintro rfl rfl
    exact clock_messageEnds sending full
  · rintro k m levels flight rfl
    have sending : k.inFlight ≠ none := by rw [flight]; exact Option.some_ne_none m
    have carries := carries_begin k (characters_ne_nil m)
    exact ⟨level_clocks sending _ carries, clocks_toEnd sending _ carries⟩
  · intro s t l m sending sent chosen
    have link := link_of_messageSent sending sent
    have begun : (t.link l).tx = TxLine.begin (s.link l) m.characters := by
      rw [link] at chosen ⊢
      rw [tx_choose _ (finishSending_inFlight _) chosen]
      exact begin_congr _ (finishSending_divider _) (finishSending_stopBits _)
    refine ⟨begun, ?_⟩
    rw [transmitLevel_of_sending (by rw [chosen]; exact Option.some_ne_none m), begun]
    exact level_begin _ (characters_ne_nil m)

end Sys2Proof.Machine
end

