-- ==== Sys2Proof/Proofs/Receiver.lean ====
section
/-! PROOFS. The checksum, and what the receiver does with a character, a broken character and the end of a gap (O41). -/

namespace Sys2Proof.Machine

open Sys2Proof

/-! ### The checksum (R136) -/

theorem append_zero_byte (b : Byte) : b.setWidth 16 <<< 8 = b ++ (0 : Byte) := by
  refine BitVec.eq_of_getLsbD_eq fun i hi => ?_
  rw [BitVec.getLsbD_append]
  simp [hi]

/-- The checksum of the nine characters "123456789". -/
theorem crc16_digits : crc16 [0x31, 0x32, 0x33, 0x34, 0x35, 0x36, 0x37, 0x38, 0x39] = 0x29B1 := by decide +kernel

/-- R136: a further byte goes through the division, its most significant bit first. -/
theorem crc16_append (bs : List Byte) (b : Byte) : crc16 (bs ++ [b]) =
    Nat.repeat (fun c => if c.msb then (c <<< 1) ^^^ 0x1021 else c <<< 1) 8 (crc16 bs ^^^ (b ++ (0 : Byte))) := by
  have last : crc16 (bs ++ [b]) = crcByte (crc16 bs) b := List.foldl_append ..
  rw [last, crcByte, append_zero_byte]
  rfl

/-- R136, R140: the two characters after those that the checksum covers agree with it. -/
theorem checksumGood_append {front : List Byte} (high low : Byte) (whole : front.length = 2 + (front.getD 1 0).toNat) :
    checksumGood (front ++ [high, low]) = true ↔ crc16 front = high ++ low := by
  have announced : announcedLength (front ++ [high, low]) = front.getD 1 0 := List.getD_append _ _ _ _ (by omega)
  simp only [checksumGood, announced, ← whole, List.take_left]
  simp

/-! ### A message being assembled (R137, R140) -/

section
variable {chars : List Byte} {b : Byte}

theorem isWhole_append_iff (h : 2 ≤ chars.length) :
    isWhole (chars ++ [b]) = true ↔ chars.length + 1 = 4 + (chars.getD 1 0).toNat := by
  rw [isWhole_iff, announcedLength_append h, List.length_append, List.length_singleton]
  exact and_iff_right (by omega)

/-- A message of two characters is never whole. -/
theorem not_isWhole_second (h : chars.length = 1) : ¬isWhole (chars ++ [b]) = true := by
  rw [isWhole_iff, List.length_append, List.length_singleton]
  omega

theorem lengthOutOfRange_iff : lengthOutOfRange b = true ↔ b.toNat < 2 ∨ 20 < b.toNat := by
  simp [lengthOutOfRange]

/-- R140: the kind, the length and the characters that the length counts, without the checksum. -/
theorem messageOf_append (h : 2 ≤ chars.length) (whole : chars.length + 1 = 4 + (chars.getD 1 0).toNat) :
    messageOf (chars ++ [b]) = ⟨chars.getD 0 0, chars.getD 1 0, (chars.drop 2).take (chars.getD 1 0).toNat⟩ := by
  unfold messageOf
  rw [announcedLength_append h, List.getD_append _ _ _ _ (by omega), List.drop_append_of_le_length h,
    List.take_append_of_le_length (by rw [List.length_drop]; unfold announcedLength; omega)]
  rfl

end

/-! ### What the receiver does (R137 to R141) -/

section
variable {s : State} {l : Client} {b : Byte}

/-- R117, R141: the discard count, the counter of the cause and the flag; then an idle transmitter chooses. -/
theorem discard_counted (s : State) (l : Client) (cause : DiscardCause) (r : Receiver) : s.discard l cause r =
    (((s.modifyLink l fun k => { k with
      receiver := r, discardCount := if k.discardCount = 65535 then 65535 else k.discardCount + 1 }).countLink l
      fun k => match cause with
        | .framing => { k with framing := k.framing + 1 }
        | .crc => { k with crc := k.crc + 1 }
        | .truncated => { k with truncated := k.truncated + 1 }
        | .overrun => { k with overrun := k.overrun + 1 }).raise .linkDiscard).choose l :=
  congrArg₂ (fun (u : State) f => ((u.countLink l f).raise .linkDiscard).choose l)
    (modifyLink_congr (by rw [countUp_eq])) (by cases cause <;> rfl)

/-- R137: outside a message a marked character begins one. -/
theorem receive_marked (h : (s.link l).receiver = .idle ∨ (s.link l).receiver = .hunt) :
    s.receive l b true = s.beginMessage l b := by
  unfold State.receive
  rcases h with h | h <;> rw [h]

theorem receive_stray (h : (s.link l).receiver = .idle) : s.receive l b false = s.countStray l := by
  unfold State.receive
  rw [h]

theorem receive_hunting (h : (s.link l).receiver = .hunt) : s.receive l b false = s := by
  unfold State.receive
  rw [h]

/-- R146: a stopped receiver ignores the line. -/
theorem receive_stopped (mark : Bool) (h : (s.link l).receiver = .stopped) : s.receive l b mark = s := by
  unfold State.receive
  rw [h]

theorem receiveBroken_idle (h : (s.link l).receiver = .idle) : s.receiveBroken l = s.setReceiver l .hunt := by
  unfold State.receiveBroken
  rw [h]

theorem receiveBroken_deaf (h : (s.link l).receiver = .hunt ∨ (s.link l).receiver = .stopped) : s.receiveBroken l = s := by
  unfold State.receiveBroken
  rcases h with h | h <;> rw [h]

theorem exec_stray (h : (s.link l).receiver = .idle) : exec (.stray l b) s = .next (s.countStray l) := by
  show execStray l b s = _
  unfold execStray
  rw [h]

/-! ### The receiver in a message (R137 to R140) -/

section
variable {chars : List Byte} {g : Gap} (h : (s.link l).receiver = .inMessage chars g)
include h

theorem exec_truncated : exec (.truncated l b) s = .next (s.truncateMessage l b) := by
  show execTruncated l b s = _
  unfold execTruncated
  rw [h]

theorem receive_truncates : s.receive l b true = s.truncateMessage l b := by
  unfold State.receive
  rw [h]

theorem exec_gapLimit : exec (.gapLimit l) s = .next (s.discard l .truncated .idle) := by
  show execGapLimit l s = _
  unfold execGapLimit
  rw [h]

theorem receiveBroken_inMessage : s.receiveBroken l = s.discard l .framing .hunt := by
  unfold State.receiveBroken
  rw [h]

/-- R138: a length out of range. -/
theorem exec_framing_length (second : chars.length = 1) (range : lengthOutOfRange b = true) :
    exec (.framing l (.length b)) s = .next (s.discard l .framing .hunt) := by
  show execFraming l (.length b) s = _
  unfold execFraming
  rw [h]
  exact congrArg Host.Outcome.next (if_pos ⟨second, range⟩)

theorem receive_extends : s.receive l b false = s.extendMessage l chars b := by
  unfold State.receive
  rw [h]

/-- R140: MESSAGE_COMPLETE and the last character of a message are the same happening (log 5). -/
theorem exec_messageComplete (long : 2 ≤ chars.length) (whole : isWhole (chars ++ [b]) = true) :
    exec (.messageComplete l b) s = .next (s.completeMessage l (chars ++ [b])) := by
  show execMessageComplete l b s = _
  unfold execMessageComplete
  rw [h]
  exact congrArg Host.Outcome.next (if_pos ⟨by omega, whole⟩)

end

section
variable {chars : List Byte}

theorem extendMessage_outOfRange (second : chars.length = 1) (range : lengthOutOfRange b = true) :
    s.extendMessage l chars b = s.discard l .framing .hunt := if_pos ⟨second, range⟩

theorem extendMessage_whole (long : 2 ≤ chars.length) (whole : isWhole (chars ++ [b]) = true) :
    s.extendMessage l chars b = s.completeMessage l (chars ++ [b]) := by
  unfold State.extendMessage
  rw [if_neg (by omega), if_pos whole]

/-- R137, R139: the message goes on, and a gap begins. -/
theorem extendMessage_further (range : ¬(chars.length = 1 ∧ lengthOutOfRange b = true))
    (short : ¬isWhole (chars ++ [b]) = true) :
    s.extendMessage l chars b = s.setReceiver l (.inMessage (chars ++ [b]) (s.link l).newGap) := by
  unfold State.extendMessage
  rw [if_neg range, if_neg short]

theorem completeMessage_crc (bad : checksumGood chars = false) : s.completeMessage l chars = s.discard l .crc .idle :=
  if_pos bad

theorem completeMessage_overrun (good : checksumGood chars = true) (full : 4 ≤ (s.link l).rxQueue.length) :
    s.completeMessage l chars = s.discard l .overrun .idle := by
  unfold State.completeMessage
  rw [if_neg (by simp [good]), if_pos (show Config.receiveDepth ≤ _ from full)]

theorem completeMessage_good (good : checksumGood chars = true) (room : (s.link l).rxQueue.length < 4) :
    s.completeMessage l chars =
      (s.modifyLink l fun k => { k with receiver := .idle, rxQueue := k.rxQueue ++ [messageOf chars] }).countLink l
        fun k => { k with good := k.good + 1 } := by
  unfold State.completeMessage
  rw [if_neg (by simp [good]), if_neg (show ¬Config.receiveDepth ≤ _ from not_le.2 room)]

end

end

/-- Settles O41: the checksum, and the receiver state by state. -/
theorem receiverDealsWithEachCharacter : Obligations.ReceiverDealsWithEachCharacter := by
  refine ⟨crc16_digits, rfl, crc16_append, fun front high low => checksumGood_append high low,
    discard_counted, fun s l b => ⟨fun outside => ?_, fun idle => ⟨exec_stray idle, ?_, ?_⟩, fun hunt => ⟨?_, ?_⟩,
      fun stopped => ⟨?_, fun mark => ?_⟩, fun chars g h => ⟨exec_truncated h, ?_, exec_gapLimit h, ?_,
        fun second outOfRange => ⟨?_, ?_⟩, fun further => ?_, fun long last c rows => ?_⟩⟩⟩
  · exact congrArg Host.Outcome.next (receive_marked outside)
  · exact congrArg Host.Outcome.next (receive_stray idle)
  · exact congrArg Host.Outcome.next (receiveBroken_idle idle)
  · exact congrArg Host.Outcome.next (receive_hunting hunt)
  · exact congrArg Host.Outcome.next (receiveBroken_deaf (.inl hunt))
  · exact congrArg Host.Outcome.next (receiveBroken_deaf (.inr stopped))
  · exact congrArg Host.Outcome.next (receive_stopped mark stopped)
  · exact congrArg Host.Outcome.next (receive_truncates h)
  · exact congrArg Host.Outcome.next (receiveBroken_inMessage h)
  · exact exec_framing_length h second (lengthOutOfRange_iff.2 outOfRange)
  · exact congrArg Host.Outcome.next
      ((receive_extends h).trans (extendMessage_outOfRange second (lengthOutOfRange_iff.2 outOfRange)))
  · refine congrArg Host.Outcome.next ((receive_extends h).trans (extendMessage_further ?_ ?_))
    · rw [lengthOutOfRange_iff]
      omega
    · rcases further with ⟨second, -⟩ | ⟨long, short⟩
      · exact not_isWhole_second second
      · exact mt (isWhole_append_iff long).1 short
  · have whole : isWhole (chars ++ [b]) = true := (isWhole_append_iff long).2 last
    have completes : exec c s = .next (s.completeMessage l (chars ++ [b])) := by
      rcases rows with rfl | rfl
      · exact exec_messageComplete h long whole
      · exact congrArg Host.Outcome.next ((receive_extends h).trans (extendMessage_whole long whole))
    rw [completes]
    refine ⟨fun bad => ?_, fun good full => ?_, fun good room => ?_⟩
    · rw [completeMessage_crc bad]
    · rw [completeMessage_overrun good full]
    · rw [completeMessage_good good room, messageOf_append long last]

end Sys2Proof.Machine
end

