-- ==== Sys2Proof/Proofs/LinkControl.lean ====
section
/-! PROOFS. The disabling and the enabling of a link (O42). -/

namespace Sys2Proof.Machine

open Sys2Proof

/-- R146: only a slot that is being sent stays in use. -/
theorem atDisable_eq (x : ResponseSlot) : x.atDisable = if x = .sending then .sending else .free := by
  cases x <;> rfl

/-- R146: every field of a link that is disabled. -/
theorem disable_eq (k : Link) : k.disable =
    { k with
      enabled := false
      receiver := .stopped
      rxQueue := []
      inProgress := if k.inProgress = none then none else some .toBeDropped
      slots := k.slots.map fun x => if x = .sending then .sending else .free
      responseQueue := k.responseQueue.filter fun i => k.slots[i] == .sending
      noticeQueue := []
      lossMark := false
      lossCount := 0
      discardCount := 0 } := by
  have progress : (k.inProgress.map fun _ => InProgress.toBeDropped) =
      if k.inProgress = none then none else some .toBeDropped := by
    cases k.inProgress <;> rfl
  unfold Link.disable
  rw [progress, funext atDisable_eq]

/-- Settles O42: an enable or a disable that changes the link, and one that finds it so already. -/
theorem linkIsDisabledAndEnabled : Obligations.LinkIsDisabledAndEnabled := by
  refine fun s l => ⟨fun enabled => ⟨congrArg Host.Outcome.next (if_pos enabled), ?_⟩, fun disabled => ?_⟩
  · refine congrArg Host.Outcome.next ((if_pos enabled).trans (modifyLink_congr ?_))
    exact disable_eq _
  · have off : ¬(s.link l).enabled = true := by simp [disabled]
    exact ⟨congrArg Host.Outcome.next (if_neg off), congrArg Host.Outcome.next (if_neg off)⟩

end Sys2Proof.Machine
end

