-- ==== Sys2Proof/Proofs/Purges.lean ====
section
/-! PROOFS. The steps of the purge walk and the end of a purge (O40). -/

namespace Sys2Proof.Machine

open Sys2Proof

variable {s : State} {c : Client} {q : List Client}

/-! ### The walk (R124 to R126, R130) -/

/-- Only the walk position moves when the queue is known. -/
theorem setWalk_of_queue (p : WalkPosition) (queue : s.purge.queue = q) : s.setWalk p = s.setPurge ⟨q, p⟩ := by
  subst queue
  rfl

/-- R124, R125: the step on a wait slot of the client at the head. -/
theorem exec_purgeWaitStep {w : WaitIx} (queue : s.purge.queue = c :: q) (walk : s.purge.walk = .wait w) :
    exec .purgeWaitStep s = .next ((s.purgeWait c w).setPurge ⟨c :: q, afterWaitStep w⟩) := by
  have engine : EngineOnly none s (s.purgeWait c w) := .purgeWait c w
  have kept : (s.purgeWait c w).purge.queue = c :: q := by rw [engine.outside.purge, queue]
  rw [← setWalk_of_queue _ kept]
  change execPurgeWaitStep s = _
  unfold execPurgeWaitStep
  rw [queue, walk]

/-- R124, R126, R130: the step on a hold slot of the client at the head. -/
theorem exec_purgeHoldStep {i : HoldIx} (queue : s.purge.queue = c :: q) (walk : s.purge.walk = .hold i) :
    exec .purgeHoldStep s = .next (if h : i.val + 1 < 256 then (s.purgeHold c i).setPurge ⟨c :: q, .hold ⟨i.val + 1, h⟩⟩
      else (s.purgeHold c i).purgeEnd c) := by
  have engine : EngineOnly none s (s.purgeHold c i) := .purgeHold c i
  have kept : (s.purgeHold c i).purge.queue = c :: q := by rw [engine.outside.purge, queue]
  simp only [← setWalk_of_queue _ kept]
  change execPurgeHoldStep s = _
  unfold execPurgeHoldStep
  rw [queue, walk]

/-! ### The end of a purge (R80, R130) -/

/-- Two changes of a session are the same when they make the same of the session as it is. -/
theorem modifySession_congr {f g : Session → Session} (h : f (s.session c) = g (s.session c)) :
    s.modifySession c f = s.modifySession c g := by
  unfold State.modifySession
  rw [h]

/-- R80: every field of a session record at the end of its purge. -/
theorem endPurge_eq {k : Session} {a : AfterPurge} (after : k.afterPurge = some a) : k.endPurge =
    { k with
      state := finalState (some a)
      tag := if a = .active then k.pendingTag.getD 0 else 0
      afterPurge := none
      pendingTag := none
      deferred := none } := by
  unfold Session.endPurge
  simp only [after, Option.some.injEq]

/-- R80: the deferred request is answered by the state and the tag that the session has after its purge. -/
theorem answerDeferred_endPurge {u : State} {a : AfterPurge} (ended : u.session c = (s.session c).endPurge)
    (deferred : Option Deferred) : (s.session c).afterPurge = some a →
    u.answerDeferred c deferred = match deferred, a with
      | some d, .active => u.respond c d.requestTag (.attached ((s.session c).pendingTag.getD 0))
      | some d, .detached => u.respond c d.requestTag .detached
      | some d, .barred => u.respond c d.requestTag .barred
      | none, _ => u := by
  intro after
  cases deferred with
  | none => rfl
  | some d =>
    unfold State.answerDeferred
    rw [ended, endPurge_eq after]
    cases a <;> rfl

/-- R130: the end of a purge: the session, the answer, the queue, the flag and the next purge. -/
theorem purgeEnd_eq (queue : s.purge.queue = c :: q) : s.purgeEnd c =
    ((((s.modifySession c Session.endPurge).answerDeferred c (s.session c).deferred).setPurge
      ⟨q, s.purge.walk⟩).raise .purgeDone).nextPurge := by
  have kept : ((s.modifySession c Session.endPurge).answerDeferred c (s.session c).deferred).purge = s.purge :=
    (SameEngine.answerDeferred c _).purge
  unfold State.purgeEnd
  dsimp only
  rw [kept, queue]
  rfl

/-- R123, R130 step 5: the start of the next client's purge, or the end of the walk. -/
theorem nextPurge_eq (t : State) : t.nextPurge = match t.purge.queue with
    | n :: _ => (t.modifyLink n fun k => { k with noticeQueue := [], lossMark := false, lossCount := 0 }).setPurge
        { t.purge with walk := .wait 0 }
    | [] => t.setPurge { t.purge with walk := .idle } := by
  unfold State.nextPurge
  cases t.purge.queue <;> rfl

/-- Settles O40: the two kinds of step of the walk, and the end of a purge part by part. -/
theorem purgeWalksEverySlot : Obligations.PurgeWalksEverySlot := by
  refine ⟨fun s c q queue => ⟨fun w walk => exec_purgeWaitStep queue walk, fun i t walk ht => ?_⟩,
    fun s u c q a queue after hu => ⟨?_, nextPurge_eq⟩⟩
  · have work : t = s.purgeHold c i := ht
    rw [exec_purgeHoldStep queue walk, ← work]
    refine ⟨fun further => by rw [dif_pos further], fun last => ?_⟩
    subst last
    rfl
  · have changed : u = s.modifySession c Session.endPurge := by
      rw [hu]
      refine modifySession_congr ((endPurge_eq after).trans ?_).symm
      cases a <;> rfl
    have ended : u.session c = (s.session c).endPurge := by rw [changed, session_modifySession, if_pos rfl]
    rw [purgeEnd_eq queue, ← changed]
    exact congrArg (fun v : State => ((v.setPurge ⟨q, s.purge.walk⟩).raise .purgeDone).nextPurge)
      (answerDeferred_endPurge ended _ after)

end Sys2Proof.Machine
end

