-- ==== Sys2Proof/Proofs/Take.lean ====
section
/-! PROOFS. When a link takes a request, and that a row whose request it does not take changes nothing (O8). -/

namespace Sys2Proof.Machine

open Sys2Proof

/-- Settles O8: by `takable_takes` and `exec_row_of_not`. -/
theorem takeConditions : Obligations.TakeConditions :=
  ⟨takable_takes, fun _ _ _ untaken => exec_row_of_not untaken⟩

end Sys2Proof.Machine
end

