-- ==== Sys2Proof/Proofs/SentFormats.lean ====
section
/-! PROOFS. The characters of the messages that the part sends: fields of several bytes, the codes, and the length of a message (O27). -/

namespace Sys2Proof.Machine

open Sys2Proof

/-! ### Fields, high byte first (R176) -/

theorem halfBytes_append (a b : Byte) : halfBytes (a ++ b) = [a, b] := by
  unfold halfBytes
  rw [BitVec.extractLsb'_append_eq_left, BitVec.extractLsb'_append_eq_right]

theorem wordBytes_append (a b c d : Byte) : wordBytes (a ++ b ++ c ++ d) = [a, b, c, d] := by
  unfold wordBytes
  simp (disch := decide) only [BitVec.extractLsb'_append_eq_of_add_le, BitVec.extractLsb'_append_eq_of_le, Nat.reduceSub,
    BitVec.extractLsb'_eq_self]

theorem fenceBytes_append (a b c d e f : Byte) : fenceBytes (a ++ b ++ c ++ d ++ e ++ f) = [a, b, c, d, e, f] := by
  have high : (a ++ b ++ c ++ d ++ e ++ f).extractLsb' 32 16 = a ++ b := by
    simp (disch := decide) only [BitVec.extractLsb'_append_eq_of_le, Nat.reduceSub]
    exact BitVec.extractLsb'_eq_self
  have low : wordBytes ((a ++ b ++ c ++ d ++ e ++ f).extractLsb' 0 32) = [c, d, e, f] := by
    unfold wordBytes
    simp (disch := decide) only [BitVec.extractLsb'_extractLsb'_of_le, BitVec.extractLsb'_append_eq_of_add_le,
      BitVec.extractLsb'_append_eq_of_le, Nat.reduceSub, BitVec.extractLsb'_eq_self]
  unfold fenceBytes
  rw [high, low, halfBytes_append]
  rfl

theorem holdHandle_bytes (h : HoldHandle) : h.bytes = [BitVec.ofNat 8 h.index.val, h.generation] := halfBytes_append ..

theorem waitHandle_bytes (h : WaitHandle) : h.bytes = [BitVec.ofNat 8 h.index.val, h.generation] := halfBytes_append ..

/-! ### Codes (R177) -/

theorem mode_code (m : Mode) : m.code = if m = .shared then 1 else 2 := by cases m <;> rfl

theorem kind_code (k : Kind) : k.code = if k = .dynamic then 1 else 2 := by cases k <;> rfl

theorem presenceBits : ∀ hold wait : Bool, ((if hold then 1 else 0) ||| (if wait then 2 else 0) : Byte) =
    match hold, wait with
    | false, false => 0
    | true, false => 1
    | false, true => 2
    | true, true => 3 := by decide

/-- R107: the contents of RECORD, in order. -/
theorem recordAnswer_bytes (a : RecordAnswer) : a.bytes =
    [match a.mode with
      | .free => (0 : Byte)
      | .shared => 1
      | .exclusive => 2,
    BitVec.ofNat 8 a.holders, BitVec.ofNat 8 a.waiters] ++ fenceBytes a.lastFence ++
    [if a.kind = .dynamic then (1 : Byte) else 2, match a.ownHold.isSome, a.ownWait.isSome with
      | false, false => 0
      | true, false => 1
      | false, true => 2
      | true, true => 3] ++
    (match a.ownHold with
      | some h => h.bytes
      | none => [0, 0]) ++
    (match a.ownWait with
      | some w => w.bytes
      | none => [0, 0]) := by
  have mode : a.mode.code = match a.mode with
    | .free => 0
    | .shared => 1
    | .exclusive => 2 := by cases a.mode <;> rfl
  have hold : optionBytes (a.ownHold.map HoldHandle.bytes) = match a.ownHold with
    | some h => h.bytes
    | none => [0, 0] := by cases a.ownHold <;> rfl
  have wait : optionBytes (a.ownWait.map WaitHandle.bytes) = match a.ownWait with
    | some w => w.bytes
    | none => [0, 0] := by cases a.ownWait <;> rfl
  unfold RecordAnswer.bytes presenceByte
  rw [mode, kind_code, presenceBits, hold, wait]

/-- The contents of a grant, in a response and in a notice. -/
theorem grantBytes_eq (h : HoldHandle) (m : Mode) (f : Fence) (d : Word) :
    grantBytes h m f d = h.bytes ++ [if m = .shared then 1 else 2] ++ fenceBytes f ++ wordBytes d := by
  unfold grantBytes
  rw [mode_code]

/-! ### The length of a message (R136) -/

theorem length_recordAnswer (a : RecordAnswer) : a.bytes.length = 15 := by
  have hold : (optionBytes (a.ownHold.map HoldHandle.bytes)).length = 2 := by cases a.ownHold <;> rfl
  have wait : (optionBytes (a.ownWait.map WaitHandle.bytes)).length = 2 := by cases a.ownWait <;> rfl
  unfold RecordAnswer.bytes
  rw [List.length_append, List.length_append, hold, wait]
  rfl

/-- No contents are longer than those of RECORD. -/
theorem length_contents_le {r : Reply} (echo : ∀ bs state now, r = .pong bs state now → bs.length = 4) :
    r.contents.length ≤ 15 := by
  cases r with
  | pong bs state now =>
    show (bs ++ [state.code] ++ wordBytes now).length ≤ 15
    rw [List.length_append, List.length_append, echo bs state now rfl]
    exact Nat.le_of_ble_eq_true rfl
  | record a => exact le_of_eq (length_recordAnswer a)
  | _ => exact Nat.le_of_ble_eq_true rfl

theorem length_noticeBody_le (n : NoticeBody) : n.bytes.length ≤ 15 := by
  cases n <;> exact Nat.le_of_ble_eq_true rfl

/-- R136, R176: two tags, an outcome code in a response, and the contents. -/
theorem length_chars_range {m : InFlight}
    (echo : ∀ i r bs state now, m = .response i r → r.reply = .pong bs state now → bs.length = 4) :
    2 ≤ m.chars.length ∧ m.chars.length ≤ 20 := by
  cases m with
  | response i r =>
    have contents := length_contents_le fun bs state now => echo i r bs state now rfl
    rw [InFlight.chars, List.length_append]
    simp only [List.length_cons, List.length_nil]
    omega
  | notice n =>
    have body := length_noticeBody_le n.body
    rw [InFlight.chars, List.length_append]
    simp only [List.length_cons, List.length_nil]
    omega
  | discards tag count | noticesLost tag count => exact ⟨Nat.le_of_ble_eq_true rfl, Nat.le_of_ble_eq_true rfl⟩

theorem length_bytes (m : InFlight) : m.bytes.length = m.chars.length + 4 := by
  unfold InFlight.bytes
  simp only [List.length_append, List.length_cons, List.length_nil, halfBytes]
  omega

/-- Settles O27: the message as a whole, its fields, and each outcome and notice by its own table of Formats. -/
theorem sentMessageFormats : Obligations.SentMessageFormats := by
  refine ⟨fun m => rfl, fun m b bs whole => ?_, fun m echo => ?_,
    fun a b c d e f => ⟨halfBytes_append a b, wordBytes_append a b c d, fenceBytes_append a b c d e f⟩,
    fun h w => ⟨holdHandle_bytes h, waitHandle_bytes w⟩, fun i r => ⟨rfl, ?_⟩, fun n => ?_,
    fun tag count => ⟨rfl, rfl, rfl, rfl⟩⟩
  · rw [InFlight.characters, whole]
    rfl
  · have range := length_chars_range echo
    rw [length_bytes]
    omega
  · obtain ⟨requestTag, sessionTag, reply⟩ := r
    cases reply with
    | granted h m f d => exact congrArg ([requestTag, sessionTag, 0x05] ++ ·) (grantBytes_eq h m f d)
    | record a => exact congrArg ([requestTag, sessionTag, 0x0A] ++ ·) (recordAnswer_bytes a)
    | current m => exact congrArg ([requestTag, sessionTag, 0x0B, ·]) (mode_code m)
    | pong echo state now => cases state <;> rfl
    | _ => rfl
  · obtain ⟨requestTag, sessionTag, body⟩ := n
    cases body with
    | granted h m f d => exact congrArg ([0x90, requestTag, sessionTag] ++ ·) (grantBytes_eq h m f d)
    | lapsed h d => rfl
    | lost h f cause cancelled => cases cause <;> rfl
    | waitEnded w cause => cases cause <;> rfl

end Sys2Proof.Machine
end

