-- ==== Sys2Proof/Proofs/ReceiveLine.lean ====
section
/-! PROOFS. The receive line: what one sample and one clock do, and what a receiver decides over a run of samples (O43). A run from
the fall of the line to the deciding sample goes through `inside`; the decision is read off the first 169 samples. -/

namespace Sys2Proof.Machine

open Sys2Proof

/-! ### The majority of the middle samples (R135) -/

theorem majority_iff : ∀ a b c : Bool, majority a b c = true ↔ 2 ≤ a.toNat + b.toNat + c.toNat := by decide

theorem sampledBit_iff {samples : List Bool} {n : Nat} {a b c : Bool} (ha : samples[16 * n + 6]? = some a)
    (hb : samples[16 * n + 7]? = some b) (hc : samples[16 * n + 8]? = some c) :
    sampledBit samples n = true ↔ 2 ≤ a.toNat + b.toNat + c.toNat := by
  unfold sampledBit
  simp only [List.getD_eq_getElem?_getD, ha, hb, hc, Option.getD_some]
  exact majority_iff a b c

/-- Samples after a bit time's ninth do not count for it. -/
theorem sampledBit_append {samples : List Bool} {n : Nat} (whole : 16 * n + 9 ≤ samples.length) (later : List Bool) :
    sampledBit (samples ++ later) n = sampledBit samples n := by
  unfold sampledBit
  rw [List.getD_append _ _ _ _ (by omega), List.getD_append _ _ _ _ (by omega), List.getD_append _ _ _ _ (by omega)]

theorem decideSamples_append {samples : List Bool} (whole : stopDecided ≤ samples.length) (later : List Bool) :
    decideSamples (samples ++ later) = decideSamples samples := by
  have bit : ∀ n, n ≤ 10 → sampledBit (samples ++ later) n = sampledBit samples n := fun n hn =>
    sampledBit_append (by unfold stopDecided at whole; omega) later
  have data : (Vector.ofFn fun i : Fin 8 => sampledBit (samples ++ later) (i.val + 1)) =
      Vector.ofFn fun i : Fin 8 => sampledBit samples (i.val + 1) :=
    congrArg Vector.ofFn (funext fun i => bit _ (by omega))
  unfold decideSamples
  rw [bit 0 (by omega), bit 9 (by omega), bit 10 (by omega), data]

theorem byteOfLevels_ofFn (f : Fin 8 → Bool) : byteOfLevels (Vector.ofFn f) = BitVec.ofFnLE f := by
  simp [byteOfLevels]

/-- R135: the decision by the start bit and the first stop bit. -/
theorem decideSamples_of_start {samples : List Bool} (start : sampledBit samples 0 = false) :
    decideSamples samples = if sampledBit samples 10 then
      .received ⟨BitVec.ofFnLE fun i : Fin 8 => sampledBit samples (i.val + 1), sampledBit samples 9⟩ else .broken := by
  unfold decideSamples decideCharacter
  rw [start, byteOfLevels_ofFn]
  rfl

/-! ### One sample (R135) -/

section
variable {d e : Byte} {level : Bool} {samples : List Bool}

/-- Inside a character the ninth sample of the start bit and that of the first stop bit decide. -/
theorem sample_inside : RxLine.sample d level (.inside e samples) =
    if (samples ++ [level]).length = 9 ∧ sampledBit (samples ++ [level]) 0 = true then
      (.watching (some level), some .noCharacter)
    else if (samples ++ [level]).length = 169 then (.watching (some level), some (decideSamples (samples ++ [level])))
    else (.inside e (samples ++ [level]), none) := rfl

theorem sample_undecided (start : (samples ++ [level]).length = 9 → sampledBit (samples ++ [level]) 0 = false)
    (stop : (samples ++ [level]).length ≠ 169) :
    RxLine.sample d level (.inside e samples) = (.inside e (samples ++ [level]), none) := by
  rw [sample_inside, if_neg fun ⟨ninth, high⟩ => Bool.false_ne_true ((start ninth).symm.trans high), if_neg stop]

theorem sample_start (ninth : (samples ++ [level]).length = 9) : RxLine.sample d level (.inside e samples) =
    if sampledBit (samples ++ [level]) 0 then (.watching (some level), some .noCharacter)
    else (.inside e (samples ++ [level]), none) := by
  rw [sample_inside, ninth]
  simp

theorem sample_stop (last : (samples ++ [level]).length = 169) : RxLine.sample d level (.inside e samples) =
    (.watching (some level), some (decideSamples (samples ++ [level]))) := by
  rw [sample_inside, last]
  simp

end

/-! ### One clock (R134, R146) -/

section
variable {k : Link} {w : LinkWire} {level : Bool}

/-- R146: a stopped receiver ignores the line. -/
theorem receive_of_stopped (h : k.receiver = .stopped) :
    w.receive k level = ({ w with rx := .watching none, sampleClocks := 0 }, none) := by
  unfold LinkWire.receive
  rw [if_pos h]
  rfl

/-- R134: between two samples. -/
theorem receive_between (h : k.receiver ≠ .stopped) (early : w.sampleClocks < (w.rx.divider k).toNat) :
    w.receive k level = ({ w with sampleClocks := w.sampleClocks + 1 }, none) := by
  unfold LinkWire.receive
  rw [if_neg h, if_pos early]

theorem receive_sample (h : k.receiver ≠ .stopped) (due : (w.rx.divider k).toNat ≤ w.sampleClocks) :
    w.receive k level =
      ({ w with rx := (w.rx.sample k.divider level).1, sampleClocks := 0 }, (w.rx.sample k.divider level).2) := by
  unfold LinkWire.receive
  rw [if_neg h, if_neg (not_lt.2 due)]

end

/-! ### A run of samples -/

section
variable {d : Byte}

theorem heardOver_cons (x : RxLine) (level : Bool) (levels : List Bool) : heardOver d x (level :: levels) =
    (x.sample d level).2.toList ++ heardOver d (x.sample d level).1 levels := rfl

/-- On a line that keeps its level nothing is heard. -/
theorem heardOver_steady (b : Bool) (n : Nat) : heardOver d (.watching (some b)) (List.replicate n b) = [] := by
  induction n with
  | zero => rfl
  | succ n ih =>
    have watch : RxLine.sample d b (.watching (some b)) = (.watching (some b), none) := by cases b <;> rfl
    rw [List.replicate_succ, heardOver_cons, watch]
    exact ih

/-- Inside a character whose start bit is 0 nothing is decided before its 169th sample. -/
theorem heardOver_inside {samples levels later : List Bool} (start : sampledBit (samples ++ levels) 0 = false)
    (short : (samples ++ levels).length < 169) :
    heardOver d (.inside d samples) (levels ++ later) = heardOver d (.inside d (samples ++ levels)) later := by
  induction levels generalizing samples with
  | nil => rw [List.append_nil, List.nil_append]
  | cons level levels ih =>
    rw [List.append_cons] at start short ⊢
    have undecided : RxLine.sample d level (.inside d samples) = (.inside d (samples ++ [level]), none) := by
      refine sample_undecided (fun ninth => ?_) (by rw [List.length_append] at short; omega)
      rwa [sampledBit_append (by omega)] at start
    rw [List.cons_append, heardOver_cons, undecided]
    exact ih start short

/-- R135: a character that starts with a fall and a start bit of 0 is decided with its 169th sample, and a line that then keeps its
level brings nothing more. -/
theorem heardOver_character {samples : List Bool} (length : (false :: samples).length = 168)
    (start : sampledBit (false :: samples) 0 = false) (b : Bool) (n : Nat) :
    heardOver d (.watching (some true)) (false :: samples ++ List.replicate (n + 1) b) =
      [decideSamples (false :: samples ++ List.replicate (n + 1) b)] := by
  have whole : (false :: samples ++ [b]).length = 169 := by rw [List.length_append, length]; rfl
  have fall : RxLine.sample d false (.watching (some true)) = (.inside d [false], none) := rfl
  calc heardOver d (.watching (some true)) (false :: samples ++ List.replicate (n + 1) b)
      = heardOver d (.inside d [false]) (samples ++ b :: List.replicate n b) := by
        rw [List.cons_append, heardOver_cons, fall, List.replicate_succ]
        rfl
    _ = heardOver d (.inside d (false :: samples)) (b :: List.replicate n b) :=
        heardOver_inside (samples := [false]) start (lt_of_eq_of_lt length (by decide))
    _ = [decideSamples (false :: samples ++ [b])] := by
        rw [heardOver_cons, sample_stop whole, heardOver_steady]
        rfl
    _ = [decideSamples (false :: samples ++ List.replicate (n + 1) b)] := by
        rw [List.replicate_succ, List.append_cons (false :: samples) b (List.replicate n b),
          decideSamples_append (ge_of_eq whole)]

end

/-! ### Clean bit times (R133, R135) -/

/-- The sixteen samples of each of the bit times. -/
abbrev samplesOf (bits : List Bool) : List Bool := bits.flatMap fun level => List.replicate 16 level

theorem length_samplesOf (bits : List Bool) : (samplesOf bits).length = bits.length * 16 := by
  simp [samplesOf, List.length_flatMap]

theorem samplesOf_append (xs ys : List Bool) : samplesOf (xs ++ ys) = samplesOf xs ++ samplesOf ys := List.flatMap_append

theorem samplesOf_replicate (n : Nat) (b : Bool) : samplesOf (List.replicate n b) = List.replicate (n * 16) b := by
  rw [samplesOf, List.flatMap_replicate, List.flatten_replicate_replicate]

/-- A bit time of one level is decided to be that level. -/
theorem sampledBit_samplesOf (bits : List Bool) (n : Nat) : sampledBit (samplesOf bits) n = bits.getD n true := by
  induction bits generalizing n with
  | nil => rfl
  | cons b bits ih =>
    rw [show samplesOf (b :: bits) = List.replicate 16 b ++ samplesOf bits from rfl]
    cases n with
    | zero =>
      rw [sampledBit_append (by rw [List.length_replicate]; decide)]
      cases b <;> rfl
    | succ n =>
      rw [List.getD_cons_succ, ← ih n]
      unfold sampledBit
      rw [List.getD_append_right _ _ _ _ (by simp; omega), List.getD_append_right _ _ _ _ (by simp; omega),
        List.getD_append_right _ _ _ _ (by simp; omega), List.length_replicate]
      rfl

theorem decideSamples_levels {c : Character} {n : BitVec 2} (stop : 1 ≤ n.toNat) :
    decideSamples (samplesOf (c.levels n)) = .received c := by
  obtain ⟨m, hm⟩ : ∃ m, n.toNat = m + 1 := ⟨n.toNat - 1, by omega⟩
  have levels : c.levels n = [false] ++ dataLevels c.byte ++ [c.mark] ++ true :: List.replicate m true := by
    rw [← List.replicate_succ, ← hm]
    rfl
  have start : sampledBit (samplesOf (c.levels n)) 0 = false := sampledBit_samplesOf ..
  have data : ∀ i : Fin 8, sampledBit (samplesOf (c.levels n)) (i.val + 1) = c.byte.getLsbD i.val := fun i => by
    rw [sampledBit_samplesOf]
    fin_cases i <;> rfl
  have byte : BitVec.ofFnLE (fun i : Fin 8 => c.byte.getLsbD i.val) = c.byte :=
    BitVec.eq_of_getLsbD_eq fun i hi => by rw [BitVec.getLsbD_ofFnLE, dif_pos hi]
  rw [decideSamples_of_start start, funext data, byte, sampledBit_samplesOf, sampledBit_samplesOf, levels]
  rfl

/-- A start bit, nine bits and the stop bits at 1, as sampled: the fall, the samples before the deciding one, and a line at 1. -/
theorem samplesOf_character {bits : List Bool} (nine : bits.length = 9) {m : Nat} (stop : 1 ≤ m) : ∃ samples n,
    (false :: samples).length = 168 ∧ sampledBit (false :: samples) 0 = false ∧
    samplesOf (false :: bits ++ List.replicate m true) = false :: samples ++ List.replicate (n + 1) true := by
  have length : (samplesOf (false :: bits) ++ List.replicate 8 true).length = 168 := by
    rw [List.length_append, length_samplesOf, List.length_cons, nine, List.length_replicate]
  have start : sampledBit (samplesOf (false :: bits) ++ List.replicate 8 true) 0 = false := by
    rw [sampledBit_append (by rw [length_samplesOf, List.length_cons, nine]; decide), sampledBit_samplesOf]
    rfl
  have whole : samplesOf (false :: bits ++ List.replicate m true) =
      samplesOf (false :: bits) ++ List.replicate 8 true ++ List.replicate (m * 16 - 9 + 1) true := by
    rw [List.append_assoc, ← List.replicate_add, samplesOf_append, samplesOf_replicate]
    congr 2
    omega
  exact ⟨_, _, length, start, whole⟩

/-- A character of clean bit times is received whole. -/
theorem heardOver_levels (d : Byte) (c : Character) {n : BitVec 2} (stop : 1 ≤ n.toNat) :
    heardOver d (.watching (some true)) (samplesOf (c.levels n)) = [.received c] := by
  obtain ⟨samples, m, length, start, whole⟩ := samplesOf_character (bits := dataLevels c.byte ++ [c.mark]) rfl stop
  have levels : samplesOf (c.levels n) = false :: samples ++ List.replicate (m + 1) true := whole
  rw [← decideSamples_levels stop, levels]
  exact heardOver_character length start true m

/-- A line held at 0 is one broken character, however long it is held. -/
theorem heardOver_low (d : Byte) {n : Nat} (long : 169 ≤ n) :
    heardOver d (.watching (some true)) (List.replicate n false) = [.broken] := by
  have held : List.replicate n false = false :: List.replicate 167 false ++ List.replicate (n - 169 + 1) false := by
    rw [← List.replicate_succ, ← List.replicate_add]
    congr 1
    omega
  have broken : decideSamples (List.replicate n false) = .broken := by
    rw [show n = 169 + (n - 169) by omega, List.replicate_add, decideSamples_append (by rw [List.length_replicate]; rfl)]
    decide
  rw [← broken, held]
  exact heardOver_character (by rw [List.length_cons, List.length_replicate]) (by decide) false _

/-- Settles O43: one sample, one clock, and the two runs, of a clean character and of a line held at 0. -/
theorem receiveLineDecidesTheCharacter : Obligations.ReceiveLineDecidesTheCharacter := by
  refine ⟨fun samples n a b c => sampledBit_iff, fun d level last => rfl, ?_, ?_,
    fun d c n stop _ => heardOver_levels d c stop, fun d n long => heardOver_low d long⟩
  · rintro d e level samples all rfl
    refine ⟨fun ⟨start, stop⟩ => sample_undecided (absurd · start) stop, sample_start, fun last start => ?_⟩
    rw [sample_stop last, decideSamples_of_start start]
  · intro k w level d hd
    have divider : w.rx.divider k = d := by
      rw [hd]
      cases w.rx <;> rfl
    subst divider
    refine ⟨receive_of_stopped, receive_between, fun h due x y sampled => ?_⟩
    rw [receive_sample h due, sampled]

end Sys2Proof.Machine
end

