-- ==== Sys2Proof/Proofs/WindowWrites.lean ====
section
/-! PROOFS. What a WRITE of each word of the management window does (O45): which addresses name no word, which fields accept what is
written, and which words ignore it. -/

namespace Sys2Proof.Machine

open Sys2Proof

/-! ### The gaps of the window (R150) -/

/-- The addresses that name no word of their own. -/
theorem singleWord_none {a : Nat} (h : singleWord a = none) :
    0x0006 ≤ a ∧ (a < 0x0410 ∨ 0x041C ≤ a) ∧ (a < 0x0500 ∨ 0x0502 ≤ a) ∧ (a < 0x0604 ∨ 0x0606 ≤ a) ∧ a ≠ 0x0700 := by
  unfold singleWord at h
  split at h
  case h_24 =>
    simp only [imp_false] at *
    omega
  all_goals cases h

theorem blockOf_of_range {base a : Nat} (h : base ≤ a ∧ a < base + 128) :
    blockOf base a = some (⟨(a - base) / 16, by omega⟩, (a - base) % 16) := dif_pos h

theorem octetOf_none {base a : Nat} (h : octetOf base a = none) : ¬(base ≤ a ∧ a < base + 64) := fun inside => by
  rw [octetOf, dif_pos inside] at h
  cases h

theorem settingBlock_none {a : Nat} (h : settingBlock a = none) :
    ¬(0x0100 ≤ a ∧ a < 0x0180 ∧ a % 16 < 4) ∧ ¬(0x0200 ≤ a ∧ a < 0x0280 ∧ a % 16 < 2) := by
  unfold settingBlock at h
  constructor
  · rintro ⟨low, high, word⟩
    rw [blockOf_of_range ⟨low, high⟩] at h
    have offset : (a - 0x0100) % 16 < 4 := by omega
    generalize (a - 0x0100) % 16 = n at h offset
    interval_cases n <;> cases h
  · rintro ⟨low, high, word⟩
    have setting : blockOf 0x0100 a = none := dif_neg (by omega)
    rw [setting, blockOf_of_range ⟨low, high⟩] at h
    have offset : (a - 0x0200) % 16 < 2 := by omega
    generalize (a - 0x0200) % 16 = n at h offset
    interval_cases n <;> cases h

theorem counterBlock_none {a : Nat} (h : counterBlock a = none) :
    ¬(0x0710 ≤ a ∧ a < 0x0790) ∧ ¬(0x0810 ≤ a ∧ a < 0x0890) := by
  unfold counterBlock at h
  split at h
  · cases h
  have link := octetOf_none ‹_›
  split at h
  · cases h
  have client := octetOf_none ‹_›
  split at h
  · cases h
  have liveLink := octetOf_none ‹_›
  split at h
  · cases h
  have liveClient := octetOf_none ‹_›
  omega

/-- R150: the addresses outside the window. -/
theorem windowWord_none_iff (a : Half) : windowWord a = none ↔
    (0x0006 ≤ a.toNat ∧ a.toNat < 0x0100 ∨
      0x0100 ≤ a.toNat ∧ a.toNat < 0x0180 ∧ 4 ≤ a.toNat % 16 ∨ 0x0180 ≤ a.toNat ∧ a.toNat < 0x0200 ∨
      0x0200 ≤ a.toNat ∧ a.toNat < 0x0280 ∧ 2 ≤ a.toNat % 16 ∨ 0x0280 ≤ a.toNat ∧ a.toNat < 0x0400 ∨
      0x041C ≤ a.toNat ∧ a.toNat < 0x0500 ∨ 0x0502 ≤ a.toNat ∧ a.toNat < 0x0600 ∨ 0x060E ≤ a.toNat ∧ a.toNat < 0x0700 ∨
      0x0701 ≤ a.toNat ∧ a.toNat < 0x0710 ∨ 0x0790 ≤ a.toNat ∧ a.toNat < 0x0810 ∨ 0x0890 ≤ a.toNat) := by
  constructor
  · intro h
    unfold windowWord at h
    dsimp only at h
    split at h
    · cases h
    have single := singleWord_none ‹_›
    split_ifs at h
    split at h
    · cases h
    have setting := settingBlock_none ‹_›
    have counter := counterBlock_none h
    omega
  · intro gap
    refine Option.eq_none_iff_forall_ne_some.2 fun w word => ?_
    have := windowWord_range word
    omega

/-! ### Fields (R180) -/

theorem accept_notZero_eq {w : Nat} (old new : BitVec w) :
    accept notZero old new = if new = 0 then old else new := by
  by_cases zero : new = 0 <;> simp [accept, notZero, zero]

theorem accept_goodPeriod_eq (old new : BitVec 14) :
    accept goodPeriod old new = if 1 ≤ new.toNat ∧ new.toNat ≤ 10000 then new else old := by
  have range : goodPeriod new = true ↔ 1 ≤ new.toNat ∧ new.toNat ≤ 10000 := by
    rw [goodPeriod, Bool.and_eq_true, bne_iff_ne, decide_eq_true_iff, Nat.one_le_iff_ne_zero, ne_eq, ne_eq,
      ← BitVec.toNat_inj]
    rfl
  unfold accept
  simp only [range]

theorem accept_goodWaitQuota_eq (old new : BitVec 5) :
    accept goodWaitQuota old new = if new.toNat ≤ 16 then new else old := by
  simp [accept, goodWaitQuota]

theorem accept_goodStopBits_eq (old new : BitVec 2) :
    accept goodStopBits old new = if new = 1 ∨ new = 2 then new else old := by
  simp [accept, goodStopBits]

/-- R174: the wait low mark takes seven of the eight bits of its field. -/
theorem acceptWaitMark_eq (old : BitVec 7) (v : Word) : acceptWaitMark old (field v 8 8) =
    if (v.extractLsb' 8 8).toNat < 128 then v.extractLsb' 8 7 else old := by
  have low : (field v 8 8).setWidth 7 = v.extractLsb' 8 7 := by
    refine BitVec.eq_of_getLsbD_eq fun i hi => ?_
    simp [field, hi, show i < 8 by omega]
  unfold acceptWaitMark
  rw [low]
  rfl

/-! ### What is written (R150, R151) -/

section
variable {s : State} {a : Half} {v : Word} {w : WindowWord}

theorem exec_settingWrite (h : windowWord a = some w) : exec (.settingWrite a v) s = .next (s.writeWindow v w) := by
  show Host.Outcome.next (s.writeWord a v) = _
  unfold State.writeWord
  rw [h]

theorem exec_settingWrite_outside (h : windowWord a = none) : exec (.settingWrite a v) s = .next s := by
  show Host.Outcome.next (s.writeWord a v) = _
  unfold State.writeWord
  rw [h]

/-- The words that stand alone and take a write. -/
theorem writeWindow_singleWord {n : Nat} (h : singleWord n = some w) :
    s.writeWindow v w = s ∨ n ≤ 0x0003 ∨ n = 0x0005 ∨ n = 0x0500 ∨ n = 0x0501 ∨ n = 0x0604 := by
  unfold singleWord at h
  split at h
  case h_1 | h_2 | h_3 | h_4 | h_6 | h_19 | h_20 | h_21 => exact .inr (by decide)
  case h_24 => cases h
  all_goals
    cases h
    exact .inl rfl

/-- R165, R170: counters, snapshot and live, ignore a write. -/
theorem writeWindow_counterBlock {n : Nat} (h : counterBlock n = some w) : s.writeWindow v w = s := by
  unfold counterBlock at h
  split at h
  · cases h
    rfl
  split at h
  · cases h
    rfl
  split at h
  · cases h
    rfl
  split at h
  · cases h
    rfl
  · cases h

/-- R150: the hash seed, the status words, the results and the counters ignore a write. -/
theorem writeWindow_readOnly (h : windowWord a = some w)
    (readOnly : a.toNat = 0x0004 ∨ 0x0400 ≤ a.toNat ∧ a.toNat < 0x0500 ∨ 0x0605 ≤ a.toNat) : s.writeWindow v w = s := by
  unfold windowWord at h
  dsimp only at h
  split at h
  · cases h
    exact (writeWindow_singleWord ‹_›).resolve_right (by omega)
  split_ifs at h with status counts param result
  · cases h
    rfl
  · cases h
    rfl
  · omega
  · cases h
    rfl
  split at h
  · have := settingBlock_range ‹_›
    omega
  · exact writeWindow_counterBlock h

end

/-- Settles O45: the word that each address names, and the fields that its write accepts. -/
theorem settingIsWrittenFieldByField : Obligations.SettingIsWrittenFieldByField := by
  refine ⟨windowWord_none_iff, fun s v => ?_⟩
  have write : ∀ {a : Half} {w : WindowWord} {t : State}, windowWord a = some w → s.writeWindow v w = t →
      exec (.settingWrite a v) s = .next t := fun h e => (exec_settingWrite h).trans (congrArg _ e)
  refine ⟨write rfl ?_, write rfl ?_, write rfl rfl, write rfl rfl, write rfl ?_, fun c => ?_,
    fun i => write (windowWord_param i) rfl, fun a ignored => ?_⟩
  · rw [State.writeWindow, accept_goodPeriod_eq]
    rfl
  · rw [State.writeWindow, DeviceSettings.writeTerms, accept_notZero_eq, accept_notZero_eq]
    rfl
  · rw [State.writeWindow, DeviceSettings.writeMarks, acceptWaitMark_eq]
    rfl
  · obtain ⟨domains, limits, term, credits, -, line, -, -⟩ := windowWord_client c
    refine ⟨write domains rfl, write limits ?_, write term ?_, write credits ?_, write line ?_⟩
    · rw [State.writeWindow]
      refine modifySession_congr ?_
      rw [Session.writeLimits, accept_goodWaitQuota_eq]
      rfl
    · rw [State.writeWindow]
      refine modifySession_congr ?_
      rw [accept_notZero_eq]
      rfl
    · rw [State.writeWindow]
      refine modifySession_congr ?_
      rw [Session.writeCredits, accept_notZero_eq]
      rfl
    · rw [State.writeWindow]
      refine modifyLink_congr ?_
      rw [Link.writeLine, accept_goodStopBits_eq, accept_notZero_eq]
      rfl
  · cases named : windowWord a with
    | none => exact ⟨exec_settingWrite_outside named, fun _ => readWord_of_none (Option.eq_none_iff_forall_ne_some.1 named)⟩
    | some w =>
      refine ⟨write named (writeWindow_readOnly named ?_), nofun⟩
      rw [named] at ignored
      rcases ignored with rfl | status | high | outside
      · exact .inl rfl
      · exact .inr (.inl status)
      · exact .inr (.inr high)
      · cases outside

end Sys2Proof.Machine
end

