-- ==== Sys2Proof/Proofs/SpiBus.lean ====
section
/-! PROOFS. The SPI bus (O48): the bits of a field, the commands that a transaction gives bit by bit, and the port at one clock. A
transaction is cut into its header, its whole words and its rest; each piece gives its own commands. -/

namespace Sys2Proof.Machine

open Sys2Proof

/-! ### The bits of a field (R149) -/

theorem bitsToNat_append (bs : List Bool) (b : Bool) : bitsToNat (bs ++ [b]) = 2 * bitsToNat bs + b.toNat := by
  simp [bitsToNat]

/-- A number by its bits, the last of which is bit 0. -/
theorem testBit_bitsToNat (bs : List Bool) (i : Nat) : (bitsToNat bs).testBit i = bs.reverse.getD i false := by
  induction bs using List.reverseRecOn generalizing i with
  | nil => simp [bitsToNat]
  | append_singleton bs b ih =>
    rw [bitsToNat_append]
    cases i with
    | zero => cases b <;> simp
    | succ i =>
      have half : (2 * bitsToNat bs + b.toNat) / 2 = bitsToNat bs := by cases b <;> simp; omega
      rw [Nat.testBit_succ, half, ih]
      simp

@[simp] theorem length_msbFirst {w : Nat} (v : BitVec w) : (msbFirst v).length = w := by simp [msbFirst]

/-- R149: the bits of a field make its value again. -/
theorem bitsToNat_msbFirst {w : Nat} (v : BitVec w) : bitsToNat (msbFirst v) = v.toNat := by
  refine Nat.eq_of_testBit_eq fun i => ?_
  rw [testBit_bitsToNat, BitVec.testBit_toNat, List.getD_eq_getElem?_getD]
  by_cases inside : i < w
  · rw [List.getElem?_reverse (by simpa), length_msbFirst, msbFirst, List.getElem?_map,
      List.getElem?_eq_getElem (by simp; omega)]
    simp [BitVec.getMsbD, inside, show w - 1 - (w - 1 - i) = i by omega]
  · rw [List.getElem?_eq_none (by simpa using inside), BitVec.getLsbD_of_ge _ _ (not_lt.1 inside)]
    rfl

/-! ### The header of a transaction (R149) -/

section
variable {o : Byte} {a : Half} {data : List Bool}

/-- The opcode and the address on the bus. -/
def headerBits (o : Byte) (a : Half) : List Bool := msbFirst o ++ msbFirst a

theorem headerBits_eq (o : Byte) (a : Half) : msbFirst o ++ msbFirst a = headerBits o a := rfl

@[simp] theorem length_headerBits (o : Byte) (a : Half) : (headerBits o a).length = 24 := by simp [headerBits]

theorem spiHeader_short {bs : List Bool} (short : bs.length < 24) : spiHeader bs = none := if_pos short

theorem spiHeader_headerBits (o : Byte) (a : Half) (data : List Bool) :
    spiHeader (headerBits o a ++ data) = (SpiOpcode.ofCode o.toNat).map fun c => (c, a) := by
  have opcode : (headerBits o a ++ data).take 8 = msbFirst o := by
    rw [headerBits, List.append_assoc]
    exact List.take_left' (length_msbFirst o)
  have address : ((headerBits o a ++ data).drop 8).take 16 = msbFirst a := by
    rw [headerBits, List.append_assoc, List.drop_left' (length_msbFirst o)]
    exact List.take_left' (length_msbFirst a)
  rw [spiHeader, if_neg (by simp), opcode, address, bitsToNat_msbFirst, bitsToNat_msbFirst, BitVec.ofNat_toNat,
    BitVec.setWidth_eq]

/-- R149: an opcode that is neither READ nor WRITE. -/
theorem spiHeader_other (write : o ≠ 2) (read : o ≠ 3) : spiHeader (headerBits o a ++ data) = none := by
  have noRead : o.toNat ≠ 3 := fun e => read (BitVec.eq_of_toNat_eq e)
  have noWrite : o.toNat ≠ 2 := fun e => write (BitVec.eq_of_toNat_eq e)
  rw [spiHeader_headerBits, SpiOpcode.ofCode, if_neg noRead, if_neg noWrite]
  rfl

theorem spiHeader_write : spiHeader (headerBits 2 a ++ data) = some (.write, a) := spiHeader_headerBits ..

theorem spiHeader_read : spiHeader (headerBits 3 a ++ data) = some (.read, a) := spiHeader_headerBits ..

/-! ### One bit (R149) -/

/-- The commands of the two clocks of a bit, the last one of these: at its rising edge a word is written, at the falling edge
after it a word is taken. -/
def bitCommands (bs : List Bool) : List Instr :=
  (completedWrite bs).toList ++ (wordToTake bs).elim [] takeCommands

theorem bitCommands_of_no_header {bs : List Bool} (h : spiHeader bs = none) : bitCommands bs = [] := by
  simp [bitCommands, completedWrite, wordToTake, h]

/-- R149: a WRITE writes a word with its last bit. -/
theorem bitCommands_write_word {bits : List Bool} (whole : data.length % 32 = 0) (word : bits.length = 32) :
    bitCommands (headerBits 2 a ++ (data ++ bits)) =
      [writeCommand (wordAddress a (data.length / 32)) (BitVec.ofNat 32 (bitsToNat bits))] := by
  have length : (headerBits 2 a ++ (data ++ bits)).length = 24 + data.length + 32 := by
    simp [word, Nat.add_assoc]
  have last : (headerBits 2 a ++ (data ++ bits)).drop (24 + data.length + 32 - 32) = bits := by
    rw [← List.append_assoc]
    exact List.drop_left' (by simp)
  have index : (24 + data.length + 32 - 24) / 32 - 1 = data.length / 32 := by omega
  simp only [bitCommands, completedWrite, wordToTake, spiHeader_write, length, last, index]
  rw [if_pos (by omega)]
  rfl

/-- R149: before the last bit of a word nothing is written. -/
theorem bitCommands_write_partial (part : data.length % 32 ≠ 0) : bitCommands (headerBits 2 a ++ data) = [] := by
  have length : (headerBits 2 a ++ data).length - 24 = data.length := by simp
  simp only [bitCommands, completedWrite, wordToTake, spiHeader_write, length]
  rw [if_neg fun whole => part whole.2]
  rfl

/-- R149: the header of a WRITE completes no word. -/
theorem bitCommands_write_header (a : Half) : bitCommands (headerBits 2 a) = [] := by
  have header := spiHeader_write (a := a) (data := [])
  rw [List.append_nil] at header
  simp only [bitCommands, completedWrite, wordToTake, header, length_headerBits]
  rfl

/-- R149: a READ takes a word after the bit before its first one, and no other time. -/
theorem bitCommands_read : bitCommands (headerBits 3 a ++ data) =
    if data.length % 32 = 0 then takeCommands (wordAddress a (data.length / 32)) else [] := by
  have length : (headerBits 3 a ++ data).length - 24 = data.length := by simp
  simp only [bitCommands, completedWrite, wordToTake, spiHeader_read, length]
  split <;> rfl

/-! ### A run of bits -/

/-- The commands of the bits of a transaction that follow those seen so far. -/
def commandsAfter : List Bool → List Bool → List Instr
  | _, [] => []
  | seen, b :: bs => bitCommands (seen ++ [b]) ++ commandsAfter (seen ++ [b]) bs

theorem commandsAfter_append (seen xs ys : List Bool) :
    commandsAfter seen (xs ++ ys) = commandsAfter seen xs ++ commandsAfter (seen ++ xs) ys := by
  induction xs generalizing seen with
  | nil => simp [commandsAfter]
  | cons b xs ih => simp [commandsAfter, ih]

theorem commandsAfter_singleton (seen : List Bool) (b : Bool) : commandsAfter seen [b] = bitCommands (seen ++ [b]) := by
  simp [commandsAfter]

/-- Bits none of which gives a command. -/
theorem commandsAfter_eq_nil {seen bs : List Bool}
    (silent : ∀ xs, xs ≠ [] → xs.length ≤ bs.length → bitCommands (seen ++ xs) = []) : commandsAfter seen bs = [] := by
  induction bs using List.reverseRecOn with
  | nil => rfl
  | append_singleton bs b ih =>
    rw [commandsAfter_append, commandsAfter_singleton, List.append_assoc, silent _ (by simp) le_rfl,
      ih fun xs ne few => silent xs ne (by simp; omega)]
    rfl

/-- R149: a transaction over its clocks gives the commands of its bits and the one of its end. -/
theorem run_transaction (read : Half → Word) (p : Pins) (seen bs : List Bool) (taken : List Word) :
    (SpiLine.run read ⟨true, false, seen, taken⟩ ((bs.flatMap fun b =>
        [{ p with chipSelect := false, serialClock := true, dataIn := b },
          { p with chipSelect := false, serialClock := false, dataIn := b }]) ++
        [{ p with chipSelect := true, serialClock := false }])).2 =
      commandsAfter seen bs ++ [.fenceCounterLatch .selectRises] := by
  induction bs generalizing seen taken with
  | nil => rfl
  | cons b bs ih =>
    have rise : SpiLine.clock ⟨true, false, seen, taken⟩ true
        { p with chipSelect := false, serialClock := true, dataIn := b } read =
        (⟨true, true, seen ++ [b], taken⟩, (completedWrite (seen ++ [b])).toList) := rfl
    have fall : SpiLine.clock ⟨true, true, seen ++ [b], taken⟩ true
        { p with chipSelect := false, serialClock := false, dataIn := b } read =
        (⟨true, false, seen ++ [b], taken ++ ((wordToTake (seen ++ [b])).map read).toList⟩,
          (wordToTake (seen ++ [b])).elim [] takeCommands) := by
      simp only [SpiLine.clock]
      cases wordToTake (seen ++ [b]) <;> simp
    simp only [List.flatMap_cons, List.cons_append, List.nil_append, SpiLine.run, rise, fall, ih]
    simp [commandsAfter, bitCommands]

theorem transactionCommands_eq (read : Half → Word) (p : Pins) (bs : List Bool) :
    transactionCommands read p bs = commandsAfter [] bs ++ [.fenceCounterLatch .selectRises] :=
  run_transaction read { p with chipSelect := false, serialClock := false } [] bs []

/-! ### The commands of a transaction (R149, R180) -/

/-- R149: a transaction whose header is not complete gives none. -/
theorem commandsAfter_short {bs : List Bool} (short : bs.length < 24) : commandsAfter [] bs = [] :=
  commandsAfter_eq_nil fun _ _ few => bitCommands_of_no_header (spiHeader_short (few.trans_lt short))

/-- The first 24 bits give what the last of them gives. -/
theorem commandsAfter_headerBits (o : Byte) (a : Half) : commandsAfter [] (headerBits o a) = bitCommands (headerBits o a) := by
  have nonempty : headerBits o a ≠ [] := List.ne_nil_of_length_eq_add_one (length_headerBits o a)
  have cut := List.dropLast_concat_getLast nonempty
  rw [← cut, commandsAfter_append, commandsAfter_short (by simp), commandsAfter_singleton]
  rfl

/-- R149: under another opcode the port ignores the rest. -/
theorem commandsAfter_other (write : o ≠ 2) (read : o ≠ 3) : commandsAfter [] (headerBits o a ++ data) = [] := by
  have silent : ∀ xs, bitCommands (headerBits o a ++ xs) = [] := fun _ => bitCommands_of_no_header (spiHeader_other write read)
  have header := silent []
  rw [List.append_nil] at header
  rw [commandsAfter_append, commandsAfter_headerBits, header]
  exact commandsAfter_eq_nil fun xs _ _ => silent xs

/-- R149: a partial word of a WRITE is dropped. -/
theorem commandsAfter_write_partial {rest : List Bool} (whole : data.length % 32 = 0) (part : rest.length < 32) :
    commandsAfter (headerBits 2 a ++ data) rest = [] := by
  refine commandsAfter_eq_nil fun xs ne few => ?_
  have positive := List.length_pos_iff.2 ne
  rw [List.append_assoc]
  exact bitCommands_write_partial (by rw [List.length_append]; omega)

/-- R149: the 32 bits of a word of a WRITE. -/
theorem commandsAfter_write_word (whole : data.length % 32 = 0) (v : Word) :
    commandsAfter (headerBits 2 a ++ data) (msbFirst v) = [writeCommand (wordAddress a (data.length / 32)) v] := by
  have nonempty : msbFirst v ≠ [] := List.ne_nil_of_length_eq_add_one (length_msbFirst v)
  have cut := List.dropLast_concat_getLast nonempty
  have word := bitCommands_write_word (a := a) whole (length_msbFirst v)
  rw [bitsToNat_msbFirst, BitVec.ofNat_toNat, BitVec.setWidth_eq] at word
  rw [← word]
  conv_lhs => rw [← cut]
  rw [commandsAfter_append, commandsAfter_write_partial whole (by simp), commandsAfter_singleton, List.append_assoc,
    List.append_assoc, cut]
  rfl

theorem length_flatMap_msbFirst (vs : List Word) : (vs.flatMap msbFirst).length = 32 * vs.length := by
  induction vs with
  | nil => rfl
  | cons v vs ih => simp [ih]; omega

/-- R149: the words of a WRITE, one after the other. -/
theorem commandsAfter_write (a : Half) (vs : List Word) : commandsAfter [] (headerBits 2 a ++ vs.flatMap msbFirst) =
    vs.zipIdx.map fun q => writeCommand (wordAddress a q.2) q.1 := by
  induction vs using List.reverseRecOn with
  | nil =>
    rw [List.flatMap_nil, List.append_nil, commandsAfter_headerBits, bitCommands_write_header]
    rfl
  | append_singleton vs v ih =>
    have length := length_flatMap_msbFirst vs
    have index : (32 * vs.length) / 32 = vs.length := by omega
    rw [List.flatMap_append, List.flatMap_singleton, ← List.append_assoc, commandsAfter_append, ih, List.nil_append,
      commandsAfter_write_word (by omega), length, index, List.zipIdx_append]
    simp

/-- The words that a READ of so many data bits takes, as commands (R180). -/
theorem commandsAfter_read (a : Half) (data : List Bool) : commandsAfter [] (headerBits 3 a ++ data) =
    (List.range (data.length / 32 + 1)).flatMap fun n => takeCommands (wordAddress a n) := by
  induction data using List.reverseRecOn with
  | nil =>
    have first := bitCommands_read (a := a) (data := [])
    rw [List.append_nil] at first ⊢
    rw [commandsAfter_headerBits, first]
    simp
  | append_singleton data b ih =>
    rw [← List.append_assoc, commandsAfter_append, ih, List.nil_append, commandsAfter_singleton, List.append_assoc,
      bitCommands_read, List.length_append, List.length_singleton]
    by_cases next : (data.length + 1) % 32 = 0
    · have index : (data.length + 1) / 32 = data.length / 32 + 1 := by omega
      rw [if_pos next, index, List.range_succ (n := data.length / 32 + 1)]
      simp
    · have index : (data.length + 1) / 32 = data.length / 32 := by omega
      rw [if_neg next, index, List.append_nil]

end

/-! ### The fence counter's latch (R180) -/

theorem singleWord_fenceHigh {n : Nat} (h : singleWord n = some .fenceHigh) : n = 0x0412 := by
  unfold singleWord at h
  split at h <;> cases h
  rfl

theorem settingBlock_ne_fenceHigh (n : Nat) : settingBlock n ≠ some .fenceHigh := by
  unfold settingBlock
  split
  case h_6 => split <;> simp
  all_goals simp

theorem counterBlock_ne_fenceHigh (n : Nat) : counterBlock n ≠ some .fenceHigh := by
  unfold counterBlock
  repeat' split
  all_goals simp

/-- R180: only 0x0412 names the high word of the fence counter. -/
theorem windowWord_fenceHigh_iff (a : Half) : windowWord a = some .fenceHigh ↔ a = 0x0412 := by
  refine ⟨fun h => ?_, fun h => h ▸ rfl⟩
  unfold windowWord at h
  dsimp only at h
  split at h
  · cases h
    exact BitVec.eq_of_toNat_eq (singleWord_fenceHigh ‹_›)
  · split_ifs at h
    case neg =>
      split at h
      · cases h
        exact absurd ‹_› (settingBlock_ne_fenceHigh _)
      · exact absurd h (counterBlock_ne_fenceHigh _)
    all_goals cases h

theorem flatMap_takeCommands (a : Half) (ns : List Nat) : ns.flatMap (fun n => takeCommands (wordAddress a n)) =
    (ns.filter fun n => a + BitVec.ofNat 16 n == 0x0412).map fun _ => .fenceCounterLatch .readHigh := by
  induction ns with
  | nil => rfl
  | cons n ns ih =>
    rw [List.flatMap_cons, ih, takeCommands, wordAddress, List.filter_cons]
    simp only [windowWord_fenceHigh_iff, beq_iff_eq]
    split <;> rfl

/-- Log 5: the row of a written word has the effect of the write. -/
theorem exec_writeCommand (a : Half) (v : Word) (s : State) : exec (writeCommand a v) s = exec (.settingWrite a v) s := by
  unfold writeCommand
  split
  · exact (exec_settingWrite ‹_›).symm
  · exact (exec_settingWrite ‹_›).symm
  · rw [exec_settingWrite ‹_›, State.writeWindow, State.writeLinkEnable]
    split <;> rfl
  · rfl

/-! ### A clock of the port, and the data output (R149) -/

section
variable {x : SpiLine} {o : Byte} {a : Half} {data : List Bool}

/-- R149: a port that has not seen chip select high. -/
theorem clock_unseen (x : SpiLine) {p : Pins} (read : Half → Word) (low : p.chipSelect = false) :
    x.clock false p read = (⟨false, p.serialClock, [], []⟩, []) := by
  simp [SpiLine.clock, low]

/-- R149: the falling edge after which a word's first bit is shifted out. -/
theorem clock_takes {p : Pins} (read : Half → Word) (selected : x.selected = true) (low : p.chipSelect = false)
    (falls : p.serialClock = false) (high : x.clockLevel = true) (bits : x.bits = headerBits 3 a ++ data)
    (whole : data.length % 32 = 0) : (x.clock true p read).1 =
      { x with clockLevel := false, taken := x.taken ++ [read (wordAddress a (data.length / 32))] } := by
  have length : (headerBits 3 a ++ data).length - 24 = data.length := by simp
  have take : wordToTake (headerBits 3 a ++ data) = some (wordAddress a (data.length / 32)) := by
    simp only [wordToTake, spiHeader_read, length]
    exact if_pos whole
  simp only [SpiLine.clock, selected, low, falls, high, bits, take]
  simp

theorem output_unselected (h : x.selected = false) : x.output = none := if_pos h

/-- R149: the output is 0 in the opcode and the address, and under an opcode that is neither. -/
theorem output_of_no_header (selected : x.selected = true) (h : spiHeader x.bits = none) : x.output = some false := by
  unfold SpiLine.output
  rw [h, selected]
  exact ite_self _

/-- R149: the word's bits, from the most significant one. -/
theorem output_read (selected : x.selected = true) (low : x.clockLevel = false) (bits : x.bits = headerBits 3 a ++ data) :
    x.output = some ((x.taken.getD (data.length / 32) 0).getLsbD (31 - data.length % 32)) := by
  have shifted : x.shifted = 24 + data.length := by simp [SpiLine.shifted, low, bits]
  have late : ¬24 + data.length < 24 := by omega
  simp only [SpiLine.output, selected, shifted, bits, spiHeader_read, late, if_false, Nat.add_sub_cancel_left]
  rfl

end

/-- Settles O48: the commands of a transaction piece by piece, then the port at a clock, its output, and the latch. -/
theorem spiTransactionGivesItsCommands : Obligations.SpiTransactionGivesItsCommands := by
  refine ⟨fun read p a vs rest part => ?_, fun read p a data => ?_, fun read p o a bs => ⟨fun short => ?_, fun write noRead => ?_⟩,
    fun x read p low => ?_, fun x read p o a data selected bits => ⟨?_, ?_, ?_⟩, fun x selected short => ?_,
    fun s => ⟨fun a v => exec_writeCommand a v s, rfl, rfl, readWord_of_some (w := .fenceLow) rfl⟩⟩
  · have whole : (vs.flatMap msbFirst).length % 32 = 0 := by rw [length_flatMap_msbFirst]; omega
    rw [transactionCommands_eq, headerBits_eq, commandsAfter_append, commandsAfter_write, List.nil_append,
      commandsAfter_write_partial whole part, List.append_nil]
    rfl
  · rw [transactionCommands_eq, headerBits_eq, commandsAfter_read, flatMap_takeCommands]
  · rw [transactionCommands_eq, commandsAfter_short short, List.nil_append]
  · rw [transactionCommands_eq, headerBits_eq, commandsAfter_other write noRead, List.nil_append]
  · rw [clock_unseen x read low]
    exact ⟨rfl, rfl, output_unselected rfl⟩
  · rintro low falls high rfl whole
    exact clock_takes read selected low falls high bits whole
  · rintro low rfl
    exact output_read selected low bits
  · intro write noRead
    exact output_of_no_header selected (bits ▸ spiHeader_other write noRead)
  · exact output_of_no_header selected (spiHeader_short short)

end Sys2Proof.Machine
end

