-- ==== Sys2Proof/Proofs/Mailbox.lean ====
section
/-! PROOFS. The flags, the enables and INT; the command word and the completion of a command (O46). -/

namespace Sys2Proof.Machine

open Sys2Proof

/-! ### Flags and INT (R173, R175) -/

/-- Formats: a flag's mask has the flag's bit alone. -/
theorem mask_eq (f : EventFlag) : f.mask = BitVec.ofNat 9 (2 ^ f.bit) := by cases f <;> rfl

/-- Formats: each bit of the flags word is a flag. -/
theorem exists_flag_of_bit : ∀ i : Fin 9, ∃ f : EventFlag, f.bit = i.val
  | 0 => ⟨.adminDone, rfl⟩
  | 1 => ⟨.adminRefused, rfl⟩
  | 2 => ⟨.purgeDone, rfl⟩
  | 3 => ⟨.holdPoolLow, rfl⟩
  | 4 => ⟨.waitPoolLow, rfl⟩
  | 5 => ⟨.bucketFull, rfl⟩
  | 6 => ⟨.noticeLoss, rfl⟩
  | 7 => ⟨.linkDiscard, rfl⟩
  | 8 => ⟨.fenceExhausted, rfl⟩

/-- R173: the flags stand in the low bits of the word written. -/
theorem setWidth_nine (v : Word) : v.setWidth 9 = v.extractLsb' 0 9 := BitVec.setWidth_eq_extractLsb' (by decide)

/-- R175: a flag is set that has its enable set. -/
theorem intActive_iff (s : State) :
    s.intActive = true ↔ ∃ f : EventFlag, s.flags.getLsbD f.bit = true ∧ s.enables.getLsbD f.bit = true := by
  rw [State.intActive, bne_iff_ne]
  constructor
  · intro active
    obtain ⟨i, hi, bit⟩ : ∃ i, i < 9 ∧ (s.flags &&& s.enables).getLsbD i ≠ (0 : BitVec 9).getLsbD i := by
      by_contra same
      push Not at same
      exact active (BitVec.eq_of_getLsbD_eq same)
    obtain ⟨f, hf⟩ := exists_flag_of_bit ⟨i, hi⟩
    refine ⟨f, ?_⟩
    rw [hf]
    simpa using bit
  · rintro ⟨f, flag, enable⟩ inactive
    have bit := congrArg (fun word => word.getLsbD f.bit) inactive
    simp [flag, enable] at bit

/-! ### The command word (R153, R154, R181) -/

theorem AdminCommand.ofCode_code (c : AdminCommand) : AdminCommand.ofCode c.code = some c := by cases c <;> rfl

theorem AdminCommand.code_range (c : AdminCommand) : 1 ≤ c.code.toNat ∧ c.code.toNat ≤ 0x0E := by cases c <;> decide

/-- R181: a code that names no command. -/
theorem AdminCommand.ofCode_eq_none {b : Byte} (h : b = 0 ∨ 0x0E < b.toNat) : AdminCommand.ofCode b = none := by
  refine List.find?_eq_none.2 fun c _ named => ?_
  obtain rfl : c.code = b := by simpa using named
  obtain ⟨low, high⟩ := c.code_range
  rcases h with zero | beyond
  · rw [zero] at low
    exact absurd low (by decide)
  · omega

section
variable {s : State} {v : Word}

/-- R154: a command while the engine is IDLE. -/
theorem writeCommand_accepted {c : AdminCommand} (idle : s.admin.busy = .idle) (code : v.extractLsb' 0 8 = c.code) :
    s.writeCommand v = s.setAdmin { s.admin with command := c.code, busy := .pending c s.admin.params } := by
  unfold State.writeCommand
  simp only [idle, field, code, c.ofCode_code]
  rfl

/-- R181, log 19: the command word takes a code that names no command. -/
theorem writeCommand_unnamed (idle : s.admin.busy = .idle)
    (code : v.extractLsb' 0 8 = 0 ∨ 0x0E < (v.extractLsb' 0 8).toNat) :
    s.writeCommand v = (s.setAdmin { s.admin with command := v.extractLsb' 0 8 }).complete .badParameter [] := by
  unfold State.writeCommand
  simp only [idle, field, AdminCommand.ofCode_eq_none code]

/-- R154: a command while the engine is busy. -/
theorem writeCommand_refused (busy : s.admin.busy ≠ .idle) : s.writeCommand v = s.raise .adminRefused := by
  unfold State.writeCommand
  split
  · exact absurd ‹_› busy
  · rfl
  · rfl

theorem exec_command : exec (.settingWrite 0x0604 v) s = .next (s.writeCommand v) := exec_settingWrite (w := .command) rfl

end

/-- Settles O46: the flags and INT, the three outcomes of a write of the command word, the completion, and the numbers. -/
theorem flagsInterruptAndCommandWord : Obligations.FlagsInterruptAndCommandWord := by
  refine ⟨fun s => ⟨fun v => ?_, fun v => ?_, fun f => ?_, intActive_iff s, rfl, ?_⟩, fun s v c idle code => ?_,
    fun s v idle code => ?_, fun s v busy => ?_, fun s code ws => rfl, ?_, ?_, ?_⟩
  · rw [← setWidth_nine]
    rfl
  · rw [← setWidth_nine]
    rfl
  · rw [← mask_eq]
    rfl
  · exact (readWord_of_some (w := .interrupt) rfl).trans (boolAt_zero _)
  · rw [exec_command, writeCommand_accepted idle code]
  · rw [exec_command, writeCommand_unnamed idle code]
  · rw [exec_command, writeCommand_refused busy]
  all_goals decide

end Sys2Proof.Machine
end

