-- ==== Sys2Proof/Proofs/AdminClaims.lean ====
section
/-! PROOFS. The commands of the manager that end claims and change sessions: REMOVE RECORD, REMOVE DOMAIN and its walk (O50), REVOKE
HOLD and CANCEL WAIT (O51), SET CLIENT STATE (O53). -/

namespace Sys2Proof.Machine

open Sys2Proof

/-! ### The domain walk (R157, R158) -/

section
variable {s : State} {k : DomainWalk}

theorem advanceWalk_of_lt (h : k.next.val + 1 < 1024) : s.advanceWalk k =
    s.setAdmin { s.admin with busy := .walking { k with next := ⟨k.next.val + 1, h⟩ } } := dif_pos h

/-- R158: the walk ends after slot 1023. -/
theorem advanceWalk_of_last (h : k.next = 1023) : s.advanceWalk k = (s.setMark k.domain false).complete .done
    [k.domain.setWidth 32, BitVec.ofNat 32 k.records, BitVec.ofNat 32 k.holds, BitVec.ofNat 32 k.waits] := by
  have last : ¬k.next.val + 1 < 1024 := by rw [h]; decide
  rw [State.advanceWalk, dif_neg last]
  simp only [bitsAt_zero, natAt_zero]

/-- R157: the record in the walk's slot is of the domain. -/
theorem walkStep_of_mem {x : Record} (hx : s.record k.next = some x) (domain : domainOf x.key = k.domain) :
    s.walkStep k = (s.removeClaims k.next x).advanceWalk (k.add x) := by
  unfold State.walkStep
  simp only [hx, domain, if_true]

/-- R157: the walk's slot has no record of the domain. -/
theorem walkStep_of_not_mem (other : ∀ x, s.record k.next = some x → domainOf x.key ≠ k.domain) :
    s.walkStep k = s.advanceWalk k := by
  unfold State.walkStep
  split
  · exact if_neg (other _ ‹_›)
  · rfl

/-- R157: the first step of a walk, on a record of the domain in slot 0. -/
theorem beginWalk_of_mem {d : BitVec 4} {x : Record} (hx : s.record 0 = some x) (domain : domainOf x.key = d) {t : State}
    (ht : t = (s.setMark d true).removeClaims 0 x) : s.beginWalk d =
      t.setAdmin { t.admin with busy := .walking ⟨d, 1, 1, x.holders.length, x.waitQueue.length⟩ } := by
  have step := walkStep_of_mem (s := s.setMark d true) (k := ⟨d, 0, 0, 0, 0⟩) hx domain
  rw [State.beginWalk, step, ← ht, advanceWalk_of_lt (by decide : (0 : Slot).val + 1 < 1024)]
  simp [DomainWalk.add]

/-- R157: the first step of a walk when slot 0 has no record of the domain. -/
theorem beginWalk_of_not_mem {d : BitVec 4} (other : ∀ x, s.record 0 = some x → domainOf x.key ≠ d) {u : State}
    (hu : u = s.setMark d true) : s.beginWalk d = u.setAdmin { u.admin with busy := .walking ⟨d, 1, 0, 0, 0⟩ } := by
  have step := walkStep_of_not_mem (s := s.setMark d true) (k := ⟨d, 0, 0, 0, 0⟩) other
  rw [State.beginWalk, step, ← hu, advanceWalk_of_lt (by decide : (0 : Slot).val + 1 < 1024)]
  rfl

theorem exec_domainWalkStep (walking : s.admin.busy = .walking k) : exec .domainWalkStep s = .next (s.walkStep k) := by
  simp only [exec, execDomainWalkStep, walking]

theorem exec_removeDomain {p : Vector Word 4} (h : Awaits s .removeDomain p) (good : p[0].toNat ≤ 15) :
    exec .removeDomain s = .next (s.beginWalk (p[0].extractLsb' 0 4)) := by
  simp only [exec, execRemoveDomain, takeCommand_of_awaits _ h]
  rw [if_neg (by omega)]
  rfl

end

/-- Settles O50: the removal of a record, and the walk by whether its slot has a record of the domain. -/
theorem removeRecordAndDomain : Obligations.RemoveRecordAndDomain := by
  refine ⟨fun s r x => rfl, fun s p h => ?_, fun s p h => ⟨fun bad => ?_, ?_⟩, fun s t k n walking step => ?_⟩
  · have row : exec .removeRecord s = .next (s.remove p) := by
      simp only [exec, execRemoveRecord, takeCommand_of_awaits _ h]
    rw [row]
    unfold State.remove
    exact ⟨fun hl => by simp only [hl], fun r x hl hx => by simp only [hl, hx, natAt_zero]⟩
  · simp only [exec, execRemoveDomain, takeCommand_of_awaits _ h]
    rw [if_pos bad]
  · rintro d u good rfl hu
    rw [exec_removeDomain h good]
    exact ⟨fun x t hx domain ht => congrArg _ (beginWalk_of_mem hx domain (hu ▸ ht)),
      fun other => congrArg _ (beginWalk_of_not_mem other hu)⟩
  · have advance : s.walkStep k = t.advanceWalk n ∧ n.next = k.next ∧ n.domain = k.domain := by
      rcases step with ⟨x, hx, domain, rfl, rfl⟩ | ⟨other, rfl, rfl⟩
      · exact ⟨walkStep_of_mem hx domain, rfl, rfl⟩
      · exact ⟨walkStep_of_not_mem other, rfl, rfl⟩
    obtain ⟨step, next, domain⟩ := advance
    rw [exec_domainWalkStep walking, step, ← next, ← domain]
    exact ⟨fun more => by rw [advanceWalk_of_lt more], fun last => by rw [advanceWalk_of_last last]⟩

/-! ### REVOKE HOLD and CANCEL WAIT (R160, R161) -/

section
variable {s : State} {b g : Byte}

theorem namedHold_eq_none (h : ∀ i : HoldIx, b.toNat = i.val → s.hold i = none ∨ (s.holdSlot i).generation ≠ g) :
    s.namedHold b g = none := by
  refine Option.eq_none_iff_forall_ne_some.2 fun ⟨i, x⟩ named => ?_
  obtain ⟨index, used, generation⟩ := namedHold_eq_some.1 named
  rcases h i index with free | stale
  · rw [free] at used
    cases used
  · exact stale generation

theorem namedWait_eq_none (h : ∀ w : WaitIx, b.toNat = w.val → s.wait w = none ∨ (s.waitSlot w).generation ≠ g) :
    s.namedWait b g = none := by
  refine Option.eq_none_iff_forall_ne_some.2 fun ⟨w, y⟩ named => ?_
  obtain ⟨index, used, generation⟩ := namedWait_eq_some.1 named
  rcases h w index with free | stale
  · rw [free] at used
    cases used
  · exact stale generation

end

/-- Formats: the conversion of a hold as a result word. -/
theorem conversion_word (v : Option WaitHandle) : bitsAt 0 (boolCode v.isSome) = if v = none then 0 else 1 := by
  cases v <;> simp [boolCode]

/-- Formats: the purpose of a wait as a result word. -/
theorem purpose_word (a : Purpose) : bitsAt 0 a.code = if a = .new then 0 else 1 := by
  cases a <;> simp [Purpose.code]

/-- Settles O51: the handle names a claim, which ends, or it names none. -/
theorem revokeHoldAndCancelWait : Obligations.RevokeHoldAndCancelWait := by
  refine ⟨fun s p h => ?_, fun s p h => ?_⟩
  · have row : exec .revokeHold s = .next (s.revoke p) := by
      simp only [exec, execRevokeHold, takeCommand_of_awaits _ h]
    rw [row]
    unfold State.revoke
    refine ⟨fun i x index used generation => ?_, fun unfit => ?_⟩
    · have named : s.namedHold (field p[0] 8 8) (field p[0] 0 8) = some (i, x) := namedHold_eq_some.2 ⟨index, used, generation⟩
      simp only [named, conversion_word, natAt_zero]
      rfl
    · have unnamed : s.namedHold (field p[0] 8 8) (field p[0] 0 8) = none := namedHold_eq_none unfit
      simp only [unnamed]
  · have row : exec .cancelWait s = .next (s.cancelByManager p) := by
      simp only [exec, execCancelWait, takeCommand_of_awaits _ h]
    rw [row]
    unfold State.cancelByManager
    refine ⟨fun w y index used generation => ?_, fun unfit => ?_⟩
    · have named : s.namedWait (field p[0] 8 8) (field p[0] 0 8) = some (w, y) := namedWait_eq_some.2 ⟨index, used, generation⟩
      simp only [named, purpose_word, natAt_zero]
      rfl
    · have unnamed : s.namedWait (field p[0] 8 8) (field p[0] 0 8) = none := namedWait_eq_none unfit
      simp only [unnamed]

/-! ### SET CLIENT STATE (R81, R164) -/

/-- R181: the actions have the numbers 1 to 5. -/
theorem ClientAction.ofWord_eq_none {v : Word} (h : v = 0 ∨ 5 < v.toNat) : ClientAction.ofWord v = none := by
  have other : ∀ n : Word, 1 ≤ n.toNat → n.toNat ≤ 5 → v ≠ n := by
    rintro n low high rfl
    rcases h with rfl | beyond
    · exact absurd low (by decide)
    · omega
  unfold ClientAction.ofWord
  rw [if_neg (other 1 (by decide) (by decide)), if_neg (other 2 (by decide) (by decide)),
    if_neg (other 3 (by decide) (by decide)), if_neg (other 4 (by decide) (by decide)),
    if_neg (other 5 (by decide) (by decide))]

section
variable {s : State} {p : Vector Word 4} {c : Client} {a : ClientAction}

/-- R81: only a BARRED client is unbarred. -/
theorem applyAction_unbar_eq_none (h : (s.session c).state ≠ .barred) : s.applyAction c .unbar = none := by
  cases hs : (s.session c).state with
  | barred => exact absurd hs h
  | detached | active | queryOnly | purging => simp only [State.applyAction, hs]

theorem exec_setClientState (h : Awaits s .setClientState p) : exec .setClientState s = .next (s.setClient p) := by
  simp only [exec, execSetClientState, takeCommand_of_awaits _ h]

theorem setClient_badParameter (h : 7 < p[0].toNat ∨ p[1] = 0 ∨ 5 < p[1].toNat) :
    s.setClient p = s.complete .badParameter [] := by
  unfold State.setClient
  split
  · rw [ClientAction.ofWord_eq_none (h.resolve_left (by omega))]
  · rfl

theorem setClient_eq (client : p[0].toNat = c.val) (action : ClientAction.ofWord p[1] = some a) :
    s.setClient p = (s.applyAction c a).elim (s.complete .badState (s.clientStateWords c))
      fun t => t.complete .done (t.clientStateWords c) := by
  have index : p[0].toNat < 8 := client ▸ c.isLt
  have same : (⟨p[0].toNat, index⟩ : Client) = c := Fin.ext client
  unfold State.setClient
  rw [dif_pos index, same]
  simp only [action]
  cases s.applyAction c a <;> rfl

end

/-- R164: the words of the state and of the after-purge state. -/
theorem clientStateWords_eq (s : State) (c : Client) : s.clientStateWords c =
    [(s.session c).state.code.setWidth 32, (afterPurgeCode (s.session c).afterPurge).setWidth 32] := by
  simp only [State.clientStateWords, bitsAt_zero]

/-- Settles O53: the parameters name a client and an action, and the table of R81 gives the outcome. -/
theorem setClientStateFollowsTheTable : Obligations.SetClientStateFollowsTheTable := by
  refine fun s p h => ⟨fun bad => ?_, fun c state client hs => ?_⟩
  · rw [exec_setClientState h, setClient_badParameter bad]
  have done : ∀ {a t}, ClientAction.ofWord p[1] = some a → s.applyAction c a = some t → exec .setClientState s =
      .next (t.complete .done
        [(t.session c).state.code.setWidth 32, (afterPurgeCode (t.session c).afterPurge).setWidth 32]) := by
    intro a t action applies
    rw [exec_setClientState h, setClient_eq client action, applies, Option.elim_some, clientStateWords_eq]
  have badState : ∀ {a}, ClientAction.ofWord p[1] = some a → s.applyAction c a = none → exec .setClientState s =
      .next (s.complete .badState
        [state.code.setWidth 32, (afterPurgeCode (s.session c).afterPurge).setWidth 32]) := by
    intro a action refuses
    rw [exec_setClientState h, setClient_eq client action, refuses, Option.elim_none, clientStateWords_eq, hs]
  have action : ∀ {n a}, p[1] = n → ClientAction.ofWord n = some a → ClientAction.ofWord p[1] = some a :=
    fun e named => e ▸ named
  refine ⟨fun t outcome => ?_, fun refused => ?_⟩
  · rcases outcome with ⟨e, rfl, rfl⟩ | ⟨e, rfl, rfl⟩ | ⟨e, rfl, rfl⟩ | ⟨e, rfl, rfl⟩ | ⟨e, rfl | rfl, rfl⟩ | ⟨e, rfl, rfl⟩ |
      ⟨e, rfl, rfl⟩ | ⟨e, rfl, rfl⟩ | ⟨e, rfl | rfl, rfl⟩
    all_goals exact done (action e rfl) (by simp only [State.applyAction, hs])
  · rcases refused with change | ⟨e, rfl⟩ | ⟨e, other⟩ | purge
    · rcases change with ⟨e | e, rfl | rfl | rfl⟩
      all_goals exact badState (action e rfl) (by simp only [State.applyAction, hs])
    · exact badState (action e rfl) (by simp only [State.applyAction, hs])
    · exact badState (action e rfl) (applyAction_unbar_eq_none (hs ▸ other))
    · rcases purge with ⟨e, rfl | rfl | rfl⟩
      all_goals exact badState (action e rfl) (by simp only [State.applyAction, hs])

end Sys2Proof.Machine
end
